-- ==== Sys2Proof/Word.lean ====
section
/-! DEFINITION. The register word. All register values are unsigned 32-bit integers, bit 0 the least significant
(00_scope.md R15). -/

namespace Sys2Proof

/-- A register value: unsigned 32 bits (00_scope.md R15). -/
abbrev Word := BitVec 32

end Sys2Proof
end

