-- ==== Sys2Proof/Config.lean ====
section
/-! DEFINITION. What an implementation fixes: the construction parameters of every kind of controller (00_scope.md R9 to
R14), the platform they form, the value an unhandled read returns, and the one value the spec leaves open, `vicTie`. -/

namespace Sys2Proof

/-- Parameters of a PLIC-style controller (00_scope.md R10). -/
structure PlicParams where
  numSources : Nat
  numTargets : Nat
  prioritiesEnabled : Bool
  deriving DecidableEq, Repr

/-- Parameters of a VIC-style controller (00_scope.md R11): the line and slot counts are fixed, so the one parameter is
which rule orders equal keys. `tie` names the rule; the rule itself is `Config.vicTie tie`. -/
structure VicParams where
  tie : Nat
  deriving DecidableEq, Repr

/-- Parameters of an EXTI-style controller (00_scope.md R12). -/
structure ExtiParams where
  numLines : Nat
  configurableMask : Word
  treatNonconfigAsDirect : Bool
  directIgnoresMask : Bool
  deriving DecidableEq, Repr

/-- Parameters of an INTMUX-style controller (00_scope.md R13). -/
structure MuxParams where
  numChannels : Nat
  muxSources : Nat
  deriving DecidableEq, Repr

/-- The parameters of one controller, which also say what kind it is (00_scope.md R2, R23). -/
inductive CtrlParams where
  | plic (p : PlicParams)
  | vic (p : VicParams)
  | exti (p : ExtiParams)
  | intmux (p : MuxParams)
  deriving DecidableEq, Repr

/-- The constant part of a platform that decoding an event needs: the controllers' parameters, in instance order, and
how many external Signal Lines there are. -/
structure Platform where
  ctrls : List CtrlParams
  numLines : Nat
  deriving DecidableEq, Repr

/-- An entry `(line, key)` of the VIC's queue or stack (10_state.md R41). -/
structure VicEntry where
  line : Nat
  key : Nat
  deriving DecidableEq, Repr

namespace Config

/-- The key of an unvectored VIC line, `INT_MAX` (10_state.md R40). -/
def intMax : Nat := 2147483647

/-- The number of VIC lines (00_scope.md R11). -/
def vicLines : Nat := 32

/-- The number of VIC vector slots (00_scope.md R11). -/
def vicSlots : Nat := 16

/-- `UNHANDLED_READ_VALUE`, which the spec fixes at 0 (00_scope.md R14, 20_memory.md R79). -/
def unhandledReadValue : Word := 0

/-- FREE VALUE (log entry 3). `vicTie` of 42_vic.md R219: among the admissible insertion positions of a new entry into a
queue that already holds entries of the same key, the one taken. The spec leaves it open, deterministic in its arguments
and no more; it has no body here, so nothing proved can depend on its value. The first argument is the instance's
`VicParams.tie`. -/
opaque vicTie : Nat → List VicEntry → VicEntry → Nat

end Config

/-- The name of the first parameter that violates 00_scope.md R10, if any. DESIGN CHOICE (log entry 33): of several invalid
parameters `ConfigInvalid` records the first in the order in which 00_scope.md lists them, here `NUM_SOURCES` before
`NUM_TARGETS`; 60_exceptions.md R362 gives no order of the checks. -/
def PlicParams.firstInvalid (p : PlicParams) : Option String :=
  if p.numSources < 2 ∨ 1024 < p.numSources then some "NUM_SOURCES"
  else if p.numTargets < 1 ∨ 15872 < p.numTargets then some "NUM_TARGETS"
  else none

/-- The name of the first parameter that violates 00_scope.md R12, if any: `NUM_LINES` before `LINE_CONFIGURABLE_MASK`, DESIGN
CHOICE (log entry 33). -/
def ExtiParams.firstInvalid (p : ExtiParams) : Option String :=
  if p.numLines < 1 ∨ 32 < p.numLines then some "NUM_LINES"
  else if 2 ^ p.numLines ≤ p.configurableMask.toNat then some "LINE_CONFIGURABLE_MASK"
  else none

/-- The name of the first parameter that violates 00_scope.md R13, if any: `NUM_CHANNELS` before `MUX_SOURCES`, DESIGN CHOICE (log
entry 33). -/
def MuxParams.firstInvalid (p : MuxParams) : Option String :=
  if p.numChannels < 1 then some "NUM_CHANNELS"
  else if p.muxSources < 1 ∨ 32 < p.muxSources then some "MUX_SOURCES"
  else none

/-- The name of the first invalid parameter of a controller, if any: a configuration error (00_scope.md R9,
60_exceptions.md R362). Which one it names when several are invalid is a DESIGN CHOICE (log entry 33). A VIC has none that could
be invalid (R11). -/
def CtrlParams.firstInvalid : CtrlParams → Option String
  | .plic p => p.firstInvalid
  | .vic _ => none
  | .exti p => p.firstInvalid
  | .intmux p => p.firstInvalid

/-- The parameters satisfy 00_scope.md R10 to R13. -/
def CtrlParams.valid (p : CtrlParams) : Bool := p.firstInvalid.isNone

/-- How many output Signal Lines a controller has: the Connections indices `0 .. n-1` (10_state.md R32, R42, R52,
R61). -/
def CtrlParams.numOutputs : CtrlParams → Nat
  | .plic p => p.numTargets
  | .vic _ => 2
  | .exti p => p.numLines
  | .intmux p => p.numChannels

/-- `Size`, the footprint of the register window in bytes (20_memory.md R71). -/
def CtrlParams.size : CtrlParams → Nat
  | .plic _ => 0x4000000
  | .vic _ => 0x1000
  | .exti _ => 0x400
  | .intmux p => 0x40 * p.numChannels

/-- The platform of `State.reset` (log entry 2, DESIGN CHOICE): one controller of each kind, with the parameters that
95_test_vectors.md gives its example instances, and one external line. -/
def Config.resetPlatform : Platform where
  ctrls :=
    [ .plic { numSources := 4, numTargets := 1, prioritiesEnabled := true },
      .vic { tie := 0 },
      .exti { numLines := 16, configurableMask := 0x00FF, treatNonconfigAsDirect := true,
              directIgnoresMask := false },
      .intmux { numChannels := 2, muxSources := 32 } ]
  numLines := 1

end Sys2Proof
end

