-- ==== Sys2Proof/Syntax.lean ====
section
/-! DEFINITION. The syntax: the event tuples of 30_encoding.md R100, and the instructions, one constructor per row of
spec/opcode_table.json. `c` always names a controller instance, `L` a Signal Line, `v` a value written or a level. -/

namespace Sys2Proof

/-- A name of a Signal Line: an external line owned by a peripheral, or output `i` (Connections index) of controller `c`
(10_state.md R26). -/
inductive LineRef where
  | ext (k : Nat)
  | out (c i : Nat)
  deriving DecidableEq, Repr

/-- What agents deliver: the seven event formats of 30_encoding.md R100, each a tuple, and the system reset. `memRead c off 4`
is `BUS_RD32` and `memWrite c off 4 v` is `BUS_WR32`; the byte count is kept because narrower accesses exist at the interface
and are refused (20_memory.md R73, R74). `systemReset order` is no format of R100 and no instruction: it is the agent of
00_scope.md R18 (c), which invokes `Reset()` on every controller, here in the order given (70_reset_and_hazards.md R405; log
entry 34). -/
inductive Event where
  | evGpio (c : Nat) (n : Int) (v : Bool)
  | memRead (c off bytes : Nat)
  | memWrite (c off bytes : Nat) (v : Word)
  | evReset (c : Nat)
  | slSet (L : LineRef) (v : Bool)
  | slBlink (L : LineRef)
  | slQuery (L : LineRef)
  | systemReset (order : List Nat)
  deriving DecidableEq, Repr

/-- The instructions: one constructor per row of spec/opcode_table.json. -/
inductive Instr where
  /-- `SL.Set`: `L.Set(v)` by the owner of `L` (40_signal_line.md R141). -/
  | slSet (L : LineRef) (v : Bool)
  /-- `SL.SetTrue`: `L.Set()`, which is `L.Set(true)` (R142). -/
  | slSetTrue (L : LineRef)
  /-- `SL.Unset`: `L.Unset()`, which is `L.Set(false)` (R142). -/
  | slUnset (L : LineRef)
  /-- `SL.Blink`: `L.Blink()` (R144). -/
  | slBlink (L : LineRef)
  /-- `SL.Query`: level query (R145). -/
  | slQuery (L : LineRef)
  /-- `PLIC.OnGPIO`: `OnGPIO(n, v)`, `1 <= n < NUM_SOURCES` (41_plic.md R161). -/
  | plicOnGpio (c : Nat) (n : Int) (v : Bool)
  /-- `PLIC.OnGPIO.out_of_range`: `OnGPIO(n, v)` on a number that is no input (R162). -/
  | plicOnGpioOutOfRange (c : Nat) (n : Int) (v : Bool)
  /-- `PLIC.PRIORITY.write`: write of `PRIORITY[i]`: `SetPriority` (R163). -/
  | plicPriorityWrite (c i : Nat) (v : Word)
  /-- `PLIC.PRIORITY.read`: read of `PRIORITY[i]` (R164). -/
  | plicPriorityRead (c i : Nat)
  /-- `PLIC.ENABLE.write`: write of `ENABLE[t][w]`: `EnableSource` per bit (R165, 30_encoding.md R112). -/
  | plicEnableWrite (c t w : Nat) (v : Word)
  /-- `PLIC.ENABLE.read`: read of `ENABLE[t][w]` (R166). -/
  | plicEnableRead (c t w : Nat)
  /-- `PLIC.CLAIMCOMPLETE.read`: read of `CLAIMCOMPLETE[t]`: `Claim` (R167). -/
  | plicClaimRead (c t : Nat)
  /-- `PLIC.CLAIMCOMPLETE.write`: write of `CLAIMCOMPLETE[t]`: `Complete` (R168). -/
  | plicCompleteWrite (c t : Nat) (v : Word)
  /-- `PLIC.Reset`: `Reset()` (70_reset_and_hazards.md R401). -/
  | plicReset (c : Nat)
  /-- `VIC.OnGPIO`: `OnGPIO(n, v)`, `0 <= n <= 31` (42_vic.md R202). -/
  | vicOnGpio (c : Nat) (n : Int) (v : Bool)
  /-- `VIC.OnGPIO.out_of_range`: `OnGPIO(n, v)`, `n < 0` or `n > 31` (R203). -/
  | vicOnGpioOutOfRange (c : Nat) (n : Int) (v : Bool)
  /-- `VIC.IRQSTATUS.read`: read of `IRQSTATUS` (R210, 30_encoding.md R117). -/
  | vicIrqStatusRead (c : Nat)
  /-- `VIC.FIQSTATUS.read`: read of `FIQSTATUS` (R210, R117). -/
  | vicFiqStatusRead (c : Nat)
  /-- `VIC.RAWINTR.read`: read of `RAWINTR` (R210, R117). -/
  | vicRawIntrRead (c : Nat)
  /-- `VIC.INTSELECT.read`: read of `INTSELECT` (R210, R118). -/
  | vicIntSelectRead (c : Nat)
  /-- `VIC.INTSELECT.write`: write of `INTSELECT` (R206). -/
  | vicIntSelectWrite (c : Nat) (v : Word)
  /-- `VIC.INTENABLE.read`: read of `INTENABLE` (R210, R119). -/
  | vicIntEnableRead (c : Nat)
  /-- `VIC.INTENABLE.write`: write of `INTENABLE` (R204). -/
  | vicIntEnableWrite (c : Nat) (v : Word)
  /-- `VIC.INTENCLEAR.read`: read of `INTENCLEAR`, 0 (R210). -/
  | vicIntEnClearRead (c : Nat)
  /-- `VIC.INTENCLEAR.write`: write of `INTENCLEAR` (R204). -/
  | vicIntEnClearWrite (c : Nat) (v : Word)
  /-- `VIC.SOFTINT.read`: read of `SOFTINT` (R210, R120). -/
  | vicSoftIntRead (c : Nat)
  /-- `VIC.SOFTINT.write`: write of `SOFTINT` (R205). -/
  | vicSoftIntWrite (c : Nat) (v : Word)
  /-- `VIC.SOFTINTCLEAR.read`: read of `SOFTINTCLEAR`, 0 (R210). -/
  | vicSoftIntClearRead (c : Nat)
  /-- `VIC.SOFTINTCLEAR.write`: write of `SOFTINTCLEAR` (R205). -/
  | vicSoftIntClearWrite (c : Nat) (v : Word)
  /-- `VIC.VECTADDR.read`: read of `VECTADDR`: acknowledge (R208). -/
  | vicVectAddrRead (c : Nat)
  /-- `VIC.VECTADDR.write`: write of `VECTADDR`: finish-current (R209). -/
  | vicVectAddrWrite (c : Nat) (v : Word)
  /-- `VIC.DEFVECTADDR.read`: read of `DEFVECTADDR` (R210, R122). -/
  | vicDefVectAddrRead (c : Nat)
  /-- `VIC.DEFVECTADDR.write`: write of `DEFVECTADDR` (R211). -/
  | vicDefVectAddrWrite (c : Nat) (v : Word)
  /-- `VIC.VECTADDRn.read`: read of `VECTADDRn[n]` (R210, R122). -/
  | vicVectAddrNRead (c n : Nat)
  /-- `VIC.VECTADDRn.write`: write of `VECTADDRn[n]` (R211). -/
  | vicVectAddrNWrite (c n : Nat) (v : Word)
  /-- `VIC.VECTCNTL.read`: read of `VECTCNTL[n]` (R210, R123). -/
  | vicVectCntlRead (c n : Nat)
  /-- `VIC.VECTCNTL.write`: write of `VECTCNTL[n]` (R207). -/
  | vicVectCntlWrite (c n : Nat) (v : Word)
  /-- `VIC.Reset`: `Reset()` (70_reset_and_hazards.md R401). -/
  | vicReset (c : Nat)
  /-- `EXTI.OnGPIO.configurable`: `OnGPIO(n, v)` on a configurable line (43_exti.md R254). -/
  | extiOnGpioConfigurable (c : Nat) (n : Int) (v : Bool)
  /-- `EXTI.OnGPIO.direct`: `OnGPIO(n, v)` on a direct line (R255). -/
  | extiOnGpioDirect (c : Nat) (n : Int) (v : Bool)
  /-- `EXTI.OnGPIO.dropped`: `OnGPIO(n, v)` on a dropped line (R256). -/
  | extiOnGpioDropped (c : Nat) (n : Int) (v : Bool)
  /-- `EXTI.OnGPIO.out_of_range`: `OnGPIO(n, v)`, `n < 0` or `n >= NUM_LINES` (R252). -/
  | extiOnGpioOutOfRange (c : Nat) (n : Int) (v : Bool)
  /-- `EXTI.IMR.read`: read of `IMR` (R260, 30_encoding.md R125). -/
  | extiImrRead (c : Nat)
  /-- `EXTI.IMR.write`: write of `IMR` (R257). -/
  | extiImrWrite (c : Nat) (v : Word)
  /-- `EXTI.RTSR.read`: read of `RTSR` (R260, R125). -/
  | extiRtsrRead (c : Nat)
  /-- `EXTI.RTSR.write`: write of `RTSR` (R257). -/
  | extiRtsrWrite (c : Nat) (v : Word)
  /-- `EXTI.FTSR.read`: read of `FTSR` (R260, R125). -/
  | extiFtsrRead (c : Nat)
  /-- `EXTI.FTSR.write`: write of `FTSR` (R257). -/
  | extiFtsrWrite (c : Nat) (v : Word)
  /-- `EXTI.SWIER.read`: read of `SWIER`, 0 (R260, R126). -/
  | extiSwierRead (c : Nat)
  /-- `EXTI.SWIER.write`: write of `SWIER`: software interrupt (R258). -/
  | extiSwierWrite (c : Nat) (v : Word)
  /-- `EXTI.PR.read`: read of `PR` (R260, R127). -/
  | extiPrRead (c : Nat)
  /-- `EXTI.PR.write`: write of `PR`: write-one-to-clear (R259). -/
  | extiPrWrite (c : Nat) (v : Word)
  /-- `EXTI.Reset`: `Reset()` (70_reset_and_hazards.md R401). -/
  | extiReset (c : Nat)
  /-- `INTMUX.OnGPIO`: `OnGPIO(n, v)`, `0 <= n < MUX_SOURCES` (44_intmux.md R291). -/
  | muxOnGpio (c : Nat) (n : Int) (v : Bool)
  /-- `INTMUX.OnGPIO.out_of_range`: `OnGPIO(n, v)` out of range (R292). -/
  | muxOnGpioOutOfRange (c : Nat) (n : Int) (v : Bool)
  /-- `INTMUX.CSR.read`: read of `CSR[ch]` (R297, 30_encoding.md R129). -/
  | muxCsrRead (c ch : Nat)
  /-- `INTMUX.CSR.mode.write`: write of `CSR[ch]` with `v[0] = 0` (R295). -/
  | muxCsrModeWrite (c ch : Nat) (v : Word)
  /-- `INTMUX.CSR.reset.write`: write of `CSR[ch]` with `v[0] = 1`: channel reset (R296). -/
  | muxCsrResetWrite (c ch : Nat) (v : Word)
  /-- `INTMUX.VEC.read`: read of `VEC[ch]` (R297, R298). -/
  | muxVecRead (c ch : Nat)
  /-- `INTMUX.IER.read`: read of `IER[ch]` (R297). -/
  | muxIerRead (c ch : Nat)
  /-- `INTMUX.IER.write`: write of `IER[ch]` (R294). -/
  | muxIerWrite (c ch : Nat) (v : Word)
  /-- `INTMUX.IPR.read`: read of `IPR[ch]` (R297). -/
  | muxIprRead (c ch : Nat)
  /-- `INTMUX.Reset`: `Reset()` (70_reset_and_hazards.md R401). -/
  | muxReset (c : Nat)
  /-- `ANY.unhandled.read`: aligned read at an offset with no register (20_memory.md R79). -/
  | anyUnhandledRead (c off : Nat)
  /-- `ANY.unhandled.write`: aligned write at an offset with no register (R79). -/
  | anyUnhandledWrite (c off : Nat) (v : Word)
  /-- `ANY.readonly.write`: write to a read-only register (30_encoding.md R102, R117, R132). -/
  | anyReadonlyWrite (c off : Nat) (v : Word)
  deriving DecidableEq, Repr

end Sys2Proof
end

