-- ==== Sys2Proof/Machine/RegMap.lean ====
section
/-! DEFINITION. The register maps of the four windows (30_encoding.md R110, R116, R124, R128), read in both directions:
`regAt`, which register stands at a byte offset for in-range indices (R105), and `Reg.offset`, the offset formula of each
row. Every offset is the spec's own choice (log entry 29). Also the class of an EXTI line (43_exti.md R251). -/

namespace Sys2Proof.Machine

/-- A register of some window, with its indices. -/
inductive Reg where
  | plicPriority (i : Nat) | plicEnable (t w : Nat) | plicClaimComplete (t : Nat)
  | vicIrqStatus | vicFiqStatus | vicRawIntr | vicIntSelect | vicIntEnable | vicIntEnClear | vicSoftInt
  | vicSoftIntClear | vicVectAddr | vicDefVectAddr | vicVectAddrN (n : Nat) | vicVectCntl (n : Nat)
  | extiImr | extiRtsr | extiFtsr | extiSwier | extiPr
  | muxCsr (ch : Nat) | muxVec (ch : Nat) | muxIer (ch : Nat) | muxIpr (ch : Nat)
  deriving DecidableEq, Repr

/-- The offset formula of each register (30_encoding.md R110, R116, R124, R128). -/
def Reg.offset : Reg → Nat
  | .plicPriority i => 0x000000 + 4 * i
  | .plicEnable t w => 0x002000 + 0x80 * t + 4 * w
  | .plicClaimComplete t => 0x200004 + 0x1000 * t
  | .vicIrqStatus => 0x000
  | .vicFiqStatus => 0x004
  | .vicRawIntr => 0x008
  | .vicIntSelect => 0x00C
  | .vicIntEnable => 0x010
  | .vicIntEnClear => 0x014
  | .vicSoftInt => 0x018
  | .vicSoftIntClear => 0x01C
  | .vicVectAddr => 0x030
  | .vicDefVectAddr => 0x034
  | .vicVectAddrN n => 0x100 + 4 * n
  | .vicVectCntl n => 0x200 + 4 * n
  | .extiImr => 0x00
  | .extiRtsr => 0x08
  | .extiFtsr => 0x0C
  | .extiSwier => 0x10
  | .extiPr => 0x14
  | .muxCsr ch => 0x40 * ch + 0x00
  | .muxVec ch => 0x40 * ch + 0x04
  | .muxIer ch => 0x40 * ch + 0x10
  | .muxIpr ch => 0x40 * ch + 0x20

/-- The PLIC's register at an offset (30_encoding.md R105, R110). `PRIORITY` ends below `0x1000`, `ENABLE` lies in
`0x2000 .. 0x2000 + 0x80*NUM_TARGETS - 1`, `CLAIMCOMPLETE[t]` at `0x200004 + 0x1000*t`. -/
def plicRegAt (p : PlicParams) (off : Nat) : Option Reg :=
  if off % 4 ≠ 0 then none
  else if off / 4 < p.numSources then some (.plicPriority (off / 4))
  else if 0x2000 ≤ off ∧ (off - 0x2000) / 0x80 < p.numTargets then
    some (.plicEnable ((off - 0x2000) / 0x80) ((off - 0x2000) % 0x80 / 4))
  else if 0x200004 ≤ off ∧ (off - 0x200004) % 0x1000 = 0 ∧ (off - 0x200004) / 0x1000 < p.numTargets then
    some (.plicClaimComplete ((off - 0x200004) / 0x1000))
  else none

/-- The VIC's register at an offset (30_encoding.md R105, R116). -/
def vicRegAt (off : Nat) : Option Reg :=
  if off % 4 ≠ 0 then none
  else if 0x100 ≤ off ∧ (off - 0x100) / 4 < Config.vicSlots then some (.vicVectAddrN ((off - 0x100) / 4))
  else if 0x200 ≤ off ∧ (off - 0x200) / 4 < Config.vicSlots then some (.vicVectCntl ((off - 0x200) / 4))
  else
    [Reg.vicIrqStatus, .vicFiqStatus, .vicRawIntr, .vicIntSelect, .vicIntEnable, .vicIntEnClear, .vicSoftInt,
      .vicSoftIntClear, .vicVectAddr, .vicDefVectAddr].find? (fun r => r.offset == off)

/-- The EXTI's register at an offset (30_encoding.md R105, R124). -/
def extiRegAt (off : Nat) : Option Reg :=
  [Reg.extiImr, .extiRtsr, .extiFtsr, .extiSwier, .extiPr].find? (fun r => r.offset == off)

/-- The INTMUX's register at an offset (30_encoding.md R105, R128): channel `off / 0x40`, register `off % 0x40`. -/
def muxRegAt (p : MuxParams) (off : Nat) : Option Reg :=
  if p.numChannels ≤ off / 0x40 then none
  else
    [Reg.muxCsr (off / 0x40), .muxVec (off / 0x40), .muxIer (off / 0x40), .muxIpr (off / 0x40)].find?
      (fun r => r.offset == off)

/-- The register of a controller at a byte offset, or none: an unhandled address (30_encoding.md R105). -/
def regAt : CtrlParams → Nat → Option Reg
  | .plic p, off => plicRegAt p off
  | .vic _, off => vicRegAt off
  | .exti _, off => extiRegAt off
  | .intmux p, off => muxRegAt p off

/-- The read-only registers, whose writes are ignored silently (30_encoding.md R117, R130, R132). -/
def Reg.readOnly : Reg → Bool
  | .vicIrqStatus | .vicFiqStatus | .vicRawIntr | .muxVec _ | .muxIpr _ => true
  | _ => false

/-- The classes of an EXTI input number (43_exti.md R251, R252). -/
inductive ExtiClass where
  | configurable | direct | dropped | outOfRange
  deriving DecidableEq, Repr

/-- The class of an EXTI input number (43_exti.md R251, R252). -/
def extiClass (p : ExtiParams) (n : Int) : ExtiClass :=
  if n < 0 ∨ (p.numLines : Int) ≤ n then .outOfRange
  else if p.configurableMask.getLsbD n.toNat then .configurable
  else if p.treatNonconfigAsDirect then .direct
  else .dropped

/-- `n` is an input of a controller with `count` inputs numbered from `first`. -/
def inputInRange (first count : Nat) (n : Int) : Bool := decide ((first : Int) ≤ n ∧ n < (count : Int))

end Sys2Proof.Machine
end

