-- ==== Sys2Proof/WellFormed.lean ====
section
/-! DEFINITION. Which instructions are well formed on a platform: the instance named exists and is of the row's kind, the
operands lie in the row's ranges (spec/opcode_table.json's index and source_fields columns; 30_encoding.md R110, R116, R124,
R128; 00_scope.md R10 to R13). `decode` produces these and no others. -/

namespace Sys2Proof

open Machine

/-- The line name denotes a line of the platform (10_state.md R26). -/
def LineRef.isLine (p : Platform) : LineRef → Bool
  | .ext k => decide (k < p.numLines)
  | .out c i => (p.ctrls[c]?).elim false (fun q => decide (i < q.numOutputs))

/-- The line name denotes an external line of the platform: one whose owner is a peripheral, so that its owner's `Set` and
`Blink` are events (10_state.md R26, 00_scope.md R17). -/
def LineRef.settable (p : Platform) : LineRef → Bool
  | .ext k => decide (k < p.numLines)
  | .out _ _ => false

/-- Instance `c` is a PLIC and its parameters satisfy `f`. -/
def Platform.plicWith (p : Platform) (c : Nat) (f : PlicParams → Bool) : Bool :=
  match p.ctrls[c]? with
  | some (.plic q) => f q
  | _ => false

/-- Instance `c` is a VIC. -/
def Platform.isVic (p : Platform) (c : Nat) : Bool :=
  match p.ctrls[c]? with
  | some (.vic _) => true
  | _ => false

/-- Instance `c` is an EXTI and its parameters satisfy `f`. -/
def Platform.extiWith (p : Platform) (c : Nat) (f : ExtiParams → Bool) : Bool :=
  match p.ctrls[c]? with
  | some (.exti q) => f q
  | _ => false

/-- Instance `c` is an INTMUX and its parameters satisfy `f`. -/
def Platform.muxWith (p : Platform) (c : Nat) (f : MuxParams → Bool) : Bool :=
  match p.ctrls[c]? with
  | some (.intmux q) => f q
  | _ => false

/-- Instance `c` exists, and `off` is an aligned offset inside its window for which `f` holds of the register found
(20_memory.md R74). -/
def Platform.windowWith (p : Platform) (c off : Nat) (f : Option Reg → Bool) : Bool :=
  match p.ctrls[c]? with
  | some q => decide (off % 4 = 0) && decide (off < q.size) && f (regAt q off)
  | none => false

/-- The well-formed instructions of a platform. -/
def Instr.wellFormed (p : Platform) : Instr → Bool
  | .slSet L _ | .slSetTrue L | .slUnset L | .slBlink L => L.settable p
  | .slQuery L => L.isLine p
  | .plicOnGpio c n _ => p.plicWith c (fun q => inputInRange 1 q.numSources n)
  | .plicOnGpioOutOfRange c n _ => p.plicWith c (fun q => !inputInRange 1 q.numSources n)
  | .plicPriorityWrite c i _ | .plicPriorityRead c i => p.plicWith c (fun q => decide (i < q.numSources))
  | .plicEnableWrite c t w _ | .plicEnableRead c t w =>
      p.plicWith c (fun q => decide (t < q.numTargets) && decide (w < 32))
  | .plicClaimRead c t | .plicCompleteWrite c t _ => p.plicWith c (fun q => decide (t < q.numTargets))
  | .plicReset c => p.plicWith c (fun _ => true)
  | .vicOnGpio c n _ => p.isVic c && inputInRange 0 Config.vicLines n
  | .vicOnGpioOutOfRange c n _ => p.isVic c && !inputInRange 0 Config.vicLines n
  | .vicIrqStatusRead c | .vicFiqStatusRead c | .vicRawIntrRead c | .vicIntSelectRead c | .vicIntSelectWrite c _
  | .vicIntEnableRead c | .vicIntEnableWrite c _ | .vicIntEnClearRead c | .vicIntEnClearWrite c _
  | .vicSoftIntRead c | .vicSoftIntWrite c _ | .vicSoftIntClearRead c | .vicSoftIntClearWrite c _
  | .vicVectAddrRead c | .vicVectAddrWrite c _ | .vicDefVectAddrRead c | .vicDefVectAddrWrite c _
  | .vicReset c => p.isVic c
  | .vicVectAddrNRead c n | .vicVectAddrNWrite c n _ | .vicVectCntlRead c n | .vicVectCntlWrite c n _ =>
      p.isVic c && decide (n < Config.vicSlots)
  | .extiOnGpioConfigurable c n _ => p.extiWith c (fun q => extiClass q n == .configurable)
  | .extiOnGpioDirect c n _ => p.extiWith c (fun q => extiClass q n == .direct)
  | .extiOnGpioDropped c n _ => p.extiWith c (fun q => extiClass q n == .dropped)
  | .extiOnGpioOutOfRange c n _ => p.extiWith c (fun q => extiClass q n == .outOfRange)
  | .extiImrRead c | .extiImrWrite c _ | .extiRtsrRead c | .extiRtsrWrite c _ | .extiFtsrRead c
  | .extiFtsrWrite c _ | .extiSwierRead c | .extiSwierWrite c _ | .extiPrRead c | .extiPrWrite c _
  | .extiReset c => p.extiWith c (fun _ => true)
  | .muxOnGpio c n _ => p.muxWith c (fun q => inputInRange 0 q.muxSources n)
  | .muxOnGpioOutOfRange c n _ => p.muxWith c (fun q => !inputInRange 0 q.muxSources n)
  | .muxCsrRead c ch | .muxVecRead c ch | .muxIerRead c ch | .muxIerWrite c ch _ | .muxIprRead c ch =>
      p.muxWith c (fun q => decide (ch < q.numChannels))
  | .muxCsrModeWrite c ch v => p.muxWith c (fun q => decide (ch < q.numChannels) && !v.getLsbD 0)
  | .muxCsrResetWrite c ch v => p.muxWith c (fun q => decide (ch < q.numChannels) && v.getLsbD 0)
  | .muxReset c => p.muxWith c (fun _ => true)
  | .anyUnhandledRead c off | .anyUnhandledWrite c off _ => p.windowWith c off (fun r => r.isNone)
  | .anyReadonlyWrite c off _ => p.windowWith c off (fun r => r.elim false Reg.readOnly)

end Sys2Proof
end

