-- ==== Sys2Proof/Decode.lean ====
section
/-! DEFINITION. Decoding: from an event tuple (30_encoding.md R100) and the platform's constants to an instruction, or a
rejection by name; and the encoder, which gives the event tuple of an instruction. The encoding of a bus event is the
triple (kind, byte offset, value); which row it is follows from the register map of the instance (R105) and, for
`EV_GPIO`, from the instance's input ranges. -/

namespace Sys2Proof

open Machine

/-- Why an event tuple is not an instruction of the platform. Every one of these is safe: no next state. -/
inductive DecodeError where
  /-- The event names a controller instance the platform does not have (30_encoding.md R100). -/
  | noSuchController (c : Nat)
  /-- The event names a Signal Line the platform does not have. -/
  | noSuchLine (L : LineRef)
  /-- `Set` or `Blink` of a line by another than its owner: "only its owner calls Set, Unset or Blink on it"
  (10_state.md R26). A controller's outputs are driven by its own re-evaluation only. -/
  | notOwner (L : LineRef)
  /-- An 8-bit or 16-bit access, or another width than four bytes: refused (20_memory.md R74). -/
  | narrowAccess (bytes : Nat)
  /-- An access at an offset that is no multiple of four: refused (20_memory.md R74). -/
  | misaligned (off : Nat)
  /-- An offset at or past `Size` never reaches the controller (20_memory.md R71). -/
  | outsideWindow (off : Nat)
  /-- A system reset is no instruction: `step` runs it as a whole (log entry 34). -/
  | systemReset
  deriving DecidableEq, Repr

/-- The row of an `EV_GPIO` event on a controller: by its kind and, within the kind, by the input number (41_plic.md R161,
R162; 42_vic.md R202, R203; 43_exti.md R251, R252; 44_intmux.md R291, R292). -/
def decodeGpio (q : CtrlParams) (c : Nat) (n : Int) (v : Bool) : Instr :=
  match q with
  | .plic q => if inputInRange 1 q.numSources n then .plicOnGpio c n v else .plicOnGpioOutOfRange c n v
  | .vic _ => if inputInRange 0 Config.vicLines n then .vicOnGpio c n v else .vicOnGpioOutOfRange c n v
  | .exti q =>
    match extiClass q n with
    | .configurable => .extiOnGpioConfigurable c n v
    | .direct => .extiOnGpioDirect c n v
    | .dropped => .extiOnGpioDropped c n v
    | .outOfRange => .extiOnGpioOutOfRange c n v
  | .intmux q => if inputInRange 0 q.muxSources n then .muxOnGpio c n v else .muxOnGpioOutOfRange c n v

/-- The row of a 32-bit read of a register (30_encoding.md R111 to R132). -/
def decodeRegRead (c : Nat) : Reg → Instr
  | .plicPriority i => .plicPriorityRead c i
  | .plicEnable t w => .plicEnableRead c t w
  | .plicClaimComplete t => .plicClaimRead c t
  | .vicIrqStatus => .vicIrqStatusRead c
  | .vicFiqStatus => .vicFiqStatusRead c
  | .vicRawIntr => .vicRawIntrRead c
  | .vicIntSelect => .vicIntSelectRead c
  | .vicIntEnable => .vicIntEnableRead c
  | .vicIntEnClear => .vicIntEnClearRead c
  | .vicSoftInt => .vicSoftIntRead c
  | .vicSoftIntClear => .vicSoftIntClearRead c
  | .vicVectAddr => .vicVectAddrRead c
  | .vicDefVectAddr => .vicDefVectAddrRead c
  | .vicVectAddrN n => .vicVectAddrNRead c n
  | .vicVectCntl n => .vicVectCntlRead c n
  | .extiImr => .extiImrRead c
  | .extiRtsr => .extiRtsrRead c
  | .extiFtsr => .extiFtsrRead c
  | .extiSwier => .extiSwierRead c
  | .extiPr => .extiPrRead c
  | .muxCsr ch => .muxCsrRead c ch
  | .muxVec ch => .muxVecRead c ch
  | .muxIer ch => .muxIerRead c ch
  | .muxIpr ch => .muxIprRead c ch

/-- The row of a 32-bit write of a register (30_encoding.md R111 to R132). A write of `CSR[ch]` is a channel reset or a
mode write by its bit 0 (R129); a read-only register's write is the row `ANY.readonly.write`. -/
def decodeRegWrite (c : Nat) (r : Reg) (v : Word) : Instr :=
  match r with
  | .plicPriority i => .plicPriorityWrite c i v
  | .plicEnable t w => .plicEnableWrite c t w v
  | .plicClaimComplete t => .plicCompleteWrite c t v
  | .vicIntSelect => .vicIntSelectWrite c v
  | .vicIntEnable => .vicIntEnableWrite c v
  | .vicIntEnClear => .vicIntEnClearWrite c v
  | .vicSoftInt => .vicSoftIntWrite c v
  | .vicSoftIntClear => .vicSoftIntClearWrite c v
  | .vicVectAddr => .vicVectAddrWrite c v
  | .vicDefVectAddr => .vicDefVectAddrWrite c v
  | .vicVectAddrN n => .vicVectAddrNWrite c n v
  | .vicVectCntl n => .vicVectCntlWrite c n v
  | .extiImr => .extiImrWrite c v
  | .extiRtsr => .extiRtsrWrite c v
  | .extiFtsr => .extiFtsrWrite c v
  | .extiSwier => .extiSwierWrite c v
  | .extiPr => .extiPrWrite c v
  | .muxCsr ch => if v.getLsbD 0 then .muxCsrResetWrite c ch v else .muxCsrModeWrite c ch v
  | .muxIer ch => .muxIerWrite c ch v
  | .vicIrqStatus | .vicFiqStatus | .vicRawIntr | .muxVec _ | .muxIpr _ => .anyReadonlyWrite c r.offset v

/-- The row of `Reset()` of a controller, by its kind. -/
def decodeReset (q : CtrlParams) (c : Nat) : Instr :=
  match q with
  | .plic _ => .plicReset c
  | .vic _ => .vicReset c
  | .exti _ => .extiReset c
  | .intmux _ => .muxReset c

/-- What makes a bus access undefined before any register is looked at (20_memory.md R71, R74). -/
def busError (q : CtrlParams) (off bytes : Nat) : Option DecodeError :=
  if bytes ≠ 4 then some (.narrowAccess bytes)
  else if off % 4 ≠ 0 then some (.misaligned off)
  else if q.size ≤ off then some (.outsideWindow off)
  else none

/-- What stops `Set` or `Blink` of a line (10_state.md R26). -/
def setError (p : Platform) (L : LineRef) : Option DecodeError :=
  if L.settable p then none
  else if L.isLine p then some (.notOwner L)
  else some (.noSuchLine L)

/-- Decode an event tuple on a platform. Total; a rejection has a name. -/
def decode (p : Platform) (e : Event) : Except DecodeError Instr :=
  match e with
  | .evGpio c n v =>
    match p.ctrls[c]? with
    | none => .error (.noSuchController c)
    | some q => .ok (decodeGpio q c n v)
  | .memRead c off bytes =>
    match p.ctrls[c]? with
    | none => .error (.noSuchController c)
    | some q =>
      match busError q off bytes with
      | some err => .error err
      | none =>
        match regAt q off with
        | some r => .ok (decodeRegRead c r)
        | none => .ok (.anyUnhandledRead c off)
  | .memWrite c off bytes v =>
    match p.ctrls[c]? with
    | none => .error (.noSuchController c)
    | some q =>
      match busError q off bytes with
      | some err => .error err
      | none =>
        match regAt q off with
        | some r => .ok (decodeRegWrite c r v)
        | none => .ok (.anyUnhandledWrite c off v)
  | .evReset c =>
    match p.ctrls[c]? with
    | none => .error (.noSuchController c)
    | some q => .ok (decodeReset q c)
  | .slSet L v =>
    match setError p L with
    | some err => .error err
    | none => .ok (.slSet L v)
  | .slBlink L =>
    match setError p L with
    | some err => .error err
    | none => .ok (.slBlink L)
  | .slQuery L => if L.isLine p then .ok (.slQuery L) else .error (.noSuchLine L)
  | .systemReset _ => .error .systemReset

/-- The read event of a register of instance `c`. -/
def readOf (c : Nat) (r : Reg) : Event := .memRead c r.offset 4

/-- The write event of a register of instance `c`. -/
def writeOf (c : Nat) (r : Reg) (v : Word) : Event := .memWrite c r.offset 4 v

/-- The event tuple of an instruction, from the format column of spec/opcode_table.json and the register maps. The rows
`SL.SetTrue` and `SL.Unset` have the format `SL_SET` with `v` fixed (40_signal_line.md R142). -/
def encode : Instr → Event
  | .slSet L v => .slSet L v
  | .slSetTrue L => .slSet L true
  | .slUnset L => .slSet L false
  | .slBlink L => .slBlink L
  | .slQuery L => .slQuery L
  | .plicOnGpio c n v | .plicOnGpioOutOfRange c n v | .vicOnGpio c n v | .vicOnGpioOutOfRange c n v
  | .extiOnGpioConfigurable c n v | .extiOnGpioDirect c n v | .extiOnGpioDropped c n v
  | .extiOnGpioOutOfRange c n v | .muxOnGpio c n v | .muxOnGpioOutOfRange c n v => .evGpio c n v
  | .plicPriorityWrite c i v => writeOf c (.plicPriority i) v
  | .plicPriorityRead c i => readOf c (.plicPriority i)
  | .plicEnableWrite c t w v => writeOf c (.plicEnable t w) v
  | .plicEnableRead c t w => readOf c (.plicEnable t w)
  | .plicClaimRead c t => readOf c (.plicClaimComplete t)
  | .plicCompleteWrite c t v => writeOf c (.plicClaimComplete t) v
  | .plicReset c | .vicReset c | .extiReset c | .muxReset c => .evReset c
  | .vicIrqStatusRead c => readOf c .vicIrqStatus
  | .vicFiqStatusRead c => readOf c .vicFiqStatus
  | .vicRawIntrRead c => readOf c .vicRawIntr
  | .vicIntSelectRead c => readOf c .vicIntSelect
  | .vicIntSelectWrite c v => writeOf c .vicIntSelect v
  | .vicIntEnableRead c => readOf c .vicIntEnable
  | .vicIntEnableWrite c v => writeOf c .vicIntEnable v
  | .vicIntEnClearRead c => readOf c .vicIntEnClear
  | .vicIntEnClearWrite c v => writeOf c .vicIntEnClear v
  | .vicSoftIntRead c => readOf c .vicSoftInt
  | .vicSoftIntWrite c v => writeOf c .vicSoftInt v
  | .vicSoftIntClearRead c => readOf c .vicSoftIntClear
  | .vicSoftIntClearWrite c v => writeOf c .vicSoftIntClear v
  | .vicVectAddrRead c => readOf c .vicVectAddr
  | .vicVectAddrWrite c v => writeOf c .vicVectAddr v
  | .vicDefVectAddrRead c => readOf c .vicDefVectAddr
  | .vicDefVectAddrWrite c v => writeOf c .vicDefVectAddr v
  | .vicVectAddrNRead c n => readOf c (.vicVectAddrN n)
  | .vicVectAddrNWrite c n v => writeOf c (.vicVectAddrN n) v
  | .vicVectCntlRead c n => readOf c (.vicVectCntl n)
  | .vicVectCntlWrite c n v => writeOf c (.vicVectCntl n) v
  | .extiImrRead c => readOf c .extiImr
  | .extiImrWrite c v => writeOf c .extiImr v
  | .extiRtsrRead c => readOf c .extiRtsr
  | .extiRtsrWrite c v => writeOf c .extiRtsr v
  | .extiFtsrRead c => readOf c .extiFtsr
  | .extiFtsrWrite c v => writeOf c .extiFtsr v
  | .extiSwierRead c => readOf c .extiSwier
  | .extiSwierWrite c v => writeOf c .extiSwier v
  | .extiPrRead c => readOf c .extiPr
  | .extiPrWrite c v => writeOf c .extiPr v
  | .muxCsrRead c ch => readOf c (.muxCsr ch)
  | .muxCsrModeWrite c ch v | .muxCsrResetWrite c ch v => writeOf c (.muxCsr ch) v
  | .muxVecRead c ch => readOf c (.muxVec ch)
  | .muxIerRead c ch => readOf c (.muxIer ch)
  | .muxIerWrite c ch v => writeOf c (.muxIer ch) v
  | .muxIprRead c ch => readOf c (.muxIpr ch)
  | .anyUnhandledRead c off => .memRead c off 4
  | .anyUnhandledWrite c off v | .anyReadonlyWrite c off v => .memWrite c off 4 v

/-- The event that a word of spec/opcode_table.json stands for (log entry 21). The table's bits are those of the byte
offset alone: neither the controller nor the kind of access is among them. The number of bits is the width of the window's
offset, and picks the controller: up to 8 bits the INTMUX (6), up to 16 the VIC (12), more the PLIC (26); every bit above
`nbits` being 0, the kind is the one numbered first, a read. -/
def tableEvent (nbits w : Nat) : Event :=
  let off := w % 2 ^ nbits
  if nbits ≤ 8 then .memRead 3 off 4
  else if nbits ≤ 16 then .memRead 1 off 4
  else .memRead 0 off 4

/-- The instruction the decoder reads from a word of spec/opcode_table.json, on the reset platform. -/
def decodeTableWord (nbits w : Nat) : Option Instr :=
  match decode Config.resetPlatform (tableEvent nbits w) with
  | .ok i => some i
  | .error _ => none

end Sys2Proof
end

