-- ==== Sys2Proof/Machine/State.lean ====
section
/-! DEFINITION. The state of a platform of controllers, as plain data: every controller instance with its parameters,
register-backed and run-time state, output lines and diagnostic trace (10_state.md R23), the external Signal Lines, the
events not yet delivered, and what the outside has been told. Also the faults (none), the refusals, and the state after
reset. -/

namespace Sys2Proof.Machine

/-- Why a machine stops with a fault: never. "Nothing in this hardware is treated as `fault` or `stuck`"
(93_implementation_defined.md part 1), so this type has no constructor and no meaning raises one. -/
inductive Fault where
  deriving DecidableEq, Repr

/-- Why an event has no next state. Every constructor is safe: a claim about a run that reaches it cannot be proved, none
false can. -/
inductive Refusal where
  /-- An instruction that has no meaning in this model yet. Raised by `exec` only. -/
  | notModelled (mnemonic : String)
  /-- Raised by `step`: the event next in `inbox` is no instruction of the platform (20_memory.md R71, R74; 10_state.md
  R26; 30_encoding.md R100). -/
  | undecodable (e : DecodeError)
  /-- Raised by the event wrapper and by a callback: the instance named does not exist on the platform. -/
  | noSuchController (c : Nat)
  /-- Raised by a meaning: the instance named is of another kind than the row's. `decode` never gives such a term. -/
  | wrongController
  /-- Raised by a meaning: an operand lies outside the row's range, so the term is no instruction of this platform.
  `decode` never gives such a term; the event its operands would name decodes to another row. -/
  | illFormed
  /-- Raised by the Signal Line meanings: the line does not exist, or is not one its caller owns (10_state.md R26). -/
  | lineNotOwned (L : LineRef)
  /-- Raised by PLIC `OnGPIO` on a number outside `1 .. NUM_SOURCES-1`: "This spec `refuse`s it" (41_plic.md R162,
  90_conflicts.md C2). -/
  | plicGpioOutOfRange (n : Int)
  /-- Raised by a VIC `INTSELECT` write that reclassifies a line that is active or has an entry: "refuse" (42_vic.md
  R206). -/
  | vicReclassifiesLiveLine
  /-- Raised by a system reset whose order does not name every controller exactly once: it is none, for one "invokes `Reset()`
  on every controller" (70_reset_and_hazards.md R405). -/
  | notEveryController
  /-- Raised by every event on a platform whose wiring has a cycle: "A platform with a cycle is refused" (20_memory.md
  R85). -/
  | cyclicWiring
  deriving DecidableEq, Repr

/-- Severity of a diagnostic (60_exceptions.md R360). `fatal` is of `ConfigInvalid` alone, which never stands on a trace
(R362, R366). -/
inductive Severity where
  | info | warning | error | fatal
  deriving DecidableEq, Repr

/-- The cause of a diagnostic (60_exceptions.md R366). -/
inductive Cause where
  | configInvalid | gpioOutOfRange | targetOutOfRange | completeOutOfRange | completeNothingInService
  | completeMismatch | prioritySource0 | prioritiesDisabled | enableNonexistentSource | finishNothingInService
  | unhandledRead | unhandledWrite
  deriving DecidableEq, Repr

/-- What a diagnostic records: the offending number or pair, or for `ConfigInvalid` the parameter's name (60_exceptions.md
R360, R366). -/
inductive DiagInfo where
  | num (n : Int)
  | pair (a b : Nat)
  | param (name : String)
  deriving DecidableEq, Repr

/-- A diagnostic record (60_exceptions.md R360). -/
structure Diag where
  severity : Severity
  cause : Cause
  info : DiagInfo
  deriving DecidableEq, Repr

/-- Who hears a Signal Line: a controller of the platform, or a receiver outside it (a core), by number (60_exceptions.md
R371). -/
inductive Receiver where
  | ctrl (c : Nat)
  | outside (r : Nat)
  deriving DecidableEq, Repr

/-- An entry `(receiver, number)` of a line's fan-out (10_state.md R26). -/
structure Endpoint where
  receiver : Receiver
  number : Int
  deriving DecidableEq, Repr

/-- A Signal Line (10_state.md R26): its level, and its receivers in connection order. -/
structure SigLine where
  level : Bool
  receivers : List Endpoint
  deriving DecidableEq, Repr

/-- Per-source state of a PLIC (10_state.md R30). -/
structure PlicSrc where
  priority : Word
  state : Bool
  isPending : Bool
  deriving DecidableEq, Repr

/-- Per-target state of a PLIC (10_state.md R32): `enabled` holds, at index `i - 1`, whether source `i` is in the set
`Enabled`; `inService` is the stack, its top the last element. -/
structure PlicTgt where
  enabled : List Bool
  inService : List Nat
  deriving DecidableEq, Repr

/-- A PLIC-style controller (10_state.md R30 to R33): `srcs` holds source `i` at index `i - 1`, for source 0 has no state
(R31). -/
structure Plic where
  params : PlicParams
  srcs : List PlicSrc
  tgts : List PlicTgt
  deriving DecidableEq, Repr

/-- A vector-control slot of a VIC (10_state.md R39, 30_encoding.md R123). -/
structure VectSlot where
  enable : Bool
  source : BitVec 5
  deriving DecidableEq, Repr

/-- A VIC-style controller (10_state.md R38 to R42). Bit `L` of `pinState`, `softState`, `enabled`, `isFiq` is the field
of line `L`; `queue` has its front first, `stack` its top last. -/
structure Vic where
  params : VicParams
  pinState : Word
  softState : Word
  enabled : Word
  isFiq : Word
  slots : List VectSlot
  addrs : List Word
  defVectAddr : Word
  queue : List VicEntry
  stack : List VicEntry
  deriving DecidableEq, Repr

/-- An EXTI-style controller (10_state.md R50, R51). -/
structure Exti where
  params : ExtiParams
  imr : Word
  rtsr : Word
  ftsr : Word
  pr : Word
  deriving DecidableEq, Repr

/-- Per-channel state of an INTMUX (10_state.md R59). -/
structure MuxChan where
  andMode : Bool
  ier : Word
  deriving DecidableEq, Repr

/-- An INTMUX-style controller (10_state.md R58, R59). Bit `s` of `inputs` is `input[s]`. -/
structure Mux where
  params : MuxParams
  inputs : Word
  chans : List MuxChan
  deriving DecidableEq, Repr

/-- The parameters and the register-backed and run-time state of one controller. -/
inductive Core where
  | plic (p : Plic)
  | vic (v : Vic)
  | exti (e : Exti)
  | intmux (m : Mux)
  deriving DecidableEq, Repr

/-- A controller instance (10_state.md R23): its base address (00_scope.md R14), its state, its output lines by Connections
index, and its diagnostic trace, the oldest record first. -/
structure Ctrl where
  base : Nat
  core : Core
  outs : List SigLine
  trace : List Diag
  deriving DecidableEq, Repr

/-- What an event returns to the agent that issued it: a bus read's value, or a level query's answer. -/
inductive Reply where
  | word (v : Word)
  | level (v : Bool)
  deriving DecidableEq, Repr

/-- A callback `OnGPIO(number, value)` made to receiver `receiver` outside the platform's controllers (40_signal_line.md
R141, R146). -/
structure Callback where
  receiver : Nat
  number : Int
  value : Bool
  deriving DecidableEq, Repr

/-- The state: the controllers (instance `c` is element `c`), the external Signal Lines, and the model's own fields: the
events not yet delivered (log entry 1), what the last event returned (log entry 5), and the callbacks made to the outside,
the oldest first (log entry 6). -/
structure State where
  ctrls : List Ctrl
  lines : List SigLine
  inbox : List Event
  reply : Option Reply
  callbacks : List Callback
  deriving DecidableEq, Repr

/-- A PLIC right after reset (10_state.md R68). -/
def Plic.reset (q : PlicParams) : Plic where
  params := q
  srcs := List.replicate (q.numSources - 1) { priority := 1, state := false, isPending := false }
  tgts := List.replicate q.numTargets { enabled := List.replicate (q.numSources - 1) false, inService := [] }

/-- A VIC right after reset (10_state.md R68). -/
def Vic.reset (q : VicParams) : Vic where
  params := q
  pinState := 0
  softState := 0
  enabled := 0
  isFiq := 0
  slots := List.replicate Config.vicSlots { enable := false, source := 0 }
  addrs := List.replicate Config.vicSlots 0
  defVectAddr := 0
  queue := []
  stack := []

/-- An EXTI right after reset (10_state.md R68). -/
def Exti.reset (q : ExtiParams) : Exti where
  params := q
  imr := 0
  rtsr := 0
  ftsr := 0
  pr := 0

/-- An INTMUX right after reset (10_state.md R68). -/
def Mux.reset (q : MuxParams) : Mux where
  params := q
  inputs := 0
  chans := List.replicate q.numChannels { andMode := false, ier := 0 }

/-- The parameters of a controller. -/
def Core.params : Core → CtrlParams
  | .plic p => .plic p.params
  | .vic v => .vic v.params
  | .exti e => .exti e.params
  | .intmux m => .intmux m.params

/-- The state of a controller right after reset (10_state.md R68). -/
def Core.reset : CtrlParams → Core
  | .plic q => .plic (Plic.reset q)
  | .vic q => .vic (Vic.reset q)
  | .exti q => .exti (Exti.reset q)
  | .intmux q => .intmux (Mux.reset q)

/-- A line at the level it has at construction (10_state.md R28). -/
def SigLine.quiet (receivers : List Endpoint) : SigLine := { level := false, receivers := receivers }

/-- A controller right after construction with the given fan-out of each output: state at construction equals state after
reset (70_reset_and_hazards.md R404), with an empty trace. Outputs beyond the fan-outs given drive nothing. -/
def Ctrl.fresh (base : Nat) (q : CtrlParams) (fanout : List (List Endpoint)) : Ctrl where
  base := base
  core := Core.reset q
  outs := (List.range q.numOutputs).map (fun i => SigLine.quiet (fanout.getD i []))
  trace := []

/-- The platform's constants, as decoding needs them. -/
def State.platform (s : State) : Platform where
  ctrls := s.ctrls.map (fun x => x.core.params)
  numLines := s.lines.length

/-- The platform right after reset (log entry 2): the instances of `Config.resetPlatform`, wired as programs P1 to P4 of
95_test_vectors.md wire theirs: the external line to EXTI input 0, EXTI output 0 to PLIC source 2, the PLIC's output to
core input 0, INTMUX output 0 to VIC line 5, the VIC's `IRQ` and `FIQ` to core inputs 1 and 2. Every state field has its
value of 10_state.md R68. -/
def State.reset : State where
  ctrls :=
    [ Ctrl.fresh 0x0000000 (.plic { numSources := 4, numTargets := 1, prioritiesEnabled := true })
        [[{ receiver := .outside 0, number := 0 }]],
      Ctrl.fresh 0x4000000 (.vic { tie := 0 })
        [[{ receiver := .outside 1, number := 0 }], [{ receiver := .outside 2, number := 0 }]],
      Ctrl.fresh 0x4001000
        (.exti { numLines := 16, configurableMask := 0x00FF, treatNonconfigAsDirect := true,
                 directIgnoresMask := false })
        [[{ receiver := .ctrl 0, number := 2 }]],
      Ctrl.fresh 0x4001400 (.intmux { numChannels := 2, muxSources := 32 })
        [[{ receiver := .ctrl 1, number := 5 }]] ]
  lines := [SigLine.quiet [{ receiver := .ctrl 2, number := 0 }]]
  inbox := []
  reply := none
  callbacks := []

end Sys2Proof.Machine
end

