-- ==== Sys2Proof/Machine/Flags.lean ====
section
/-! DEFINITION. The derived values of the controllers: pure functions of the raw state, never stored (10_state.md R24).
PLIC: candidates and `PlicEval` (41_plic.md R167, R169). VIC: `IsActive`, `VectorId`, `Key`, `VicIrq`, `VicFiq`, the status
views (10_state.md R40; 42_vic.md R216, R217; 30_encoding.md R117). INTMUX: `IPR`, `VEC`, `MuxEval` (10_state.md R60;
44_intmux.md R293). And every controller's output levels as a function of its state. -/

namespace Sys2Proof.Machine

/-- Source id 0 and every id without state: priority 0, not asserted, not pending (10_state.md R31). -/
def Plic.noSource : PlicSrc := { priority := 0, state := false, isPending := false }

/-- A target that does not exist: nothing enabled, nothing in service. -/
def Plic.noTarget : PlicTgt := { enabled := [], inService := [] }

/-- The state of source `i`; id 0 behaves as a source that never is pending (10_state.md R30, R31). -/
def Plic.source (p : Plic) (i : Nat) : PlicSrc :=
  if i = 0 then Plic.noSource else p.srcs.getD (i - 1) Plic.noSource

/-- The state of target `t` (10_state.md R32). -/
def Plic.target (p : Plic) (t : Nat) : PlicTgt := p.tgts.getD t Plic.noTarget

/-- `i` is in `tgt[t].Enabled`; id 0 is in no such set (10_state.md R31, R32). -/
def Plic.isEnabled (p : Plic) (t i : Nat) : Bool :=
  if i = 0 then false else (p.target t).enabled.getD (i - 1) false

/-- The real source ids `1 .. NUM_SOURCES-1`, ascending (00_scope.md R10). -/
def Plic.ids (p : Plic) : List Nat := List.range' 1 (p.params.numSources - 1)

/-- The set `C` of 41_plic.md R167: the target's enabled and pending sources, in ascending order of id. -/
def Plic.candidates (p : Plic) (t : Nat) : List Nat :=
  p.ids.filter (fun i => p.isEnabled t i && (p.source i).isPending)

/-- The greatest priority among some sources, 0 if there are none (41_plic.md R167). -/
def Plic.maxPriority (p : Plic) (l : List Nat) : Nat :=
  l.foldl (fun m i => max m (p.source i).priority.toNat) 0

/-- The source a claim by target `t` selects: highest priority, ties broken by lowest id (41_plic.md R167). -/
def Plic.selected (p : Plic) (t : Nat) : Option Nat :=
  (p.candidates t).find? (fun i => (p.source i).priority.toNat == p.maxPriority (p.candidates t))

/-- The priority in service at target `t`: that of the top of the stack, read now; 0 if nothing is in service (41_plic.md
R169). -/
def Plic.currentPriority (p : Plic) (t : Nat) : Word :=
  match (p.target t).inService.getLast? with
  | none => 0
  | some i => (p.source i).priority

/-- `PlicEval(t)`: some enabled pending source has priority strictly greater than the one in service (41_plic.md R169). -/
def Plic.eval (p : Plic) (t : Nat) : Bool :=
  (p.candidates t).any (fun i => (p.currentPriority t).ult (p.source i).priority)

/-- The lines with `IsActive`, as bits: `Enabled && (PinState || SoftwareState)` (10_state.md R40). -/
def Vic.activeMask (v : Vic) : Word := v.enabled &&& (v.pinState ||| v.softState)

/-- `IsActive(L)` (10_state.md R40). -/
def Vic.isActive (v : Vic) (L : Nat) : Bool := v.activeMask.getLsbD L

/-- The slot assigned to a line, the least enabled one that names it; `none` stands for `VectorId = -1` (10_state.md
R40). -/
def Vic.vectorId (v : Vic) (L : Nat) : Option Nat :=
  (List.range Config.vicSlots).find? (fun n =>
    (v.slots[n]?).elim false (fun s => s.enable && s.source.toNat == L))

/-- `Key(L)`: the vector slot, or `INT_MAX` for an unvectored line; lower is more urgent (10_state.md R40, 42_vic.md
R218). -/
def Vic.key (v : Vic) (L : Nat) : Nat := (v.vectorId L).getD Config.intMax

/-- The register `IRQSTATUS` (30_encoding.md R117). -/
def Vic.irqStatus (v : Vic) : Word := v.activeMask &&& ~~~v.isFiq

/-- The register `FIQSTATUS` (30_encoding.md R117). -/
def Vic.fiqStatus (v : Vic) : Word := v.activeMask &&& v.isFiq

/-- The register `RAWINTR` (30_encoding.md R117). -/
def Vic.rawIntr (v : Vic) : Word := v.pinState ||| v.softState

/-- `VicFiq()`: some active line is FIQ-classified (42_vic.md R216). -/
def Vic.fiqLevel (v : Vic) : Bool := v.fiqStatus != 0

/-- `VicIrq()`: something waits, and nothing is in service or the front is strictly more urgent than the top of the stack
(42_vic.md R217). -/
def Vic.irqLevel (v : Vic) : Bool :=
  match v.queue.head?, v.stack.getLast? with
  | none, _ => false
  | some _, none => true
  | some e, some t => decide (e.key < t.key)

/-- `L` occurs in the queue or the stack (42_vic.md R206). -/
def Vic.hasEntry (v : Vic) (L : Nat) : Bool :=
  v.queue.any (fun e => e.line == L) || v.stack.any (fun e => e.line == L)

/-- The channel `ch` of an INTMUX (10_state.md R59). -/
def Mux.chan (m : Mux) (ch : Nat) : MuxChan := m.chans.getD ch { andMode := false, ier := 0 }

/-- `IPR(c) = ch[c].IER & inputs` (10_state.md R60). -/
def Mux.ipr (m : Mux) (ch : Nat) : Word := (m.chan ch).ier &&& m.inputs

/-- The index of the lowest set bit, 0 if there is none (10_state.md R60). -/
def lowestSetBit (w : Word) : Nat := ((List.range 32).find? (fun i => w.getLsbD i)).getD 0

/-- `VEC(c)` (10_state.md R60, 44_intmux.md R298). -/
def Mux.vec (m : Mux) (ch : Nat) : Word := BitVec.ofNat 32 (lowestSetBit (m.ipr ch))

/-- `MuxEval(c)` (44_intmux.md R293). -/
def Mux.eval (m : Mux) (ch : Nat) : Bool :=
  if (m.chan ch).andMode then (m.chan ch).ier != 0 && m.ipr ch == (m.chan ch).ier
  else m.ipr ch != 0

/-- The level that output `i` of a controller has after every event, where the spec makes it a function of the state:
`PlicEval` (R33), `VicIrq` and `VicFiq` (R42), `PR[L]` on a configurable EXTI line (R52), `MuxEval` (R61), all of
10_state.md. An EXTI line that is not configurable follows its input, so `none`. -/
def Core.outLevel (k : Core) (i : Nat) : Option Bool :=
  match k with
  | .plic p => some (p.eval i)
  | .vic v => some (if i = 0 then v.irqLevel else v.fiqLevel)
  | .exti e => if e.params.configurableMask.getLsbD i then some (e.pr.getLsbD i) else none
  | .intmux m => some (m.eval i)

end Sys2Proof.Machine
end

