-- ==== Sys2Proof/Machine/Operands.lean ====
section
/-! DEFINITION. Operand forms: the access modes of a register field (30_encoding.md R103), a register's bits in and out of
its fields (R102), the bits a line or source owns, and the single-bit updates used by the procedures. -/

namespace Sys2Proof.Machine

/-- The named access modes (30_encoding.md R103). `read` alone is a field that ignores writes. -/
inductive AccessMode where
  | read | write | toggle | writeOneToClear | writeZeroToClear | set
  deriving DecidableEq, Repr

/-- The stored value of a field after a write of `w` (30_encoding.md R103). -/
def AccessMode.after {n : Nat} (m : AccessMode) (f w : BitVec n) : BitVec n :=
  match m with
  | .read => f
  | .write => w
  | .toggle => f ^^^ w
  | .writeOneToClear => f &&& ~~~w
  | .writeZeroToClear => f &&& w
  | .set => f ||| w

/-- A register after a write, of which only the bits of `mask` belong to a field: a reserved bit ignores the write
(30_encoding.md R102). -/
def writeField (m : AccessMode) (mask stored written : Word) : Word :=
  (stored &&& ~~~mask) ||| (m.after stored written &&& mask)

/-- The bits below `n`: the bits that belong to lines or sources `0 .. n-1`. -/
def lowMask (n : Nat) : Word := BitVec.ofNat 32 (2 ^ n - 1)

/-- One bit of a word. -/
def oneBit (i : Nat) : Word := BitVec.ofNat 32 (2 ^ i)

/-- A word with bit `i` set to `b`. -/
def putBit (w : Word) (i : Nat) (b : Bool) : Word := if b then w ||| oneBit i else w &&& ~~~oneBit i

/-- The indices of the bits that are 1 in a word, ascending. -/
def bitsOf (w : Word) : List Nat := (List.range 32).filter (fun i => w.getLsbD i)

/-- A word made of one Boolean per bit. -/
def wordOfBits (f : Nat → Bool) : Word :=
  (List.range 32).foldl (fun w i => if f i then w ||| oneBit i else w) 0

/-- The lines of an EXTI that exist (00_scope.md R12). -/
def Exti.lineMask (e : Exti) : Word := lowMask e.params.numLines

/-- The configurable lines of an EXTI that exist: the bits of `RTSR`, `FTSR`, `PR` and `SWIER` that belong to a field
(30_encoding.md R125 to R127). -/
def Exti.configMask (e : Exti) : Word := e.params.configurableMask &&& e.lineMask

/-- The sources of an INTMUX that exist (00_scope.md R13). -/
def Mux.sourceMask (m : Mux) : Word := lowMask m.params.muxSources

/-- The word read from `ENABLE[t][w]` (41_plic.md R166). -/
def Plic.enableWord (p : Plic) (t w : Nat) : Word := wordOfBits (fun b => p.isEnabled t (32 * w + b))

/-- The word read from `VECTCNTL[n]` (30_encoding.md R123): `Enable` at bit 5, `Source` in bits 4 to 0. -/
def VectSlot.toWord (s : VectSlot) : Word := putBit (s.source.setWidth 32) 5 s.enable

/-- The slot written to `VECTCNTL[n]`; bits 31 to 6 are reserved (30_encoding.md R123, 42_vic.md R207). -/
def VectSlot.ofWord (v : Word) : VectSlot := { enable := v.getLsbD 5, source := v.setWidth 5 }

/-- The word read from `CSR[ch]`: `IRQP` at bit 31, `AND` at bit 1, all else 0 (30_encoding.md R129, 44_intmux.md
R297). -/
def Mux.csrWord (m : Mux) (ch : Nat) : Word := putBit (putBit 0 1 (m.chan ch).andMode) 31 (m.eval ch)

end Sys2Proof.Machine
end

