-- ==== Sys2Proof/Machine/Effect.lean ====
section
/-! DEFINITION. What one event does inside one controller: its next state, the levels it then drives on its own outputs in
order, the diagnostics it appends, and the value it returns. And `raise Diag` (60_exceptions.md R360, R366), the one place
where a severity and a record are made. Errors are to this hardware what exceptions are to a processor. -/

namespace Sys2Proof.Machine

/-- The cause codes (60_exceptions.md R366). -/
def Cause.code : Cause → Nat
  | .configInvalid => 1
  | .gpioOutOfRange => 2
  | .targetOutOfRange => 3
  | .completeOutOfRange => 4
  | .completeNothingInService => 5
  | .completeMismatch => 6
  | .prioritySource0 => 7
  | .prioritiesDisabled => 8
  | .enableNonexistentSource => 9
  | .finishNothingInService => 10
  | .unhandledRead => 11
  | .unhandledWrite => 12

/-- The severity of each cause (60_exceptions.md R364, R366). -/
def Cause.severity : Cause → Severity
  | .configInvalid => .fatal
  | .gpioOutOfRange | .targetOutOfRange | .completeOutOfRange | .completeNothingInService | .completeMismatch => .error
  | .prioritySource0 | .prioritiesDisabled | .enableNonexistentSource | .finishNothingInService => .warning
  | .unhandledRead | .unhandledWrite => .info

/-- `Diag(severity, cause, info)`, the severity being the cause's (60_exceptions.md R360, R366). -/
def raiseDiag (cause : Cause) (info : DiagInfo) : Diag :=
  { severity := cause.severity, cause := cause, info := info }

/-- What one event does inside one controller: `core` its next state, `drives` the `Set` calls on its outputs in order,
`diags` the diagnostics appended, `reply` what it returns. -/
structure Eff (α : Type) where
  core : α
  drives : List (Nat × Bool)
  diags : List Diag
  reply : Option Reply
  deriving DecidableEq, Repr

/-- Nothing at all happens (40_signal_line.md R141's and 43_exti.md R254's "nothing at all"). -/
def Eff.nothing {α : Type} (a : α) : Eff α := { core := a, drives := [], diags := [], reply := none }

/-- A read with no side effect returns a value (20_memory.md R77). -/
def Eff.read {α : Type} (a : α) (v : Word) : Eff α :=
  { core := a, drives := [], diags := [], reply := some (.word v) }

/-- The state changes and outputs are driven. -/
def Eff.change {α : Type} (a : α) (drives : List (Nat × Bool)) : Eff α :=
  { core := a, drives := drives, diags := [], reply := none }

/-- `raise Diag` and return: no state and no output changes (60_exceptions.md R367). -/
def Eff.raise {α : Type} (a : α) (cause : Cause) (info : DiagInfo) : Eff α :=
  { core := a, drives := [], diags := [raiseDiag cause info], reply := none }

/-- The same effect with a value returned to the bus master. -/
def Eff.returning {α : Type} (e : Eff α) (v : Word) : Eff α := { e with reply := some (.word v) }

/-- What is left of an effect inside a controller that changes nothing of its state: the diagnostics. -/
def Eff.muted {α : Type} (e : Eff α) (a : α) : Eff α := { core := a, drives := [], diags := e.diags, reply := none }

/-- The same effect inside the sum of controllers. -/
def Eff.lift {α : Type} (f : α → Core) (e : Eff α) : Eff Core :=
  { core := f e.core, drives := e.drives, diags := e.diags, reply := e.reply }

/-- A read of an unhandled address: the default value and a diagnostic (20_memory.md R79). -/
def Eff.unhandledRead {α : Type} (a : α) (off : Nat) : Eff α :=
  (Eff.raise a .unhandledRead (.num off)).returning Config.unhandledReadValue

/-- A write of an unhandled address: dropped, with a diagnostic (20_memory.md R79). -/
def Eff.unhandledWrite {α : Type} (a : α) (off : Nat) : Eff α := Eff.raise a .unhandledWrite (.num off)

/-- The `Unset` calls of a reset: outputs `0 .. n-1`, ascending (70_reset_and_hazards.md R401). -/
def resetDrives (n : Nat) : List (Nat × Bool) := (List.range n).map (fun i => (i, false))

end Sys2Proof.Machine
end

