-- ==== Sys2Proof/Machine/ExtiOps.lean ====
section
/-! DEFINITION. The operations of the EXTI-style controller (43_exti.md). -/

namespace Sys2Proof.Machine

/-- The event is a propagating edge of the line's trigger configuration (43_exti.md R253, R254). -/
def Exti.triggers (e : Exti) (L : Nat) (v : Bool) : Bool :=
  (e.rtsr.getLsbD L && v) || (e.ftsr.getLsbD L && !v)

/-- `OnGPIO` on a configurable line (43_exti.md R254). -/
def Exti.onConfigurable (e : Exti) (L : Nat) (v : Bool) : Eff Exti :=
  if e.imr.getLsbD L && e.triggers L v then Eff.change { e with pr := putBit e.pr L true } [(L, true)]
  else Eff.nothing e

/-- `OnGPIO` on a direct line (43_exti.md R255). -/
def Exti.onDirect (e : Exti) (L : Nat) (v : Bool) : Eff Exti :=
  if e.params.directIgnoresMask || e.imr.getLsbD L then Eff.change e [(L, v)] else Eff.nothing e

/-- `OnGPIO(n, value)`, by the class of the line (43_exti.md R252, R254 to R256). -/
def Exti.onGpio (e : Exti) (n : Int) (v : Bool) : Except Refusal (Eff Exti) :=
  match extiClass e.params n with
  | .configurable => .ok (e.onConfigurable n.toNat v)
  | .direct => .ok (e.onDirect n.toNat v)
  | .dropped => .ok (Eff.raise e .gpioOutOfRange (.num n))
  | .outOfRange => .ok (Eff.raise e .gpioOutOfRange (.num n))

/-- A write of `IMR` (43_exti.md R257): the lines' bits are replaced, nothing else happens. -/
def Exti.writeImr (e : Exti) (w : Word) : Eff Exti :=
  Eff.change { e with imr := writeField .write e.lineMask e.imr w } []

/-- A write of `RTSR` (43_exti.md R257): the configurable lines' bits are replaced, nothing else happens. -/
def Exti.writeRtsr (e : Exti) (w : Word) : Eff Exti :=
  Eff.change { e with rtsr := writeField .write e.configMask e.rtsr w } []

/-- A write of `FTSR` (43_exti.md R257): the configurable lines' bits are replaced, nothing else happens. -/
def Exti.writeFtsr (e : Exti) (w : Word) : Eff Exti :=
  Eff.change { e with ftsr := writeField .write e.configMask e.ftsr w } []

/-- The lines a write of `SWIER` force-pends: written 1, configurable, mask bit set (43_exti.md R258). -/
def Exti.forced (e : Exti) (w : Word) : Word := w &&& e.configMask &&& e.imr

/-- A write of `SWIER` (43_exti.md R258): the forced lines become pending and their outputs high, lines ascending. -/
def Exti.writeSwier (e : Exti) (w : Word) : Eff Exti :=
  Eff.change { e with pr := e.pr ||| e.forced w } ((bitsOf (e.forced w)).map (fun L => (L, true)))

/-- A write of `PR` (43_exti.md R259): write-one-to-clear on the configurable lines, whose outputs go low, lines
ascending. -/
def Exti.writePr (e : Exti) (w : Word) : Eff Exti :=
  Eff.change { e with pr := writeField .writeOneToClear e.configMask e.pr w }
    ((bitsOf (w &&& e.configMask)).map (fun L => (L, false)))

/-- `Reset()` (70_reset_and_hazards.md R401): the state of 10_state.md R68, then every output low. -/
def Exti.resetEff (p : Exti) : Eff Exti :=
  Eff.change (Exti.reset p.params) (resetDrives (CtrlParams.exti p.params).numOutputs)

end Sys2Proof.Machine
end

