-- ==== Sys2Proof/Machine/MuxOps.lean ====
section
/-! DEFINITION. The operations of the INTMUX-style controller (44_intmux.md). -/

namespace Sys2Proof.Machine

/-- `ReEvaluateAll`: every channel's output is driven to `MuxEval`, channels ascending (44_intmux.md R293). -/
def Mux.drives (m : Mux) : List (Nat × Bool) := (List.range m.params.numChannels).map (fun ch => (ch, m.eval ch))

/-- The state becomes `m`, and every output is re-evaluated (44_intmux.md R293). -/
def Mux.reEvaluate (m : Mux) : Eff Mux := Eff.change m m.drives

/-- `OnGPIO(n, value)` (44_intmux.md R291, R292). -/
def Mux.onGpio (m : Mux) (n : Int) (v : Bool) : Except Refusal (Eff Mux) :=
  if inputInRange 0 m.params.muxSources n then
    .ok (Mux.reEvaluate { m with inputs := putBit m.inputs n.toNat v })
  else .ok (Eff.raise m .gpioOutOfRange (.num n))

/-- Change the state of channel `ch`. -/
def Mux.modChan (m : Mux) (ch : Nat) (f : MuxChan → MuxChan) : Mux := { m with chans := m.chans.modify ch f }

/-- A write of `IER[ch]` (44_intmux.md R294): bits of sources that do not exist are forced to 0. -/
def Mux.writeIer (m : Mux) (ch : Nat) (w : Word) : Eff Mux :=
  (m.modChan ch (fun x => { x with ier := w &&& m.sourceMask })).reEvaluate

/-- A write of `CSR[ch]` with `RST = 0` (44_intmux.md R295). -/
def Mux.writeMode (m : Mux) (ch : Nat) (w : Word) : Eff Mux :=
  (m.modChan ch (fun x => { x with andMode := w.getLsbD 1 })).reEvaluate

/-- A write of `CSR[ch]` with `RST = 1`: the channel reset (44_intmux.md R296). -/
def Mux.resetChan (m : Mux) (ch : Nat) : Eff Mux :=
  (m.modChan ch (fun _ => { andMode := false, ier := 0 })).reEvaluate

/-- `Reset()` (70_reset_and_hazards.md R401): the state of 10_state.md R68, then every output low. -/
def Mux.resetEff (p : Mux) : Eff Mux :=
  Eff.change (Mux.reset p.params) (resetDrives (CtrlParams.intmux p.params).numOutputs)

end Sys2Proof.Machine
end

