-- ==== Sys2Proof/Machine/PlicOps.lean ====
section
/-! DEFINITION. The semantic functions of the PLIC-style controller (41_plic.md): `OnGPIO`, `SetPriority`, `EnableSource`,
`Claim`, `Complete`, `ReEvaluateAll`. Each takes the controller's state and gives what the event does in it. -/

namespace Sys2Proof.Machine

/-- Change the state of source `i`; id 0 has none (10_state.md R31). -/
def Plic.modSource (p : Plic) (i : Nat) (f : PlicSrc → PlicSrc) : Plic :=
  if i = 0 then p else { p with srcs := p.srcs.modify (i - 1) f }

/-- Change the state of target `t`. -/
def Plic.modTarget (p : Plic) (t : Nat) (f : PlicTgt → PlicTgt) : Plic :=
  { p with tgts := p.tgts.modify t f }

/-- `ReEvaluateAll`: every target's output is driven to `PlicEval`, targets ascending (41_plic.md R169). -/
def Plic.drives (p : Plic) : List (Nat × Bool) := (List.range p.params.numTargets).map (fun t => (t, p.eval t))

/-- The state becomes `p`, and every output is re-evaluated (41_plic.md R169). -/
def Plic.reEvaluate (p : Plic) : Eff Plic := Eff.change p p.drives

/-- `OnGPIO` on an input of the controller (41_plic.md R161): `State` takes the level, a rising level also latches
`IsPending`. -/
def Plic.input (p : Plic) (i : Nat) (v : Bool) : Eff Plic :=
  (p.modSource i (fun x => { x with state := v, isPending := x.isPending || v })).reEvaluate

/-- `OnGPIO(n, value)` (41_plic.md R161); a number outside `1 .. NUM_SOURCES-1` is refused (R162). -/
def Plic.onGpio (p : Plic) (n : Int) (v : Bool) : Except Refusal (Eff Plic) :=
  if inputInRange 1 p.params.numSources n then .ok (p.input n.toNat v) else .error (.plicGpioOutOfRange n)

/-- `SetPriority(source, value)` (41_plic.md R163). -/
def Plic.setPriority (p : Plic) (i : Nat) (v : Word) : Eff Plic :=
  if p.params.prioritiesEnabled = false then Eff.raise p .prioritiesDisabled (.pair i v.toNat)
  else if i = 0 then Eff.raise p .prioritySource0 (.num v.toNat)
  else (p.modSource i (fun x => { x with priority := v })).reEvaluate

/-- The set update of `EnableSource(target, source, enabled)`, without the re-evaluation that follows once per register
write (41_plic.md R165): the next state and the diagnostics. -/
def Plic.enableSource (p : Plic) (t i : Nat) (en : Bool) : Plic × List Diag :=
  if p.params.numTargets ≤ t then (p, [raiseDiag .targetOutOfRange (.num t)])
  else if i = 0 ∨ p.params.numSources ≤ i then
    (p, if en then [raiseDiag .enableNonexistentSource (.num i)] else [])
  else (p.modTarget t (fun x => { x with enabled := x.enabled.set (i - 1) en }), [])

/-- One bit of a write of `ENABLE[t][w]`: source 0's bit is ignored silently (30_encoding.md R112). -/
def Plic.enableBit (t w : Nat) (v : Word) (a : Plic × List Diag) (b : Nat) : Plic × List Diag :=
  if 32 * w + b = 0 then a
  else ((a.1.enableSource t (32 * w + b) (v.getLsbD b)).1,
        a.2 ++ (a.1.enableSource t (32 * w + b) (v.getLsbD b)).2)

/-- A write of `ENABLE[t][w]` (30_encoding.md R112, 41_plic.md R165): the bits in ascending order, then one re-evaluation. A
target that does not exist is reported once and nothing changes: the register window never names one, only a caller of
the operation by name (R165, log entry 13). -/
def Plic.writeEnable (p : Plic) (t w : Nat) (v : Word) : Eff Plic :=
  if p.params.numTargets ≤ t then Eff.raise p .targetOutOfRange (.num t)
  else
    let r := (List.range 32).foldl (Plic.enableBit t w v) (p, [])
    { core := r.1, drives := r.1.drives, diags := r.2, reply := none }

/-- `Claim(target)` (41_plic.md R167): the acknowledge (60_exceptions.md R376). The selected source's pending flag is
cleared, its id pushed and returned; 0, and nothing changes, if no enabled source is pending. -/
def Plic.claim (p : Plic) (t : Nat) : Eff Plic :=
  if p.params.numTargets ≤ t then (Eff.raise p .targetOutOfRange (.num t)).returning 0
  else
    match p.selected t with
    | none => Eff.read p 0
    | some i =>
      (((p.modSource i (fun x => { x with isPending := false })).modTarget t
          (fun x => { x with inService := x.inService ++ [i] })).reEvaluate).returning (BitVec.ofNat 32 i)

/-- `Complete(target, source)` (41_plic.md R168): the return (60_exceptions.md R377). A source that is not on top of the
stack changes nothing (90_conflicts.md C1). -/
def Plic.complete (p : Plic) (t : Nat) (v : Word) : Eff Plic :=
  if p.params.numTargets ≤ t then Eff.raise p .targetOutOfRange (.num t)
  else if v.toNat = 0 ∨ p.params.numSources ≤ v.toNat then Eff.raise p .completeOutOfRange (.num v.toNat)
  else
    match (p.target t).inService.getLast? with
    | none => Eff.raise p .completeNothingInService (.num v.toNat)
    | some top =>
      if top ≠ v.toNat then Eff.raise p .completeMismatch (.pair v.toNat top)
      else
        ((p.modTarget t (fun x => { x with inService := x.inService.dropLast })).modSource v.toNat
          (fun x => { x with isPending := x.state })).reEvaluate

/-- `Reset()` (70_reset_and_hazards.md R401): the state of 10_state.md R68, then every output low. -/
def Plic.resetEff (p : Plic) : Eff Plic :=
  Eff.change (Plic.reset p.params) (resetDrives (CtrlParams.plic p.params).numOutputs)

end Sys2Proof.Machine
end

