-- ==== Sys2Proof/Machine/VicOps.lean ====
section
/-! DEFINITION. The procedures of the VIC-style controller (42_vic.md): `Enqueue`, `Change`, `Purge`, `Update`, and the
operations built from them. -/

namespace Sys2Proof.Machine

/-- The position, among the `m` queued entries of the new entry's key, at which it goes in: `0 .. m`. With no such entry
there is one position; otherwise the instance's tie rule takes one (42_vic.md R219). -/
def Vic.tiePosition (v : Vic) (e : VicEntry) (m : Nat) : Nat :=
  if m = 0 then 0 else Config.vicTie v.params.tie v.queue e % (m + 1)

/-- The queue with a new entry inserted at the given place among the entries of its key, keys staying ascending
(42_vic.md R213). -/
def insertEntry (q : List VicEntry) (e : VicEntry) (j : Nat) : List VicEntry :=
  let before := q.takeWhile (fun x => decide (x.key < e.key))
  let rest := q.dropWhile (fun x => decide (x.key < e.key))
  let same := rest.takeWhile (fun x => decide (x.key = e.key))
  before ++ same.take j ++ [e] ++ same.drop j ++ rest.dropWhile (fun x => decide (x.key = e.key))

/-- How many entries of a key stand where an entry of that key would be inserted. -/
def tieCount (q : List VicEntry) (k : Nat) : Nat :=
  ((q.dropWhile (fun x => decide (x.key < k))).takeWhile (fun x => decide (x.key = k))).length

/-- `Enqueue(L)` (42_vic.md R213): the key is fixed now, the insertion unconditional. -/
def Vic.enqueue (v : Vic) (L : Nat) : Vic :=
  let e : VicEntry := { line := L, key := v.key L }
  { v with queue := insertEntry v.queue e (v.tiePosition e (tieCount v.queue e.key)) }

/-- The fields of a line that `Change` may write (42_vic.md R201). -/
inductive LineField where
  | pinState | softState | enabled
  deriving DecidableEq, Repr

/-- Write one field of a line. -/
def Vic.putField (v : Vic) (f : LineField) (L : Nat) (b : Bool) : Vic :=
  match f with
  | .pinState => { v with pinState := putBit v.pinState L b }
  | .softState => { v with softState := putBit v.softState L b }
  | .enabled => { v with enabled := putBit v.enabled L b }

/-- `Change(L, field, newvalue)` (42_vic.md R201): a line that becomes active and is not FIQ-classified is enqueued. -/
def Vic.change (f : LineField) (b : Bool) (v : Vic) (L : Nat) : Vic :=
  let v' := v.putField f L b
  if !v.isActive L && v'.isActive L && !v'.isFiq.getLsbD L then v'.enqueue L else v'

/-- `Purge()` (42_vic.md R215): stale entries leave the top of the stack and the front of the queue, no others. -/
def Vic.purge (v : Vic) : Vic :=
  { v with
    stack := (v.stack.reverse.dropWhile (fun e => !v.isActive e.line)).reverse
    queue := v.queue.dropWhile (fun e => !v.isActive e.line) }

/-- The outputs are driven, `IRQ` before `FIQ` (42_vic.md R214). -/
def Vic.drives (v : Vic) : List (Nat × Bool) := [(0, v.irqLevel), (1, v.fiqLevel)]

/-- `Update()` (42_vic.md R214). -/
def Vic.update (v : Vic) : Eff Vic := Eff.change v.purge v.purge.drives

/-- `OnGPIO(n, value)` (42_vic.md R202, R203). -/
def Vic.onGpio (v : Vic) (n : Int) (b : Bool) : Except Refusal (Eff Vic) :=
  if inputInRange 0 Config.vicLines n then .ok (v.change .pinState b n.toNat).update
  else .ok (Eff.raise v .gpioOutOfRange (.num n))

/-- A write that sets or clears one field of every line whose bit is 1, lines ascending, then `Update` (42_vic.md R204,
R205). -/
def Vic.writeLines (v : Vic) (f : LineField) (b : Bool) (w : Word) : Eff Vic :=
  ((bitsOf w).foldl (Vic.change f b) v).update

/-- Some line would be reclassified while it is active or has an entry (42_vic.md R206). -/
def Vic.reclassifiesLive (v : Vic) (w : Word) : Bool :=
  (List.range Config.vicLines).any (fun L =>
    (w.getLsbD L != v.isFiq.getLsbD L) && (v.isActive L || v.hasEntry L))

/-- A write of `INTSELECT` (42_vic.md R206). -/
def Vic.writeIntSelect (v : Vic) (w : Word) : Except Refusal (Eff Vic) :=
  if v.reclassifiesLive w then .error .vicReclassifiesLiveLine
  else .ok (Vic.update { v with isFiq := AccessMode.write.after v.isFiq w })

/-- A write of `VECTCNTL[n]` (42_vic.md R207): entries already queued keep their key. -/
def Vic.writeVectCntl (v : Vic) (n : Nat) (w : Word) : Eff Vic :=
  Vic.update { v with slots := v.slots.set n (VectSlot.ofWord w) }

/-- The address an acknowledge of a line returns: its slot's, by the mapping at the time of the read, or the shared default
(42_vic.md R208). -/
def Vic.addressOf (v : Vic) (L : Nat) : Word :=
  match v.vectorId L with
  | some n => v.addrs.getD n 0
  | none => v.defVectAddr

/-- A read of `VECTADDR` (42_vic.md R208): the acknowledge (60_exceptions.md R376). An empty queue returns the default
address and nothing changes. -/
def Vic.acknowledge (v : Vic) : Eff Vic :=
  match v.queue with
  | [] => Eff.read v v.defVectAddr
  | e :: rest => (Vic.update { v with queue := rest, stack := v.stack ++ [e] }).returning (v.addressOf e.line)

/-- A write of `VECTADDR` (42_vic.md R209): finish-current, the return (60_exceptions.md R377). -/
def Vic.finish (v : Vic) (w : Word) : Eff Vic :=
  match v.stack with
  | [] => Eff.raise v .finishNothingInService (.num w.toNat)
  | _ :: _ => Vic.update { v with stack := v.stack.dropLast }

/-- A write of `DEFVECTADDR` (42_vic.md R211): stored, nothing else. -/
def Vic.writeDefVectAddr (v : Vic) (w : Word) : Eff Vic := Eff.change { v with defVectAddr := w } []

/-- A write of `VECTADDRn[n]` (42_vic.md R211): stored, nothing else. -/
def Vic.writeVectAddrN (v : Vic) (n : Nat) (w : Word) : Eff Vic := Eff.change { v with addrs := v.addrs.set n w } []

/-- `Reset()` (70_reset_and_hazards.md R401): the state of 10_state.md R68, then every output low. -/
def Vic.resetEff (p : Vic) : Eff Vic :=
  Eff.change (Vic.reset p.params) (resetDrives (CtrlParams.vic p.params).numOutputs)

end Sys2Proof.Machine
end

