-- ==== Sys2Proof/Machine/Ops.lean ====
section
/-! DEFINITION. The named operations over the platform's state: reading and writing an instance, driving a Signal Line and
the synchronous, depth-first propagation of its changes (40_signal_line.md R141, R143; 20_memory.md R82), reset
(70_reset_and_hazards.md R401), construction (60_exceptions.md R362), acyclic wiring (20_memory.md R85), and the wrappers
that make one atomic event out of one controller's effect (20_memory.md R80). -/

namespace Sys2Proof.Machine

/-! ## Wiring -/

/-- The fan-out of every output of every controller: the platform's constant wiring (10_state.md R27). -/
def State.wiring (s : State) : List (List (List Endpoint)) :=
  s.ctrls.map (fun x => x.outs.map (fun l => l.receivers))

/-- The controller an endpoint names, if any. -/
def Endpoint.ctrl? (e : Endpoint) : Option Nat :=
  match e.receiver with
  | .ctrl c => some c
  | .outside _ => none

/-- The controllers of the platform that some output of controller `c` drives. -/
def wiringTargets (w : List (List (List Endpoint))) (c : Nat) : List Nat :=
  ((w.getD c []).flatten.filterMap Endpoint.ctrl?).filter (fun d => decide (d < w.length))

/-- No chain of receivers that starts at controller `c` has more than `k` controllers. -/
def heightWithin (w : List (List (List Endpoint))) : Nat → Nat → Bool
  | 0, _ => false
  | k + 1, c => (wiringTargets w c).all (heightWithin w k)

/-- The wiring has no cycle (20_memory.md R85): a chain of receivers visits each of the platform's controllers at most
once, so none is longer than there are controllers. -/
def acyclicWiring (w : List (List (List Endpoint))) : Bool :=
  (List.range w.length).all (heightWithin w w.length)

/-- The platform's wiring has no cycle. -/
def State.acyclic (s : State) : Bool := acyclicWiring s.wiring

/-! ## Signal Lines and propagation -/

/-- A line with a new level. -/
def SigLine.withLevel (l : SigLine) (v : Bool) : SigLine := { l with level := v }

/-- The line a name denotes. -/
def State.line? (s : State) : LineRef → Option SigLine
  | .ext k => s.lines[k]?
  | .out c i => (s.ctrls[c]?).bind (fun x => x.outs[i]?)

/-- Store the level of a line. -/
def State.putLevel (s : State) (L : LineRef) (v : Bool) : State :=
  match L with
  | .ext k => { s with lines := s.lines.modify k (fun l => l.withLevel v) }
  | .out c i =>
    { s with ctrls := s.ctrls.modify c (fun x => { x with outs := x.outs.modify i (fun l => l.withLevel v) }) }

/-- A callback to a receiver outside the platform's controllers. -/
def State.hear (s : State) (r : Nat) (n : Int) (v : Bool) : State :=
  { s with callbacks := s.callbacks ++ [{ receiver := r, number := n, value := v }] }

/-- How an `OnGPIO` event is delivered to a controller. -/
abbrev Delivery := Nat → Int → Bool → State → Except Refusal State

/-- Notify one receiver of a change (40_signal_line.md R141). -/
def notifyOne (dl : Delivery) (v : Bool) (e : Endpoint) (s : State) : Except Refusal State :=
  match e.receiver with
  | .ctrl c => dl c e.number v s
  | .outside r => .ok (s.hear r e.number v)

/-- Notify the receivers in connection order, each call complete before the next (40_signal_line.md R143). -/
def notifyAll (dl : Delivery) (v : Bool) : List Endpoint → State → Except Refusal State
  | [], s => .ok s
  | e :: es, s =>
    match notifyOne dl v e s with
    | .error r => .error r
    | .ok s' => notifyAll dl v es s'

/-- `L.Set(v)` (40_signal_line.md R141): if the level changes it is stored first and then every receiver is notified;
otherwise nothing at all happens. A name that denotes no line has no level to change. -/
def setLine (dl : Delivery) (L : LineRef) (v : Bool) (s : State) : Except Refusal State :=
  match s.line? L with
  | none => .ok s
  | some l => if l.level = v then .ok s else notifyAll dl v l.receivers (s.putLevel L v)

/-- The `Set` calls an event makes on the outputs of controller `c`, in order. -/
def driveAll (dl : Delivery) (c : Nat) : List (Nat × Bool) → State → Except Refusal State
  | [], s => .ok s
  | d :: ds, s =>
    match setLine dl (.out c d.1) d.2 s with
    | .error r => .error r
    | .ok s' => driveAll dl c ds s'

/-- `OnGPIO(n, v)` of a controller of any kind (41_plic.md R161, R162; 42_vic.md R202, R203; 43_exti.md R252 to R256;
44_intmux.md R291, R292). -/
def Core.onGpio (k : Core) (n : Int) (v : Bool) : Except Refusal (Eff Core) :=
  match k with
  | .plic p => (p.onGpio n v).map (Eff.lift .plic)
  | .vic w => (w.onGpio n v).map (Eff.lift .vic)
  | .exti e => (e.onGpio n v).map (Eff.lift .exti)
  | .intmux m => (m.onGpio n v).map (Eff.lift .intmux)

/-- `OnGPIO(n, v)` as delivered to a controller. During a system reset (70_reset_and_hazards.md R405) one that has already been
reset is `settled`: "if B has already been reset the event changes nothing"; the diagnostic it may raise is recorded all the
same. -/
def Core.hearGpio (settled : Bool) (k : Core) (n : Int) (v : Bool) : Except Refusal (Eff Core) :=
  (k.onGpio n v).map (fun e => if settled then e.muted k else e)

/-- The state and the trace of instance `c` after an effect; its outputs are driven separately. -/
def State.putEff (s : State) (c : Nat) (e : Eff Core) : State :=
  { s with ctrls := s.ctrls.modify c (fun x => { x with core := e.core, trace := x.trace ++ e.diags }) }

/-- Deliver `OnGPIO(n, v)` to controller `c`: its state is written, then its outputs are driven, each change running the
receivers' own events to completion, nested and depth first (20_memory.md R82). `done` names the controllers that a system
reset in progress has already reset, and is empty otherwise. The second argument bounds the depth of the nesting; on acyclic
wiring the bound `depthBound` is never reached. -/
def deliver (done : List Nat) : Nat → Delivery
  | 0 => fun _ _ _ _ => .error .cyclicWiring
  | k + 1 => fun c n v s =>
    match s.ctrls[c]? with
    | none => .error (.noSuchController c)
    | some x =>
      match x.core.hearGpio (decide (c ∈ done)) n v with
      | .error r => .error r
      | .ok e => driveAll (deliver done k) c e.drives (s.putEff c e)

/-- A depth of nested events that no acyclic wiring exceeds: one event per controller, and one for an endpoint that names
no controller. -/
def State.depthBound (s : State) : Nat := s.ctrls.length + 1

/-- Deliver with the platform's depth bound. -/
def State.delivery (s : State) : Delivery := deliver [] s.depthBound

/-! ## Events -/

/-- The outcome of an event. -/
def toOutcome (r : Except Refusal State) : Host.Outcome State Fault Refusal :=
  match r with
  | .ok s => .next s
  | .error e => .refused e

/-- The state after a controller's effect, before its outputs are driven: the event's reply is the effect's. -/
def State.begin (s : State) (c : Nat) (e : Eff Core) : State := { s.putEff c e with reply := e.reply }

/-- One atomic event on controller `c`: its state is written, its outputs are driven, everything downstream runs to
completion (20_memory.md R80, R82). -/
def runEff (s : State) (c : Nat) (e : Eff Core) : Except Refusal State :=
  driveAll s.delivery c e.drives (s.begin c e)

/-- One atomic event on controller `c`, given what it does inside it. Cyclic wiring is refused (20_memory.md R85). -/
def ctrlEvent (s : State) (c : Nat) (f : Core → Except Refusal (Eff Core)) : Host.Outcome State Fault Refusal :=
  if s.acyclic then
    match s.ctrls[c]? with
    | none => .refused (.noSuchController c)
    | some x =>
      match f x.core with
      | .error r => .refused r
      | .ok e => toOutcome (runEff s c e)
  else .refused .cyclicWiring

/-- An operation of a PLIC, as an operation of a controller. -/
def onPlic (f : Plic → Except Refusal (Eff Plic)) : Core → Except Refusal (Eff Core)
  | .plic p => (f p).map (Eff.lift .plic)
  | _ => .error .wrongController

/-- An operation of a VIC, as an operation of a controller. -/
def onVic (f : Vic → Except Refusal (Eff Vic)) : Core → Except Refusal (Eff Core)
  | .vic v => (f v).map (Eff.lift .vic)
  | _ => .error .wrongController

/-- An operation of an EXTI, as an operation of a controller. -/
def onExti (f : Exti → Except Refusal (Eff Exti)) : Core → Except Refusal (Eff Core)
  | .exti e => (f e).map (Eff.lift .exti)
  | _ => .error .wrongController

/-- An operation of an INTMUX, as an operation of a controller. -/
def onMux (f : Mux → Except Refusal (Eff Mux)) : Core → Except Refusal (Eff Core)
  | .intmux m => (f m).map (Eff.lift .intmux)
  | _ => .error .wrongController

/-- An operation whose operands must lie in the row's range; a term outside it is no instruction of the platform. -/
def guarded {α : Type} (ok : Bool) (e : Eff α) : Except Refusal (Eff α) := if ok then .ok e else .error .illFormed

/-- One atomic event of the owner of line `L`: the given levels are set one after the other. -/
def setLevels (dl : Delivery) (L : LineRef) : List Bool → State → Except Refusal State
  | [], s => .ok s
  | v :: vs, s =>
    match setLine dl L v s with
    | .error r => .error r
    | .ok s' => setLevels dl L vs s'

/-- The `Set` calls of a line's owner, as one event that returns nothing (40_signal_line.md R141, R142, R144). Only an
external line's owner acts by events of its own (10_state.md R26). -/
def lineEvent (s : State) (L : LineRef) (levels : List Bool) : Host.Outcome State Fault Refusal :=
  if s.acyclic then
    if L.settable s.platform then toOutcome (setLevels s.delivery L levels { s with reply := none })
    else .refused (.lineNotOwned L)
  else .refused .cyclicWiring

/-- The level query (40_signal_line.md R145): returns the level, changes nothing. -/
def queryEvent (s : State) (L : LineRef) : Host.Outcome State Fault Refusal :=
  if s.acyclic then
    match s.line? L with
    | none => .refused (.lineNotOwned L)
    | some l => .next { s with reply := some (.level l.level) }
  else .refused .cyclicWiring

/-! ## System reset -/

/-- `Reset()` of a controller of any kind (70_reset_and_hazards.md R401). -/
def Core.resetEff : Core → Eff Core
  | .plic p => p.resetEff.lift .plic
  | .vic v => v.resetEff.lift .vic
  | .exti e => e.resetEff.lift .exti
  | .intmux m => m.resetEff.lift .intmux

/-- The owners of the external lines drive them low: "after a *system* reset every upstream owner has also driven its lines
low" (70_reset_and_hazards.md R403). -/
def lowerLines (dl : Delivery) : List Nat → State → Except Refusal State
  | [], s => .ok s
  | k :: ks, s =>
    match setLine dl (.ext k) false s with
    | .error r => .error r
    | .ok s' => lowerLines dl ks s'

/-- `Reset()` of one controller after another (70_reset_and_hazards.md R401, R405), the controllers `done` having been reset
before. What a reset's falling outputs cause in a controller not yet reset is overwritten by its own `Reset()`; in one already
reset they, and what they cause on the way, change nothing. -/
def resetInTurn : List Nat → List Nat → State → Except Refusal State
  | _, [], s => .ok s
  | done, c :: cs, s =>
    match s.ctrls[c]? with
    | none => .error (.noSuchController c)
    | some x =>
      match driveAll (deliver done s.depthBound) c x.core.resetEff.drives (s.putEff c x.core.resetEff) with
      | .error r => .error r
      | .ok s' => resetInTurn (c :: done) cs s'

/-- A system reset (70_reset_and_hazards.md R405): the external lines fall, then `Reset()` is invoked on every controller once,
in the given order. One atomic event; that the external lines fall first is a DESIGN CHOICE (log entry 34). -/
def State.systemReset (s : State) (order : List Nat) : Host.Outcome State Fault Refusal :=
  if s.acyclic then
    if order.isPerm (List.range s.ctrls.length) then
      match lowerLines s.delivery (List.range s.lines.length) { s with reply := none } with
      | .error r => .refused r
      | .ok s' => toOutcome (resetInTurn [] order s')
    else .refused .notEveryController
  else .refused .cyclicWiring

/-! ## Construction and bus routing -/

/-- Construct a controller: invalid parameters are a configuration error and no controller results (00_scope.md R9;
60_exceptions.md R362; 70_reset_and_hazards.md R404). -/
def construct (base : Nat) (q : CtrlParams) (fanout : List (List Endpoint)) : Except Diag Ctrl :=
  match q.firstInvalid with
  | some name => .error (raiseDiag .configInvalid (.param name))
  | none => .ok (Ctrl.fresh base q fanout)

/-- The instance and byte offset that an absolute bus address falls to: the first window that contains it (00_scope.md
R14, 20_memory.md R71). No rule of the block depends on it. -/
def State.route (s : State) (addr : Nat) : Option (Nat × Nat) :=
  ((List.range s.ctrls.length).find? (fun c =>
    (s.ctrls[c]?).elim false (fun x => decide (x.base ≤ addr ∧ addr < x.base + x.core.params.size)))).map
    (fun c => (c, addr - (s.ctrls[c]?).elim 0 (fun x => x.base)))

end Sys2Proof.Machine
end

