-- ==== Sys2Proof/Machine/AnyEvents.lean ====
section
/-! DEFINITION. The meanings of the accesses that fall to no register or to a read-only one, on any controller (20_memory.md R79,
30_encoding.md R102). -/

namespace Sys2Proof.Machine

/-- `ANY.unhandled.read`: 0 and a diagnostic (20_memory.md R79). -/
def execAnyUnhandledRead (c off : Nat) (s : State) :
    Host.Outcome State Fault Refusal :=
  ctrlEvent s c (fun k =>
    guarded (s.platform.windowWith c off (fun r => r.isNone)) (Eff.unhandledRead k off))

/-- `ANY.unhandled.write`: dropped, a diagnostic (20_memory.md R79). -/
def execAnyUnhandledWrite (c off : Nat) (_v : Word) (s : State) :
    Host.Outcome State Fault Refusal :=
  ctrlEvent s c (fun k =>
    guarded (s.platform.windowWith c off (fun r => r.isNone)) (Eff.unhandledWrite k off))

/-- `ANY.readonly.write`: ignored silently (30_encoding.md R102, R117, R132). -/
def execAnyReadonlyWrite (c off : Nat) (_v : Word) (s : State) :
    Host.Outcome State Fault Refusal :=
  ctrlEvent s c (fun k =>
    guarded (s.platform.windowWith c off (fun r => r.elim false Reg.readOnly)) (Eff.nothing k))

end Sys2Proof.Machine
end

