-- ==== Sys2Proof/Machine/ExtiEvents.lean ====
section
/-! DEFINITION. The meanings of the EXTI-style controller's events (43_exti.md). -/

namespace Sys2Proof.Machine

/-- `EXTI.OnGPIO.configurable`: latch and assert on a propagating edge of an unmasked line (43_exti.md R254). -/
def execExtiOnGpioConfigurable (c : Nat) (n : Int) (v : Bool) (s : State) :
    Host.Outcome State Fault Refusal :=
  ctrlEvent s c (onExti (fun e =>
    if extiClass e.params n = .configurable then e.onGpio n v else .error .illFormed))

/-- `EXTI.OnGPIO.direct`: pass-through (43_exti.md R255). -/
def execExtiOnGpioDirect (c : Nat) (n : Int) (v : Bool) (s : State) :
    Host.Outcome State Fault Refusal :=
  ctrlEvent s c (onExti (fun e =>
    if extiClass e.params n = .direct then e.onGpio n v else .error .illFormed))

/-- `EXTI.OnGPIO.dropped`: a diagnostic, nothing else (43_exti.md R256). -/
def execExtiOnGpioDropped (c : Nat) (n : Int) (v : Bool) (s : State) :
    Host.Outcome State Fault Refusal :=
  ctrlEvent s c (onExti (fun e =>
    if extiClass e.params n = .dropped then e.onGpio n v else .error .illFormed))

/-- `EXTI.OnGPIO.out_of_range`: a diagnostic, nothing else (43_exti.md R252). -/
def execExtiOnGpioOutOfRange (c : Nat) (n : Int) (v : Bool) (s : State) :
    Host.Outcome State Fault Refusal :=
  ctrlEvent s c (onExti (fun e =>
    if extiClass e.params n = .outOfRange then e.onGpio n v else .error .illFormed))

/-- `EXTI.IMR.read` (43_exti.md R260, 30_encoding.md R125). -/
def execExtiImrRead (c : Nat) (s : State) :
    Host.Outcome State Fault Refusal :=
  ctrlEvent s c (onExti (fun e => .ok (Eff.read e e.imr)))

/-- `EXTI.IMR.write`: stored, reserved bits 0, nothing else (43_exti.md R257). -/
def execExtiImrWrite (c : Nat) (v : Word) (s : State) :
    Host.Outcome State Fault Refusal :=
  ctrlEvent s c (onExti (fun e => .ok (e.writeImr v)))

/-- `EXTI.RTSR.read` (43_exti.md R260, 30_encoding.md R125). -/
def execExtiRtsrRead (c : Nat) (s : State) :
    Host.Outcome State Fault Refusal :=
  ctrlEvent s c (onExti (fun e => .ok (Eff.read e e.rtsr)))

/-- `EXTI.RTSR.write`: stored, reserved bits 0, nothing else (43_exti.md R257). -/
def execExtiRtsrWrite (c : Nat) (v : Word) (s : State) :
    Host.Outcome State Fault Refusal :=
  ctrlEvent s c (onExti (fun e => .ok (e.writeRtsr v)))

/-- `EXTI.FTSR.read` (43_exti.md R260, 30_encoding.md R125). -/
def execExtiFtsrRead (c : Nat) (s : State) :
    Host.Outcome State Fault Refusal :=
  ctrlEvent s c (onExti (fun e => .ok (Eff.read e e.ftsr)))

/-- `EXTI.FTSR.write`: stored, reserved bits 0, nothing else (43_exti.md R257). -/
def execExtiFtsrWrite (c : Nat) (v : Word) (s : State) :
    Host.Outcome State Fault Refusal :=
  ctrlEvent s c (onExti (fun e => .ok (e.writeFtsr v)))

/-- `EXTI.SWIER.read`: reads 0 (43_exti.md R260, 30_encoding.md R126). -/
def execExtiSwierRead (c : Nat) (s : State) :
    Host.Outcome State Fault Refusal :=
  ctrlEvent s c (onExti (fun e => .ok (Eff.read e 0)))

/-- `EXTI.SWIER.write`: force-pend configurable unmasked lines (43_exti.md R258). -/
def execExtiSwierWrite (c : Nat) (v : Word) (s : State) :
    Host.Outcome State Fault Refusal :=
  ctrlEvent s c (onExti (fun e => .ok (e.writeSwier v)))

/-- `EXTI.PR.read` (43_exti.md R260, 30_encoding.md R127). -/
def execExtiPrRead (c : Nat) (s : State) :
    Host.Outcome State Fault Refusal :=
  ctrlEvent s c (onExti (fun e => .ok (Eff.read e e.pr)))

/-- `EXTI.PR.write`: write-one-to-clear (43_exti.md R259). -/
def execExtiPrWrite (c : Nat) (v : Word) (s : State) :
    Host.Outcome State Fault Refusal :=
  ctrlEvent s c (onExti (fun e => .ok (e.writePr v)))

/-- `EXTI.Reset`: every state field at its reset value, then every output `Unset`, ascending (70_reset_and_hazards.md R401). -/
def execExtiReset (c : Nat) (s : State) :
    Host.Outcome State Fault Refusal :=
  ctrlEvent s c (onExti (fun x => .ok x.resetEff))

end Sys2Proof.Machine
end

