-- ==== Sys2Proof/Machine/MuxEvents.lean ====
section
/-! DEFINITION. The meanings of the INTMUX-style controller's events (44_intmux.md). -/

namespace Sys2Proof.Machine

/-- `INTMUX.OnGPIO` on an input of the controller (44_intmux.md R291). -/
def execMuxOnGpio (c : Nat) (n : Int) (v : Bool) (s : State) :
    Host.Outcome State Fault Refusal :=
  ctrlEvent s c (onMux (fun m =>
    if inputInRange 0 m.params.muxSources n then m.onGpio n v else .error .illFormed))

/-- `INTMUX.OnGPIO.out_of_range`: a diagnostic, nothing else (44_intmux.md R292). -/
def execMuxOnGpioOutOfRange (c : Nat) (n : Int) (v : Bool) (s : State) :
    Host.Outcome State Fault Refusal :=
  ctrlEvent s c (onMux (fun m =>
    if inputInRange 0 m.params.muxSources n then .error .illFormed else m.onGpio n v))

/-- `INTMUX.CSR.read` (44_intmux.md R297, 30_encoding.md R129). -/
def execMuxCsrRead (c ch : Nat) (s : State) :
    Host.Outcome State Fault Refusal :=
  ctrlEvent s c (onMux (fun m => guarded (decide (ch < m.params.numChannels)) (Eff.read m (m.csrWord ch))))

/-- `INTMUX.CSR.mode.write`: `v[0] = 0`, `AND` takes `v[1]` (44_intmux.md R295). -/
def execMuxCsrModeWrite (c ch : Nat) (v : Word) (s : State) :
    Host.Outcome State Fault Refusal :=
  ctrlEvent s c (onMux (fun m => guarded (decide (ch < m.params.numChannels) && !v.getLsbD 0) (m.writeMode ch v)))

/-- `INTMUX.CSR.reset.write`: `v[0] = 1`, channel reset (44_intmux.md R296). -/
def execMuxCsrResetWrite (c ch : Nat) (v : Word) (s : State) :
    Host.Outcome State Fault Refusal :=
  ctrlEvent s c (onMux (fun m => guarded (decide (ch < m.params.numChannels) && v.getLsbD 0) (m.resetChan ch)))

/-- `INTMUX.VEC.read` (44_intmux.md R297, R298). -/
def execMuxVecRead (c ch : Nat) (s : State) :
    Host.Outcome State Fault Refusal :=
  ctrlEvent s c (onMux (fun m => guarded (decide (ch < m.params.numChannels)) (Eff.read m (m.vec ch))))

/-- `INTMUX.IER.read` (44_intmux.md R297). -/
def execMuxIerRead (c ch : Nat) (s : State) :
    Host.Outcome State Fault Refusal :=
  ctrlEvent s c (onMux (fun m => guarded (decide (ch < m.params.numChannels)) (Eff.read m (m.chan ch).ier)))

/-- `INTMUX.IER.write` (44_intmux.md R294). -/
def execMuxIerWrite (c ch : Nat) (v : Word) (s : State) :
    Host.Outcome State Fault Refusal :=
  ctrlEvent s c (onMux (fun m => guarded (decide (ch < m.params.numChannels)) (m.writeIer ch v)))

/-- `INTMUX.IPR.read` (44_intmux.md R297). -/
def execMuxIprRead (c ch : Nat) (s : State) :
    Host.Outcome State Fault Refusal :=
  ctrlEvent s c (onMux (fun m => guarded (decide (ch < m.params.numChannels)) (Eff.read m (m.ipr ch))))

/-- `INTMUX.Reset`: every state field at its reset value, then every output `Unset`, ascending (70_reset_and_hazards.md R401). -/
def execMuxReset (c : Nat) (s : State) :
    Host.Outcome State Fault Refusal :=
  ctrlEvent s c (onMux (fun x => .ok x.resetEff))

end Sys2Proof.Machine
end

