-- ==== Sys2Proof/Machine/PlicEvents.lean ====
section
/-! DEFINITION. The meanings of the PLIC-style controller's events (41_plic.md). -/

namespace Sys2Proof.Machine

/-- `PLIC.OnGPIO` on an input of the controller (41_plic.md R161). -/
def execPlicOnGpio (c : Nat) (n : Int) (v : Bool) (s : State) :
    Host.Outcome State Fault Refusal :=
  ctrlEvent s c (onPlic (fun p =>
    if inputInRange 1 p.params.numSources n then p.onGpio n v else .error .illFormed))

/-- `PLIC.OnGPIO.out_of_range`: refused; "a model has no such event, or gives it no meaning" (41_plic.md R162). -/
def execPlicOnGpioOutOfRange (c : Nat) (n : Int) (v : Bool) (s : State) :
    Host.Outcome State Fault Refusal :=
  ctrlEvent s c (onPlic (fun p =>
    if inputInRange 1 p.params.numSources n then .error .illFormed else p.onGpio n v))

/-- `PLIC.PRIORITY.write`: `SetPriority(i, v)` (41_plic.md R163). -/
def execPlicPriorityWrite (c i : Nat) (v : Word) (s : State) :
    Host.Outcome State Fault Refusal :=
  ctrlEvent s c (onPlic (fun p => guarded (decide (i < p.params.numSources)) (p.setPriority i v)))

/-- `PLIC.PRIORITY.read`: the priority, 0 for source 0 (41_plic.md R164). -/
def execPlicPriorityRead (c i : Nat) (s : State) :
    Host.Outcome State Fault Refusal :=
  ctrlEvent s c (onPlic (fun p => guarded (decide (i < p.params.numSources)) (Eff.read p (p.source i).priority)))

/-- `PLIC.ENABLE.write`: `EnableSource` per bit, one re-evaluation (41_plic.md R165, 30_encoding.md R112). A target that does
not exist is a call of the operation by name (log entry 13). -/
def execPlicEnableWrite (c t w : Nat) (v : Word) (s : State) :
    Host.Outcome State Fault Refusal :=
  ctrlEvent s c (onPlic (fun p => guarded (decide (w < 32)) (p.writeEnable t w v)))

/-- `PLIC.ENABLE.read`: bit `b` is 1 iff source `32*w + b` is enabled for `t` (41_plic.md R166). -/
def execPlicEnableRead (c t w : Nat) (s : State) :
    Host.Outcome State Fault Refusal :=
  ctrlEvent s c (onPlic (fun p => guarded (decide (t < p.params.numTargets) && decide (w < 32))
    (Eff.read p (p.enableWord t w))))

/-- `PLIC.CLAIMCOMPLETE.read`: `Claim(t)` (41_plic.md R167). A target that does not exist is a call of the operation by name
(log entry 13). -/
def execPlicClaimRead (c t : Nat) (s : State) :
    Host.Outcome State Fault Refusal :=
  ctrlEvent s c (onPlic (fun p => .ok (p.claim t)))

/-- `PLIC.CLAIMCOMPLETE.write`: `Complete(t, v)` (41_plic.md R168). A target that does not exist is a call of the operation by
name (log entry 13). -/
def execPlicCompleteWrite (c t : Nat) (v : Word) (s : State) :
    Host.Outcome State Fault Refusal :=
  ctrlEvent s c (onPlic (fun p => .ok (p.complete t v)))

/-- `PLIC.Reset`: every state field at its reset value, then every output `Unset`, ascending (70_reset_and_hazards.md R401). -/
def execPlicReset (c : Nat) (s : State) :
    Host.Outcome State Fault Refusal :=
  ctrlEvent s c (onPlic (fun x => .ok x.resetEff))

end Sys2Proof.Machine
end

