-- ==== Sys2Proof/Machine/SignalLine.lean ====
section
/-! DEFINITION. The meanings of the Signal Line operations (40_signal_line.md). -/

namespace Sys2Proof.Machine

/-- `SL.Set`: `L.Set(v)` by the owner of `L` (40_signal_line.md R141). -/
def execSlSet (L : LineRef) (v : Bool) (s : State) :
    Host.Outcome State Fault Refusal :=
  lineEvent s L [v]

/-- `SL.SetTrue`: `L.Set()`, which is `L.Set(true)` (40_signal_line.md R142). -/
def execSlSetTrue (L : LineRef) (s : State) :
    Host.Outcome State Fault Refusal :=
  lineEvent s L [true]

/-- `SL.Unset`: `L.Unset()`, which is `L.Set(false)` (40_signal_line.md R142). -/
def execSlUnset (L : LineRef) (s : State) :
    Host.Outcome State Fault Refusal :=
  lineEvent s L [false]

/-- `SL.Blink`: `Set(true)` then `Set(false)`, inside one event of the owner (40_signal_line.md R144). -/
def execSlBlink (L : LineRef) (s : State) :
    Host.Outcome State Fault Refusal :=
  lineEvent s L [true, false]

/-- `SL.Query`: returns `L.level`, changes nothing (40_signal_line.md R145). -/
def execSlQuery (L : LineRef) (s : State) :
    Host.Outcome State Fault Refusal :=
  queryEvent s L

end Sys2Proof.Machine
end

