-- ==== Sys2Proof/Machine/VicEvents.lean ====
section
/-! DEFINITION. The meanings of the VIC-style controller's events (42_vic.md). -/

namespace Sys2Proof.Machine

/-- `VIC.OnGPIO` on one of the 32 lines (42_vic.md R202). -/
def execVicOnGpio (c : Nat) (n : Int) (v : Bool) (s : State) :
    Host.Outcome State Fault Refusal :=
  ctrlEvent s c (onVic (fun x =>
    if inputInRange 0 Config.vicLines n then x.onGpio n v else .error .illFormed))

/-- `VIC.OnGPIO.out_of_range`: a diagnostic, nothing else (42_vic.md R203). -/
def execVicOnGpioOutOfRange (c : Nat) (n : Int) (v : Bool) (s : State) :
    Host.Outcome State Fault Refusal :=
  ctrlEvent s c (onVic (fun x =>
    if inputInRange 0 Config.vicLines n then .error .illFormed else x.onGpio n v))

/-- `VIC.IRQSTATUS.read` (42_vic.md R210, 30_encoding.md R117). -/
def execVicIrqStatusRead (c : Nat) (s : State) :
    Host.Outcome State Fault Refusal :=
  ctrlEvent s c (onVic (fun x => .ok (Eff.read x x.irqStatus)))

/-- `VIC.FIQSTATUS.read` (42_vic.md R210, 30_encoding.md R117). -/
def execVicFiqStatusRead (c : Nat) (s : State) :
    Host.Outcome State Fault Refusal :=
  ctrlEvent s c (onVic (fun x => .ok (Eff.read x x.fiqStatus)))

/-- `VIC.RAWINTR.read` (42_vic.md R210, 30_encoding.md R117). -/
def execVicRawIntrRead (c : Nat) (s : State) :
    Host.Outcome State Fault Refusal :=
  ctrlEvent s c (onVic (fun x => .ok (Eff.read x x.rawIntr)))

/-- `VIC.INTSELECT.read` (42_vic.md R210, 30_encoding.md R118). -/
def execVicIntSelectRead (c : Nat) (s : State) :
    Host.Outcome State Fault Refusal :=
  ctrlEvent s c (onVic (fun x => .ok (Eff.read x x.isFiq)))

/-- `VIC.INTSELECT.write` (42_vic.md R206); refused where it would reclassify a line that is active or has an entry. -/
def execVicIntSelectWrite (c : Nat) (v : Word) (s : State) :
    Host.Outcome State Fault Refusal :=
  ctrlEvent s c (onVic (fun x => x.writeIntSelect v))

/-- `VIC.INTENABLE.read` (42_vic.md R210, 30_encoding.md R119). -/
def execVicIntEnableRead (c : Nat) (s : State) :
    Host.Outcome State Fault Refusal :=
  ctrlEvent s c (onVic (fun x => .ok (Eff.read x x.enabled)))

/-- `VIC.INTENABLE.write`: a 1 enables its line (42_vic.md R204). -/
def execVicIntEnableWrite (c : Nat) (v : Word) (s : State) :
    Host.Outcome State Fault Refusal :=
  ctrlEvent s c (onVic (fun x => .ok (x.writeLines .enabled true v)))

/-- `VIC.INTENCLEAR.read`: a write-only register reads 0 (42_vic.md R210, 30_encoding.md R119). -/
def execVicIntEnClearRead (c : Nat) (s : State) :
    Host.Outcome State Fault Refusal :=
  ctrlEvent s c (onVic (fun x => .ok (Eff.read x 0)))

/-- `VIC.INTENCLEAR.write`: a 1 disables its line (42_vic.md R204). -/
def execVicIntEnClearWrite (c : Nat) (v : Word) (s : State) :
    Host.Outcome State Fault Refusal :=
  ctrlEvent s c (onVic (fun x => .ok (x.writeLines .enabled false v)))

/-- `VIC.SOFTINT.read` (42_vic.md R210, 30_encoding.md R120). -/
def execVicSoftIntRead (c : Nat) (s : State) :
    Host.Outcome State Fault Refusal :=
  ctrlEvent s c (onVic (fun x => .ok (Eff.read x x.softState)))

/-- `VIC.SOFTINT.write`: a 1 sets its line's software state (42_vic.md R205). -/
def execVicSoftIntWrite (c : Nat) (v : Word) (s : State) :
    Host.Outcome State Fault Refusal :=
  ctrlEvent s c (onVic (fun x => .ok (x.writeLines .softState true v)))

/-- `VIC.SOFTINTCLEAR.read`: a write-only register reads 0 (42_vic.md R210, 30_encoding.md R120). -/
def execVicSoftIntClearRead (c : Nat) (s : State) :
    Host.Outcome State Fault Refusal :=
  ctrlEvent s c (onVic (fun x => .ok (Eff.read x 0)))

/-- `VIC.SOFTINTCLEAR.write`: a 1 clears its line's software state (42_vic.md R205). -/
def execVicSoftIntClearWrite (c : Nat) (v : Word) (s : State) :
    Host.Outcome State Fault Refusal :=
  ctrlEvent s c (onVic (fun x => .ok (x.writeLines .softState false v)))

/-- `VIC.VECTADDR.read`: the acknowledge (42_vic.md R208). -/
def execVicVectAddrRead (c : Nat) (s : State) :
    Host.Outcome State Fault Refusal :=
  ctrlEvent s c (onVic (fun x => .ok x.acknowledge))

/-- `VIC.VECTADDR.write`: finish-current (42_vic.md R209). -/
def execVicVectAddrWrite (c : Nat) (v : Word) (s : State) :
    Host.Outcome State Fault Refusal :=
  ctrlEvent s c (onVic (fun x => .ok (x.finish v)))

/-- `VIC.DEFVECTADDR.read` (42_vic.md R210, 30_encoding.md R122). -/
def execVicDefVectAddrRead (c : Nat) (s : State) :
    Host.Outcome State Fault Refusal :=
  ctrlEvent s c (onVic (fun x => .ok (Eff.read x x.defVectAddr)))

/-- `VIC.DEFVECTADDR.write` (42_vic.md R211). -/
def execVicDefVectAddrWrite (c : Nat) (v : Word) (s : State) :
    Host.Outcome State Fault Refusal :=
  ctrlEvent s c (onVic (fun x => .ok (x.writeDefVectAddr v)))

/-- `VIC.VECTADDRn.read` (42_vic.md R210, 30_encoding.md R122). -/
def execVicVectAddrNRead (c n : Nat) (s : State) :
    Host.Outcome State Fault Refusal :=
  ctrlEvent s c (onVic (fun x => guarded (decide (n < Config.vicSlots)) (Eff.read x (x.addrs.getD n 0))))

/-- `VIC.VECTADDRn.write` (42_vic.md R211). -/
def execVicVectAddrNWrite (c n : Nat) (v : Word) (s : State) :
    Host.Outcome State Fault Refusal :=
  ctrlEvent s c (onVic (fun x => guarded (decide (n < Config.vicSlots)) (x.writeVectAddrN n v)))

/-- `VIC.VECTCNTL.read` (42_vic.md R210, 30_encoding.md R123). -/
def execVicVectCntlRead (c n : Nat) (s : State) :
    Host.Outcome State Fault Refusal :=
  ctrlEvent s c (onVic (fun x => guarded (decide (n < Config.vicSlots))
    (Eff.read x (VectSlot.toWord (x.slots.getD n (VectSlot.ofWord 0))))))

/-- `VIC.VECTCNTL.write` (42_vic.md R207). -/
def execVicVectCntlWrite (c n : Nat) (v : Word) (s : State) :
    Host.Outcome State Fault Refusal :=
  ctrlEvent s c (onVic (fun x => guarded (decide (n < Config.vicSlots)) (x.writeVectCntl n v)))

/-- `VIC.Reset`: every state field at its reset value, then every output `Unset`, ascending (70_reset_and_hazards.md R401). -/
def execVicReset (c : Nat) (s : State) :
    Host.Outcome State Fault Refusal :=
  ctrlEvent s c (onVic (fun x => .ok x.resetEff))

end Sys2Proof.Machine
end

