-- ==== Sys2Proof/Machine/Dispatch.lean ====
section
/-! DEFINITION. The meaning of every instruction, one arm per constructor (spec/opcode_table.json). -/

namespace Sys2Proof.Machine

/-- What an instruction does (one atomic event, 20_memory.md R80). -/
def exec (i : Instr) (s : State) : Host.Outcome State Fault Refusal :=
  match i with
  | .slSet L v => Sys2Proof.Machine.execSlSet L v s
  | .slSetTrue L => Sys2Proof.Machine.execSlSetTrue L s
  | .slUnset L => Sys2Proof.Machine.execSlUnset L s
  | .slBlink L => Sys2Proof.Machine.execSlBlink L s
  | .slQuery L => Sys2Proof.Machine.execSlQuery L s
  | .plicOnGpio c n v => Sys2Proof.Machine.execPlicOnGpio c n v s
  | .plicOnGpioOutOfRange c n v => Sys2Proof.Machine.execPlicOnGpioOutOfRange c n v s
  | .plicPriorityWrite c src v => Sys2Proof.Machine.execPlicPriorityWrite c src v s
  | .plicPriorityRead c src => Sys2Proof.Machine.execPlicPriorityRead c src s
  | .plicEnableWrite c t w v => Sys2Proof.Machine.execPlicEnableWrite c t w v s
  | .plicEnableRead c t w => Sys2Proof.Machine.execPlicEnableRead c t w s
  | .plicClaimRead c t => Sys2Proof.Machine.execPlicClaimRead c t s
  | .plicCompleteWrite c t v => Sys2Proof.Machine.execPlicCompleteWrite c t v s
  | .plicReset c => Sys2Proof.Machine.execPlicReset c s
  | .vicOnGpio c n v => Sys2Proof.Machine.execVicOnGpio c n v s
  | .vicOnGpioOutOfRange c n v => Sys2Proof.Machine.execVicOnGpioOutOfRange c n v s
  | .vicIrqStatusRead c => Sys2Proof.Machine.execVicIrqStatusRead c s
  | .vicFiqStatusRead c => Sys2Proof.Machine.execVicFiqStatusRead c s
  | .vicRawIntrRead c => Sys2Proof.Machine.execVicRawIntrRead c s
  | .vicIntSelectRead c => Sys2Proof.Machine.execVicIntSelectRead c s
  | .vicIntSelectWrite c v => Sys2Proof.Machine.execVicIntSelectWrite c v s
  | .vicIntEnableRead c => Sys2Proof.Machine.execVicIntEnableRead c s
  | .vicIntEnableWrite c v => Sys2Proof.Machine.execVicIntEnableWrite c v s
  | .vicIntEnClearRead c => Sys2Proof.Machine.execVicIntEnClearRead c s
  | .vicIntEnClearWrite c v => Sys2Proof.Machine.execVicIntEnClearWrite c v s
  | .vicSoftIntRead c => Sys2Proof.Machine.execVicSoftIntRead c s
  | .vicSoftIntWrite c v => Sys2Proof.Machine.execVicSoftIntWrite c v s
  | .vicSoftIntClearRead c => Sys2Proof.Machine.execVicSoftIntClearRead c s
  | .vicSoftIntClearWrite c v => Sys2Proof.Machine.execVicSoftIntClearWrite c v s
  | .vicVectAddrRead c => Sys2Proof.Machine.execVicVectAddrRead c s
  | .vicVectAddrWrite c v => Sys2Proof.Machine.execVicVectAddrWrite c v s
  | .vicDefVectAddrRead c => Sys2Proof.Machine.execVicDefVectAddrRead c s
  | .vicDefVectAddrWrite c v => Sys2Proof.Machine.execVicDefVectAddrWrite c v s
  | .vicVectAddrNRead c n => Sys2Proof.Machine.execVicVectAddrNRead c n s
  | .vicVectAddrNWrite c n v => Sys2Proof.Machine.execVicVectAddrNWrite c n v s
  | .vicVectCntlRead c n => Sys2Proof.Machine.execVicVectCntlRead c n s
  | .vicVectCntlWrite c n v => Sys2Proof.Machine.execVicVectCntlWrite c n v s
  | .vicReset c => Sys2Proof.Machine.execVicReset c s
  | .extiOnGpioConfigurable c n v => Sys2Proof.Machine.execExtiOnGpioConfigurable c n v s
  | .extiOnGpioDirect c n v => Sys2Proof.Machine.execExtiOnGpioDirect c n v s
  | .extiOnGpioDropped c n v => Sys2Proof.Machine.execExtiOnGpioDropped c n v s
  | .extiOnGpioOutOfRange c n v => Sys2Proof.Machine.execExtiOnGpioOutOfRange c n v s
  | .extiImrRead c => Sys2Proof.Machine.execExtiImrRead c s
  | .extiImrWrite c v => Sys2Proof.Machine.execExtiImrWrite c v s
  | .extiRtsrRead c => Sys2Proof.Machine.execExtiRtsrRead c s
  | .extiRtsrWrite c v => Sys2Proof.Machine.execExtiRtsrWrite c v s
  | .extiFtsrRead c => Sys2Proof.Machine.execExtiFtsrRead c s
  | .extiFtsrWrite c v => Sys2Proof.Machine.execExtiFtsrWrite c v s
  | .extiSwierRead c => Sys2Proof.Machine.execExtiSwierRead c s
  | .extiSwierWrite c v => Sys2Proof.Machine.execExtiSwierWrite c v s
  | .extiPrRead c => Sys2Proof.Machine.execExtiPrRead c s
  | .extiPrWrite c v => Sys2Proof.Machine.execExtiPrWrite c v s
  | .extiReset c => Sys2Proof.Machine.execExtiReset c s
  | .muxOnGpio c n v => Sys2Proof.Machine.execMuxOnGpio c n v s
  | .muxOnGpioOutOfRange c n v => Sys2Proof.Machine.execMuxOnGpioOutOfRange c n v s
  | .muxCsrRead c ch => Sys2Proof.Machine.execMuxCsrRead c ch s
  | .muxCsrModeWrite c ch v => Sys2Proof.Machine.execMuxCsrModeWrite c ch v s
  | .muxCsrResetWrite c ch v => Sys2Proof.Machine.execMuxCsrResetWrite c ch v s
  | .muxVecRead c ch => Sys2Proof.Machine.execMuxVecRead c ch s
  | .muxIerRead c ch => Sys2Proof.Machine.execMuxIerRead c ch s
  | .muxIerWrite c ch v => Sys2Proof.Machine.execMuxIerWrite c ch v s
  | .muxIprRead c ch => Sys2Proof.Machine.execMuxIprRead c ch s
  | .muxReset c => Sys2Proof.Machine.execMuxReset c s
  | .anyUnhandledRead c off => Sys2Proof.Machine.execAnyUnhandledRead c off s
  | .anyUnhandledWrite c off v => Sys2Proof.Machine.execAnyUnhandledWrite c off v s
  | .anyReadonlyWrite c off v => Sys2Proof.Machine.execAnyReadonlyWrite c off v s

end Sys2Proof.Machine
end

