-- ==== Sys2Proof/Machine/Step.lean ====
section
/-! DEFINITION. One step: the next event of the total order is taken from `inbox`, decoded on the platform and run. There
is no program counter and no fetch (10_state.md R21, 20_memory.md R76): between events nothing changes. -/

namespace Sys2Proof.Machine

/-- One step (log entry 1): with no event to deliver nothing changes (10_state.md R21); otherwise the first event leaves
`inbox`. A system reset is run as a whole (log entry 34); any other event is decoded and run, or is refused if it is no
instruction of the platform. -/
def step (s : State) : Host.Outcome State Fault Refusal :=
  match s.inbox with
  | [] => .next s
  | .systemReset order :: rest => State.systemReset { s with inbox := rest } order
  | e :: rest =>
    match decode s.platform e with
    | .error err => .refused (.undecodable err)
    | .ok i => exec i { s with inbox := rest }

/-- The event of a word of spec/opcode_table.json placed where `step` takes its next event (log entries 1, 21). -/
def State.withFetchWord (s : State) (nbits w : Nat) : State := { s with inbox := tableEvent nbits w :: s.inbox }

end Sys2Proof.Machine
end

