-- ==== Sys2Proof/Safety.lean ====
section
/-! DEFINITION. What counts as a sound platform and a safe run, in the terms claims use: the shape of each controller's
state (which bits and indices the spec hard-wires), the output invariants R33, R42, R52 and R61 of 10_state.md, wiring that
reaches existing inputs only and has no cycle (20_memory.md R85), what lies downstream of a controller (R84), and what an
event on one controller leaves alone. -/

namespace Sys2Proof.Machine

/-! ## Shape -/

/-- The shape of a PLIC's state: one entry per source and per target, only real ids in service (10_state.md R30 to
R32). -/
def Plic.shapeOk (p : Plic) : Bool :=
  decide (p.srcs.length + 1 = p.params.numSources) && decide (p.tgts.length = p.params.numTargets) &&
    p.tgts.all (fun t => decide (t.enabled.length + 1 = p.params.numSources) &&
      t.inService.all (fun i => decide (1 ≤ i ∧ i < p.params.numSources)))

/-- An entry of the VIC's queue or stack names a line, and its key is a slot number or `INT_MAX` (10_state.md R41,
00_scope.md R15). -/
def VicEntry.ok (e : VicEntry) : Bool :=
  decide (e.line < Config.vicLines) && decide (e.key < Config.vicSlots ∨ e.key = Config.intMax)

/-- Keys ascend from the front of a queue (10_state.md R41). -/
def keysAscend (q : List VicEntry) : Bool := decide (q.Pairwise (fun a b => a.key ≤ b.key))

/-- The shape of a VIC's state: 16 slots and addresses, entries that name lines, keys of the queue ascending (10_state.md
R39, R41). -/
def Vic.shapeOk (v : Vic) : Bool :=
  decide (v.slots.length = Config.vicSlots) && decide (v.addrs.length = Config.vicSlots) &&
    v.queue.all VicEntry.ok && v.stack.all VicEntry.ok && keysAscend v.queue

/-- The shape of an EXTI's state: the bits of lines that do not exist, and in `RTSR`, `FTSR`, `PR` of lines that are not
configurable, are 0 (10_state.md R50). -/
def Exti.shapeOk (e : Exti) : Bool :=
  decide (e.imr &&& ~~~e.lineMask = 0) && decide (e.rtsr &&& ~~~e.configMask = 0) &&
    decide (e.ftsr &&& ~~~e.configMask = 0) && decide (e.pr &&& ~~~e.configMask = 0)

/-- The shape of an INTMUX's state: one entry per channel, the bits of sources that do not exist are 0 (10_state.md R58,
R59). -/
def Mux.shapeOk (m : Mux) : Bool :=
  decide (m.chans.length = m.params.numChannels) && decide (m.inputs &&& ~~~m.sourceMask = 0) &&
    m.chans.all (fun x => decide (x.ier &&& ~~~m.sourceMask = 0))

/-- The shape of a controller's state. -/
def Core.shapeOk : Core → Bool
  | .plic p => p.shapeOk
  | .vic v => v.shapeOk
  | .exti e => e.shapeOk
  | .intmux m => m.shapeOk

/-- A controller has valid parameters (00_scope.md R9), a well-shaped state, and one output line per Connections index. -/
def Ctrl.shapeOk (x : Ctrl) : Bool :=
  x.core.params.valid && x.core.shapeOk && decide (x.outs.length = x.core.params.numOutputs)

/-! ## The output invariants -/

/-- The front of the VIC's queue and the top of its stack are active, where there is one (10_state.md R42). -/
def Vic.endsActive (v : Vic) : Bool :=
  v.queue.head?.elim true (fun e => v.isActive e.line) && v.stack.getLast?.elim true (fun e => v.isActive e.line)

/-- `Vic.endsActive` for a VIC, nothing for the others. -/
def Core.endsActive : Core → Bool
  | .vic v => v.endsActive
  | _ => true

/-- Every output whose level the spec makes a function of the state has that level (10_state.md R33, R42, R52, R61). -/
def Ctrl.outputsOk (x : Ctrl) : Bool :=
  (List.range x.outs.length).all (fun i =>
    match x.core.outLevel i, x.outs[i]? with
    | some b, some l => l.level == b
    | _, _ => true)

/-- The invariant of one controller, true after construction and after every event (10_state.md R33, R42, R50, R52, R58 to
R61). -/
def Ctrl.ok (x : Ctrl) : Bool := x.shapeOk && x.core.endsActive && x.outputsOk

/-- The invariant of a platform: every controller satisfies its own. -/
def State.Inv (s : State) : Prop := ∀ x ∈ s.ctrls, x.ok = true

/-! ## Sound wiring -/

/-- The endpoint is a receiver outside the platform, or an input that exists: of a PLIC, a source in range (41_plic.md
R162). -/
def Endpoint.ok (p : Platform) (e : Endpoint) : Bool :=
  match e.receiver with
  | .outside _ => true
  | .ctrl c =>
    match p.ctrls[c]? with
    | none => false
    | some (.plic q) => inputInRange 1 q.numSources e.number
    | some _ => true

/-- Every endpoint of every line, external or output, is an input that exists. -/
def State.wired (s : State) : Bool :=
  s.lines.all (fun l => l.receivers.all (Endpoint.ok s.platform)) &&
    s.wiring.all (fun c => c.all (fun l => l.all (Endpoint.ok s.platform)))

/-- The platform's wiring is sound: endpoints exist and there is no cycle (20_memory.md R85). -/
def State.sound (s : State) : Bool := s.wired && s.acyclic

/-- `d` is `c` or is reached from `c` through a chain of at most `k` receivers. -/
def reachesWithin (w : List (List (List Endpoint))) : Nat → Nat → Nat → Bool
  | 0, c, d => c == d
  | k + 1, c, d => c == d || (wiringTargets w c).any (fun e => reachesWithin w k e d)

/-- `d` is `c` or lies downstream of it: an event on `c` may run an event nested in it on `d` (20_memory.md R82, R84). A
chain longer than the number of controllers visits one twice, so the bound cuts nothing off. -/
def State.downstream (s : State) (c d : Nat) : Bool := reachesWithin s.wiring (s.depthBound + 1) c d

/-! ## What an event leaves alone -/

/-- No trace has lost a record (10_state.md R23: "append-only"). -/
def State.TracesGrow (s t : State) : Prop :=
  ∀ d : Nat, ∃ l, (t.ctrls[d]?).map Ctrl.trace = (s.ctrls[d]?).map (fun x : Ctrl => x.trace ++ l)

/-- The frame of an event on controller `c`: events, external lines, wiring, parameters, base addresses and every controller
that is not downstream of `c` are as before, and no trace has lost a record. -/
def State.Frame (s t : State) (c : Nat) : Prop :=
  t.inbox = s.inbox ∧ t.lines = s.lines ∧ t.wiring = s.wiring ∧ t.platform = s.platform ∧
    t.ctrls.map Ctrl.base = s.ctrls.map Ctrl.base ∧
    (∀ d, s.downstream c d = false → t.ctrls[d]? = s.ctrls[d]?) ∧ s.TracesGrow t

/-- Controller `c` after an event: its state is `k`, its trace has grown by `diags`, the event returned `reply`, and the
rest is as `Frame` says. -/
def State.After (s t : State) (c : Nat) (k : Core) (diags : List Diag) (reply : Option Reply) : Prop :=
  s.Frame t c ∧ t.reply = reply ∧
    (t.ctrls[c]?).map Ctrl.core = some k ∧
    (t.ctrls[c]?).map Ctrl.trace = (s.ctrls[c]?).map (fun x => x.trace ++ diags)

/-- An event that changes nothing but what it returns. -/
def State.Same (s t : State) (reply : Option Reply) : Prop := t = { s with reply := reply }

/-- An event that changes nothing but the trace of controller `c`, by the given records, and what it returns: no register,
no level, no callback. -/
def State.OnlyTrace (s t : State) (c : Nat) (diags : List Diag) (reply : Option Reply) : Prop :=
  t = { s with ctrls := s.ctrls.modify c (fun x => { x with trace := x.trace ++ diags }), reply := reply }

/-- Output `i` of controller `c` is at level `b`. -/
def State.outIs (s : State) (c i : Nat) (b : Bool) : Prop := (s.line? (.out c i)).map SigLine.level = some b

/-- The controller `c` is a PLIC in state `p`; and so on for the other kinds. -/
def State.holds (s : State) (c : Nat) (k : Core) : Prop := (s.ctrls[c]?).map Ctrl.core = some k

/-! ## Safe runs -/

/-- A run of `k` steps is never refused. (There are no faults.) -/
def runsClean : Nat → State → Bool
  | 0, _ => true
  | k + 1, s =>
    match step s with
    | .next t => runsClean k t
    | .refused _ => false

/-- The rows by which software or the platform completes on every sound platform: all but PLIC `OnGPIO` out of range, which
the spec refuses (41_plic.md R162), and an `INTSELECT` write that would reclassify a live line (42_vic.md R206). -/
def State.allows (s : State) : Instr → Bool
  | .plicOnGpioOutOfRange _ _ _ => false
  | .vicIntSelectWrite c v =>
    match (s.ctrls[c]?).map Ctrl.core with
    | some (.vic x) => !x.reclassifiesLive v
    | _ => true
  | _ => true

end Sys2Proof.Machine
end

