-- ==== Sys2Proof/Certificates/Slice0/Obligations.lean ====
section
/-! DEFINITION. The statements for the provers. Each says what the spec's rule says, over every platform with sound wiring:
any instances, any valid parameters, any acyclic wiring to inputs that exist. First the helpers the statements share. -/

namespace Sys2Proof.Claims

open Sys2Proof Sys2Proof.Machine

/-- Instance `c` of a platform with sound wiring is a PLIC in state `p`, of the right shape. -/
def PlicAt (s : State) (c : Nat) (p : Plic) : Prop :=
  s.sound = true ∧ ∃ x, s.ctrls[c]? = some x ∧ x.core = .plic p ∧ x.shapeOk = true

/-- Instance `c` of a platform with sound wiring is a VIC in state `v`, of the right shape. -/
def VicAt (s : State) (c : Nat) (v : Vic) : Prop :=
  s.sound = true ∧ ∃ x, s.ctrls[c]? = some x ∧ x.core = .vic v ∧ x.shapeOk = true

/-- Instance `c` of a platform with sound wiring is an EXTI in state `e`, of the right shape. -/
def ExtiAt (s : State) (c : Nat) (e : Exti) : Prop :=
  s.sound = true ∧ ∃ x, s.ctrls[c]? = some x ∧ x.core = .exti e ∧ x.shapeOk = true

/-- Instance `c` of a platform with sound wiring is an INTMUX in state `m`, of the right shape. -/
def MuxAt (s : State) (c : Nat) (m : Mux) : Prop :=
  s.sound = true ∧ ∃ x, s.ctrls[c]? = some x ∧ x.core = .intmux m ∧ x.shapeOk = true

/-- The instruction completes and leaves controller `c` in state `k`, its trace longer by `diags`, having returned `reply`;
the rest as `State.Frame` says. -/
def Runs (i : Instr) (s t : State) (c : Nat) (k : Core) (diags : List Diag) (reply : Option Reply) : Prop :=
  exec i s = .next t ∧ s.After t c k diags reply

/-- The instruction completes, changes nothing at all, and returns `reply`. -/
def Returns (i : Instr) (s : State) (reply : Option Reply) : Prop := exec i s = .next { s with reply := reply }

/-- The instruction completes and changes nothing but the trace of controller `c`, by one record; no register, no level, no
callback. -/
def OnlyDiag (i : Instr) (s : State) (c : Nat) (severity : Severity) (cause : Cause) (info : DiagInfo)
    (reply : Option Reply) : Prop :=
  ∃ t, exec i s = .next t ∧
    s.OnlyTrace t c [{ severity := severity, cause := cause, info := info }] reply

/-- The levels of outputs `i` of controller `c` that satisfy `which` are as before. -/
def OutsKept (s t : State) (c : Nat) (which : Nat → Prop) : Prop :=
  ∀ i, which i → (t.line? (.out c i)).map SigLine.level = (s.line? (.out c i)).map SigLine.level

/-- `q'` is `q` with stale entries removed from the front: a run of entries of inactive lines is gone, and the new front, if
any, is active. -/
def FrontPurged (active : Nat → Bool) (q q' : List VicEntry) : Prop :=
  ∃ k, q' = q.drop k ∧ (∀ e ∈ q.take k, active e.line = false) ∧ ∀ e, q'.head? = some e → active e.line = true

/-- `st'` is `st` with stale entries removed from the top (the end). -/
def TopPurged (active : Nat → Bool) (st st' : List VicEntry) : Prop :=
  ∃ k, st' = st.take k ∧ (∀ e ∈ st.drop k, active e.line = false) ∧ ∀ e, st'.getLast? = some e → active e.line = true

/-- The lines that become active between two states of a VIC and are not FIQ-classified, ascending. -/
def newlyActive (v v' : Vic) : List Nat :=
  (List.range 32).filter (fun L => !v.isActive L && v'.isActive L && !v'.isFiq.getLsbD L)

/-- `q'` is `q` with one entry for each of `lines` inserted, each under the key its line has in `v`: the old entries keep
their order, keys ascend. Where entries of one key stand is left open (42_vic.md R219). -/
def Enqueued (v : Vic) (lines : List Nat) (q q' : List VicEntry) : Prop :=
  q'.Perm (q ++ lines.map (fun L => { line := L, key := v.key L })) ∧ q.Sublist q' ∧
    q'.Pairwise (fun a b => a.key ≤ b.key)

/-- What `Change` on some lines followed by `Update` does to queue and stack (42_vic.md R201, R213 to R215). -/
def QueueStep (v v' : Vic) : Prop :=
  (∃ q, Enqueued v (newlyActive v v') v.queue q ∧ FrontPurged v'.isActive q v'.queue) ∧
    TopPurged v'.isActive v.stack v'.stack

/-- The two outputs of a VIC are at the levels its state gives (42_vic.md R214, R216, R217). -/
def VicOuts (t : State) (c : Nat) (v : Vic) : Prop := t.outIs c 0 v.irqLevel ∧ t.outIs c 1 v.fiqLevel

/-- The vector configuration of two VIC states is the same. -/
def SameVectors (v v' : Vic) : Prop :=
  v'.params = v.params ∧ v'.slots = v.slots ∧ v'.addrs = v.addrs ∧ v'.defVectAddr = v.defVectAddr

/-- `i` is a claimable source of target `t`: real, enabled and pending (41_plic.md R167). -/
def Claimable (p : Plic) (t i : Nat) : Prop :=
  1 ≤ i ∧ i < p.params.numSources ∧ p.isEnabled t i = true ∧ (p.source i).isPending = true

/-- `i` is the source a claim selects: highest priority, ties to the lowest id (41_plic.md R167). -/
def Best (p : Plic) (t i : Nat) : Prop :=
  Claimable p t i ∧ ∀ j, Claimable p t j →
    (p.source j).priority.toNat ≤ (p.source i).priority.toNat ∧
    ((p.source j).priority = (p.source i).priority → i ≤ j)

/-- Every output of a PLIC is at the level `PlicEval` gives (41_plic.md R169). -/
def PlicOuts (t : State) (c : Nat) (p : Plic) : Prop := ∀ i < p.params.numTargets, t.outIs c i (p.eval i)

/-- Every output of an INTMUX is at the level `MuxEval` gives (44_intmux.md R293). -/
def MuxOuts (t : State) (c : Nat) (m : Mux) : Prop := ∀ i < m.params.numChannels, t.outIs c i (m.eval i)

/-- Deliver a list of events in order, each as one step. -/
def deliverAll (es : List Event) (s : State) : Host.Outcome State Fault Refusal :=
  Host.Core.run Sys2Proof.core es.length { s with inbox := es }

/-- The frame of an event on external line `k`: the line takes level `v`, other external lines keep theirs, and of the
controllers only those downstream of the line's receivers may change. -/
def LineFrame (s t : State) (k : Nat) (l : SigLine) (v : Bool) : Prop :=
  t.lines = s.lines.modify k (fun a => a.withLevel v) ∧ t.inbox = s.inbox ∧ t.wiring = s.wiring ∧
    t.platform = s.platform ∧ t.reply = none ∧
    ∀ d, (∀ e ∈ l.receivers, ∀ b, e.receiver = .ctrl b → s.downstream b d = false) → t.ctrls[d]? = s.ctrls[d]?

/-- Every receiver of the line lies outside the modelled controllers. -/
def AllOutside (l : SigLine) : Prop := ∀ e ∈ l.receivers, ∃ r, e.receiver = .outside r

/-- The callbacks a change of a line whose receivers all lie outside makes, in connection order. -/
def callbacksOf (l : SigLine) (v : Bool) : List Callback :=
  l.receivers.filterMap (fun e =>
    match e.receiver with
    | .outside r => some { receiver := r, number := e.number, value := v }
    | .ctrl _ => none)

/-- The instruction completes, puts controller `c` in state `k` and changes nothing else at all but what it returns: no other
controller, no level, no trace, no callback. -/
def OnlyStores (i : Instr) (s : State) (c : Nat) (k : Core) : Prop :=
  exec i s = .next { s with ctrls := s.ctrls.modify c (fun x => { x with core := k }), reply := none }

/-! ### Propagation -/

/-- One receiver hears of a level: one outside is called back; a controller runs its `OnGPIO`, just as the event `EV_GPIO` would
be run. -/
def hears (v : Bool) (e : Endpoint) (s : State) : Host.Outcome State Fault Refusal :=
  match e.receiver with
  | .outside r => .next (s.hear r e.number v)
  | .ctrl c =>
    match decode s.platform (.evGpio c e.number v) with
    | .ok i => exec i s
    | .error err => .refused (.undecodable err)

/-- Every receiver of a list hears of a level, one after the other, each done before the next. -/
def allHear (v : Bool) : List Endpoint → State → Host.Outcome State Fault Refusal
  | [], s => .next s
  | e :: es, s =>
    match hears v e s with
    | .next t => allHear v es t
    | .fault f => .fault f
    | .refused r => .refused r

/-- The receivers of each of a list of lines hear of its level, line after line. -/
def allLinesHear : List (List Endpoint × Bool) → State → Host.Outcome State Fault Refusal
  | [], s => .next s
  | l :: ls, s =>
    match allHear l.2 l.1 s with
    | .next t => allLinesHear ls t
    | .fault f => .fault f
    | .refused r => .refused r

/-- The outputs whose level differs between two states of a controller, in ascending index: the receivers each has in the first,
and its level in the second. -/
def changedOutputs (x y : Ctrl) : List (List Endpoint × Bool) :=
  (x.outs.zip y.outs).filterMap (fun l => if l.1.level = l.2.level then none else some (l.1.receivers, l.2.level))

/-- The platform with the outputs of controller `c` wired to nothing. -/
def unwired (s : State) (c : Nat) : State :=
  { s with ctrls := s.ctrls.modify c (fun x => { x with outs := x.outs.map (fun l => { l with receivers := [] }) }) }

/-- The platform with the outputs of controller `c` wired as those of `x`. -/
def rewired (s : State) (c : Nat) (x : Ctrl) : State :=
  { s with
    ctrls := s.ctrls.modify c (fun y =>
      { y with outs := List.zipWith (fun a b => { b with receivers := a.receivers }) x.outs y.outs }) }

/-- `i` is the instruction of an event on controller `c`: an input level, a bus access or a reset. -/
def EventOn (s : State) (c : Nat) (i : Instr) : Prop :=
  ∃ e, decode s.platform e = .ok i ∧
    ((∃ n v, e = .evGpio c n v) ∨ (∃ off, e = .memRead c off 4) ∨ (∃ off v, e = .memWrite c off 4 v) ∨ e = .evReset c)

/-! ### Events that leave a PLIC source alone -/

/-- Neither controller `d` nor any downstream of it has an output wired to source `r` of controller `c`. -/
def NeverDrives (s : State) (d c r : Nat) : Prop :=
  ∀ a, s.downstream d a = true → ∀ l ∈ s.wiring.getD a [], ∀ e ∈ l, ¬ (e.receiver = .ctrl c ∧ e.number = r)

/-- The event neither asserts source `r` of the PLIC `c` nor completes it: it is not that input's rise, not a complete of `r` at
`c`, and no output it may drive, directly or through other controllers, is wired to that input. -/
def LeavesSource (s : State) (c r : Nat) : Event → Prop
  | .evGpio d n v => ¬ (d = c ∧ n = r ∧ v = true) ∧ NeverDrives s d c r
  | .memRead d _ _ | .evReset d => NeverDrives s d c r
  | .memWrite d off _ v =>
    ¬ (d = c ∧ v.toNat = r ∧ ∃ x t, s.ctrls[c]? = some x ∧ regAt x.core.params off = some (.plicClaimComplete t)) ∧
      NeverDrives s d c r
  | .slSet L _ | .slBlink L =>
    ∀ l, s.line? L = some l → ∀ e ∈ l.receivers, ∀ b, e.receiver = .ctrl b →
      ¬ (b = c ∧ e.number = r) ∧ NeverDrives s b c r
  | .slQuery _ => True
  | .systemReset _ => True

end Sys2Proof.Claims

open Sys2Proof Sys2Proof.Machine Sys2Proof.Claims

/-! ## The machine: steps, reset, encoding -/

/-- A step takes the next event of the total order out of `inbox`, decodes it and runs it; with no event nothing changes; an event
that is no instruction of the platform is refused with its name; a system reset is run as a whole (10_state.md R21, 20_memory.md
R80, R81; log entries 1, 34). -/
def Obligations.StepRunsDecodedEvent : Prop :=
  ∀ (s : State),
    (s.inbox = [] → step s = .next s) ∧
    ∀ (e : Event) (rest : List Event), s.inbox = e :: rest →
      (∀ order, e = .systemReset order → step s = State.systemReset { s with inbox := rest } order) ∧
      (∀ i : Instr, decode s.platform e = .ok i → step s = exec i { s with inbox := rest }) ∧
      (∀ err : DecodeError, (∀ order, e ≠ .systemReset order) → decode s.platform e = .error err →
        step s = .refused (.undecodable err))

/-- 10_state.md R68: the value of every state field of a controller right after reset, for all parameters.
The spec's own decision in it: D11 (log entry 4). -/
def Obligations.ResetValuesOfEveryField : Prop :=
  (∀ q : PlicParams,
    (∀ i, 1 ≤ i → i < q.numSources → (Plic.reset q).source i = { priority := 1, state := false, isPending := false }) ∧
    (∀ t i, (Plic.reset q).isEnabled t i = false) ∧
    (∀ t, ((Plic.reset q).target t).inService = []) ∧
    (Plic.reset q).srcs.length = q.numSources - 1 ∧ (Plic.reset q).tgts.length = q.numTargets) ∧
  (∀ q : VicParams,
    (Vic.reset q).pinState = 0 ∧ (Vic.reset q).softState = 0 ∧ (Vic.reset q).enabled = 0 ∧ (Vic.reset q).isFiq = 0 ∧
    (∀ n < 16, (Vic.reset q).slots[n]? = some { enable := false, source := 0 }) ∧
    (∀ n < 16, (Vic.reset q).addrs[n]? = some 0) ∧
    (Vic.reset q).defVectAddr = 0 ∧ (Vic.reset q).queue = [] ∧ (Vic.reset q).stack = []) ∧
  (∀ q : ExtiParams,
    (Exti.reset q).imr = 0 ∧ (Exti.reset q).rtsr = 0 ∧ (Exti.reset q).ftsr = 0 ∧ (Exti.reset q).pr = 0) ∧
  (∀ q : MuxParams,
    (Mux.reset q).inputs = 0 ∧
    ∀ ch < q.numChannels, (Mux.reset q).chans[ch]? = some { andMode := false, ier := 0 })

/-- 70_reset_and_hazards.md R401: a reset of any controller completes; it is then in its reset state, with every output low
and its trace as before. `Core.reset` is the state `ResetValuesOfEveryField` describes. The spec's own decision in it: D2. -/
def Obligations.ResetPutsControllerInResetState : Prop :=
  ∀ (s : State) (c : Nat) (x : Ctrl) (i : Instr), s.sound = true → s.ctrls[c]? = some x → x.shapeOk = true →
    (i = .plicReset c ∨ i = .vicReset c ∨ i = .extiReset c ∨ i = .muxReset c) → i.wellFormed s.platform = true →
    ∃ t, Runs i s t c (Core.reset x.core.params) [] none ∧
      ∀ j < x.core.params.numOutputs, t.outIs c j false

/-- 70_reset_and_hazards.md R402: after one `Reset()` the controller is in its reset state with its outputs low, whatever it
was before; a second one changes nothing and notifies nobody. -/
def Obligations.SecondResetChangesNothing : Prop :=
  ∀ (s t : State) (c : Nat) (i : Instr),
    (i = .plicReset c ∨ i = .vicReset c ∨ i = .extiReset c ∨ i = .muxReset c) →
    s.sound = true → exec i s = .next t →
    exec i t = .next t ∧
      ∃ x y, s.ctrls[c]? = some x ∧ t.ctrls[c]? = some y ∧ y.core = Core.reset x.core.params ∧
        ∀ j < x.core.params.numOutputs, ∀ l, y.outs[j]? = some l → l.level = false

/-- Separate `Reset()` events, every controller before those it drives, leave every controller in its reset state with every
output low (70_reset_and_hazards.md R401, R405). For a system reset in any order see `SystemResetInAnyOrderLeavesAllReset`. -/
def Obligations.UpstreamFirstResetLeavesAllReset : Prop :=
  ∀ (s : State) (order : List Nat), s.sound = true → (∀ x ∈ s.ctrls, x.shapeOk = true) →
    (∀ c, c ∈ order ↔ c < s.ctrls.length) → order.Pairwise (fun a b => s.downstream b a = false) →
    ∃ t, deliverAll (order.map Event.evReset) s = .next t ∧
      ∀ x ∈ t.ctrls, x.core = Core.reset x.core.params ∧ ∀ l ∈ x.outs, l.level = false

/-- Separate `Reset()` events, one for each controller, in any order, from a state that satisfies the invariant, leave every
controller in its reset state. Expected to FAIL (log entry 23): a controller reset late may, when an input of it falls, raise a
line into a PLIC already reset, whose pending latch stays set. 70_reset_and_hazards.md R405 derives that this cannot happen in a
system reset; there the model follows R405 (`SystemResetInAnyOrderLeavesAllReset`, log entry 34). -/
def Obligations.ResetsInAnyOrderAgree : Prop :=
  ∀ (s : State) (order : List Nat), s.sound = true → s.Inv → order.Nodup →
    (∀ c, c ∈ order ↔ c < s.ctrls.length) →
    ∃ t, deliverAll (order.map Event.evReset) s = .next t ∧ ∀ x ∈ t.ctrls, x.core = Core.reset x.core.params

/-- 70_reset_and_hazards.md R405: a system reset completes in every order, and its result is the same for every order: every
controller in its reset state, all lines low; no trace is cleared (10_state.md R68). That it is one event of the model is log entry 34. -/
def Obligations.SystemResetInAnyOrderLeavesAllReset : Prop :=
  ∀ (s : State) (order : List Nat) (rest : List Event), s.sound = true → (∀ x ∈ s.ctrls, x.shapeOk = true) →
    order.Perm (List.range s.ctrls.length) →
    ∃ t, step { s with inbox := .systemReset order :: rest } = .next t ∧
      (∀ x ∈ t.ctrls, x.core = Core.reset x.core.params ∧ ∀ l ∈ x.outs, l.level = false) ∧
      (∀ l ∈ t.lines, l.level = false) ∧
      t.inbox = rest ∧ t.reply = none ∧ t.wiring = s.wiring ∧ t.platform = s.platform ∧ s.TracesGrow t

/-- The state after reset: every controller is in the reset state of its parameters with an empty trace, every output and every
external line is low, the model's own fields are empty; the invariant holds and the wiring is sound. The platform, its parameters
and its wiring are the model's choice (log entry 2), and so are the empty `inbox`, `reply` and `callbacks` (log entries 1, 5, 6). -/
def Obligations.ResetStateIsSound : Prop :=
  State.reset.Inv ∧ State.reset.sound = true ∧ State.reset.platform = Config.resetPlatform ∧
  (∀ x ∈ State.reset.ctrls,
    x.core = Core.reset x.core.params ∧ x.trace = [] ∧ ∀ l ∈ x.outs, l.level = false) ∧
  (∀ l ∈ State.reset.lines, l.level = false) ∧
  State.reset.inbox = [] ∧ State.reset.reply = none ∧ State.reset.callbacks = []

/-- Decode and encode agree, every well-formed instruction of every platform with valid parameters: the event tuple of an
instruction decodes to that instruction. `SL.SetTrue` and `SL.Unset` have the tuple of `SL.Set` (40_signal_line.md R142:
"Encoding: `SL_SET` with `v` fixed"), so they decode to it. -/
def Obligations.DecodeOfEncodeIsTheInstruction : Prop :=
  ∀ (p : Platform) (i : Instr), (∀ q ∈ p.ctrls, q.valid = true) → i.wellFormed p = true →
    decode p (encode i) = .ok
      (match i with
        | .slSetTrue L => .slSet L true
        | .slUnset L => .slSet L false
        | i => i)

/-- Whatever decodes is a well-formed instruction whose event tuple is the one decoded: no part of a tuple is dropped or
read twice. -/
def Obligations.DecodedEventIsWellFormedAndEncodesBack : Prop :=
  ∀ (p : Platform) (e : Event) (i : Instr), decode p e = .ok i → i.wellFormed p = true ∧ encode i = e

/-- Event tuples written out from the register maps of 30_encoding.md (R110, R116, R124, R128) and from the vectors of
95_test_vectors.md decode to the rows they stand for, on the reset platform. -/
def Obligations.WrittenOutEventsDecode : Prop :=
  decode Config.resetPlatform (.memWrite 0 0x00000C 4 2) = .ok (.plicPriorityWrite 0 3 2) ∧
  decode Config.resetPlatform (.memWrite 0 0x002004 4 1) = .ok (.plicEnableWrite 0 0 1 1) ∧
  decode Config.resetPlatform (.memRead 0 0x200004 4) = .ok (.plicClaimRead 0 0) ∧
  decode Config.resetPlatform (.memWrite 1 0x208 4 0x27) = .ok (.vicVectCntlWrite 1 2 0x27) ∧
  decode Config.resetPlatform (.memRead 1 0x030 4) = .ok (.vicVectAddrRead 1) ∧
  decode Config.resetPlatform (.memWrite 2 0x14 4 1) = .ok (.extiPrWrite 2 1) ∧
  decode Config.resetPlatform (.memRead 3 0x50 4) = .ok (.muxIerRead 3 1) ∧
  decode Config.resetPlatform (.memWrite 3 0x40 4 3) = .ok (.muxCsrResetWrite 3 1 3) ∧
  decode Config.resetPlatform (.memRead 0 0x000010 4) = .ok (.anyUnhandledRead 0 0x10) ∧
  decode Config.resetPlatform (.evGpio 2 8 true) = .ok (.extiOnGpioDirect 2 8 true) ∧
  decode Config.resetPlatform (.memRead 0 0x200004 1) = .error (.narrowAccess 1) ∧
  decode Config.resetPlatform (.memRead 0 0x000006 4) = .error (.misaligned 6)

/-- Three refusals that come before any controller acts. (1) 20_memory.md R74: a bus access of another width than four bytes, or at
an offset that is no multiple of four, on every controller; the spec's own decision D5 (log entry 10). (2) On a platform whose
wiring has a cycle, every instruction: 20_memory.md R85 refuses the platform, its decision D17; that the refusal comes on every
event is the model's choice, which R85 does not say (log entry 9, DESIGN CHOICE). (3) An event that sets, unsets or blinks a
controller's output: 10_state.md R26 says that only the owner of a line does so; that such an event is refused is the model's
inference, which R26 does not say (log entry 12, DEDUCED). The refusals inside a controller are `PlicInputOutOfRangeIsRefused` (R162)
and `VicClassificationWrite` (R206). -/
def Obligations.BadAccessCyclicWiringAndForeignLineAreRefused : Prop :=
  (∀ (s : State) (c off bytes : Nat) (v : Word) (rest : List Event), c < s.ctrls.length → (bytes ≠ 4 ∨ off % 4 ≠ 0) →
    (∃ r, step { s with inbox := .memRead c off bytes :: rest } = .refused (.undecodable r)) ∧
    ∃ r, step { s with inbox := .memWrite c off bytes v :: rest } = .refused (.undecodable r)) ∧
  (∀ (s : State) (i : Instr), s.acyclic = false → exec i s = .refused .cyclicWiring) ∧
  ∀ (s : State) (c i : Nat) (v : Bool) (instr : Instr), s.acyclic = true →
    (instr = .slSet (.out c i) v ∨ instr = .slSetTrue (.out c i) ∨ instr = .slUnset (.out c i) ∨
      instr = .slBlink (.out c i)) →
    exec instr s = .refused (.lineNotOwned (.out c i))

/-! ## The machine: headline results -/

/-- The invariant of every controller (10_state.md R33, R42, R52, R61, and the hard-wired bits of R50, R58, R59) is kept by
every step, on every platform. -/
def Obligations.EveryStepKeepsTheInvariant : Prop :=
  ∀ s t : State, s.Inv → step s = .next t → t.Inv

/-- On a platform with sound wiring and well-shaped controllers every well-formed instruction completes, the wiring stays
sound and the events not yet delivered stay: all rows but PLIC `OnGPIO` out of range, which the spec refuses (41_plic.md
R162), and an `INTSELECT` write that reclassifies a live line (42_vic.md R206).
The spec's own decisions in it: D30, D50 (log entries 7, 8). -/
def Obligations.WellFormedInstructionsComplete : Prop :=
  ∀ (s : State) (i : Instr), s.sound = true → (∀ x ∈ s.ctrls, x.shapeOk = true) →
    i.wellFormed s.platform = true → s.allows i = true →
    ∃ t, exec i s = .next t ∧ t.sound = true ∧ t.inbox = s.inbox

/-- The wiring, the parameters, the kinds, the base addresses and the number of lines never change (00_scope.md section 3;
10_state.md R25, R27), and no trace loses a record (R23: "append-only"). The spec's own decision in it: D4 (log entry 25). -/
def Obligations.PlatformConstantsNeverChange : Prop :=
  ∀ (s t : State) (i : Instr), exec i s = .next t →
    t.wiring = s.wiring ∧ t.platform = s.platform ∧ t.ctrls.map Ctrl.base = s.ctrls.map Ctrl.base ∧
    t.lines.map SigLine.receivers = s.lines.map SigLine.receivers ∧ t.inbox = s.inbox ∧
    (∀ (c : Nat) (x y : Ctrl), s.ctrls[c]? = some x → t.ctrls[c]? = some y → ∃ l, y.trace = x.trace ++ l) ∧
    ∃ l, t.callbacks = s.callbacks ++ l

/-- 20_memory.md R84: distinct instances share no state. An event on one controller leaves alone every controller that is
not downstream of it. -/
def Obligations.UnrelatedControllersAreUntouched : Prop :=
  ∀ (s t : State) (e : Event) (i : Instr) (c d : Nat),
    (∃ n v, e = .evGpio c n v) ∨ (∃ off, e = .memRead c off 4) ∨ (∃ off v, e = .memWrite c off 4 v) ∨ e = .evReset c →
    decode s.platform e = .ok i → exec i s = .next t → s.downstream c d = false → t.ctrls[d]? = s.ctrls[d]?

/-! ## Signal Lines and propagation -/

/-- 40_signal_line.md R141, R143, R146: `Set` to the level the line has does nothing at all. Otherwise the level is stored, and then
every receiver hears of it once, in connection order, each done before the next: a controller by running its own `OnGPIO(number,
v)` to completion (20_memory.md R82), a receiver outside by a callback, which the state records. The spec's own decision in it: D3
for the order (log entry 19). -/
def Obligations.SetStoresLevelAndNotifiesOncePerChange : Prop :=
  ∀ (s : State) (k : Nat) (l : SigLine) (v : Bool), s.sound = true → s.lines[k]? = some l →
    (l.level = v → exec (.slSet (.ext k) v) s = .next { s with reply := none }) ∧
    (l.level ≠ v → ∃ t,
      allHear v l.receivers { s with lines := s.lines.modify k (fun a => a.withLevel v) } = .next t ∧
      exec (.slSet (.ext k) v) s = .next { t with reply := none }) ∧
    (l.level ≠ v → AllOutside l →
      exec (.slSet (.ext k) v) s = .next
        { s with
          lines := s.lines.modify k (fun a => a.withLevel v)
          callbacks := s.callbacks ++ callbacksOf l v
          reply := none })

/-- 20_memory.md R82, 40_signal_line.md R141, R143, R146, on the outputs of controllers: what an event on controller `c` does is
what it does with the outputs of `c` wired to nothing, and then, for each output whose level it changed and no other, in ascending
index, every receiver hears of the new level once, in connection order, by its own `OnGPIO` run to completion or by a callback.
The spec's own decision in it: D3 for the orders (log entry 19). -/
def Obligations.OutputChangesReachTheirReceivers : Prop :=
  ∀ (s t₀ : State) (c : Nat) (i : Instr) (x y : Ctrl), s.sound = true → s.ctrls[c]? = some x → EventOn s c i →
    exec i (unwired s c) = .next t₀ → t₀.ctrls[c]? = some y →
    ∃ t, allLinesHear (changedOutputs x y) (rewired t₀ c x) = .next t ∧ exec i s = .next { t with reply := t₀.reply }

/-- 40_signal_line.md R141, R142, R144: `Set`, `Set()`, `Unset()` and `Blink()` of an external line complete, whatever the
line drives; the line then has the level the operation leaves, every other external line keeps its level, and of the controllers
only those downstream of the line's receivers may have changed, their outputs with them. -/
def Obligations.LineOperationsComplete : Prop :=
  ∀ (s : State) (k : Nat) (l : SigLine) (v : Bool), s.sound = true → s.lines[k]? = some l →
    (∃ t, exec (.slSet (.ext k) v) s = .next t ∧ LineFrame s t k l v) ∧
    (∃ t, exec (.slSetTrue (.ext k)) s = .next t ∧ exec (.slSet (.ext k) true) s = .next t ∧ LineFrame s t k l true) ∧
    (∃ t, exec (.slUnset (.ext k)) s = .next t ∧ exec (.slSet (.ext k) false) s = .next t ∧ LineFrame s t k l false) ∧
    ∃ t, exec (.slBlink (.ext k)) s = .next t ∧ LineFrame s t k l false

/-- 40_signal_line.md R144: a blink is `Set(true)`, complete, and then `Set(false)`, whatever the line drives. Of a low line whose
receivers lie outside it makes every receiver's callback with 1, then every receiver's with 0; of a high one only those with 0; the
line is low afterwards. The order among the receivers is R143's, the spec's own decision D3 (log entry 19). -/
def Obligations.BlinkIsAPulseOnLowAndAFallOnHigh : Prop :=
  ∀ (s : State) (k : Nat) (l : SigLine), s.sound = true → s.lines[k]? = some l →
    (∃ t, exec (.slSet (.ext k) true) s = .next t ∧ exec (.slBlink (.ext k)) s = exec (.slSet (.ext k) false) t) ∧
    (AllOutside l →
      exec (.slBlink (.ext k)) s = .next
        { s with
          lines := s.lines.modify k (fun a => a.withLevel false)
          callbacks := s.callbacks ++ (if l.level then [] else callbacksOf l true) ++ callbacksOf l false
          reply := none })

/-- 40_signal_line.md R145: the level query of any line, external or output, returns its level and changes nothing. -/
def Obligations.QueryReturnsTheLevel : Prop :=
  ∀ (s : State) (L : LineRef) (l : SigLine), s.sound = true → s.line? L = some l →
    Returns (.slQuery L) s (some (.level l.level))

/-! ## PLIC -/

/-- 41_plic.md R169: a target's output is asserted iff some enabled pending source has priority strictly greater than that
of the source on top of the target's stack, 0 if nothing is in service. The spec's own decision in it: D31. -/
def Obligations.PlicOutputRule : Prop :=
  ∀ (p : Plic) (t : Nat),
    (p.eval t = true ↔ ∃ i, Claimable p t i ∧
      (match (p.target t).inService.getLast? with
        | none => 0
        | some top => (p.source top).priority.toNat) < (p.source i).priority.toNat)

/-- 41_plic.md R161: an input stores the level in `State`, a rising level also sets `IsPending`, a falling one leaves it;
every target is re-evaluated; nothing else of the controller changes. -/
def Obligations.PlicInputStoresLevelAndLatchesPending : Prop :=
  ∀ (s : State) (c : Nat) (p : Plic) (n : Nat) (v : Bool), PlicAt s c p → 1 ≤ n → n < p.params.numSources →
    ∃ t p', Runs (.plicOnGpio c n v) s t c (.plic p') [] none ∧
      p'.params = p.params ∧ p'.tgts = p.tgts ∧ p'.shapeOk = true ∧
      (∀ j, p'.source j =
        if j = n then { priority := (p.source j).priority, state := v, isPending := (p.source j).isPending || v }
        else p.source j) ∧
      PlicOuts t c p'

/-- 41_plic.md R162: an event on a number that is no input, 0 included, is refused.
The spec's own decision in it: D30 (log entry 7). -/
def Obligations.PlicInputOutOfRangeIsRefused : Prop :=
  ∀ (s : State) (c : Nat) (p : Plic) (n : Int) (v : Bool), PlicAt s c p → (n < 1 ∨ (p.params.numSources : Int) ≤ n) →
    exec (.plicOnGpioOutOfRange c n v) s = .refused (.plicGpioOutOfRange n)

/-- 41_plic.md R163: `SetPriority`. Disabled priorities are reported first, source 0 next, both without effect; else all 32
bits are stored and every target re-evaluated. The spec's own decisions in it: D9, D14, D28. -/
def Obligations.PriorityWriteStoresOrReports : Prop :=
  ∀ (s : State) (c : Nat) (p : Plic) (i : Nat) (v : Word), PlicAt s c p → i < p.params.numSources →
    (p.params.prioritiesEnabled = false →
      OnlyDiag (.plicPriorityWrite c i v) s c .warning .prioritiesDisabled (.pair i v.toNat) none) ∧
    (p.params.prioritiesEnabled = true → i = 0 →
      OnlyDiag (.plicPriorityWrite c i v) s c .warning .prioritySource0 (.num v.toNat) none) ∧
    (p.params.prioritiesEnabled = true → i ≠ 0 →
      ∃ t p', Runs (.plicPriorityWrite c i v) s t c (.plic p') [] none ∧
        p'.params = p.params ∧ p'.tgts = p.tgts ∧ p'.shapeOk = true ∧
        (∀ j, p'.source j = if j = i then { p.source j with priority := v } else p.source j) ∧
        PlicOuts t c p')

/-- 41_plic.md R164, R166: the reads of `PRIORITY[i]` and `ENABLE[t][w]` return the stored values and change nothing.
The spec's own decision in it: D28. -/
def Obligations.PlicPlainReadsReturnState : Prop :=
  ∀ (s : State) (c : Nat) (p : Plic), PlicAt s c p →
    (∀ i, i < p.params.numSources →
      Returns (.plicPriorityRead c i) s (some (.word (if i = 0 then 0 else (p.source i).priority)))) ∧
    ∀ t w, t < p.params.numTargets → w < 32 →
      ∃ r : Word, Returns (.plicEnableRead c t w) s (some (.word r)) ∧
        ∀ b < 32, r.getLsbD b = p.isEnabled t (32 * w + b)

/-- 30_encoding.md R112, 41_plic.md R165: a write of `ENABLE[t][w]` sets, for every real source of the word, whether it is
enabled for `t`; a 1 for a source that does not exist is reported, in ascending order; nothing else is enabled or disabled;
every target is re-evaluated. The spec's own decision in it: D24. -/
def Obligations.EnableWriteSetsEachSourceOfTheWord : Prop :=
  ∀ (s : State) (c : Nat) (p : Plic) (t w : Nat) (v : Word), PlicAt s c p → t < p.params.numTargets → w < 32 →
    ∃ u p', Runs (.plicEnableWrite c t w v) s u c (.plic p')
        (((List.range 32).filter (fun b => decide (p.params.numSources ≤ 32 * w + b) && v.getLsbD b)).map
          (fun b => { severity := .warning, cause := .enableNonexistentSource, info := .num ((32 * w + b : Nat) : Int) }))
        none ∧
      p'.params = p.params ∧ p'.srcs = p.srcs ∧ p'.shapeOk = true ∧
      (∀ t', (p'.target t').inService = (p.target t').inService) ∧
      (∀ t' i, p'.isEnabled t' i =
        if t' = t ∧ 1 ≤ i ∧ i < p.params.numSources ∧ i / 32 = w then v.getLsbD (i % 32) else p.isEnabled t' i) ∧
      PlicOuts u c p'

/-- 41_plic.md R167, for a target that exists: a claim by a target with a claimable source clears the pending flag of the best one,
pushes its id on the target's stack, returns it, and re-evaluates every target; a claim that finds nothing returns 0 and changes
nothing, which is not an error. The spec's own decision in it: D14, that the claim re-evaluates. A target that does not exist:
`NamedCallsOnAbsentTargetOnlyReport`. -/
def Obligations.ClaimTakesTheBestSource : Prop :=
  ∀ (s : State) (c : Nat) (p : Plic) (t : Nat), PlicAt s c p → t < p.params.numTargets →
    (∀ i, Best p t i →
      ∃ u p', Runs (.plicClaimRead c t) s u c (.plic p') [] (some (.word (BitVec.ofNat 32 i))) ∧
        p'.params = p.params ∧ p'.shapeOk = true ∧
        (∀ j, p'.source j = if j = i then { p.source j with isPending := false } else p.source j) ∧
        (∀ t', (p'.target t').inService =
          if t' = t then (p.target t').inService ++ [i] else (p.target t').inService) ∧
        (∀ t' j, p'.isEnabled t' j = p.isEnabled t' j) ∧
        PlicOuts u c p') ∧
    ((∀ i, ¬ Claimable p t i) → Returns (.plicClaimRead c t) s (some (.word 0)))

/-- 41_plic.md R171, "No claim without enable" and R167: whatever a claim returns is 0 or the best source among those
enabled for the target and pending. -/
def Obligations.ClaimReturnsOnlyEnabledPendingSources : Prop :=
  ∀ (s u : State) (c : Nat) (p : Plic) (t : Nat) (r : Word), PlicAt s c p → t < p.params.numTargets →
    exec (.plicClaimRead c t) s = .next u → u.reply = some (.word r) →
    (r = 0 ∧ ∀ i, ¬ Claimable p t i) ∨ Best p t r.toNat

/-- 20_memory.md R87: two targets racing to claim never both receive the same pending occurrence of a source. Once a claim has
returned source `r`, no later claim by any target returns it, whatever events come in between that neither assert `r` nor complete
it. (The spec derives the rule from R80.) -/
def Obligations.OneOccurrenceIsClaimedOnce : Prop :=
  ∀ (s u w z : State) (c : Nat) (p : Plic) (t t' : Nat) (r r' : Word) (between : List Event), PlicAt s c p →
    t < p.params.numTargets → t' < p.params.numTargets →
    exec (.plicClaimRead c t) s = .next u → u.reply = some (.word r) → r ≠ 0 →
    (∀ e ∈ between, LeavesSource s c r.toNat e) → deliverAll between u = .next w →
    exec (.plicClaimRead c t') w = .next z → z.reply = some (.word r') → r' ≠ r

/-- 41_plic.md R168: a complete that names the top of the target's stack pops it, copies `State` into `IsPending` of that
source, and re-evaluates every target. -/
def Obligations.CompletePopsAndRearms : Prop :=
  ∀ (s : State) (c : Nat) (p : Plic) (t : Nat) (v : Word), PlicAt s c p → t < p.params.numTargets →
    (p.target t).inService.getLast? = some v.toNat →
    ∃ u p', Runs (.plicCompleteWrite c t v) s u c (.plic p') [] none ∧
      p'.params = p.params ∧ p'.shapeOk = true ∧
      (∀ j, p'.source j = if j = v.toNat then { p.source j with isPending := (p.source j).state } else p.source j) ∧
      (∀ t', (p'.target t').inService =
        if t' = t then (p.target t').inService.dropLast else (p.target t').inService) ∧
      (∀ t' j, p'.isEnabled t' j = p.isEnabled t' j) ∧
      PlicOuts u c p'

/-- 41_plic.md R168, 60_exceptions.md R364, 90_conflicts.md C1: a complete that names no source, one that does not exist, one
when nothing is in service, or one that is not on top, is reported and changes nothing; the first that fails is the one
reported (R368). The spec's own decisions in it: D9, D25, D26 (log entry 15). -/
def Obligations.WrongCompleteOnlyReports : Prop :=
  ∀ (s : State) (c : Nat) (p : Plic) (t : Nat) (v : Word), PlicAt s c p → t < p.params.numTargets →
    ((v = 0 ∨ p.params.numSources ≤ v.toNat) →
      OnlyDiag (.plicCompleteWrite c t v) s c .error .completeOutOfRange (.num v.toNat) none) ∧
    (v ≠ 0 → v.toNat < p.params.numSources → (p.target t).inService = [] →
      OnlyDiag (.plicCompleteWrite c t v) s c .error .completeNothingInService (.num v.toNat) none) ∧
    (∀ top, v ≠ 0 → v.toNat < p.params.numSources → (p.target t).inService.getLast? = some top → top ≠ v.toNat →
      OnlyDiag (.plicCompleteWrite c t v) s c .error .completeMismatch (.pair v.toNat top) none)

/-- 60_exceptions.md R363, 41_plic.md R165, R167, R168: the PLIC operations called by name with a target that does not exist
report it and change nothing; `Claim` returns 0. (The register window never names such a target; log entry 13.) -/
def Obligations.NamedCallsOnAbsentTargetOnlyReport : Prop :=
  ∀ (s : State) (c : Nat) (p : Plic) (t w : Nat) (v : Word), PlicAt s c p → p.params.numTargets ≤ t → w < 32 →
    OnlyDiag (.plicClaimRead c t) s c .error .targetOutOfRange (.num t) (some (.word 0)) ∧
    OnlyDiag (.plicCompleteWrite c t v) s c .error .targetOutOfRange (.num t) none ∧
    OnlyDiag (.plicEnableWrite c t w v) s c .error .targetOutOfRange (.num t) none

/-! ## VIC -/

/-- 10_state.md R40: `IsActive`, `VectorId` (the least enabled slot that names the line) and `Key`.
The spec's own decision in it: D43. -/
def Obligations.VicDerivedValues : Prop :=
  ∀ (v : Vic) (L : Nat), v.shapeOk = true → L < 32 →
    (v.isActive L = (v.enabled.getLsbD L && (v.pinState.getLsbD L || v.softState.getLsbD L))) ∧
    (∀ n, v.vectorId L = some n ↔
      (n < 16 ∧ (∃ x, v.slots[n]? = some x ∧ x.enable = true ∧ x.source.toNat = L) ∧
        ∀ m < n, ∀ x, v.slots[m]? = some x → ¬ (x.enable = true ∧ x.source.toNat = L))) ∧
    (∀ n, v.vectorId L = some n → v.key L = n) ∧ (v.vectorId L = none → v.key L = 2147483647)

/-- 42_vic.md R216, R217: `FIQ` is asserted iff some active line is FIQ-classified; `IRQ` iff the queue is not empty and the
stack is empty or the front's key is strictly less than the top's.
The spec's own decision in it: D46 for `IRQ` (log entry 16). -/
def Obligations.VicOutputRules : Prop :=
  ∀ v : Vic,
    (v.fiqLevel = true ↔ ∃ L < 32, v.isActive L = true ∧ v.isFiq.getLsbD L = true) ∧
    (v.irqLevel = true ↔ ∃ e, v.queue.head? = some e ∧ ∀ top, v.stack.getLast? = some top → e.key < top.key)

/-- 42_vic.md R201, R202, R213 to R215: an input stores the pin level; if the line thereby becomes active and is not
FIQ-classified it is enqueued under its key; stale ends are purged and both outputs re-derived.
The spec's own decisions in it: D45, D46, D53. -/
def Obligations.VicInputStoresPinAndEnqueues : Prop :=
  ∀ (s : State) (c : Nat) (v : Vic) (L : Nat) (b : Bool), VicAt s c v → L < 32 →
    ∃ t v', Runs (.vicOnGpio c L b) s t c (.vic v') [] none ∧
      (∀ j < 32, v'.pinState.getLsbD j = if j = L then b else v.pinState.getLsbD j) ∧
      v'.softState = v.softState ∧ v'.enabled = v.enabled ∧ v'.isFiq = v.isFiq ∧ SameVectors v v' ∧
      QueueStep v v' ∧ VicOuts t c v'

/-- 42_vic.md R204: `INTENABLE` enables and `INTENCLEAR` disables the lines whose bit is 1, and leaves the others; lines that
become active are enqueued; then `Update`. The spec's own decisions in it: D42, D45, D46, D53, D55. -/
def Obligations.VicEnableWrites : Prop :=
  ∀ (s : State) (c : Nat) (v : Vic) (w : Word), VicAt s c v →
    (∃ t v', Runs (.vicIntEnableWrite c w) s t c (.vic v') [] none ∧ v'.enabled = v.enabled ||| w ∧
      v'.pinState = v.pinState ∧ v'.softState = v.softState ∧ v'.isFiq = v.isFiq ∧ SameVectors v v' ∧
      QueueStep v v' ∧ VicOuts t c v') ∧
    ∃ t v', Runs (.vicIntEnClearWrite c w) s t c (.vic v') [] none ∧ v'.enabled = v.enabled &&& ~~~w ∧
      v'.pinState = v.pinState ∧ v'.softState = v.softState ∧ v'.isFiq = v.isFiq ∧ SameVectors v v' ∧
      QueueStep v v' ∧ VicOuts t c v'

/-- 42_vic.md R205: `SOFTINT` sets and `SOFTINTCLEAR` clears the software state of the lines whose bit is 1, and leaves the
others; lines that become active are enqueued; then `Update`. The spec's own decisions in it: D42, D45, D46, D47, D53, D55. -/
def Obligations.VicSoftwareInterruptWrites : Prop :=
  ∀ (s : State) (c : Nat) (v : Vic) (w : Word), VicAt s c v →
    (∃ t v', Runs (.vicSoftIntWrite c w) s t c (.vic v') [] none ∧ v'.softState = v.softState ||| w ∧
      v'.pinState = v.pinState ∧ v'.enabled = v.enabled ∧ v'.isFiq = v.isFiq ∧ SameVectors v v' ∧
      QueueStep v v' ∧ VicOuts t c v') ∧
    ∃ t v', Runs (.vicSoftIntClearWrite c w) s t c (.vic v') [] none ∧ v'.softState = v.softState &&& ~~~w ∧
      v'.pinState = v.pinState ∧ v'.enabled = v.enabled ∧ v'.isFiq = v.isFiq ∧ SameVectors v v' ∧
      QueueStep v v' ∧ VicOuts t c v'

/-- 42_vic.md R206: an `INTSELECT` write that changes the class of no line that is active or has an entry replaces the
classification and re-derives; any other is refused. The spec's own decision in it: D50 (log entry 8). -/
def Obligations.VicClassificationWrite : Prop :=
  ∀ (s : State) (c : Nat) (v : Vic) (w : Word), VicAt s c v →
    ((∀ L < 32, w.getLsbD L ≠ v.isFiq.getLsbD L →
        v.isActive L = false ∧ ∀ e ∈ v.queue ++ v.stack, e.line ≠ L) →
      ∃ t v', Runs (.vicIntSelectWrite c w) s t c (.vic v') [] none ∧ v'.isFiq = w ∧
        v'.pinState = v.pinState ∧ v'.softState = v.softState ∧ v'.enabled = v.enabled ∧ SameVectors v v' ∧
        FrontPurged v.isActive v.queue v'.queue ∧ TopPurged v.isActive v.stack v'.stack ∧ VicOuts t c v') ∧
    ((∃ L < 32, w.getLsbD L ≠ v.isFiq.getLsbD L ∧ (v.isActive L = true ∨ ∃ e ∈ v.queue ++ v.stack, e.line = L)) →
      exec (.vicIntSelectWrite c w) s = .refused .vicReclassifiesLiveLine)

/-- 42_vic.md R207: a `VECTCNTL[n]` write replaces slot `n` by the source in bits 4 to 0 and the enable in bit 5; entries
already queued or in service keep their key; nothing is enqueued. The spec's own decisions in it: D43, D44. -/
def Obligations.VicSlotWriteKeepsQueuedKeys : Prop :=
  ∀ (s : State) (c : Nat) (v : Vic) (n : Nat) (w : Word), VicAt s c v → n < 16 →
    ∃ t v', Runs (.vicVectCntlWrite c n w) s t c (.vic v') [] none ∧
      (∀ m, v'.slots[m]? =
        if m = n then some { enable := w.getLsbD 5, source := w.extractLsb' 0 5 } else v.slots[m]?) ∧
      v'.params = v.params ∧ v'.pinState = v.pinState ∧ v'.softState = v.softState ∧ v'.enabled = v.enabled ∧
      v'.isFiq = v.isFiq ∧ v'.addrs = v.addrs ∧ v'.defVectAddr = v.defVectAddr ∧
      FrontPurged v.isActive v.queue v'.queue ∧ TopPurged v.isActive v.stack v'.stack ∧ VicOuts t c v'

/-- 42_vic.md R208: a read of `VECTADDR` with an empty queue returns the default address and changes nothing; otherwise it
dequeues the front, pushes it on the stack, returns the address of the line's slot at the time of the read or the default
one, and updates. The spec's own decisions in it: D47, D48, D49 (log entry 17). -/
def Obligations.VicAcknowledge : Prop :=
  ∀ (s : State) (c : Nat) (v : Vic), VicAt s c v →
    (v.queue = [] → Returns (.vicVectAddrRead c) s (some (.word v.defVectAddr))) ∧
    ∀ (e : VicEntry) (rest : List VicEntry), v.queue = e :: rest →
      ∃ t v' a, Runs (.vicVectAddrRead c) s t c (.vic v') [] (some (.word a)) ∧
        (∀ n, v.vectorId e.line = some n → v.addrs[n]? = some a) ∧
        (v.vectorId e.line = none → a = v.defVectAddr) ∧
        v'.pinState = v.pinState ∧ v'.softState = v.softState ∧ v'.enabled = v.enabled ∧ v'.isFiq = v.isFiq ∧
        SameVectors v v' ∧ FrontPurged v.isActive rest v'.queue ∧
        TopPurged v.isActive (v.stack ++ [e]) v'.stack ∧ VicOuts t c v'

/-- 42_vic.md R209: a write of `VECTADDR` with nothing in service only warns; otherwise it pops the stack and updates, and
re-enqueues nothing. The written value is ignored. The spec's own decisions in it: D46, D47, D53. -/
def Obligations.VicFinishCurrent : Prop :=
  ∀ (s : State) (c : Nat) (v : Vic) (w : Word), VicAt s c v →
    (v.stack = [] →
      OnlyDiag (.vicVectAddrWrite c w) s c .warning .finishNothingInService (.num w.toNat) none) ∧
    (v.stack ≠ [] →
      ∃ t v', Runs (.vicVectAddrWrite c w) s t c (.vic v') [] none ∧
        v'.pinState = v.pinState ∧ v'.softState = v.softState ∧ v'.enabled = v.enabled ∧ v'.isFiq = v.isFiq ∧
        SameVectors v v' ∧ FrontPurged v.isActive v.queue v'.queue ∧
        TopPurged v.isActive v.stack.dropLast v'.stack ∧ VicOuts t c v')

/-- 42_vic.md R221, from R208 and R213: where the entries of three active lines, in slots 2 and 5 and in none, wait, three
acknowledges return the address of slot 2, then that of slot 5, then the default one. -/
def Obligations.VicServesInOrderOfVectorSlot : Prop :=
  ∀ (s : State) (c : Nat) (v : Vic) (L M N : Nat) (a b : Word), VicAt s c v →
    v.queue.Perm [{ line := L, key := 2 }, { line := M, key := 5 }, { line := N, key := 2147483647 }] →
    v.isActive L = true → v.isActive M = true → v.isActive N = true →
    v.vectorId L = some 2 → v.vectorId M = some 5 → v.vectorId N = none →
    v.addrs[2]? = some a → v.addrs[5]? = some b →
    ∃ t u z, exec (.vicVectAddrRead c) s = .next t ∧ t.reply = some (.word a) ∧
      exec (.vicVectAddrRead c) t = .next u ∧ u.reply = some (.word b) ∧
      exec (.vicVectAddrRead c) u = .next z ∧ z.reply = some (.word v.defVectAddr)

/-- 42_vic.md R211: writes of `DEFVECTADDR` and `VECTADDRn[n]` store the value and change nothing else in the whole platform: no
queue, no stack, no output, no other controller, no callback. The spec's own decision in it: D40. -/
def Obligations.VicAddressWritesOnlyStore : Prop :=
  ∀ (s : State) (c : Nat) (v : Vic) (w : Word), VicAt s c v →
    OnlyStores (.vicDefVectAddrWrite c w) s c (.vic { v with defVectAddr := w }) ∧
    ∀ n < 16, ∃ v', OnlyStores (.vicVectAddrNWrite c n w) s c (.vic v') ∧ v' = { v with addrs := v'.addrs } ∧
      ∀ m, v'.addrs[m]? = if m = n then some w else v.addrs[m]?

/-- 42_vic.md R210, 30_encoding.md R117 to R123: the plain reads of the VIC return the values given and change nothing.
The spec's own decisions in it: D40, D41. -/
def Obligations.VicPlainReads : Prop :=
  ∀ (s : State) (c : Nat) (v : Vic), VicAt s c v →
    (∃ r : Word, Returns (.vicIrqStatusRead c) s (some (.word r)) ∧
      ∀ L < 32, r.getLsbD L = (v.isActive L && !v.isFiq.getLsbD L)) ∧
    (∃ r : Word, Returns (.vicFiqStatusRead c) s (some (.word r)) ∧
      ∀ L < 32, r.getLsbD L = (v.isActive L && v.isFiq.getLsbD L)) ∧
    (∃ r : Word, Returns (.vicRawIntrRead c) s (some (.word r)) ∧
      ∀ L < 32, r.getLsbD L = (v.pinState.getLsbD L || v.softState.getLsbD L)) ∧
    Returns (.vicIntSelectRead c) s (some (.word v.isFiq)) ∧
    Returns (.vicIntEnableRead c) s (some (.word v.enabled)) ∧
    Returns (.vicIntEnClearRead c) s (some (.word 0)) ∧
    Returns (.vicSoftIntRead c) s (some (.word v.softState)) ∧
    Returns (.vicSoftIntClearRead c) s (some (.word 0)) ∧
    Returns (.vicDefVectAddrRead c) s (some (.word v.defVectAddr)) ∧
    (∀ n a, v.addrs[n]? = some a → Returns (.vicVectAddrNRead c n) s (some (.word a))) ∧
    ∀ n x, v.slots[n]? = some x →
      Returns (.vicVectCntlRead c n) s (some (.word (BitVec.ofNat 32 (x.source.toNat + if x.enable then 32 else 0))))

/-! ## EXTI -/

/-- 43_exti.md R253, R254: on a configurable line a propagating edge of an unmasked line sets `PR[L]` and the output; any
other event changes nothing at all. -/
def Obligations.ExtiConfigurableLine : Prop :=
  ∀ (s : State) (c : Nat) (e : Exti) (L : Nat) (v : Bool), ExtiAt s c e → L < e.params.numLines →
    e.params.configurableMask.getLsbD L = true →
    (e.imr.getLsbD L = true → (v = true ∧ e.rtsr.getLsbD L = true ∨ v = false ∧ e.ftsr.getLsbD L = true) →
      ∃ t e', Runs (.extiOnGpioConfigurable c L v) s t c (.exti e') [] none ∧ e' = { e with pr := e'.pr } ∧
        (∀ j < 32, e'.pr.getLsbD j = (decide (j = L) || e.pr.getLsbD j)) ∧ t.outIs c L true ∧
        OutsKept s t c (fun i => i ≠ L)) ∧
    ((e.imr.getLsbD L = false ∨ (v = true ∧ e.rtsr.getLsbD L = false) ∨ (v = false ∧ e.ftsr.getLsbD L = false)) →
      Returns (.extiOnGpioConfigurable c L v) s none)

/-- 43_exti.md R261, "EXTI edge masking" (with `IMR[L] = 1`, which the rule says the property leaves implicit): on a
rising-only configurable line a rising event sets the pending bit and the output; the falling event after it changes nothing;
and once `PR[L]` has been cleared in between, a following rising event sets both again. -/
def Obligations.ExtiEdgeMasking : Prop :=
  ∀ (s : State) (c : Nat) (e : Exti) (L : Nat) (w : Word), ExtiAt s c e → L < e.params.numLines →
    e.params.configurableMask.getLsbD L = true → e.imr.getLsbD L = true → e.rtsr.getLsbD L = true →
    e.ftsr.getLsbD L = false → w.getLsbD L = true →
    ∃ t e', exec (.extiOnGpioConfigurable c L true) s = .next t ∧
      t.holds c (.exti e') ∧ e'.pr.getLsbD L = true ∧ t.outIs c L true ∧
      Returns (.extiOnGpioConfigurable c L false) t none ∧
      ∃ u f, exec (.extiPrWrite c w) t = .next u ∧
        u.holds c (.exti f) ∧ f.pr.getLsbD L = false ∧ u.outIs c L false ∧
        Returns (.extiOnGpioConfigurable c L false) u none ∧
        ∃ z g, exec (.extiOnGpioConfigurable c L true) u = .next z ∧
          z.holds c (.exti g) ∧ g.pr.getLsbD L = true ∧ z.outIs c L true

/-- 43_exti.md R251, R255: on a direct line an event the mask lets through drives the output to the input's level and
changes no register; any other changes nothing at all. The spec's own decision in it: D62. -/
def Obligations.ExtiDirectLine : Prop :=
  ∀ (s : State) (c : Nat) (e : Exti) (L : Nat) (v : Bool), ExtiAt s c e → L < e.params.numLines →
    e.params.configurableMask.getLsbD L = false → e.params.treatNonconfigAsDirect = true →
    ((e.params.directIgnoresMask = true ∨ e.imr.getLsbD L = true) →
      ∃ t, Runs (.extiOnGpioDirect c L v) s t c (.exti e) [] none ∧ t.outIs c L v ∧
        OutsKept s t c (fun i => i ≠ L)) ∧
    (e.params.directIgnoresMask = false → e.imr.getLsbD L = false → Returns (.extiOnGpioDirect c L v) s none)

/-- 43_exti.md R252, R256: a number out of range, and a dropped line, give an `Error` diagnostic and nothing else. -/
def Obligations.ExtiDroppedAndOutOfRange : Prop :=
  ∀ (s : State) (c : Nat) (e : Exti) (v : Bool), ExtiAt s c e →
    (∀ n : Int, (n < 0 ∨ (e.params.numLines : Int) ≤ n) →
      OnlyDiag (.extiOnGpioOutOfRange c n v) s c .error .gpioOutOfRange (.num n) none) ∧
    ∀ L : Nat, L < e.params.numLines → e.params.configurableMask.getLsbD L = false →
      e.params.treatNonconfigAsDirect = false →
      OnlyDiag (.extiOnGpioDropped c L v) s c .error .gpioOutOfRange (.num L) none

/-- 43_exti.md R257: writes of `IMR`, `RTSR` and `FTSR` replace the bits of lines that exist (of the latter two, that are
configurable), and nothing else happens in the whole platform: no pending bit, no output, no other controller, no callback. The
spec's own decision in it: D63. -/
def Obligations.ExtiMaskAndTriggerWrites : Prop :=
  ∀ (s : State) (c : Nat) (e : Exti) (w : Word), ExtiAt s c e →
    (∃ e', OnlyStores (.extiImrWrite c w) s c (.exti e') ∧ e' = { e with imr := e'.imr } ∧
      ∀ L < 32, e'.imr.getLsbD L = (w.getLsbD L && decide (L < e.params.numLines))) ∧
    (∃ e', OnlyStores (.extiRtsrWrite c w) s c (.exti e') ∧ e' = { e with rtsr := e'.rtsr } ∧
      ∀ L < 32, e'.rtsr.getLsbD L = (w.getLsbD L && e.params.configurableMask.getLsbD L)) ∧
    ∃ e', OnlyStores (.extiFtsrWrite c w) s c (.exti e') ∧ e' = { e with ftsr := e'.ftsr } ∧
      ∀ L < 32, e'.ftsr.getLsbD L = (w.getLsbD L && e.params.configurableMask.getLsbD L)

/-- 43_exti.md R258: a write of `SWIER` sets `PR` and raises the output of every configurable unmasked line whose bit is 1,
and touches no other line. The spec's own decision in it: D64. -/
def Obligations.ExtiSoftwareInterrupt : Prop :=
  ∀ (s : State) (c : Nat) (e : Exti) (w : Word), ExtiAt s c e →
    ∃ t e', Runs (.extiSwierWrite c w) s t c (.exti e') [] none ∧ e' = { e with pr := e'.pr } ∧
      (∀ L < 32, e'.pr.getLsbD L = (e.pr.getLsbD L ||
        (w.getLsbD L && e.params.configurableMask.getLsbD L && e.imr.getLsbD L))) ∧
      (∀ L < 32, w.getLsbD L = true → e.params.configurableMask.getLsbD L = true → e.imr.getLsbD L = true →
        t.outIs c L true) ∧
      OutsKept s t c (fun L =>
        (w.getLsbD L && e.params.configurableMask.getLsbD L && e.imr.getLsbD L) = false)

/-- 43_exti.md R259: a write of `PR` clears the pending bit and lowers the output of every configurable line whose bit is 1,
whatever its input and its mask, and touches no other line. The spec's own decision in it: D69. -/
def Obligations.ExtiPendingClear : Prop :=
  ∀ (s : State) (c : Nat) (e : Exti) (w : Word), ExtiAt s c e →
    ∃ t e', Runs (.extiPrWrite c w) s t c (.exti e') [] none ∧ e' = { e with pr := e'.pr } ∧
      (∀ L < 32, e'.pr.getLsbD L = (e.pr.getLsbD L && !(w.getLsbD L && e.params.configurableMask.getLsbD L))) ∧
      (∀ L < 32, w.getLsbD L = true → e.params.configurableMask.getLsbD L = true → t.outIs c L false) ∧
      OutsKept s t c (fun L => (w.getLsbD L && e.params.configurableMask.getLsbD L) = false)

/-- 43_exti.md R260: the plain reads of the EXTI return the stored values, `SWIER` 0, and change nothing.
The spec's own decisions in it: D60, D64. -/
def Obligations.ExtiPlainReads : Prop :=
  ∀ (s : State) (c : Nat) (e : Exti), ExtiAt s c e →
    Returns (.extiImrRead c) s (some (.word e.imr)) ∧ Returns (.extiRtsrRead c) s (some (.word e.rtsr)) ∧
    Returns (.extiFtsrRead c) s (some (.word e.ftsr)) ∧ Returns (.extiSwierRead c) s (some (.word 0)) ∧
    Returns (.extiPrRead c) s (some (.word e.pr))

/-! ## INTMUX -/

/-- 10_state.md R60, 44_intmux.md R293, R298: the pending bits, the output and the vector number of a channel.
The spec's own decisions in it: D72, D73, D74. -/
def Obligations.MuxDerivedValues : Prop :=
  ∀ (m : Mux) (ch : Nat) (x : MuxChan), m.chans[ch]? = some x →
    (∀ i < 32, (m.ipr ch).getLsbD i = (x.ier.getLsbD i && m.inputs.getLsbD i)) ∧
    (x.andMode = false → (m.eval ch = true ↔ ∃ i < 32, x.ier.getLsbD i = true ∧ m.inputs.getLsbD i = true)) ∧
    (x.andMode = true → (m.eval ch = true ↔ (∃ i < 32, x.ier.getLsbD i = true) ∧
      ∀ i < 32, x.ier.getLsbD i = true → m.inputs.getLsbD i = true)) ∧
    (m.ipr ch = 0 → m.vec ch = 0) ∧
    (m.ipr ch ≠ 0 → (m.ipr ch).getLsbD (m.vec ch).toNat = true ∧
      ∀ i < (m.vec ch).toNat, (m.ipr ch).getLsbD i = false)

/-- 44_intmux.md R291, R292: an input stores its level and re-derives every channel's output; a number out of range gives an
`Error` diagnostic and nothing else. -/
def Obligations.MuxInput : Prop :=
  ∀ (s : State) (c : Nat) (m : Mux) (v : Bool), MuxAt s c m →
    (∀ i < m.params.muxSources,
      ∃ t m', Runs (.muxOnGpio c i v) s t c (.intmux m') [] none ∧ m' = { m with inputs := m'.inputs } ∧
        (∀ j < 32, m'.inputs.getLsbD j = if j = i then v else m.inputs.getLsbD j) ∧ MuxOuts t c m') ∧
    ∀ n : Int, (n < 0 ∨ (m.params.muxSources : Int) ≤ n) →
      OnlyDiag (.muxOnGpioOutOfRange c n v) s c .error .gpioOutOfRange (.num n) none

/-- 44_intmux.md R294, R295, R296: an `IER[ch]` write stores the bits of sources that exist; a `CSR[ch]` write with bit 0
clear sets the mode from bit 1, with bit 0 set it resets the channel; the inputs and the other channels are untouched, and
every output is re-derived in the same event. The spec's own decisions in it: D73, D75. -/
def Obligations.MuxChannelWrites : Prop :=
  ∀ (s : State) (c : Nat) (m : Mux) (ch : Nat) (x : MuxChan) (w : Word), MuxAt s c m → m.chans[ch]? = some x →
    (∃ t m' x', Runs (.muxIerWrite c ch w) s t c (.intmux m') [] none ∧
      m' = { m with chans := m.chans.set ch x' } ∧ x'.andMode = x.andMode ∧
      (∀ i < 32, x'.ier.getLsbD i = (w.getLsbD i && decide (i < m.params.muxSources))) ∧ MuxOuts t c m') ∧
    (w.getLsbD 0 = false →
      ∃ t m', Runs (.muxCsrModeWrite c ch w) s t c (.intmux m') [] none ∧
        m' = { m with chans := m.chans.set ch { andMode := w.getLsbD 1, ier := x.ier } } ∧ MuxOuts t c m') ∧
    (w.getLsbD 0 = true →
      ∃ t m', Runs (.muxCsrResetWrite c ch w) s t c (.intmux m') [] none ∧
        m' = { m with chans := m.chans.set ch { andMode := false, ier := 0 } } ∧ MuxOuts t c m')

/-- 44_intmux.md R297: the reads of an INTMUX channel return the values given and change nothing.
The spec's own decisions in it: D70, D74. -/
def Obligations.MuxReads : Prop :=
  ∀ (s : State) (c : Nat) (m : Mux) (ch : Nat) (x : MuxChan), MuxAt s c m → m.chans[ch]? = some x →
    Returns (.muxIerRead c ch) s (some (.word x.ier)) ∧
    Returns (.muxIprRead c ch) s (some (.word (x.ier &&& m.inputs))) ∧
    Returns (.muxVecRead c ch) s (some (.word (m.vec ch))) ∧
    ∃ r : Word, Returns (.muxCsrRead c ch) s (some (.word r)) ∧
      ∀ i < 32, r.getLsbD i = (decide (i = 1) && x.andMode || decide (i = 31) && m.eval ch)

/-! ## Any controller -/

/-- 20_memory.md R79, 30_encoding.md R102: an aligned access inside the window at an offset with no register reads 0 or is
dropped, with an `Info` diagnostic and nothing else; a write to a read-only register changes nothing, silently.
The spec's own decisions in it: D7, D8 (log entry 18). -/
def Obligations.UnhandledAndReadOnlyAccesses : Prop :=
  ∀ (s : State) (c : Nat) (x : Ctrl) (off : Nat) (v : Word), s.sound = true → s.ctrls[c]? = some x → off % 4 = 0 →
    off < x.core.params.size →
    (regAt x.core.params off = none →
      OnlyDiag (.anyUnhandledRead c off) s c .info .unhandledRead (.num off) (some (.word 0)) ∧
      OnlyDiag (.anyUnhandledWrite c off v) s c .info .unhandledWrite (.num off) none) ∧
    (∀ r, regAt x.core.params off = some r → r.readOnly = true → Returns (.anyReadonlyWrite c off v) s none)

/-- 42_vic.md R203: a VIC input number outside 0 to 31 gives an `Error` diagnostic and nothing else. -/
def Obligations.VicInputOutOfRangeOnlyReports : Prop :=
  ∀ (s : State) (c : Nat) (v : Vic) (n : Int) (b : Bool), VicAt s c v → (n < 0 ∨ 31 < n) →
    OnlyDiag (.vicOnGpioOutOfRange c n b) s c .error .gpioOutOfRange (.num n) none

/-- 20_memory.md R77: of all bus reads at offsets with a register, only the PLIC claim register and the VIC
active-vector-address register change anything when read. -/
def Obligations.OnlyTwoReadsHaveSideEffects : Prop :=
  ∀ (s t : State) (c off : Nat) (x : Ctrl) (r : Reg) (i : Instr), s.ctrls[c]? = some x →
    regAt x.core.params off = some r → r ≠ .vicVectAddr → (∀ k, r ≠ .plicClaimComplete k) →
    decode s.platform (.memRead c off 4) = .ok i → exec i s = .next t →
    ∃ w : Word, t = { s with reply := some (.word w) }
end

