-- ==== Sys2Proof/Laws/State.lean ====
section
/-! SUPPORT. The small lemmas of the state's named updates: one per field per update, so that no later proof unfolds a
record update. -/

namespace Sys2Proof.Machine

/-! ## Lines and callbacks -/

@[simp] theorem SigLine.withLevel_level (l : SigLine) (v : Bool) : (l.withLevel v).level = v := rfl
@[simp] theorem SigLine.withLevel_receivers (l : SigLine) (v : Bool) : (l.withLevel v).receivers = l.receivers := rfl

@[simp] theorem State.hear_ctrls (s : State) (r : Nat) (n : Int) (v : Bool) : (s.hear r n v).ctrls = s.ctrls := rfl
@[simp] theorem State.hear_lines (s : State) (r : Nat) (n : Int) (v : Bool) : (s.hear r n v).lines = s.lines := rfl
@[simp] theorem State.hear_inbox (s : State) (r : Nat) (n : Int) (v : Bool) : (s.hear r n v).inbox = s.inbox := rfl
@[simp] theorem State.hear_reply (s : State) (r : Nat) (n : Int) (v : Bool) : (s.hear r n v).reply = s.reply := rfl
@[simp] theorem State.hear_callbacks (s : State) (r : Nat) (n : Int) (v : Bool) :
    (s.hear r n v).callbacks = s.callbacks ++ [⟨r, n, v⟩] := rfl

@[simp] theorem State.putLevel_out_lines (s : State) (c i : Nat) (v : Bool) :
    (s.putLevel (.out c i) v).lines = s.lines := rfl
@[simp] theorem State.putLevel_ext_ctrls (s : State) (k : Nat) (v : Bool) :
    (s.putLevel (.ext k) v).ctrls = s.ctrls := rfl
@[simp] theorem State.putLevel_ext_lines (s : State) (k : Nat) (v : Bool) :
    (s.putLevel (.ext k) v).lines = s.lines.modify k (fun l => l.withLevel v) := rfl
@[simp] theorem State.putLevel_out_ctrls (s : State) (c i : Nat) (v : Bool) :
    (s.putLevel (.out c i) v).ctrls =
      s.ctrls.modify c (fun x => { x with outs := x.outs.modify i (fun l => l.withLevel v) }) := rfl
@[simp] theorem State.putLevel_inbox (s : State) (L : LineRef) (v : Bool) : (s.putLevel L v).inbox = s.inbox := by
  cases L <;> rfl
@[simp] theorem State.putLevel_reply (s : State) (L : LineRef) (v : Bool) : (s.putLevel L v).reply = s.reply := by
  cases L <;> rfl
@[simp] theorem State.putLevel_callbacks (s : State) (L : LineRef) (v : Bool) :
    (s.putLevel L v).callbacks = s.callbacks := by
  cases L <;> rfl

/-! ## A controller's effect -/

@[simp] theorem State.putEff_ctrls (s : State) (c : Nat) (e : Eff Core) :
    (s.putEff c e).ctrls = s.ctrls.modify c (fun x => { x with core := e.core, trace := x.trace ++ e.diags }) := rfl
@[simp] theorem State.putEff_lines (s : State) (c : Nat) (e : Eff Core) : (s.putEff c e).lines = s.lines := rfl
@[simp] theorem State.putEff_inbox (s : State) (c : Nat) (e : Eff Core) : (s.putEff c e).inbox = s.inbox := rfl
@[simp] theorem State.putEff_reply (s : State) (c : Nat) (e : Eff Core) : (s.putEff c e).reply = s.reply := rfl
@[simp] theorem State.putEff_callbacks (s : State) (c : Nat) (e : Eff Core) :
    (s.putEff c e).callbacks = s.callbacks := rfl

@[simp] theorem State.begin_ctrls (s : State) (c : Nat) (e : Eff Core) : (s.begin c e).ctrls = (s.putEff c e).ctrls := rfl
@[simp] theorem State.begin_lines (s : State) (c : Nat) (e : Eff Core) : (s.begin c e).lines = s.lines := rfl
@[simp] theorem State.begin_inbox (s : State) (c : Nat) (e : Eff Core) : (s.begin c e).inbox = s.inbox := rfl
@[simp] theorem State.begin_reply (s : State) (c : Nat) (e : Eff Core) : (s.begin c e).reply = e.reply := rfl
@[simp] theorem State.begin_callbacks (s : State) (c : Nat) (e : Eff Core) :
    (s.begin c e).callbacks = s.callbacks := rfl

@[simp] theorem Eff.nothing_core {α : Type} (a : α) : (Eff.nothing a).core = a := rfl
@[simp] theorem Eff.nothing_drives {α : Type} (a : α) : (Eff.nothing a).drives = [] := rfl
@[simp] theorem Eff.nothing_diags {α : Type} (a : α) : (Eff.nothing a).diags = [] := rfl
@[simp] theorem Eff.nothing_reply {α : Type} (a : α) : (Eff.nothing a).reply = none := rfl
@[simp] theorem Eff.read_core {α : Type} (a : α) (v : Word) : (Eff.read a v).core = a := rfl
@[simp] theorem Eff.read_drives {α : Type} (a : α) (v : Word) : (Eff.read a v).drives = [] := rfl
@[simp] theorem Eff.read_diags {α : Type} (a : α) (v : Word) : (Eff.read a v).diags = [] := rfl
@[simp] theorem Eff.read_reply {α : Type} (a : α) (v : Word) : (Eff.read a v).reply = some (.word v) := rfl
@[simp] theorem Eff.change_core {α : Type} (a : α) (d : List (Nat × Bool)) : (Eff.change a d).core = a := rfl
@[simp] theorem Eff.change_drives {α : Type} (a : α) (d : List (Nat × Bool)) : (Eff.change a d).drives = d := rfl
@[simp] theorem Eff.change_diags {α : Type} (a : α) (d : List (Nat × Bool)) : (Eff.change a d).diags = [] := rfl
@[simp] theorem Eff.change_reply {α : Type} (a : α) (d : List (Nat × Bool)) : (Eff.change a d).reply = none := rfl
@[simp] theorem Eff.raise_core {α : Type} (a : α) (q : Cause) (i : DiagInfo) : (Eff.raise a q i).core = a := rfl
@[simp] theorem Eff.raise_drives {α : Type} (a : α) (q : Cause) (i : DiagInfo) : (Eff.raise a q i).drives = [] := rfl
@[simp] theorem Eff.raise_diags {α : Type} (a : α) (q : Cause) (i : DiagInfo) :
    (Eff.raise a q i).diags = [raiseDiag q i] := rfl
@[simp] theorem Eff.raise_reply {α : Type} (a : α) (q : Cause) (i : DiagInfo) : (Eff.raise a q i).reply = none := rfl
@[simp] theorem Eff.returning_core {α : Type} (e : Eff α) (v : Word) : (e.returning v).core = e.core := rfl
@[simp] theorem Eff.returning_drives {α : Type} (e : Eff α) (v : Word) : (e.returning v).drives = e.drives := rfl
@[simp] theorem Eff.returning_diags {α : Type} (e : Eff α) (v : Word) : (e.returning v).diags = e.diags := rfl
@[simp] theorem Eff.returning_reply {α : Type} (e : Eff α) (v : Word) :
    (e.returning v).reply = some (.word v) := rfl
@[simp] theorem Eff.muted_core {α : Type} (e : Eff α) (a : α) : (e.muted a).core = a := rfl
@[simp] theorem Eff.muted_drives {α : Type} (e : Eff α) (a : α) : (e.muted a).drives = [] := rfl
@[simp] theorem Eff.muted_diags {α : Type} (e : Eff α) (a : α) : (e.muted a).diags = e.diags := rfl
@[simp] theorem Eff.muted_reply {α : Type} (e : Eff α) (a : α) : (e.muted a).reply = none := rfl
@[simp] theorem Eff.lift_core {α : Type} (f : α → Core) (e : Eff α) : (e.lift f).core = f e.core := rfl
@[simp] theorem Eff.lift_drives {α : Type} (f : α → Core) (e : Eff α) : (e.lift f).drives = e.drives := rfl
@[simp] theorem Eff.lift_diags {α : Type} (f : α → Core) (e : Eff α) : (e.lift f).diags = e.diags := rfl
@[simp] theorem Eff.lift_reply {α : Type} (f : α → Core) (e : Eff α) : (e.lift f).reply = e.reply := rfl

/-! ## Updates of one controller's state -/

@[simp] theorem Plic.modSource_params (p : Plic) (i : Nat) (f : PlicSrc → PlicSrc) :
    (p.modSource i f).params = p.params := by
  unfold Plic.modSource; split <;> rfl
@[simp] theorem Plic.modSource_tgts (p : Plic) (i : Nat) (f : PlicSrc → PlicSrc) :
    (p.modSource i f).tgts = p.tgts := by
  unfold Plic.modSource; split <;> rfl
@[simp] theorem Plic.modTarget_params (p : Plic) (t : Nat) (f : PlicTgt → PlicTgt) :
    (p.modTarget t f).params = p.params := rfl
@[simp] theorem Plic.modTarget_srcs (p : Plic) (t : Nat) (f : PlicTgt → PlicTgt) :
    (p.modTarget t f).srcs = p.srcs := rfl

@[simp] theorem Vic.putField_params (v : Vic) (f : LineField) (L : Nat) (b : Bool) :
    (v.putField f L b).params = v.params := by
  cases f <;> rfl
@[simp] theorem Vic.putField_isFiq (v : Vic) (f : LineField) (L : Nat) (b : Bool) :
    (v.putField f L b).isFiq = v.isFiq := by
  cases f <;> rfl
@[simp] theorem Vic.putField_slots (v : Vic) (f : LineField) (L : Nat) (b : Bool) :
    (v.putField f L b).slots = v.slots := by
  cases f <;> rfl
@[simp] theorem Vic.putField_addrs (v : Vic) (f : LineField) (L : Nat) (b : Bool) :
    (v.putField f L b).addrs = v.addrs := by
  cases f <;> rfl
@[simp] theorem Vic.putField_defVectAddr (v : Vic) (f : LineField) (L : Nat) (b : Bool) :
    (v.putField f L b).defVectAddr = v.defVectAddr := by
  cases f <;> rfl
@[simp] theorem Vic.putField_queue (v : Vic) (f : LineField) (L : Nat) (b : Bool) :
    (v.putField f L b).queue = v.queue := by
  cases f <;> rfl
@[simp] theorem Vic.putField_stack (v : Vic) (f : LineField) (L : Nat) (b : Bool) :
    (v.putField f L b).stack = v.stack := by
  cases f <;> rfl

@[simp] theorem Vic.enqueue_params (v : Vic) (L : Nat) : (v.enqueue L).params = v.params := rfl
@[simp] theorem Vic.enqueue_pinState (v : Vic) (L : Nat) : (v.enqueue L).pinState = v.pinState := rfl
@[simp] theorem Vic.enqueue_softState (v : Vic) (L : Nat) : (v.enqueue L).softState = v.softState := rfl
@[simp] theorem Vic.enqueue_enabled (v : Vic) (L : Nat) : (v.enqueue L).enabled = v.enabled := rfl
@[simp] theorem Vic.enqueue_isFiq (v : Vic) (L : Nat) : (v.enqueue L).isFiq = v.isFiq := rfl
@[simp] theorem Vic.enqueue_slots (v : Vic) (L : Nat) : (v.enqueue L).slots = v.slots := rfl
@[simp] theorem Vic.enqueue_addrs (v : Vic) (L : Nat) : (v.enqueue L).addrs = v.addrs := rfl
@[simp] theorem Vic.enqueue_defVectAddr (v : Vic) (L : Nat) : (v.enqueue L).defVectAddr = v.defVectAddr := rfl
@[simp] theorem Vic.enqueue_stack (v : Vic) (L : Nat) : (v.enqueue L).stack = v.stack := rfl
@[simp] theorem Vic.enqueue_activeMask (v : Vic) (L : Nat) : (v.enqueue L).activeMask = v.activeMask := rfl
@[simp] theorem Vic.enqueue_isActive (v : Vic) (L K : Nat) : (v.enqueue L).isActive K = v.isActive K := rfl

@[simp] theorem Vic.purge_params (v : Vic) : v.purge.params = v.params := rfl
@[simp] theorem Vic.purge_pinState (v : Vic) : v.purge.pinState = v.pinState := rfl
@[simp] theorem Vic.purge_softState (v : Vic) : v.purge.softState = v.softState := rfl
@[simp] theorem Vic.purge_enabled (v : Vic) : v.purge.enabled = v.enabled := rfl
@[simp] theorem Vic.purge_isFiq (v : Vic) : v.purge.isFiq = v.isFiq := rfl
@[simp] theorem Vic.purge_slots (v : Vic) : v.purge.slots = v.slots := rfl
@[simp] theorem Vic.purge_addrs (v : Vic) : v.purge.addrs = v.addrs := rfl
@[simp] theorem Vic.purge_defVectAddr (v : Vic) : v.purge.defVectAddr = v.defVectAddr := rfl
@[simp] theorem Vic.purge_isActive (v : Vic) (L : Nat) : v.purge.isActive L = v.isActive L := rfl
@[simp] theorem Vic.purge_fiqLevel (v : Vic) : v.purge.fiqLevel = v.fiqLevel := rfl

@[simp] theorem Vic.update_core (v : Vic) : v.update.core = v.purge := rfl
@[simp] theorem Vic.update_drives (v : Vic) : v.update.drives = v.purge.drives := rfl
@[simp] theorem Vic.update_diags (v : Vic) : v.update.diags = [] := rfl
@[simp] theorem Vic.update_reply (v : Vic) : v.update.reply = none := rfl

@[simp] theorem Plic.reEvaluate_core (p : Plic) : p.reEvaluate.core = p := rfl
@[simp] theorem Plic.reEvaluate_drives (p : Plic) : p.reEvaluate.drives = p.drives := rfl
@[simp] theorem Plic.reEvaluate_diags (p : Plic) : p.reEvaluate.diags = [] := rfl
@[simp] theorem Plic.reEvaluate_reply (p : Plic) : p.reEvaluate.reply = none := rfl

@[simp] theorem Mux.reEvaluate_core (m : Mux) : m.reEvaluate.core = m := rfl
@[simp] theorem Mux.reEvaluate_drives (m : Mux) : m.reEvaluate.drives = m.drives := rfl
@[simp] theorem Mux.reEvaluate_diags (m : Mux) : m.reEvaluate.diags = [] := rfl
@[simp] theorem Mux.reEvaluate_reply (m : Mux) : m.reEvaluate.reply = none := rfl
@[simp] theorem Mux.modChan_params (m : Mux) (ch : Nat) (f : MuxChan → MuxChan) : (m.modChan ch f).params = m.params := rfl
@[simp] theorem Mux.modChan_inputs (m : Mux) (ch : Nat) (f : MuxChan → MuxChan) : (m.modChan ch f).inputs = m.inputs := rfl

end Sys2Proof.Machine
end

