-- ==== Sys2Proof/Laws/Operands.lean ====
section
/-! SUPPORT. The operand forms, read one bit at a time. -/

namespace Sys2Proof.Machine

theorem lowMask_bit {n i : Nat} (hn : n ≤ 32) : (lowMask n).getLsbD i = decide (i < n) := by
  simp only [lowMask, BitVec.getLsbD_ofNat, Nat.testBit_two_pow_sub_one]
  by_cases h : i < n
  · simp [h, Nat.lt_of_lt_of_le h hn]
  · simp [h]

theorem oneBit_bit {i j : Nat} (hi : i < 32) : (oneBit i).getLsbD j = decide (i = j) := by
  simp only [oneBit, BitVec.getLsbD_ofNat, Nat.testBit_two_pow]
  by_cases h : i = j
  · subst h; simp [hi]
  · simp [h]

/-- `putBit` writes one bit and no other. -/
theorem putBit_bit {w : Word} {i j : Nat} {b : Bool} (hi : i < 32) :
    (putBit w i b).getLsbD j = if j = i then b else w.getLsbD j := by
  by_cases hj : j = i
  · subst hj
    cases b <;> simp [putBit, oneBit_bit hi, hi]
  · have hne : ¬ i = j := fun h => hj h.symm
    cases b
    · simp only [putBit, Bool.false_eq_true, if_false, BitVec.getLsbD_and, BitVec.getLsbD_not, oneBit_bit hi, hne, hj,
        decide_false, Bool.not_false, Bool.and_true]
      by_cases hlt : j < 32
      · simp [hlt]
      · simp [BitVec.getLsbD_of_ge w j (by omega)]
    · simp [putBit, oneBit_bit hi, hne, hj]

theorem mem_bitsOf {w : Word} {i : Nat} : i ∈ bitsOf w ↔ i < 32 ∧ w.getLsbD i = true := by
  simp [bitsOf]

theorem wordOfBits_fold (f : Nat → Bool) :
    ∀ n, n ≤ 32 → ∀ j, ((List.range n).foldl (fun w i => if f i then w ||| oneBit i else w) (0 : Word)).getLsbD j
      = (decide (j < n) && f j) := by
  intro n
  induction n with
  | zero => intro _ j; simp
  | succ n ih =>
    intro hn j
    rw [List.range_succ, List.foldl_append]
    simp only [List.foldl_cons, List.foldl_nil]
    by_cases hf : f n = true
    · simp only [hf, if_true, BitVec.getLsbD_or, ih (by omega) j, oneBit_bit (show n < 32 by omega)]
      by_cases hj : n = j
      · subst hj; simp [hf]
      · have : (j < n) ↔ (j < n + 1) := by omega
        simp [hj, this]
    · simp only [hf]
      rw [if_neg (by simp), ih (by omega) j]
      by_cases hj : n = j
      · subst hj; simp [hf]
      · have : (j < n) ↔ (j < n + 1) := by omega
        simp [this]

/-- `wordOfBits f` has the bits `f` gives. -/
theorem wordOfBits_bit (f : Nat → Bool) (j : Nat) : (wordOfBits f).getLsbD j = (decide (j < 32) && f j) :=
  wordOfBits_fold f 32 (Nat.le_refl _) j

/-- A write reaches the bits of the mask and leaves the others (30_encoding.md R102). -/
theorem writeField_bit (m : AccessMode) (mask stored written : Word) (j : Nat) :
    (writeField m mask stored written).getLsbD j =
      if mask.getLsbD j then (m.after stored written).getLsbD j else stored.getLsbD j := by
  simp only [writeField, BitVec.getLsbD_or, BitVec.getLsbD_and, BitVec.getLsbD_not]
  by_cases hj : j < 32
  · cases h : mask.getLsbD j <;> simp [hj]
  · simp [BitVec.getLsbD_of_ge _ j (show 32 ≤ j by omega)]

end Sys2Proof.Machine
end

