-- ==== Sys2Proof/Laws/Propagation.lean ====
section
/-! SUPPORT. What setting a line and delivering an event can do, said once. First the relations every such call preserves
(`Propagates`); then that on sound wiring it never fails; then that it touches nothing outside what lies downstream; then
what an event on one controller leaves behind (`ctrlEvent_spec`). -/

namespace Sys2Proof.Machine

/-! ## Generalities -/

/-- Changing one element by a function that a projection does not see does not change the projected list. -/
theorem map_modify_of_eq {α β : Type} (l : List α) (i : Nat) (f : α → α) (g : α → β) (h : ∀ x, g (f x) = g x) :
    (l.modify i f).map g = l.map g := by
  apply List.ext_getElem?
  intro j
  simp only [List.getElem?_map, List.getElem?_modify]
  cases l[j]? with
  | none => simp
  | some x => by_cases hij : i = j <;> simp [hij, h]

@[simp] theorem State.wiring_hear (s : State) (r : Nat) (n : Int) (v : Bool) : (s.hear r n v).wiring = s.wiring := rfl

@[simp] theorem State.wiring_putLevel (s : State) (L : LineRef) (v : Bool) : (s.putLevel L v).wiring = s.wiring := by
  cases L with
  | ext k => rfl
  | out c i =>
    refine map_modify_of_eq _ _ _ _ fun x => ?_
    exact map_modify_of_eq _ _ _ _ fun l => rfl

@[simp] theorem State.wiring_putEff (s : State) (c : Nat) (e : Eff Core) : (s.putEff c e).wiring = s.wiring :=
  map_modify_of_eq _ _ _ _ fun _ => rfl

@[simp] theorem State.wiring_begin (s : State) (c : Nat) (e : Eff Core) : (s.begin c e).wiring = s.wiring :=
  s.wiring_putEff c e

theorem State.wiring_length (s : State) : s.wiring.length = s.ctrls.length := List.length_map ..

/-! ## Relations that propagation preserves -/

/-- A relation between states that composes and that a callback to the outside preserves. -/
structure Hears (R : State → State → Prop) : Prop where
  refl : ∀ s, R s s
  trans : ∀ {a b c}, R a b → R b c → R a c
  hear : ∀ s r n v, R s (s.hear r n v)

/-- A relation between states that every elementary change inside a nested event preserves. -/
structure Propagates (R : State → State → Prop) : Prop extends Hears R where
  level : ∀ s c i v, R s (s.putLevel (.out c i) v)
  gpio : ∀ s c x m n v e, s.ctrls[c]? = some x → x.core.hearGpio m n v = .ok e → R s (s.putEff c e)

theorem notifyAll_rel {R : State → State → Prop} (hR : Hears R) {dl : Delivery}
    (hdl : ∀ c n v s t, dl c n v s = .ok t → R s t) (v : Bool) :
    ∀ es s t, notifyAll dl v es s = .ok t → R s t := by
  intro es
  induction es with
  | nil =>
    intro s t h
    cases h
    exact hR.refl s
  | cons e es ih =>
    intro s t h
    simp only [notifyAll] at h
    cases h1 : notifyOne dl v e s with
    | error r => simp [h1] at h
    | ok s' =>
      simp only [h1] at h
      refine hR.trans ?_ (ih s' t h)
      unfold notifyOne at h1
      cases hr : e.receiver with
      | ctrl c => simp only [hr] at h1; exact hdl _ _ _ _ _ h1
      | outside r =>
        simp only [hr] at h1
        cases h1
        exact hR.hear s r _ v

/-- Setting a line, if storing its level preserves the relation. -/
theorem setLine_rel {R : State → State → Prop} (hR : Hears R) {dl : Delivery}
    (hdl : ∀ c n v s t, dl c n v s = .ok t → R s t) {L : LineRef} {v : Bool} {s t : State}
    (hlevel : R s (s.putLevel L v)) (h : setLine dl L v s = .ok t) : R s t := by
  unfold setLine at h
  cases hl : s.line? L with
  | none => simp only [hl] at h; cases h; exact hR.refl s
  | some l =>
    simp only [hl] at h
    by_cases hv : l.level = v
    · simp only [hv, if_true] at h; cases h; exact hR.refl s
    · simp only [hv, if_false] at h
      exact hR.trans hlevel (notifyAll_rel hR hdl v _ _ _ h)

theorem setLine_out_rel {R : State → State → Prop} (hR : Propagates R) {dl : Delivery}
    (hdl : ∀ c n v s t, dl c n v s = .ok t → R s t) {c i : Nat} {v : Bool} {s t : State}
    (h : setLine dl (.out c i) v s = .ok t) : R s t :=
  setLine_rel hR.toHears hdl (hR.level s c i v) h

/-- Driving the outputs of `c`, if storing their levels preserves the relation. -/
theorem driveAll_rel {R : State → State → Prop} (hR : Hears R) {dl : Delivery}
    (hdl : ∀ c n v s t, dl c n v s = .ok t → R s t) {c : Nat} (hlevel : ∀ s i v, R s (s.putLevel (.out c i) v)) :
    ∀ ds s t, driveAll dl c ds s = .ok t → R s t := by
  intro ds
  induction ds with
  | nil => intro s t h; cases h; exact hR.refl s
  | cons d ds ih =>
    intro s t h
    simp only [driveAll] at h
    cases h1 : setLine dl (.out c d.1) d.2 s with
    | error r => simp [h1] at h
    | ok s' =>
      simp only [h1] at h
      exact hR.trans (setLine_rel hR hdl (hlevel s _ _) h1) (ih s' t h)

/-- A delivered event preserves every relation its elementary changes preserve. -/
theorem deliver_rel {R : State → State → Prop} (hR : Propagates R) {done : List Nat} :
    ∀ k c n v s t, deliver done k c n v s = .ok t → R s t := by
  intro k
  induction k with
  | zero => intro c n v s t h; simp [deliver] at h
  | succ k ih =>
    intro c n v s t h
    simp only [deliver] at h
    cases hx : s.ctrls[c]? with
    | none => simp [hx] at h
    | some x =>
      simp only [hx] at h
      cases he : x.core.hearGpio (decide (c ∈ done)) n v with
      | error r => simp [he] at h
      | ok e =>
        simp only [he] at h
        exact hR.trans (hR.gpio s c x _ n v e hx he) (driveAll_rel hR.toHears ih (fun s i v => hR.level s c i v) _ _ _ h)

/-! ## `OnGPIO` keeps a controller's parameters -/

theorem Except.map_ok {ε α β : Type} {f : α → β} {r : Except ε α} {b : β} (h : r.map f = .ok b) :
    ∃ a, r = .ok a ∧ b = f a := by
  cases r with
  | error e => cases h
  | ok a => exact ⟨a, rfl, by cases h; rfl⟩

@[simp] theorem Vic.change_params (f : LineField) (b : Bool) (v : Vic) (L : Nat) :
    (Vic.change f b v L).params = v.params := by
  unfold Vic.change
  simp only
  split <;> simp

theorem Plic.onGpio_params {p : Plic} {n : Int} {v : Bool} {e : Eff Plic} (h : p.onGpio n v = .ok e) :
    e.core.params = p.params := by
  unfold Plic.onGpio at h
  split at h
  · cases h; simp [Plic.input]
  · cases h

theorem Vic.onGpio_params {x : Vic} {n : Int} {v : Bool} {e : Eff Vic} (h : x.onGpio n v = .ok e) :
    e.core.params = x.params := by
  unfold Vic.onGpio at h
  split at h <;> cases h <;> simp

theorem Exti.onGpio_params {x : Exti} {n : Int} {v : Bool} {e : Eff Exti} (h : x.onGpio n v = .ok e) :
    e.core.params = x.params := by
  unfold Exti.onGpio at h
  split at h <;> cases h
  · unfold Exti.onConfigurable; split <;> simp
  · unfold Exti.onDirect; split <;> simp
  · simp
  · simp

theorem Mux.onGpio_params {m : Mux} {n : Int} {v : Bool} {e : Eff Mux} (h : m.onGpio n v = .ok e) :
    e.core.params = m.params := by
  unfold Mux.onGpio at h
  split at h <;> cases h <;> simp

/-- `OnGPIO` changes no parameter and no kind. -/
theorem Core.onGpio_params {k : Core} {n : Int} {v : Bool} {e : Eff Core} (h : k.onGpio n v = .ok e) :
    e.core.params = k.params := by
  cases k with
  | plic p =>
    obtain ⟨a, ha, rfl⟩ := Except.map_ok h
    simp [Core.params, Plic.onGpio_params ha]
  | vic p =>
    obtain ⟨a, ha, rfl⟩ := Except.map_ok h
    simp [Core.params, Vic.onGpio_params ha]
  | exti p =>
    obtain ⟨a, ha, rfl⟩ := Except.map_ok h
    simp [Core.params, Exti.onGpio_params ha]
  | intmux p =>
    obtain ⟨a, ha, rfl⟩ := Except.map_ok h
    simp [Core.params, Mux.onGpio_params ha]

/-- Neither does `OnGPIO` as delivered during a system reset. -/
theorem Core.hearGpio_params {m : Bool} {k : Core} {n : Int} {v : Bool} {e : Eff Core} (h : k.hearGpio m n v = .ok e) :
    e.core.params = k.params := by
  obtain ⟨a, ha, rfl⟩ := Except.map_ok h
  cases m
  · exact Core.onGpio_params ha
  · rfl

/-- Outside a system reset a controller hears its own `OnGPIO`. -/
@[simp] theorem Core.hearGpio_false (k : Core) (n : Int) (v : Bool) : k.hearGpio false n v = k.onGpio n v := by
  unfold Core.hearGpio
  cases k.onGpio n v <;> rfl

/-- A settled controller keeps its state and drives nothing. -/
theorem Core.hearGpio_settled {k : Core} {n : Int} {v : Bool} {e : Eff Core} (h : k.hearGpio true n v = .ok e) :
    e.core = k ∧ e.drives = [] := by
  obtain ⟨a, -, rfl⟩ := Except.map_ok h
  exact ⟨rfl, rfl⟩

/-! ## What nested events never change -/

/-- The fields and constants that a nested event never changes, and that no trace loses a record. -/
def Steady (s t : State) : Prop :=
  t.inbox = s.inbox ∧ t.lines = s.lines ∧ t.reply = s.reply ∧ t.wiring = s.wiring ∧
    t.ctrls.map (fun x => x.core.params) = s.ctrls.map (fun x => x.core.params) ∧
    t.ctrls.map Ctrl.base = s.ctrls.map Ctrl.base ∧ s.TracesGrow t

theorem State.TracesGrow.refl (s : State) : s.TracesGrow s := fun d => ⟨[], by simp⟩

theorem State.TracesGrow.trans {a b c : State} (h : a.TracesGrow b) (g : b.TracesGrow c) : a.TracesGrow c := by
  intro d
  obtain ⟨l, hl⟩ := h d
  obtain ⟨m, hm⟩ := g d
  refine ⟨l ++ m, ?_⟩
  cases hb : b.ctrls[d]? with
  | none => cases ha : a.ctrls[d]? <;> simp_all
  | some y => cases ha : a.ctrls[d]? <;> simp_all

theorem State.TracesGrow.of_putEff (s : State) (c : Nat) (e : Eff Core) : s.TracesGrow (s.putEff c e) := by
  intro d
  refine ⟨if c = d then e.diags else [], ?_⟩
  simp only [State.putEff_ctrls, List.getElem?_modify]
  by_cases h : c = d <;> cases s.ctrls[d]? <;> simp [h]

theorem State.TracesGrow.of_putLevel (s : State) (L : LineRef) (v : Bool) : s.TracesGrow (s.putLevel L v) := by
  cases L with
  | ext k => exact State.TracesGrow.refl s
  | out c i =>
    intro d
    refine ⟨[], ?_⟩
    simp only [State.putLevel_out_ctrls, List.getElem?_modify]
    by_cases h : c = d <;> cases s.ctrls[d]? <;> simp [h]

theorem map_params_putEff {s : State} {c : Nat} {x : Ctrl} {e : Eff Core} (hx : s.ctrls[c]? = some x)
    (he : e.core.params = x.core.params) :
    (s.putEff c e).ctrls.map (fun x => x.core.params) = s.ctrls.map (fun x => x.core.params) := by
  apply List.ext_getElem?
  intro j
  simp only [State.putEff_ctrls, List.getElem?_map, List.getElem?_modify]
  by_cases hj : c = j
  · subst hj; simp [hx, he]
  · simp [hj]

theorem Steady.of_putEff {s : State} {c : Nat} {x : Ctrl} {e : Eff Core} (hx : s.ctrls[c]? = some x)
    (he : e.core.params = x.core.params) : Steady s (s.putEff c e) :=
  ⟨rfl, rfl, rfl, s.wiring_putEff c e, map_params_putEff hx he, map_modify_of_eq _ _ _ _ fun _ => rfl,
    State.TracesGrow.of_putEff s c e⟩

theorem Steady.refl (s : State) : Steady s s := ⟨rfl, rfl, rfl, rfl, rfl, rfl, State.TracesGrow.refl s⟩

theorem Steady.trans {a b c : State} (h : Steady a b) (g : Steady b c) : Steady a c :=
  ⟨g.1.trans h.1, g.2.1.trans h.2.1, g.2.2.1.trans h.2.2.1, g.2.2.2.1.trans h.2.2.2.1,
    g.2.2.2.2.1.trans h.2.2.2.2.1, g.2.2.2.2.2.1.trans h.2.2.2.2.2.1, h.2.2.2.2.2.2.trans g.2.2.2.2.2.2⟩

theorem steady_propagates : Propagates Steady where
  refl := Steady.refl
  trans := Steady.trans
  hear s _ _ _ := ⟨rfl, rfl, rfl, rfl, rfl, rfl, State.TracesGrow.refl s⟩
  level s _ _ v := ⟨rfl, rfl, rfl, s.wiring_putLevel _ v, map_modify_of_eq _ _ _ _ fun _ => rfl,
    map_modify_of_eq _ _ _ _ fun _ => rfl, State.TracesGrow.of_putLevel s _ v⟩
  gpio _ _ _ _ _ _ _ hx he := Steady.of_putEff hx (Core.hearGpio_params he)

theorem deliver_steady {done : List Nat} {k c : Nat} {n : Int} {v : Bool} {s t : State} (h : deliver done k c n v s = .ok t) : Steady s t :=
  deliver_rel steady_propagates k c n v s t h

theorem driveAll_steady {done : List Nat} {k c : Nat} {ds : List (Nat × Bool)} {s t : State}
    (h : driveAll (deliver done k) c ds s = .ok t) : Steady s t :=
  driveAll_rel steady_propagates.toHears (deliver_rel steady_propagates k) (fun s i v => steady_propagates.level s c i v) ds s t h

theorem Steady.platform {s t : State} (h : Steady s t) : t.platform = s.platform := by
  unfold State.platform; rw [h.2.1, h.2.2.2.2.1]

theorem Steady.length {s t : State} (h : Steady s t) : t.ctrls.length = s.ctrls.length := by
  have := congrArg List.length h.2.2.2.2.1; simpa using this

/-! ## On sound wiring nothing fails -/

theorem heightWithin_succ (w : List (List (List Endpoint))) :
    ∀ k c, heightWithin w k c = true → heightWithin w (k + 1) c = true := by
  intro k
  induction k with
  | zero => intro c h; simp [heightWithin] at h
  | succ k ih =>
    intro c h
    rw [heightWithin, List.all_eq_true] at h ⊢
    exact fun d hd => ih d (h d hd)

theorem heightWithin_mono (w : List (List (List Endpoint))) {k k' c : Nat} (hk : k ≤ k')
    (h : heightWithin w k c = true) : heightWithin w k' c = true := by
  induction hk with
  | refl => exact h
  | step _ ih => exact heightWithin_succ w _ c ih

theorem Endpoint.ok_outside {p : Platform} {e : Endpoint} {r : Nat} (h : e.receiver = .outside r) : e.ok p = true := by
  simp [Endpoint.ok, h]

theorem State.platform_ctrls (s : State) (c : Nat) : s.platform.ctrls[c]? = (s.ctrls[c]?).map (fun x => x.core.params) := by
  simp [State.platform]

/-- An endpoint that is an existing input names a controller whose `OnGPIO` accepts it. -/
theorem Endpoint.ok_accepts {s : State} {e : Endpoint} {c : Nat} (h : e.ok s.platform = true)
    (hc : e.receiver = .ctrl c) :
    ∃ x, s.ctrls[c]? = some x ∧ ∀ m v, ∃ r, x.core.hearGpio m e.number v = .ok r := by
  simp only [Endpoint.ok, hc, State.platform_ctrls] at h
  cases hx : s.ctrls[c]? with
  | none => simp [hx] at h
  | some x =>
    refine ⟨x, rfl, fun m v => ?_⟩
    suffices h : ∃ r, x.core.onGpio e.number v = .ok r from h.imp' _ fun r hr => by rw [Core.hearGpio, hr]; rfl
    simp only [hx, Option.map_some] at h
    cases hk : x.core with
    | plic p =>
      simp only [hk, Core.params] at h
      exact ⟨Eff.lift .plic (p.input e.number.toNat v), by simp [Core.onGpio, Plic.onGpio, h, Except.map]⟩
    | vic x =>
      by_cases hr : inputInRange 0 Config.vicLines e.number
      · exact ⟨_, by simp only [Core.onGpio, Vic.onGpio, hr, if_true]; rfl⟩
      · exact ⟨_, by simp only [Core.onGpio, Vic.onGpio, hr]; rfl⟩
    | exti x =>
      cases hq : extiClass x.params e.number <;>
        exact ⟨_, by simp only [Core.onGpio, Exti.onGpio, hq]; rfl⟩
    | intmux m =>
      by_cases hr : inputInRange 0 m.params.muxSources e.number
      · exact ⟨_, by simp only [Core.onGpio, Mux.onGpio, hr, if_true]; rfl⟩
      · exact ⟨_, by simp only [Core.onGpio, Mux.onGpio, hr]; rfl⟩

/-- The receivers of a controller's output are endpoints of its wiring. -/
theorem State.line_out_mem {s : State} {c i : Nat} {l : SigLine} (h : s.line? (.out c i) = some l) :
    l.receivers ∈ s.wiring.getD c [] ∧ c < s.wiring.length := by
  simp only [State.line?, Option.bind_eq_some_iff] at h
  obtain ⟨x, hx, hl⟩ := h
  have hc : s.wiring[c]? = some (x.outs.map (fun l => l.receivers)) := by simp [State.wiring, hx]
  refine ⟨?_, ?_⟩
  · rw [List.getD_eq_getElem?_getD, hc]
    exact List.mem_map_of_mem (List.mem_of_getElem? hl)
  · exact (List.getElem?_eq_some_iff.1 hc).1

theorem State.line_out_target {s : State} {c i d : Nat} {l : SigLine} {e : Endpoint}
    (h : s.line? (.out c i) = some l) (he : e ∈ l.receivers) (hd : e.receiver = .ctrl d) (hlt : d < s.ctrls.length) :
    d ∈ wiringTargets s.wiring c := by
  rw [wiringTargets, List.mem_filter, List.mem_filterMap]
  refine ⟨⟨e, List.mem_flatten.2 ⟨_, (s.line_out_mem h).1, he⟩, by simp [Endpoint.ctrl?, hd]⟩, ?_⟩
  simpa [State.wiring_length] using hlt

theorem State.wired_out {s : State} (h : s.wired = true) {c i : Nat} {l : SigLine} (hl : s.line? (.out c i) = some l)
    {e : Endpoint} (he : e ∈ l.receivers) : e.ok s.platform = true := by
  simp only [State.wired, Bool.and_eq_true, List.all_eq_true] at h
  obtain ⟨hm, hc⟩ := s.line_out_mem hl
  refine h.2 (s.wiring.getD c []) ?_ _ hm e he
  rw [List.getD_eq_getElem?_getD, List.getElem?_eq_getElem hc]
  exact List.getElem_mem hc

theorem Steady.wired {s t : State} (h : Steady s t) : t.wired = s.wired := by
  unfold State.wired; rw [h.platform, h.2.1, h.2.2.2.1]

theorem notifyAll_ok {dl : Delivery} (v : Bool) (P : State → Prop)
    (hhear : ∀ s r n, P s → P (s.hear r n v)) :
    ∀ es s, P s → (∀ e ∈ es, ∀ c, e.receiver = .ctrl c → ∀ s, P s → ∃ t, dl c e.number v s = .ok t ∧ P t) →
      ∃ t, notifyAll dl v es s = .ok t ∧ P t := by
  intro es
  induction es with
  | nil => intro s hs _; exact ⟨s, rfl, hs⟩
  | cons e es ih =>
    intro s hs h
    have h1 : ∃ s', notifyOne dl v e s = .ok s' ∧ P s' := by
      unfold notifyOne
      cases hr : e.receiver with
      | ctrl c => exact h e (List.mem_cons_self ..) c hr s hs
      | outside r => exact ⟨_, rfl, hhear s r _ hs⟩
    obtain ⟨s', h1, hs'⟩ := h1
    obtain ⟨t, ht, hP⟩ := ih s' hs' fun e' he' => h e' (List.mem_cons_of_mem _ he')
    exact ⟨t, by simp [notifyAll, h1, ht], hP⟩

/-- On sound wiring the outputs of controller `c` can be driven, if the receivers' deliveries succeed. -/
theorem driveAll_ok {done : List Nat} {k c : Nat} {w : List (List (List Endpoint))}
    (hdl : ∀ d ∈ wiringTargets w c, ∀ e : Endpoint, e.receiver = .ctrl d → ∀ v s, s.wired = true → s.wiring = w →
      e.ok s.platform = true → ∃ t, deliver done k d e.number v s = .ok t) :
    ∀ ds s, s.wired = true → s.wiring = w → ∃ t, driveAll (deliver done k) c ds s = .ok t := by
  intro ds
  induction ds with
  | nil => intro s _ _; exact ⟨s, rfl⟩
  | cons d ds ih =>
    intro s hw hs
    have h1 : ∃ s', setLine (deliver done k) (.out c d.1) d.2 s = .ok s' := by
      unfold setLine
      cases hl : s.line? (.out c d.1) with
      | none => exact ⟨s, rfl⟩
      | some l =>
        by_cases hv : l.level = d.2
        · exact ⟨s, by simp [hv]⟩
        · simp only [hv, if_false]
          have hst : Steady s (s.putLevel (.out c d.1) d.2) := steady_propagates.level s c d.1 d.2
          obtain ⟨t, ht, -⟩ := notifyAll_ok (dl := deliver done k) d.2 (fun u => Steady s u)
            (fun u r n hu => steady_propagates.trans hu (steady_propagates.hear u r n d.2)) l.receivers _ hst
            (by
              intro e he c' hc' u hu
              have hok := s.wired_out hw hl he
              obtain ⟨x, hx, -⟩ := Endpoint.ok_accepts hok hc'
              have hlt : c' < s.ctrls.length := (List.getElem?_eq_some_iff.1 hx).1
              have hmem := State.line_out_target hl he hc' hlt
              rw [hs] at hmem
              obtain ⟨t, ht⟩ := hdl c' hmem e hc' d.2 u (hu.wired.trans hw) (hu.2.2.2.1.trans hs) (hu.platform ▸ hok)
              exact ⟨t, ht, steady_propagates.trans hu (deliver_steady ht)⟩)
          exact ⟨t, ht⟩
    obtain ⟨s', h1⟩ := h1
    have hst : Steady s s' := setLine_out_rel steady_propagates (deliver_rel steady_propagates k) h1
    obtain ⟨t, ht⟩ := ih s' (hst.wired.trans hw) (hst.2.2.2.1.trans hs)
    exact ⟨t, by simp [driveAll, h1, ht]⟩

/-- On sound wiring a delivery of sufficient depth to an existing input succeeds. -/
theorem deliver_ok {done : List Nat} {w : List (List (List Endpoint))} :
    ∀ k c, heightWithin w k c = true → ∀ e : Endpoint, e.receiver = .ctrl c → ∀ v s, s.wired = true → s.wiring = w →
      e.ok s.platform = true → ∃ t, deliver done k c e.number v s = .ok t := by
  intro k
  induction k with
  | zero => intro c h; simp [heightWithin] at h
  | succ k ih =>
    intro c hh e hc v s hw hs hok
    obtain ⟨x, hx, hacc⟩ := Endpoint.ok_accepts hok hc
    obtain ⟨r, hr⟩ := hacc (decide (c ∈ done)) v
    rw [heightWithin, List.all_eq_true] at hh
    have hst : Steady s (s.putEff c r) := Steady.of_putEff hx (Core.hearGpio_params hr)
    obtain ⟨t, ht⟩ := driveAll_ok (k := k) (c := c) (w := w) (fun d hd e' he' v' s' h1 h2 h3 => ih d (hh d hd) e' he' v' s' h1 h2 h3)
      r.drives _ (hst.wired.trans hw) (hst.2.2.2.1.trans hs)
    exact ⟨t, by simp [deliver, hx, hr, ht]⟩

theorem acyclic_height {s : State} (h : s.acyclic = true) {c : Nat} (hc : c < s.ctrls.length) :
    heightWithin s.wiring s.ctrls.length c = true := by
  simp only [State.acyclic, acyclicWiring, List.all_eq_true, List.mem_range, State.wiring_length] at h
  exact h c hc

theorem wiringTargets_lt {w : List (List (List Endpoint))} {c d : Nat} (h : d ∈ wiringTargets w c) : d < w.length := by
  simpa using (List.mem_filter.1 h).2

/-- On a sound platform one controller's effect can be run. -/
theorem runEff_ok {s : State} {c : Nat} {x : Ctrl} {e : Eff Core} (hs : s.sound = true) (hx : s.ctrls[c]? = some x)
    (he : e.core.params = x.core.params) : ∃ t, runEff s c e = .ok t := by
  simp only [State.sound, Bool.and_eq_true] at hs
  have hst : Steady s (s.putEff c e) := Steady.of_putEff hx he
  refine driveAll_ok (k := s.depthBound) (c := c) (w := s.wiring) ?_ e.drives (s.begin c e) ?_ (s.wiring_begin c e)
  · intro d hd e' he' v' s' h1 h2 h3
    have hlt : d < s.ctrls.length := by simpa [State.wiring_length] using wiringTargets_lt hd
    exact deliver_ok s.depthBound d (heightWithin_mono _ (Nat.le_succ _) (acyclic_height hs.2 hlt)) e' he' v' s' h1 h2 h3
  · exact (show (s.begin c e).wired = (s.putEff c e).wired from rfl).trans (hst.wired.trans hs.1)

/-! ## Nothing outside what lies downstream changes -/

/-- A delivery to `c` leaves alone every controller that no chain from `c` reaches. -/
theorem deliver_local {done : List Nat} {w : List (List (List Endpoint))} :
    ∀ k c d, reachesWithin w k c d = false → ∀ n v s t, s.wiring = w → deliver done k c n v s = .ok t →
      t.ctrls[d]? = s.ctrls[d]? := by
  intro k
  induction k with
  | zero => intro c d _ n v s t _ h; simp [deliver] at h
  | succ k ih =>
    intro c d hr n v s t hw h
    simp only [reachesWithin, Bool.or_eq_false_iff, beq_eq_false_iff_ne, List.any_eq_false] at hr
    simp only [deliver] at h
    cases hx : s.ctrls[c]? with
    | none => simp [hx] at h
    | some x =>
      simp only [hx] at h
      cases he : x.core.hearGpio (decide (c ∈ done)) n v with
      | error r => simp [he] at h
      | ok e =>
        simp only [he] at h
        have hmod : (s.putEff c e).ctrls[d]? = s.ctrls[d]? := by
          simp [hr.1]
        rw [← hmod]
        refine driveAll_local (w := w) (k := k) hr.1 (fun a ha => ?_) _ _ _ ((s.wiring_putEff c e).trans hw) h
        exact ih a d (by simpa using hr.2 a ha)
where
  /-- Driving the outputs of `c` leaves alone every other controller that no chain from their receivers reaches. -/
  driveAll_local {w : List (List (List Endpoint))} {k c d : Nat} (hcd : c ≠ d)
      (ih : ∀ a ∈ wiringTargets w c, ∀ n v s t, s.wiring = w → deliver done k a n v s = .ok t → t.ctrls[d]? = s.ctrls[d]?) :
      ∀ ds s t, s.wiring = w → driveAll (deliver done k) c ds s = .ok t → t.ctrls[d]? = s.ctrls[d]? := by
    intro ds
    induction ds with
    | nil => intro s t _ h; cases h; rfl
    | cons a ds ihd =>
      intro s t hw h
      simp only [driveAll] at h
      cases h1 : setLine (deliver done k) (.out c a.1) a.2 s with
      | error r => simp [h1] at h
      | ok s' =>
        simp only [h1] at h
        have hst : Steady s s' := setLine_out_rel steady_propagates (deliver_rel steady_propagates k) h1
        rw [ihd s' t (hst.2.2.2.1.trans hw) h]
        unfold setLine at h1
        cases hl : s.line? (.out c a.1) with
        | none => simp only [hl] at h1; cases h1; rfl
        | some l =>
          simp only [hl] at h1
          by_cases hv : l.level = a.2
          · simp only [hv, if_true] at h1; cases h1; rfl
          · simp only [hv, if_false] at h1
            have hput : (s.putLevel (.out c a.1) a.2).ctrls[d]? = s.ctrls[d]? := by
              simp [hcd]
            rw [← hput]
            refine notifyAll_local (w := w) l.receivers (fun e he b hb => ?_) _ _ (by simpa using hw) h1
            intro n v u z hu hz
            by_cases hlt : b < s.ctrls.length
            · exact ih b (hw ▸ State.line_out_target hl he hb hlt) n v u z hu hz
            · have hlen : u.ctrls.length = s.ctrls.length := by
                rw [← State.wiring_length, hu, ← hw, State.wiring_length]
              have hnone : u.ctrls[b]? = none := List.getElem?_eq_none (by omega)
              cases k with
              | zero => simp [deliver] at hz
              | succ k => simp [deliver, hnone] at hz
  /-- Notifying receivers leaves alone what none of their deliveries touches. -/
  notifyAll_local {w : List (List (List Endpoint))} {k d : Nat} {v : Bool} :
      ∀ es : List Endpoint, (∀ e ∈ es, ∀ b, e.receiver = .ctrl b → ∀ n v s t, s.wiring = w → deliver done k b n v s = .ok t →
        t.ctrls[d]? = s.ctrls[d]?) → ∀ s t, s.wiring = w → notifyAll (deliver done k) v es s = .ok t →
        t.ctrls[d]? = s.ctrls[d]? := by
    intro es
    induction es with
    | nil => intro _ s t _ h; cases h; rfl
    | cons e es ih =>
      intro hes s t hw h
      simp only [notifyAll] at h
      cases h1 : notifyOne (deliver done k) v e s with
      | error r => simp [h1] at h
      | ok s' =>
        simp only [h1] at h
        have h1' : s'.ctrls[d]? = s.ctrls[d]? ∧ s'.wiring = s.wiring := by
          unfold notifyOne at h1
          cases hr : e.receiver with
          | ctrl b =>
            simp only [hr] at h1
            exact ⟨hes e (List.mem_cons_self ..) b hr _ _ _ _ hw h1, (deliver_steady h1).2.2.2.1⟩
          | outside r => simp only [hr] at h1; cases h1; exact ⟨rfl, rfl⟩
        rw [ih (fun e' he' => hes e' (List.mem_cons_of_mem _ he')) s' t (h1'.2.trans hw) h, h1'.1]

/-- What lies on a cycle has no height, so on acyclic wiring nothing downstream of an output of `c` leads back to `c`. -/
theorem reaches_height {w : List (List (List Endpoint))} {h : Nat} :
    ∀ j c d, heightWithin w h c = true → reachesWithin w j c d = true → heightWithin w h d = true := by
  intro j
  induction j with
  | zero =>
    intro c d hh hr
    simp only [reachesWithin, beq_iff_eq] at hr
    exact hr ▸ hh
  | succ j ih =>
    intro c d hh hr
    simp only [reachesWithin, Bool.or_eq_true, beq_iff_eq, List.any_eq_true] at hr
    rcases hr with rfl | ⟨a, ha, har⟩
    · exact hh
    · refine ih a d ?_ har
      cases h with
      | zero => simp [heightWithin] at hh
      | succ h =>
        rw [heightWithin, List.all_eq_true] at hh
        exact heightWithin_succ w h a (hh a ha)

theorem no_return {w : List (List (List Endpoint))} {c a j : Nat} (ha : a ∈ wiringTargets w c) :
    ∀ h, heightWithin w h c = true → reachesWithin w j a c = false := by
  intro h
  induction h with
  | zero => intro hh; simp [heightWithin] at hh
  | succ h ih =>
    intro hh
    by_contra hr
    rw [Bool.not_eq_false] at hr
    have h1 : heightWithin w h a = true := by
      rw [heightWithin, List.all_eq_true] at hh
      exact hh a ha
    exact absurd (ih (reaches_height j a c h1 hr)) (by simp [hr])

/-! ## The driven controller itself -/

/-- The level the last drive of output `i` sets, if any drives it. -/
def lastDrive (ds : List (Nat × Bool)) (i : Nat) : Option Bool :=
  match ds with
  | [] => none
  | d :: ds => (lastDrive ds i).or (if d.1 = i then some d.2 else none)

/-- A controller with levels driven. -/
def Ctrl.driven (x : Ctrl) (ds : List (Nat × Bool)) : Ctrl :=
  { x with outs := ds.foldl (fun o d => o.modify d.1 (fun l => l.withLevel d.2)) x.outs }

theorem Ctrl.driven_outs (ds : List (Nat × Bool)) (i : Nat) :
    ∀ x : Ctrl, (x.driven ds).outs[i]? = (x.outs[i]?).map (fun l => l.withLevel ((lastDrive ds i).getD l.level)) := by
  induction ds with
  | nil =>
    intro x
    simp only [Ctrl.driven, List.foldl_nil, lastDrive, Option.getD_none]
    cases x.outs[i]? <;> rfl
  | cons d ds ih =>
    intro x
    have h : (x.driven (d :: ds)) = (Ctrl.driven { x with outs := x.outs.modify d.1 (fun l => l.withLevel d.2) } ds) := rfl
    rw [h, ih]
    simp only [List.getElem?_modify, lastDrive]
    cases hx : x.outs[i]? with
    | none => simp
    | some l =>
      by_cases hd : d.1 = i
      · cases hl : lastDrive ds i <;> simp [hd, SigLine.withLevel]
      · cases hl : lastDrive ds i <;> simp [hd, SigLine.withLevel]

@[simp] theorem Ctrl.driven_core (x : Ctrl) (ds : List (Nat × Bool)) : (x.driven ds).core = x.core := rfl
@[simp] theorem Ctrl.driven_trace (x : Ctrl) (ds : List (Nat × Bool)) : (x.driven ds).trace = x.trace := rfl
@[simp] theorem Ctrl.driven_base (x : Ctrl) (ds : List (Nat × Bool)) : (x.driven ds).base = x.base := rfl

theorem modify_withLevel_same {l : List SigLine} {i : Nat} {v : Bool} (h : ∀ a, l[i]? = some a → a.level = v) :
    l.modify i (fun a => a.withLevel v) = l := by
  apply List.ext_getElem?
  intro j
  rw [List.getElem?_modify]
  by_cases hij : i = j
  · subst hij
    cases hl : l[i]? with
    | none => simp
    | some a => simp [← h a hl, SigLine.withLevel]
  · simp [hij]

/-- Driving the outputs of `c` on acyclic wiring changes of `c` itself the driven levels, and nothing else. -/
theorem driveAll_self {done : List Nat} {w : List (List (List Endpoint))} {k c h : Nat} (hh : heightWithin w h c = true) :
    ∀ ds s t, s.wiring = w → driveAll (deliver done k) c ds s = .ok t →
      t.ctrls[c]? = (s.ctrls[c]?).map (fun x => x.driven ds) := by
  intro ds
  induction ds with
  | nil => intro s t _ h; cases h; cases s.ctrls[c]? <;> rfl
  | cons d ds ih =>
    intro s t hw hd
    simp only [driveAll] at hd
    cases h1 : setLine (deliver done k) (.out c d.1) d.2 s with
    | error r => simp [h1] at hd
    | ok s' =>
      simp only [h1] at hd
      have hst : Steady s s' := setLine_out_rel steady_propagates (deliver_rel steady_propagates k) h1
      rw [ih s' t (hst.2.2.2.1.trans hw) hd]
      have key : s'.ctrls[c]? =
          (s.ctrls[c]?).map (fun x => { x with outs := x.outs.modify d.1 (fun l => l.withLevel d.2) }) := by
        unfold setLine at h1
        cases hl : s.line? (.out c d.1) with
        | none =>
          simp only [hl] at h1
          cases h1
          cases hx : s.ctrls[c]? with
          | none => rfl
          | some x =>
            have : x.outs[d.1]? = none := by simpa [State.line?, hx] using hl
            rw [Option.map_some, modify_withLevel_same (by simp [this])]
        | some l =>
          simp only [hl] at h1
          by_cases hv : l.level = d.2
          · simp only [hv, if_true] at h1
            cases h1
            cases hx : s.ctrls[c]? with
            | none => rfl
            | some x =>
              have : x.outs[d.1]? = some l := by simpa [State.line?, hx] using hl
              rw [Option.map_some, modify_withLevel_same (by simp [this, hv])]
          · simp only [hv, if_false] at h1
            have hput : (s.putLevel (.out c d.1) d.2).ctrls[c]? =
                (s.ctrls[c]?).map (fun x => { x with outs := x.outs.modify d.1 (fun l => l.withLevel d.2) }) := by
              simp
            rw [← hput]
            refine deliver_local.notifyAll_local (w := w) l.receivers (fun e he b hb n v u z hu hz => ?_) _ _
              (by simpa using hw) h1
            by_cases hlt : b < s.ctrls.length
            · have hmem := hw ▸ State.line_out_target hl he hb hlt
              exact deliver_local k b c (no_return hmem h hh) n v u z hu hz
            · have hlen : u.ctrls.length = s.ctrls.length := by
                rw [← State.wiring_length, hu, ← hw, State.wiring_length]
              have hnone : u.ctrls[b]? = none := List.getElem?_eq_none (by omega)
              cases k with
              | zero => simp [deliver] at hz
              | succ k => simp [deliver, hnone] at hz
      rw [key, Option.map_map]
      rfl

/-- The controller after its own event: its new state, its grown trace, its driven outputs. -/
def Ctrl.after (x : Ctrl) (e : Eff Core) : Ctrl :=
  Ctrl.driven { x with core := e.core, trace := x.trace ++ e.diags } e.drives

/-- What a completed event on one controller leaves behind. -/
theorem runEff_spec {s t : State} {c : Nat} {x : Ctrl} {e : Eff Core} (ha : s.acyclic = true)
    (hx : s.ctrls[c]? = some x) (he : e.core.params = x.core.params) (h : runEff s c e = .ok t) :
    s.Frame t c ∧ t.reply = e.reply ∧ t.ctrls[c]? = some (x.after e) := by
  have hlt : c < s.ctrls.length := (List.getElem?_eq_some_iff.1 hx).1
  have hst0 : Steady s (s.putEff c e) := Steady.of_putEff hx he
  have hst : Steady (s.begin c e) t := driveAll_steady h
  have hplat : t.platform = s.platform := hst.platform.trans hst0.platform
  refine ⟨⟨hst.1, hst.2.1, hst.2.2.2.1.trans (s.wiring_begin c e), hplat, ?_, ?_, ?_⟩, hst.2.2.1, ?_⟩
  · exact hst.2.2.2.2.2.1.trans hst0.2.2.2.2.2.1
  · intro d hd
    simp only [State.downstream, reachesWithin, Bool.or_eq_false_iff, beq_eq_false_iff_ne, List.any_eq_false] at hd
    have := deliver_local.driveAll_local (w := s.wiring) (k := s.depthBound) hd.1
      (fun a ha' => deliver_local s.depthBound a d (by simpa using hd.2 a ha')) _ _ _ (s.wiring_begin c e) h
    rw [this]
    simp [hd.1]
  · exact hst0.2.2.2.2.2.2.trans hst.2.2.2.2.2.2
  · have := driveAll_self (k := s.depthBound) (acyclic_height ha hlt) _ _ _ (s.wiring_begin c e) h
    rw [this]
    simp [hx, Ctrl.after]

/-- A controller event on a sound platform: it completes, and what it leaves behind. -/
theorem ctrlEvent_spec {s : State} {c : Nat} {x : Ctrl} {f : Core → Except Refusal (Eff Core)} {e : Eff Core}
    (hs : s.sound = true) (hx : s.ctrls[c]? = some x) (hf : f x.core = .ok e)
    (he : e.core.params = x.core.params) :
    ∃ t, ctrlEvent s c f = .next t ∧ s.Frame t c ∧ t.reply = e.reply ∧ t.ctrls[c]? = some (x.after e) := by
  obtain ⟨t, ht⟩ := runEff_ok hs hx he
  have ha : s.acyclic = true := by simp only [State.sound, Bool.and_eq_true] at hs; exact hs.2
  refine ⟨t, ?_, runEff_spec ha hx he ht⟩
  simp [ctrlEvent, ha, hx, hf, toOutcome, ht]

/-- Every next state of a controller event comes from an effect of its operation. -/
theorem ctrlEvent_next {s t : State} {c : Nat} {f : Core → Except Refusal (Eff Core)} (h : ctrlEvent s c f = .next t) :
    ∃ x e, s.acyclic = true ∧ s.ctrls[c]? = some x ∧ f x.core = .ok e ∧ runEff s c e = .ok t := by
  unfold ctrlEvent at h
  by_cases ha : s.acyclic = true
  · simp only [ha, if_true] at h
    cases hx : s.ctrls[c]? with
    | none => simp [hx] at h
    | some x =>
      simp only [hx] at h
      cases hf : f x.core with
      | error r => simp [hf] at h
      | ok e =>
        simp only [hf, toOutcome] at h
        cases hr : runEff s c e with
        | error r => simp [hr] at h
        | ok u =>
          simp only [hr, Host.Outcome.next.injEq] at h
          exact ⟨x, e, ha, rfl, hf, by rw [← h, ← hr]⟩
  · simp [ha] at h

/-- Cyclic wiring refuses every controller event. -/
theorem ctrlEvent_cyclic {s : State} (h : s.acyclic = false) (c : Nat) (f : Core → Except Refusal (Eff Core)) :
    ctrlEvent s c f = .refused .cyclicWiring := by
  simp [ctrlEvent, h]

/-- An effect that drives nothing changes the trace, the state and the reply only. -/
theorem runEff_quiet {s : State} {c : Nat} {e : Eff Core} (h : e.drives = []) : runEff s c e = .ok (s.begin c e) := by
  simp [runEff, h, driveAll]

end Sys2Proof.Machine
end

