-- ==== Sys2Proof/Laws/Events.lean ====
section
/-! SUPPORT. What one event on one controller does, said once for every operation: the event completes on sound wiring, and
what it leaves behind is read off the operation's effect. Also the levels that a list of drives leaves. -/

namespace Sys2Proof.Machine

/-! ## Drives -/

/-- Driving every index of a list once, each to a level that depends on the index alone. -/
theorem lastDrive_map (f : Nat → Bool) (l : List Nat) (i : Nat) :
    lastDrive (l.map (fun j => (j, f j))) i = if i ∈ l then some (f i) else none := by
  induction l with
  | nil => simp [lastDrive]
  | cons a l ih =>
    simp only [List.map_cons, lastDrive, ih, List.mem_cons]
    by_cases h1 : i ∈ l
    · simp [h1]
    · by_cases h2 : a = i
      · subst h2; simp [h1]
      · simp [h1, h2, Ne.symm h2]

theorem lastDrive_range (f : Nat → Bool) (n i : Nat) :
    lastDrive ((List.range n).map (fun j => (j, f j))) i = if i < n then some (f i) else none := by
  rw [lastDrive_map]; simp

@[simp] theorem lastDrive_resetDrives (n i : Nat) : lastDrive (resetDrives n) i = if i < n then some false else none :=
  lastDrive_range (fun _ => false) n i

@[simp] theorem lastDrive_plic (p : Plic) (i : Nat) :
    lastDrive p.drives i = if i < p.params.numTargets then some (p.eval i) else none :=
  lastDrive_range p.eval _ i

@[simp] theorem lastDrive_mux (m : Mux) (i : Nat) :
    lastDrive m.drives i = if i < m.params.numChannels then some (m.eval i) else none :=
  lastDrive_range m.eval _ i

theorem lastDrive_vic (v : Vic) (i : Nat) :
    lastDrive v.drives i = if i = 0 then some v.irqLevel else if i = 1 then some v.fiqLevel else none := by
  rcases i with _ | _ | i <;> simp [Vic.drives, lastDrive]

theorem lastDrive_bitsOf (w : Word) (b : Bool) (i : Nat) :
    lastDrive ((bitsOf w).map (fun L => (L, b))) i = if w.getLsbD i then some b else none := by
  have h := lastDrive_map (fun _ => b) (bitsOf w) i
  rw [h]
  by_cases hi : i < 32
  · simp [mem_bitsOf, hi]
  · simp [mem_bitsOf, hi, BitVec.getLsbD_of_ge _ i (show 32 ≤ i by omega)]

/-! ## One event -/

/-- An event on sound wiring completes. Its controller is in the effect's state, its trace longer by the effect's records,
its outputs at the levels last driven, or as they were. -/
theorem event_after {s : State} {c : Nat} {x : Ctrl} {f : Core → Except Refusal (Eff Core)} {e : Eff Core}
    (hs : s.sound = true) (hx : s.ctrls[c]? = some x) (hf : f x.core = .ok e) (he : e.core.params = x.core.params) :
    ∃ t, ctrlEvent s c f = .next t ∧ s.After t c e.core e.diags e.reply ∧
      (∀ i b, i < x.outs.length → lastDrive e.drives i = some b → t.outIs c i b) ∧
      ∀ i, lastDrive e.drives i = none →
        (t.line? (.out c i)).map SigLine.level = (s.line? (.out c i)).map SigLine.level := by
  obtain ⟨t, ht, hfr, hr, hc⟩ := ctrlEvent_spec hs hx hf he
  refine ⟨t, ht, ⟨hfr, hr, ?_, ?_⟩, ?_, ?_⟩
  · simp [hc, Ctrl.after]
  · simp [hc, hx, Ctrl.after]
  · intro i b hi hd
    simp [State.outIs, State.line?, hc, Ctrl.after, Ctrl.driven_outs, hd, List.getElem?_eq_getElem hi]
  · intro i hd
    simp only [State.line?, hc, hx, Option.bind_some, Ctrl.after, Ctrl.driven_outs, hd, Option.getD_none]
    cases x.outs[i]? <;> rfl

/-- Writing back what stands at an index changes nothing. -/
theorem modify_self {α : Type} {l : List α} {i : Nat} {f : α → α} (h : ∀ a, l[i]? = some a → f a = a) :
    l.modify i f = l := by
  apply List.ext_getElem?
  intro j
  rw [List.getElem?_modify]
  by_cases hij : i = j
  · subst hij
    cases hl : l[i]? with
    | none => simp
    | some a => simp [h a hl]
  · simp [hij]

/-- An effect that keeps the state, drives nothing and reports nothing leaves the platform as it was, but for what it
returns. -/
theorem event_same {s : State} {c : Nat} {x : Ctrl} {f : Core → Except Refusal (Eff Core)} {e : Eff Core}
    (ha : s.acyclic = true) (hx : s.ctrls[c]? = some x) (hf : f x.core = .ok e) (hc : e.core = x.core)
    (hd : e.drives = []) (hg : e.diags = []) : ctrlEvent s c f = .next { s with reply := e.reply } := by
  simp only [ctrlEvent, ha, if_true, hx, hf, toOutcome, runEff_quiet hd, State.begin, State.putEff]
  rw [modify_self]
  intro a h
  rw [hx, Option.some.injEq] at h
  subst h
  simp [hc, hg]

/-- An effect that keeps the state and drives nothing changes the trace only. -/
theorem event_onlyTrace {s : State} {c : Nat} {x : Ctrl} {f : Core → Except Refusal (Eff Core)} {e : Eff Core}
    (ha : s.acyclic = true) (hx : s.ctrls[c]? = some x) (hf : f x.core = .ok e) (hc : e.core = x.core)
    (hd : e.drives = []) : ∃ t, ctrlEvent s c f = .next t ∧ s.OnlyTrace t c e.diags e.reply := by
  refine ⟨s.begin c e, by simp only [ctrlEvent, ha, if_true, hx, hf, toOutcome, runEff_quiet hd], ?_⟩
  simp only [State.OnlyTrace, State.begin, State.putEff]
  congr 1
  apply List.ext_getElem?
  intro j
  simp only [List.getElem?_modify]
  by_cases hij : c = j
  · subst hij; simp [hx, hc]
  · simp [hij]

/-- An operation that refuses, refuses the event. -/
theorem event_refused {s : State} {c : Nat} {x : Ctrl} {f : Core → Except Refusal (Eff Core)} {r : Refusal}
    (ha : s.acyclic = true) (hx : s.ctrls[c]? = some x) (hf : f x.core = .error r) :
    ctrlEvent s c f = .refused r := by
  simp [ctrlEvent, ha, hx, hf]

theorem State.sound_acyclic {s : State} (h : s.sound = true) : s.acyclic = true := by
  simp only [State.sound, Bool.and_eq_true] at h; exact h.2

theorem State.sound_wired {s : State} (h : s.sound = true) : s.wired = true := by
  simp only [State.sound, Bool.and_eq_true] at h; exact h.1

/-- Soundness of the wiring depends on the wiring and the parameters alone. -/
theorem State.Frame.sound {s t : State} {c : Nat} (h : s.Frame t c) : t.sound = s.sound := by
  simp only [State.sound, State.wired, State.acyclic, h.2.1, h.2.2.1, h.2.2.2.1]

end Sys2Proof.Machine
end

