-- ==== Sys2Proof/Laws/Exti.lean ====
section
/-! SUPPORT. What the operations of the EXTI-style and the INTMUX-style controller do, bit by bit. -/

namespace Sys2Proof.Machine

/-! ## EXTI -/

theorem ExtiParams.numLines_le {q : ExtiParams} (h : (CtrlParams.exti q).valid = true) :
    1 ≤ q.numLines ∧ q.numLines ≤ 32 ∧ q.configurableMask.toNat < 2 ^ q.numLines := by
  simp only [CtrlParams.valid, CtrlParams.firstInvalid, ExtiParams.firstInvalid] at h
  split at h
  · simp at h
  · split at h
    · simp at h
    · omega

theorem Exti.lineMask_bit {e : Exti} (h : e.params.numLines ≤ 32) (i : Nat) :
    e.lineMask.getLsbD i = decide (i < e.params.numLines) := lowMask_bit h

theorem Exti.configMask_bit {e : Exti} (h : (CtrlParams.exti e.params).valid = true) (i : Nat) :
    e.configMask.getLsbD i = e.params.configurableMask.getLsbD i := by
  obtain ⟨-, h1, h2⟩ := ExtiParams.numLines_le h
  rw [Exti.configMask, BitVec.getLsbD_and, e.lineMask_bit h1]
  by_cases hi : i < e.params.numLines
  · simp [hi]
  · have : e.params.configurableMask.getLsbD i = false := by
      rw [BitVec.getLsbD]
      exact Nat.testBit_lt_two_pow (Nat.lt_of_lt_of_le h2 (Nat.pow_le_pow_right (by omega) (by omega)))
    simp [this]

theorem Exti.configMask_eq {e : Exti} (h : (CtrlParams.exti e.params).valid = true) :
    e.configMask = e.params.configurableMask :=
  BitVec.eq_of_getLsbD_eq fun i _ => e.configMask_bit h i

theorem and_not_eq_zero_iff {a m : Word} : a &&& ~~~m = 0 ↔ ∀ i < 32, a.getLsbD i = true → m.getLsbD i = true := by
  constructor
  · intro h i hi ha
    have := congrArg (fun w : Word => w.getLsbD i) h
    simpa [ha, hi] using this
  · intro h
    apply BitVec.eq_of_getLsbD_eq
    intro i hi
    have := h i hi
    cases ha : a.getLsbD i <;> simp_all

theorem Exti.shapeOk_iff (e : Exti) :
    e.shapeOk = true ↔ (∀ i < 32, e.imr.getLsbD i = true → e.lineMask.getLsbD i = true) ∧
      (∀ i < 32, e.rtsr.getLsbD i = true → e.configMask.getLsbD i = true) ∧
      (∀ i < 32, e.ftsr.getLsbD i = true → e.configMask.getLsbD i = true) ∧
      (∀ i < 32, e.pr.getLsbD i = true → e.configMask.getLsbD i = true) := by
  simp only [Exti.shapeOk, Bool.and_eq_true, decide_eq_true_eq, and_not_eq_zero_iff, and_assoc]

theorem Exti.forced_bit {e : Exti} (h : (CtrlParams.exti e.params).valid = true) (w : Word) (i : Nat) :
    (e.forced w).getLsbD i = (w.getLsbD i && e.params.configurableMask.getLsbD i && e.imr.getLsbD i) := by
  simp [Exti.forced, Exti.configMask_eq h]

theorem extiClass_line {q : ExtiParams} {L : Nat} (h : L < q.numLines) :
    extiClass q L = if q.configurableMask.getLsbD L then .configurable
      else if q.treatNonconfigAsDirect then .direct else .dropped := by
  have : ¬ ((L : Int) < 0 ∨ (q.numLines : Int) ≤ L) := by omega
  simp only [extiClass, this, if_false, Int.toNat_natCast]

theorem extiClass_outOfRange {q : ExtiParams} {n : Int} (h : n < 0 ∨ (q.numLines : Int) ≤ n) :
    extiClass q n = .outOfRange := by
  simp only [extiClass, h, if_true]

/-! ## INTMUX -/

theorem MuxParams.muxSources_le {q : MuxParams} (h : (CtrlParams.intmux q).valid = true) :
    1 ≤ q.muxSources ∧ q.muxSources ≤ 32 ∧ 1 ≤ q.numChannels := by
  simp only [CtrlParams.valid, CtrlParams.firstInvalid, MuxParams.firstInvalid] at h
  split at h
  · simp at h
  · split at h
    · simp at h
    · omega

theorem Mux.sourceMask_bit {m : Mux} (h : m.params.muxSources ≤ 32) (i : Nat) :
    m.sourceMask.getLsbD i = decide (i < m.params.muxSources) := lowMask_bit h

theorem Mux.chan_eq {m : Mux} {ch : Nat} {x : MuxChan} (h : m.chans[ch]? = some x) : m.chan ch = x := by
  simp [Mux.chan, List.getD_eq_getElem?_getD, h]

theorem Mux.modChan_eq {m : Mux} {ch : Nat} {x : MuxChan} (h : m.chans[ch]? = some x) (f : MuxChan → MuxChan) :
    m.modChan ch f = { m with chans := m.chans.set ch (f x) } := by
  simp only [Mux.modChan, Mux.mk.injEq, true_and]
  apply List.ext_getElem?
  intro j
  obtain ⟨hlt, hx⟩ := List.getElem?_eq_some_iff.1 h
  rw [List.getElem?_modify, List.getElem?_set]
  by_cases hj : ch = j
  · subst hj; simp [hlt, hx]
  · simp [hj]

theorem lowestSetBit_spec {w : Word} (h : w ≠ 0) :
    lowestSetBit w < 32 ∧ w.getLsbD (lowestSetBit w) = true ∧ ∀ i < lowestSetBit w, w.getLsbD i = false := by
  unfold lowestSetBit
  cases hf : (List.range 32).find? (fun i => w.getLsbD i) with
  | none =>
    exfalso
    apply h
    apply BitVec.eq_of_getLsbD_eq
    intro i hi
    have := List.find?_eq_none.1 hf i (List.mem_range.2 hi)
    simpa using this
  | some n =>
    obtain ⟨h1, h2, h3⟩ := List.find?_range_eq_some.1 hf
    refine ⟨List.mem_range.1 h2, by simpa using h1, fun i hi => ?_⟩
    have := h3 i hi
    simpa using this

theorem lowestSetBit_zero : lowestSetBit 0 = 0 := by decide

theorem word_ne_zero_iff {w : Word} : w ≠ 0 ↔ ∃ i < 32, w.getLsbD i = true := by
  constructor
  · intro h
    exact ⟨_, (lowestSetBit_spec h).1, (lowestSetBit_spec h).2.1⟩
  · rintro ⟨i, -, hi⟩ rfl
    simp at hi

end Sys2Proof.Machine
end

