-- ==== Sys2Proof/Laws/RegMap.lean ====
section
/-! SUPPORT. The register maps are read the same way in both directions: what `regAt` finds stands at its own offset, and a
register with indices in range is found where it stands. -/

namespace Sys2Proof.Machine

/-- The register is one of the controller's, with its indices in range (30_encoding.md R105). -/
def Reg.inMap : CtrlParams → Reg → Bool
  | .plic p, .plicPriority i => decide (i < p.numSources)
  | .plic p, .plicEnable t w => decide (t < p.numTargets) && decide (w < 32)
  | .plic p, .plicClaimComplete t => decide (t < p.numTargets)
  | .vic _, .vicIrqStatus | .vic _, .vicFiqStatus | .vic _, .vicRawIntr | .vic _, .vicIntSelect
  | .vic _, .vicIntEnable | .vic _, .vicIntEnClear | .vic _, .vicSoftInt | .vic _, .vicSoftIntClear
  | .vic _, .vicVectAddr | .vic _, .vicDefVectAddr => true
  | .vic _, .vicVectAddrN n | .vic _, .vicVectCntl n => decide (n < Config.vicSlots)
  | .exti _, .extiImr | .exti _, .extiRtsr | .exti _, .extiFtsr | .exti _, .extiSwier | .exti _, .extiPr => true
  | .intmux p, .muxCsr ch | .intmux p, .muxVec ch | .intmux p, .muxIer ch | .intmux p, .muxIpr ch =>
      decide (ch < p.numChannels)
  | _, _ => false

/-- What is found at an offset is a register of the map, and stands there. -/
theorem regAt_sound {q : CtrlParams} {off : Nat} {r : Reg} (h : regAt q off = some r) :
    r.offset = off ∧ r.inMap q = true := by
  cases q with
  | plic p =>
    simp only [regAt, plicRegAt] at h
    split at h
    · cases h
    · next h4 =>
      split at h
      · next h1 => cases h; simp only [Reg.offset, Reg.inMap, decide_eq_true_eq]; omega
      · split at h
        · next h2 =>
          cases h
          simp only [Reg.offset, Reg.inMap, decide_eq_true_eq, Bool.and_eq_true]
          omega
        · split at h
          · next h3 => cases h; simp only [Reg.offset, Reg.inMap, decide_eq_true_eq]; omega
          · cases h
  | vic p =>
    simp only [regAt, vicRegAt] at h
    split at h
    · cases h
    · next h4 =>
      split at h
      · next h1 =>
        cases h; simp only [Reg.offset, Reg.inMap, decide_eq_true_eq]; omega
      · split at h
        · next h2 => cases h; simp only [Reg.offset, Reg.inMap, decide_eq_true_eq]; omega
        · have hp := List.find?_some h
          have hm := List.mem_of_find?_eq_some h
          simp only [beq_iff_eq] at hp
          refine ⟨hp, ?_⟩
          simp only [List.mem_cons, List.not_mem_nil, or_false] at hm
          rcases hm with rfl | rfl | rfl | rfl | rfl | rfl | rfl | rfl | rfl | rfl <;> rfl
  | exti p =>
    simp only [regAt, extiRegAt] at h
    have hp := List.find?_some h
    have hm := List.mem_of_find?_eq_some h
    simp only [beq_iff_eq] at hp
    refine ⟨hp, ?_⟩
    simp only [List.mem_cons, List.not_mem_nil, or_false] at hm
    rcases hm with rfl | rfl | rfl | rfl | rfl <;> rfl
  | intmux p =>
    simp only [regAt, muxRegAt] at h
    split at h
    · cases h
    · next hc =>
      have hp := List.find?_some h
      have hm := List.mem_of_find?_eq_some h
      simp only [beq_iff_eq] at hp
      refine ⟨hp, ?_⟩
      simp only [List.mem_cons, List.not_mem_nil, or_false] at hm
      rcases hm with rfl | rfl | rfl | rfl <;> simp only [Reg.inMap, decide_eq_true_eq] <;> omega

/-- Offsets are aligned. -/
theorem Reg.offset_aligned (r : Reg) : r.offset % 4 = 0 := by
  cases r <;> simp only [Reg.offset] <;> omega

theorem PlicParams.bounds {p : PlicParams} (h : (CtrlParams.plic p).valid = true) :
    2 ≤ p.numSources ∧ p.numSources ≤ 1024 ∧ 1 ≤ p.numTargets ∧ p.numTargets ≤ 15872 := by
  simp only [CtrlParams.valid, CtrlParams.firstInvalid, PlicParams.firstInvalid] at h
  split at h
  · simp at h
  · split at h
    · simp at h
    · omega

/-- A register of the map is found where it stands. -/
theorem regAt_complete {q : CtrlParams} {r : Reg} (hq : q.valid = true) (h : r.inMap q = true) :
    regAt q r.offset = some r ∧ r.offset < q.size := by
  obtain ⟨off, ho⟩ : ∃ off, off = r.offset := ⟨_, rfl⟩
  rw [← ho]
  cases q with
  | plic p =>
    obtain ⟨b1, b2, b3, b4⟩ := PlicParams.bounds hq
    simp only [regAt, plicRegAt, CtrlParams.size]
    cases r <;> simp only [Reg.inMap, Bool.false_eq_true, decide_eq_true_eq, Bool.and_eq_true] at h <;>
      simp only [Reg.offset] at ho
    · next i =>
      rw [if_neg (by omega), if_pos (by omega)]
      exact ⟨by congr 2; omega, by omega⟩
    · next t w =>
      rw [if_neg (by omega), if_neg (by omega), if_pos (by omega)]
      exact ⟨by congr 2 <;> omega, by omega⟩
    · next t =>
      rw [if_neg (by omega), if_neg (by omega), if_neg (by omega), if_pos (by omega)]
      exact ⟨by congr 2; omega, by omega⟩
  | vic p =>
    cases r <;> simp only [Reg.inMap, Bool.false_eq_true, decide_eq_true_eq] at h
    case vicVectAddrN n =>
      have h16 : Config.vicSlots = 16 := rfl
      simp only [regAt, vicRegAt, CtrlParams.size]
      simp only [Reg.offset] at ho
      rw [if_neg (by omega), if_pos (by omega)]
      exact ⟨by congr 2; omega, by omega⟩
    case vicVectCntl n =>
      have h16 : Config.vicSlots = 16 := rfl
      simp only [regAt, vicRegAt, CtrlParams.size]
      simp only [Reg.offset] at ho
      rw [if_neg (by omega), if_neg (by omega), if_pos (by omega)]
      exact ⟨by congr 2; omega, by omega⟩
    all_goals subst ho; exact ⟨rfl, by simp only [Reg.offset, CtrlParams.size]; omega⟩
  | exti p =>
    cases r <;> simp only [Reg.inMap, Bool.false_eq_true] at h
    all_goals subst ho; exact ⟨rfl, by simp only [Reg.offset, CtrlParams.size]; omega⟩
  | intmux p =>
    simp only [regAt, muxRegAt, CtrlParams.size]
    cases r <;> simp only [Reg.inMap, Bool.false_eq_true, decide_eq_true_eq] at h <;>
      simp only [Reg.offset] at ho
    all_goals
      next ch =>
      have hd : off / 0x40 = ch := by omega
      rw [hd, if_neg (by omega)]
      refine ⟨?_, by omega⟩
      simp [Reg.offset, ho]

end Sys2Proof.Machine
end

