-- ==== Sys2Proof/Laws/WellFormed.lean ====
section
/-! SUPPORT. Well-formedness taken apart: which instance an instruction names, of which kind, and what of its parameters; and
what the encoder's bus events look like. -/

namespace Sys2Proof

open Machine

theorem Platform.plicWith_iff {p : Platform} {c : Nat} {f : PlicParams → Bool} :
    p.plicWith c f = true ↔ ∃ q, p.ctrls[c]? = some (.plic q) ∧ f q = true := by
  unfold Platform.plicWith
  split
  · next q h => simp [h]
  · next h => exact ⟨by simp, fun ⟨q, hq, _⟩ => absurd hq (h q)⟩

theorem Platform.isVic_iff {p : Platform} {c : Nat} : p.isVic c = true ↔ ∃ q, p.ctrls[c]? = some (.vic q) := by
  unfold Platform.isVic
  split
  · next q h => simp [h]
  · next h => exact ⟨by simp, fun ⟨q, hq⟩ => absurd hq (h q)⟩

theorem Platform.extiWith_iff {p : Platform} {c : Nat} {f : ExtiParams → Bool} :
    p.extiWith c f = true ↔ ∃ q, p.ctrls[c]? = some (.exti q) ∧ f q = true := by
  unfold Platform.extiWith
  split
  · next q h => simp [h]
  · next h => exact ⟨by simp, fun ⟨q, hq, _⟩ => absurd hq (h q)⟩

theorem Platform.muxWith_iff {p : Platform} {c : Nat} {f : MuxParams → Bool} :
    p.muxWith c f = true ↔ ∃ q, p.ctrls[c]? = some (.intmux q) ∧ f q = true := by
  unfold Platform.muxWith
  split
  · next q h => simp [h]
  · next h => exact ⟨by simp, fun ⟨q, hq, _⟩ => absurd hq (h q)⟩

theorem Platform.windowWith_iff {p : Platform} {c off : Nat} {f : Option Reg → Bool} :
    p.windowWith c off f = true ↔
      ∃ q, p.ctrls[c]? = some q ∧ off % 4 = 0 ∧ off < q.size ∧ f (regAt q off) = true := by
  unfold Platform.windowWith
  split
  · next q h => simp [h, and_assoc]
  · next h => simp [h]

theorem Platform.valid_of {p : Platform} {c : Nat} {q : CtrlParams} (hv : ∀ q ∈ p.ctrls, q.valid = true)
    (hc : p.ctrls[c]? = some q) : q.valid = true := hv q (List.mem_of_getElem? hc)

/-- An aligned 32-bit access inside the window is no bus error (20_memory.md R71, R74). -/
theorem busError_none {q : CtrlParams} {off : Nat} (h4 : off % 4 = 0) (hs : off < q.size) : busError q off 4 = none := by
  unfold busError
  rw [if_neg (by simp), if_neg (by omega), if_neg (by omega)]

/-- The read of a register of the map decodes to that register's read row. -/
theorem decode_readOf {p : Platform} {c : Nat} {q : CtrlParams} {r : Reg} (hc : p.ctrls[c]? = some q)
    (hq : q.valid = true) (hr : r.inMap q = true) : decode p (readOf c r) = .ok (decodeRegRead c r) := by
  obtain ⟨h1, h2⟩ := regAt_complete hq hr
  simp [decode, readOf, hc, busError_none r.offset_aligned h2, h1]

/-- The write of a register of the map decodes to that register's write row. -/
theorem decode_writeOf {p : Platform} {c : Nat} {q : CtrlParams} {r : Reg} {v : Word} (hc : p.ctrls[c]? = some q)
    (hq : q.valid = true) (hr : r.inMap q = true) : decode p (writeOf c r v) = .ok (decodeRegWrite c r v) := by
  obtain ⟨h1, h2⟩ := regAt_complete hq hr
  simp [decode, writeOf, hc, busError_none r.offset_aligned h2, h1]

end Sys2Proof
end

