-- ==== Sys2Proof/Laws/PerInstr.lean ====
section
/-! SUPPORT. The per-instruction family `EncodeLegal`: the event tuple of a well-formed instruction names an instance or a
line of the platform, and is, on the bus, an aligned 32-bit access inside the instance's window (20_memory.md R71, R74). -/

namespace Sys2Proof.Laws

open Machine

/-- The event is one the platform can receive. -/
def EncodeLegal.Legal (p : Platform) : Event → Prop
  | .evGpio c _ _ => c < p.ctrls.length
  | .memRead c off bytes => ∃ q, p.ctrls[c]? = some q ∧ bytes = 4 ∧ off % 4 = 0 ∧ off < q.size
  | .memWrite c off bytes _ => ∃ q, p.ctrls[c]? = some q ∧ bytes = 4 ∧ off % 4 = 0 ∧ off < q.size
  | .evReset c => c < p.ctrls.length
  | .slSet L _ => L.settable p = true
  | .slBlink L => L.settable p = true
  | .slQuery L => L.isLine p = true
  | .systemReset _ => False

/-- A well-formed instruction of a platform with valid parameters has a legal event tuple. -/
def EncodeLegal.Statement (i : Instr) : Prop :=
  ∀ p : Platform, (∀ q ∈ p.ctrls, q.valid = true) → i.wellFormed p = true → EncodeLegal.Legal p (encode i)

theorem EncodeLegal.legal_read {p : Platform} {c : Nat} {q : CtrlParams} {r : Reg} (hv : ∀ q ∈ p.ctrls, q.valid = true)
    (hc : p.ctrls[c]? = some q) (hr : r.inMap q = true) : EncodeLegal.Legal p (readOf c r) :=
  ⟨q, hc, rfl, r.offset_aligned, (regAt_complete (Platform.valid_of hv hc) hr).2⟩

theorem EncodeLegal.legal_write {p : Platform} {c : Nat} {q : CtrlParams} {r : Reg} {v : Word}
    (hv : ∀ q ∈ p.ctrls, q.valid = true) (hc : p.ctrls[c]? = some q) (hr : r.inMap q = true) :
    EncodeLegal.Legal p (writeOf c r v) :=
  ⟨q, hc, rfl, r.offset_aligned, (regAt_complete (Platform.valid_of hv hc) hr).2⟩

theorem EncodeLegal.lt_of_some {p : Platform} {c : Nat} {q : CtrlParams} (hc : p.ctrls[c]? = some q) :
    c < p.ctrls.length := (List.getElem?_eq_some_iff.1 hc).1

theorem EncodeLegal.slSet (L : LineRef) (v : Bool) : EncodeLegal.Statement (.slSet L v) :=
  fun _ _ hw => hw

theorem EncodeLegal.slSetTrue (L : LineRef) : EncodeLegal.Statement (.slSetTrue L) :=
  fun _ _ hw => hw

theorem EncodeLegal.slUnset (L : LineRef) : EncodeLegal.Statement (.slUnset L) :=
  fun _ _ hw => hw

theorem EncodeLegal.slBlink (L : LineRef) : EncodeLegal.Statement (.slBlink L) :=
  fun _ _ hw => hw

theorem EncodeLegal.slQuery (L : LineRef) : EncodeLegal.Statement (.slQuery L) :=
  fun _ _ hw => hw

theorem EncodeLegal.plicOnGpio (c : Nat) (n : Int) (v : Bool) : EncodeLegal.Statement (.plicOnGpio c n v) :=
  fun _ _ hw =>
    let ⟨_, hc, _⟩ := Platform.plicWith_iff.1 hw
    EncodeLegal.lt_of_some hc

theorem EncodeLegal.plicOnGpioOutOfRange (c : Nat) (n : Int) (v : Bool) : EncodeLegal.Statement (.plicOnGpioOutOfRange c n v) :=
  fun _ _ hw =>
    let ⟨_, hc, _⟩ := Platform.plicWith_iff.1 hw
    EncodeLegal.lt_of_some hc

theorem EncodeLegal.plicPriorityWrite (c i : Nat) (v : Word) : EncodeLegal.Statement (.plicPriorityWrite c i v) :=
  fun _ hv hw =>
    let ⟨_, hc, hf⟩ := Platform.plicWith_iff.1 hw
    EncodeLegal.legal_write hv hc hf

theorem EncodeLegal.plicPriorityRead (c i : Nat) : EncodeLegal.Statement (.plicPriorityRead c i) :=
  fun _ hv hw =>
    let ⟨_, hc, hf⟩ := Platform.plicWith_iff.1 hw
    EncodeLegal.legal_read hv hc hf

theorem EncodeLegal.plicEnableWrite (c t w : Nat) (v : Word) : EncodeLegal.Statement (.plicEnableWrite c t w v) :=
  fun _ hv hw =>
    let ⟨_, hc, hf⟩ := Platform.plicWith_iff.1 hw
    EncodeLegal.legal_write hv hc hf

theorem EncodeLegal.plicEnableRead (c t w : Nat) : EncodeLegal.Statement (.plicEnableRead c t w) :=
  fun _ hv hw =>
    let ⟨_, hc, hf⟩ := Platform.plicWith_iff.1 hw
    EncodeLegal.legal_read hv hc hf

theorem EncodeLegal.plicClaimRead (c t : Nat) : EncodeLegal.Statement (.plicClaimRead c t) :=
  fun _ hv hw =>
    let ⟨_, hc, hf⟩ := Platform.plicWith_iff.1 hw
    EncodeLegal.legal_read hv hc hf

theorem EncodeLegal.plicCompleteWrite (c t : Nat) (v : Word) : EncodeLegal.Statement (.plicCompleteWrite c t v) :=
  fun _ hv hw =>
    let ⟨_, hc, hf⟩ := Platform.plicWith_iff.1 hw
    EncodeLegal.legal_write hv hc hf

theorem EncodeLegal.plicReset (c : Nat) : EncodeLegal.Statement (.plicReset c) :=
  fun _ _ hw =>
    let ⟨_, hc, _⟩ := Platform.plicWith_iff.1 hw
    EncodeLegal.lt_of_some hc

theorem EncodeLegal.vicOnGpio (c : Nat) (n : Int) (v : Bool) : EncodeLegal.Statement (.vicOnGpio c n v) :=
  fun _ _ hw =>
    let ⟨hk, _⟩ := Bool.and_eq_true_iff.1 hw
    let ⟨_, hc⟩ := Platform.isVic_iff.1 hk
    EncodeLegal.lt_of_some hc

theorem EncodeLegal.vicOnGpioOutOfRange (c : Nat) (n : Int) (v : Bool) : EncodeLegal.Statement (.vicOnGpioOutOfRange c n v) :=
  fun _ _ hw =>
    let ⟨hk, _⟩ := Bool.and_eq_true_iff.1 hw
    let ⟨_, hc⟩ := Platform.isVic_iff.1 hk
    EncodeLegal.lt_of_some hc

theorem EncodeLegal.vicIrqStatusRead (c : Nat) : EncodeLegal.Statement (.vicIrqStatusRead c) :=
  fun _ hv hw =>
    let ⟨_, hc⟩ := Platform.isVic_iff.1 hw
    EncodeLegal.legal_read hv hc rfl

theorem EncodeLegal.vicFiqStatusRead (c : Nat) : EncodeLegal.Statement (.vicFiqStatusRead c) :=
  fun _ hv hw =>
    let ⟨_, hc⟩ := Platform.isVic_iff.1 hw
    EncodeLegal.legal_read hv hc rfl

theorem EncodeLegal.vicRawIntrRead (c : Nat) : EncodeLegal.Statement (.vicRawIntrRead c) :=
  fun _ hv hw =>
    let ⟨_, hc⟩ := Platform.isVic_iff.1 hw
    EncodeLegal.legal_read hv hc rfl

theorem EncodeLegal.vicIntSelectRead (c : Nat) : EncodeLegal.Statement (.vicIntSelectRead c) :=
  fun _ hv hw =>
    let ⟨_, hc⟩ := Platform.isVic_iff.1 hw
    EncodeLegal.legal_read hv hc rfl

theorem EncodeLegal.vicIntSelectWrite (c : Nat) (v : Word) : EncodeLegal.Statement (.vicIntSelectWrite c v) :=
  fun _ hv hw =>
    let ⟨_, hc⟩ := Platform.isVic_iff.1 hw
    EncodeLegal.legal_write hv hc rfl

theorem EncodeLegal.vicIntEnableRead (c : Nat) : EncodeLegal.Statement (.vicIntEnableRead c) :=
  fun _ hv hw =>
    let ⟨_, hc⟩ := Platform.isVic_iff.1 hw
    EncodeLegal.legal_read hv hc rfl

theorem EncodeLegal.vicIntEnableWrite (c : Nat) (v : Word) : EncodeLegal.Statement (.vicIntEnableWrite c v) :=
  fun _ hv hw =>
    let ⟨_, hc⟩ := Platform.isVic_iff.1 hw
    EncodeLegal.legal_write hv hc rfl

theorem EncodeLegal.vicIntEnClearRead (c : Nat) : EncodeLegal.Statement (.vicIntEnClearRead c) :=
  fun _ hv hw =>
    let ⟨_, hc⟩ := Platform.isVic_iff.1 hw
    EncodeLegal.legal_read hv hc rfl

theorem EncodeLegal.vicIntEnClearWrite (c : Nat) (v : Word) : EncodeLegal.Statement (.vicIntEnClearWrite c v) :=
  fun _ hv hw =>
    let ⟨_, hc⟩ := Platform.isVic_iff.1 hw
    EncodeLegal.legal_write hv hc rfl

theorem EncodeLegal.vicSoftIntRead (c : Nat) : EncodeLegal.Statement (.vicSoftIntRead c) :=
  fun _ hv hw =>
    let ⟨_, hc⟩ := Platform.isVic_iff.1 hw
    EncodeLegal.legal_read hv hc rfl

theorem EncodeLegal.vicSoftIntWrite (c : Nat) (v : Word) : EncodeLegal.Statement (.vicSoftIntWrite c v) :=
  fun _ hv hw =>
    let ⟨_, hc⟩ := Platform.isVic_iff.1 hw
    EncodeLegal.legal_write hv hc rfl

theorem EncodeLegal.vicSoftIntClearRead (c : Nat) : EncodeLegal.Statement (.vicSoftIntClearRead c) :=
  fun _ hv hw =>
    let ⟨_, hc⟩ := Platform.isVic_iff.1 hw
    EncodeLegal.legal_read hv hc rfl

theorem EncodeLegal.vicSoftIntClearWrite (c : Nat) (v : Word) : EncodeLegal.Statement (.vicSoftIntClearWrite c v) :=
  fun _ hv hw =>
    let ⟨_, hc⟩ := Platform.isVic_iff.1 hw
    EncodeLegal.legal_write hv hc rfl

theorem EncodeLegal.vicVectAddrRead (c : Nat) : EncodeLegal.Statement (.vicVectAddrRead c) :=
  fun _ hv hw =>
    let ⟨_, hc⟩ := Platform.isVic_iff.1 hw
    EncodeLegal.legal_read hv hc rfl

theorem EncodeLegal.vicVectAddrWrite (c : Nat) (v : Word) : EncodeLegal.Statement (.vicVectAddrWrite c v) :=
  fun _ hv hw =>
    let ⟨_, hc⟩ := Platform.isVic_iff.1 hw
    EncodeLegal.legal_write hv hc rfl

theorem EncodeLegal.vicDefVectAddrRead (c : Nat) : EncodeLegal.Statement (.vicDefVectAddrRead c) :=
  fun _ hv hw =>
    let ⟨_, hc⟩ := Platform.isVic_iff.1 hw
    EncodeLegal.legal_read hv hc rfl

theorem EncodeLegal.vicDefVectAddrWrite (c : Nat) (v : Word) : EncodeLegal.Statement (.vicDefVectAddrWrite c v) :=
  fun _ hv hw =>
    let ⟨_, hc⟩ := Platform.isVic_iff.1 hw
    EncodeLegal.legal_write hv hc rfl

theorem EncodeLegal.vicVectAddrNRead (c n : Nat) : EncodeLegal.Statement (.vicVectAddrNRead c n) :=
  fun _ hv hw =>
    let ⟨hk, hn⟩ := Bool.and_eq_true_iff.1 hw
    let ⟨_, hc⟩ := Platform.isVic_iff.1 hk
    EncodeLegal.legal_read hv hc hn

theorem EncodeLegal.vicVectAddrNWrite (c n : Nat) (v : Word) : EncodeLegal.Statement (.vicVectAddrNWrite c n v) :=
  fun _ hv hw =>
    let ⟨hk, hn⟩ := Bool.and_eq_true_iff.1 hw
    let ⟨_, hc⟩ := Platform.isVic_iff.1 hk
    EncodeLegal.legal_write hv hc hn

theorem EncodeLegal.vicVectCntlRead (c n : Nat) : EncodeLegal.Statement (.vicVectCntlRead c n) :=
  fun _ hv hw =>
    let ⟨hk, hn⟩ := Bool.and_eq_true_iff.1 hw
    let ⟨_, hc⟩ := Platform.isVic_iff.1 hk
    EncodeLegal.legal_read hv hc hn

theorem EncodeLegal.vicVectCntlWrite (c n : Nat) (v : Word) : EncodeLegal.Statement (.vicVectCntlWrite c n v) :=
  fun _ hv hw =>
    let ⟨hk, hn⟩ := Bool.and_eq_true_iff.1 hw
    let ⟨_, hc⟩ := Platform.isVic_iff.1 hk
    EncodeLegal.legal_write hv hc hn

theorem EncodeLegal.vicReset (c : Nat) : EncodeLegal.Statement (.vicReset c) :=
  fun _ _ hw =>
    let ⟨_, hc⟩ := Platform.isVic_iff.1 hw
    EncodeLegal.lt_of_some hc

theorem EncodeLegal.extiOnGpioConfigurable (c : Nat) (n : Int) (v : Bool) : EncodeLegal.Statement (.extiOnGpioConfigurable c n v) :=
  fun _ _ hw =>
    let ⟨_, hc, _⟩ := Platform.extiWith_iff.1 hw
    EncodeLegal.lt_of_some hc

theorem EncodeLegal.extiOnGpioDirect (c : Nat) (n : Int) (v : Bool) : EncodeLegal.Statement (.extiOnGpioDirect c n v) :=
  fun _ _ hw =>
    let ⟨_, hc, _⟩ := Platform.extiWith_iff.1 hw
    EncodeLegal.lt_of_some hc

theorem EncodeLegal.extiOnGpioDropped (c : Nat) (n : Int) (v : Bool) : EncodeLegal.Statement (.extiOnGpioDropped c n v) :=
  fun _ _ hw =>
    let ⟨_, hc, _⟩ := Platform.extiWith_iff.1 hw
    EncodeLegal.lt_of_some hc

theorem EncodeLegal.extiOnGpioOutOfRange (c : Nat) (n : Int) (v : Bool) : EncodeLegal.Statement (.extiOnGpioOutOfRange c n v) :=
  fun _ _ hw =>
    let ⟨_, hc, _⟩ := Platform.extiWith_iff.1 hw
    EncodeLegal.lt_of_some hc

theorem EncodeLegal.extiImrRead (c : Nat) : EncodeLegal.Statement (.extiImrRead c) :=
  fun _ hv hw =>
    let ⟨_, hc, _⟩ := Platform.extiWith_iff.1 hw
    EncodeLegal.legal_read hv hc rfl

theorem EncodeLegal.extiImrWrite (c : Nat) (v : Word) : EncodeLegal.Statement (.extiImrWrite c v) :=
  fun _ hv hw =>
    let ⟨_, hc, _⟩ := Platform.extiWith_iff.1 hw
    EncodeLegal.legal_write hv hc rfl

theorem EncodeLegal.extiRtsrRead (c : Nat) : EncodeLegal.Statement (.extiRtsrRead c) :=
  fun _ hv hw =>
    let ⟨_, hc, _⟩ := Platform.extiWith_iff.1 hw
    EncodeLegal.legal_read hv hc rfl

theorem EncodeLegal.extiRtsrWrite (c : Nat) (v : Word) : EncodeLegal.Statement (.extiRtsrWrite c v) :=
  fun _ hv hw =>
    let ⟨_, hc, _⟩ := Platform.extiWith_iff.1 hw
    EncodeLegal.legal_write hv hc rfl

theorem EncodeLegal.extiFtsrRead (c : Nat) : EncodeLegal.Statement (.extiFtsrRead c) :=
  fun _ hv hw =>
    let ⟨_, hc, _⟩ := Platform.extiWith_iff.1 hw
    EncodeLegal.legal_read hv hc rfl

theorem EncodeLegal.extiFtsrWrite (c : Nat) (v : Word) : EncodeLegal.Statement (.extiFtsrWrite c v) :=
  fun _ hv hw =>
    let ⟨_, hc, _⟩ := Platform.extiWith_iff.1 hw
    EncodeLegal.legal_write hv hc rfl

theorem EncodeLegal.extiSwierRead (c : Nat) : EncodeLegal.Statement (.extiSwierRead c) :=
  fun _ hv hw =>
    let ⟨_, hc, _⟩ := Platform.extiWith_iff.1 hw
    EncodeLegal.legal_read hv hc rfl

theorem EncodeLegal.extiSwierWrite (c : Nat) (v : Word) : EncodeLegal.Statement (.extiSwierWrite c v) :=
  fun _ hv hw =>
    let ⟨_, hc, _⟩ := Platform.extiWith_iff.1 hw
    EncodeLegal.legal_write hv hc rfl

theorem EncodeLegal.extiPrRead (c : Nat) : EncodeLegal.Statement (.extiPrRead c) :=
  fun _ hv hw =>
    let ⟨_, hc, _⟩ := Platform.extiWith_iff.1 hw
    EncodeLegal.legal_read hv hc rfl

theorem EncodeLegal.extiPrWrite (c : Nat) (v : Word) : EncodeLegal.Statement (.extiPrWrite c v) :=
  fun _ hv hw =>
    let ⟨_, hc, _⟩ := Platform.extiWith_iff.1 hw
    EncodeLegal.legal_write hv hc rfl

theorem EncodeLegal.extiReset (c : Nat) : EncodeLegal.Statement (.extiReset c) :=
  fun _ _ hw =>
    let ⟨_, hc, _⟩ := Platform.extiWith_iff.1 hw
    EncodeLegal.lt_of_some hc

theorem EncodeLegal.muxOnGpio (c : Nat) (n : Int) (v : Bool) : EncodeLegal.Statement (.muxOnGpio c n v) :=
  fun _ _ hw =>
    let ⟨_, hc, _⟩ := Platform.muxWith_iff.1 hw
    EncodeLegal.lt_of_some hc

theorem EncodeLegal.muxOnGpioOutOfRange (c : Nat) (n : Int) (v : Bool) : EncodeLegal.Statement (.muxOnGpioOutOfRange c n v) :=
  fun _ _ hw =>
    let ⟨_, hc, _⟩ := Platform.muxWith_iff.1 hw
    EncodeLegal.lt_of_some hc

theorem EncodeLegal.muxCsrRead (c ch : Nat) : EncodeLegal.Statement (.muxCsrRead c ch) :=
  fun _ hv hw =>
    let ⟨_, hc, hf⟩ := Platform.muxWith_iff.1 hw
    EncodeLegal.legal_read hv hc hf

theorem EncodeLegal.muxCsrModeWrite (c ch : Nat) (v : Word) : EncodeLegal.Statement (.muxCsrModeWrite c ch v) :=
  fun _ hv hw =>
    let ⟨_, hc, hf⟩ := Platform.muxWith_iff.1 hw
    EncodeLegal.legal_write hv hc (Bool.and_eq_true_iff.1 hf).1

theorem EncodeLegal.muxCsrResetWrite (c ch : Nat) (v : Word) : EncodeLegal.Statement (.muxCsrResetWrite c ch v) :=
  fun _ hv hw =>
    let ⟨_, hc, hf⟩ := Platform.muxWith_iff.1 hw
    EncodeLegal.legal_write hv hc (Bool.and_eq_true_iff.1 hf).1

theorem EncodeLegal.muxVecRead (c ch : Nat) : EncodeLegal.Statement (.muxVecRead c ch) :=
  fun _ hv hw =>
    let ⟨_, hc, hf⟩ := Platform.muxWith_iff.1 hw
    EncodeLegal.legal_read hv hc hf

theorem EncodeLegal.muxIerRead (c ch : Nat) : EncodeLegal.Statement (.muxIerRead c ch) :=
  fun _ hv hw =>
    let ⟨_, hc, hf⟩ := Platform.muxWith_iff.1 hw
    EncodeLegal.legal_read hv hc hf

theorem EncodeLegal.muxIerWrite (c ch : Nat) (v : Word) : EncodeLegal.Statement (.muxIerWrite c ch v) :=
  fun _ hv hw =>
    let ⟨_, hc, hf⟩ := Platform.muxWith_iff.1 hw
    EncodeLegal.legal_write hv hc hf

theorem EncodeLegal.muxIprRead (c ch : Nat) : EncodeLegal.Statement (.muxIprRead c ch) :=
  fun _ hv hw =>
    let ⟨_, hc, hf⟩ := Platform.muxWith_iff.1 hw
    EncodeLegal.legal_read hv hc hf

theorem EncodeLegal.muxReset (c : Nat) : EncodeLegal.Statement (.muxReset c) :=
  fun _ _ hw =>
    let ⟨_, hc, _⟩ := Platform.muxWith_iff.1 hw
    EncodeLegal.lt_of_some hc

theorem EncodeLegal.anyUnhandledRead (c off : Nat) : EncodeLegal.Statement (.anyUnhandledRead c off) :=
  fun _ _ hw =>
    let ⟨q, hc, h4, hs, _⟩ := Platform.windowWith_iff.1 hw
    ⟨q, hc, rfl, h4, hs⟩

theorem EncodeLegal.anyUnhandledWrite (c off : Nat) (v : Word) : EncodeLegal.Statement (.anyUnhandledWrite c off v) :=
  fun _ _ hw =>
    let ⟨q, hc, h4, hs, _⟩ := Platform.windowWith_iff.1 hw
    ⟨q, hc, rfl, h4, hs⟩

theorem EncodeLegal.anyReadonlyWrite (c off : Nat) (v : Word) : EncodeLegal.Statement (.anyReadonlyWrite c off v) :=
  fun _ _ hw =>
    let ⟨q, hc, h4, hs, _⟩ := (Platform.windowWith_iff (f := fun r => r.elim false Reg.readOnly)).1 hw
    ⟨q, hc, rfl, h4, hs⟩

end Sys2Proof.Laws
end

