-- ==== Sys2Proof/Laws/Plic.lean ====
section
/-! SUPPORT. What the operations of the PLIC-style controller do, source by source and target by target. -/

namespace Sys2Proof.Machine

/-! ## Sources and targets under an update -/

theorem Plic.source_modSource {p : Plic} {i : Nat} (f : PlicSrc → PlicSrc) (hi : i - 1 < p.srcs.length) (h0 : i ≠ 0)
    (j : Nat) : (p.modSource i f).source j = if j = i then f (p.source i) else p.source j := by
  unfold Plic.source Plic.modSource
  simp only [h0, if_false]
  by_cases hj : j = i
  · subst hj
    simp [h0, List.getD_eq_getElem?_getD, List.getElem?_eq_getElem hi]
  · by_cases hj0 : j = 0
    · simp [hj0, Ne.symm h0]
    · have : ¬ i - 1 = j - 1 := by omega
      simp [hj, hj0, List.getD_eq_getElem?_getD, this]

@[simp] theorem Plic.source_modTarget (p : Plic) (t : Nat) (f : PlicTgt → PlicTgt) (j : Nat) :
    (p.modTarget t f).source j = p.source j := rfl

@[simp] theorem Plic.target_modSource (p : Plic) (i : Nat) (f : PlicSrc → PlicSrc) (t : Nat) :
    (p.modSource i f).target t = p.target t := by
  simp [Plic.target]

@[simp] theorem Plic.isEnabled_modSource (p : Plic) (i : Nat) (f : PlicSrc → PlicSrc) (t j : Nat) :
    (p.modSource i f).isEnabled t j = p.isEnabled t j := by
  simp [Plic.isEnabled]

theorem Plic.target_modTarget {p : Plic} {t : Nat} (f : PlicTgt → PlicTgt) (ht : t < p.tgts.length) (u : Nat) :
    (p.modTarget t f).target u = if u = t then f (p.target t) else p.target u := by
  unfold Plic.target Plic.modTarget
  by_cases hu : u = t
  · subst hu; simp [List.getD_eq_getElem?_getD, List.getElem?_eq_getElem ht]
  · have : ¬ t = u := fun h => hu h.symm
    simp [hu, List.getD_eq_getElem?_getD, this]

/-- A target whose enabled set is kept has the same enabled sources. -/
theorem Plic.isEnabled_modTarget {p : Plic} {t : Nat} {f : PlicTgt → PlicTgt} (hf : ∀ x, (f x).enabled = x.enabled)
    (u j : Nat) : (p.modTarget t f).isEnabled u j = p.isEnabled u j := by
  unfold Plic.isEnabled
  by_cases ht : t < p.tgts.length
  · rw [p.target_modTarget f ht]
    by_cases hu : u = t
    · subst hu; simp [hf]
    · simp [hu]
  · rw [Plic.modTarget, List.modify_eq_self (by omega)]

/-! ## Shape -/

theorem Plic.shapeOk_iff (p : Plic) :
    p.shapeOk = true ↔ p.srcs.length + 1 = p.params.numSources ∧ p.tgts.length = p.params.numTargets ∧
      ∀ x ∈ p.tgts, x.enabled.length + 1 = p.params.numSources ∧
        ∀ i ∈ x.inService, 1 ≤ i ∧ i < p.params.numSources := by
  simp [Plic.shapeOk, and_assoc]

theorem Plic.shapeOk_modSource {p : Plic} (i : Nat) (f : PlicSrc → PlicSrc) (h : p.shapeOk = true) :
    (p.modSource i f).shapeOk = true := by
  rw [Plic.shapeOk_iff] at h ⊢
  simp only [Plic.modSource_params, Plic.modSource_tgts]
  refine ⟨?_, h.2⟩
  unfold Plic.modSource
  split <;> simp [h.1]

theorem mem_modify {α : Type} {l : List α} {i : Nat} {f : α → α} {a : α} (h : a ∈ l.modify i f) :
    a ∈ l ∨ ∃ b ∈ l, a = f b := by
  obtain ⟨j, hj⟩ := List.mem_iff_getElem?.1 h
  rw [List.getElem?_modify] at hj
  cases hl : l[j]? with
  | none => simp [hl] at hj
  | some b =>
    have hb := List.mem_of_getElem? hl
    by_cases hij : i = j
    · simp [hl, hij] at hj
      exact .inr ⟨b, hb, hj.symm⟩
    · simp [hl, hij] at hj
      exact .inl (hj ▸ hb)

theorem Plic.shapeOk_modTarget {p : Plic} (t : Nat) (f : PlicTgt → PlicTgt) (h : p.shapeOk = true)
    (hf : ∀ x, (f x).enabled.length = x.enabled.length)
    (hs : ∀ x, ∀ i ∈ (f x).inService, i ∈ x.inService ∨ (1 ≤ i ∧ i < p.params.numSources)) :
    (p.modTarget t f).shapeOk = true := by
  rw [Plic.shapeOk_iff] at h ⊢
  refine ⟨h.1, by simpa [Plic.modTarget] using h.2.1, fun x hx => ?_⟩
  rcases mem_modify hx with hx | ⟨y, hy, rfl⟩
  · exact h.2.2 x hx
  · refine ⟨by rw [hf]; exact (h.2.2 y hy).1, fun i hi => ?_⟩
    rcases hs y i hi with hi | hi
    · exact (h.2.2 y hy).2 i hi
    · exact hi

theorem Plic.target_mem {p : Plic} {t : Nat} (ht : t < p.tgts.length) : p.target t ∈ p.tgts := by
  simp [Plic.target, List.getD_eq_getElem?_getD, List.getElem?_eq_getElem ht]

/-! ## Candidates and the selected source -/

theorem Plic.mem_candidates {p : Plic} {t i : Nat} :
    i ∈ p.candidates t ↔
      (1 ≤ i ∧ i < p.params.numSources) ∧ p.isEnabled t i = true ∧ (p.source i).isPending = true := by
  simp only [Plic.candidates, Plic.ids, List.mem_filter, List.mem_range'_1, Bool.and_eq_true]
  constructor
  · rintro ⟨⟨h1, h2⟩, h3⟩; exact ⟨⟨h1, by omega⟩, h3⟩
  · rintro ⟨⟨h1, h2⟩, h3⟩; exact ⟨⟨h1, by omega⟩, h3⟩

theorem Plic.foldl_max (p : Plic) (l : List Nat) :
    ∀ m, m ≤ l.foldl (fun m i => max m (p.source i).priority.toNat) m ∧
      ∀ i ∈ l, (p.source i).priority.toNat ≤ l.foldl (fun m i => max m (p.source i).priority.toNat) m := by
  induction l with
  | nil => intro m; simp
  | cons a l ih =>
    intro m
    have h := ih (max m (p.source a).priority.toNat)
    simp only [List.foldl_cons, List.mem_cons]
    refine ⟨by omega, fun i hi => ?_⟩
    rcases hi with rfl | hi
    · omega
    · exact h.2 i hi

/-- No source of a list has a priority above the greatest. -/
theorem Plic.le_maxPriority (p : Plic) {l : List Nat} {i : Nat} (h : i ∈ l) :
    (p.source i).priority.toNat ≤ p.maxPriority l := (p.foldl_max l 0).2 i h

/-- Some source of a list that is not empty has the greatest priority. -/
theorem Plic.exists_maxPriority (p : Plic) {l : List Nat} (h : l ≠ []) :
    ∃ i ∈ l, (p.source i).priority.toNat = p.maxPriority l := by
  have key : ∀ (l : List Nat) m, l.foldl (fun m i => max m (p.source i).priority.toNat) m = m ∨
      ∃ i ∈ l, (p.source i).priority.toNat = l.foldl (fun m i => max m (p.source i).priority.toNat) m := by
    intro l
    induction l with
    | nil => intro m; simp
    | cons a l ih =>
      intro m
      simp only [List.foldl_cons, List.mem_cons]
      rcases ih (max m (p.source a).priority.toNat) with h | ⟨i, hi, h⟩
      · rw [h]
        rcases Nat.le_total m (p.source a).priority.toNat with hm | hm
        · exact .inr ⟨a, .inl rfl, by omega⟩
        · exact .inl (by omega)
      · exact .inr ⟨i, .inr hi, h⟩
  rcases key l 0 with h0 | h0
  · obtain ⟨i, hi⟩ := List.exists_mem_of_ne_nil l h
    have := p.le_maxPriority hi
    exact ⟨i, hi, by unfold Plic.maxPriority at *; omega⟩
  · exact h0

theorem Plic.candidates_sorted (p : Plic) (t : Nat) : (p.candidates t).Pairwise (· < ·) :=
  List.Pairwise.filter _ (by simpa [Plic.ids] using List.pairwise_lt_range')

/-- The source a claim selects: a candidate of greatest priority, and of those the one with the least id. -/
theorem Plic.selected_eq_some {p : Plic} {t i : Nat} :
    p.selected t = some i ↔ i ∈ p.candidates t ∧
      ∀ j ∈ p.candidates t, (p.source j).priority.toNat ≤ (p.source i).priority.toNat ∧
        ((p.source j).priority = (p.source i).priority → i ≤ j) := by
  have hsort := p.candidates_sorted t
  constructor
  · intro h
    have hm := List.mem_of_find?_eq_some h
    have hp : (p.source i).priority.toNat = p.maxPriority (p.candidates t) := by
      simpa using List.find?_some h
    refine ⟨hm, fun j hj => ⟨hp ▸ p.le_maxPriority hj, fun heq => ?_⟩⟩
    obtain ⟨_, as, bs, hl, has⟩ := List.find?_eq_some_iff_append.1 h
    rw [hl] at hj hsort
    rcases List.mem_append.1 hj with hj | hj
    · have := has j hj
      rw [heq, hp] at this
      simp at this
    · rcases List.mem_cons.1 hj with rfl | hj
      · exact Nat.le_refl _
      · exact Nat.le_of_lt ((List.pairwise_cons.1 (List.pairwise_append.1 hsort).2.1).1 j hj)
  · rintro ⟨hi, hmax⟩
    obtain ⟨k, hk, hkm⟩ := p.exists_maxPriority (List.ne_nil_of_mem hi)
    have him : (p.source i).priority.toNat = p.maxPriority (p.candidates t) :=
      Nat.le_antisymm (p.le_maxPriority hi) (hkm ▸ (hmax k hk).1)
    cases hsel : p.selected t with
    | none =>
      have := List.find?_eq_none.1 hsel i hi
      simp [him] at this
    | some j =>
      obtain ⟨hpj, as, bs, hl, has⟩ := List.find?_eq_some_iff_append.1 hsel
      have hjm : (p.source j).priority.toNat = p.maxPriority (p.candidates t) := by simpa using hpj
      have hj : j ∈ p.candidates t := List.mem_of_find?_eq_some hsel
      have hij := (hmax j hj).2 (BitVec.eq_of_toNat_eq (by omega))
      rw [hl] at hi hsort
      rcases List.mem_append.1 hi with hi | hi
      · have := has i hi; simp [him] at this
      · rcases List.mem_cons.1 hi with rfl | hi
        · rfl
        · have := (List.pairwise_cons.1 (List.pairwise_append.1 hsort).2.1).1 i hi
          omega

theorem Plic.selected_eq_none {p : Plic} {t : Nat} : p.selected t = none ↔ ∀ i, i ∉ p.candidates t := by
  constructor
  · intro h i hi
    obtain ⟨k, hk, hkm⟩ := p.exists_maxPriority (List.ne_nil_of_mem hi)
    have := List.find?_eq_none.1 h k hk
    simp [hkm] at this
  · intro h
    have : p.candidates t = [] := List.eq_nil_iff_forall_not_mem.2 h
    simp [Plic.selected, this]

/-! ## The write of an `ENABLE` word -/

/-- What the fold over the low bits of an `ENABLE` write has done when it has done the bits below `n`. -/
theorem Plic.enableBits_spec {p : Plic} {t w : Nat} {v : Word} (ht : t < p.params.numTargets) (hp : p.shapeOk = true) :
    ∀ n, ∀ r, (List.range n).foldl (Plic.enableBit t w v) (p, []) = r →
      r.1.params = p.params ∧ r.1.srcs = p.srcs ∧ r.1.shapeOk = true ∧
      (∀ u, (r.1.target u).inService = (p.target u).inService) ∧
      (∀ u i, r.1.isEnabled u i =
        if u = t ∧ 1 ≤ i ∧ i < p.params.numSources ∧ 32 * w ≤ i ∧ i < 32 * w + n then v.getLsbD (i - 32 * w)
        else p.isEnabled u i) ∧
      r.2 = ((List.range n).filter (fun b => decide (32 * w + b ≠ 0 ∧ p.params.numSources ≤ 32 * w + b) &&
          v.getLsbD b)).map (fun b => raiseDiag .enableNonexistentSource (.num ((32 * w + b : Nat) : Int))) := by
  intro n
  induction n with
  | zero =>
    rintro r rfl
    refine ⟨rfl, rfl, hp, fun _ => rfl, fun u i => ?_, rfl⟩
    rw [if_neg]
    · rfl
    · omega
  | succ n ih =>
    rintro r rfl
    obtain ⟨h1, h2, h3, h4, h5, h6⟩ := ih _ rfl
    rw [List.range_succ, List.foldl_append, List.filter_append, List.map_append]
    generalize (List.range n).foldl (Plic.enableBit t w v) (p, []) = q at *
    obtain ⟨q, d⟩ := q
    simp only at h1 h2 h3 h4 h5 h6
    subst h6
    have hs := (Plic.shapeOk_iff q).1 h3
    simp only [List.foldl_cons, List.foldl_nil, Plic.enableBit]
    by_cases h0 : 32 * w + n = 0
    · simp only [h0, if_true]
      refine ⟨h1, h2, h3, h4, fun u i => ?_, ?_⟩
      · rw [h5]
        by_cases hc : u = t ∧ 1 ≤ i ∧ i < p.params.numSources ∧ 32 * w ≤ i ∧ i < 32 * w + n
        · rw [if_pos hc, if_pos (by omega)]
        · rw [if_neg hc, if_neg (by omega)]
      · simp [h0]
        omega
    · have hnt : ¬ q.params.numTargets ≤ t := by rw [h1]; omega
      simp only [h0, if_false, Plic.enableSource, hnt, false_or]
      by_cases hbig : q.params.numSources ≤ 32 * w + n
      · simp only [hbig, if_true]
        refine ⟨h1, h2, h3, h4, fun u i => ?_, ?_⟩
        · rw [h5]
          rw [h1] at hbig
          by_cases hc : u = t ∧ 1 ≤ i ∧ i < p.params.numSources ∧ 32 * w ≤ i ∧ i < 32 * w + n
          · rw [if_pos hc, if_pos (by omega)]
          · rw [if_neg hc, if_neg (by omega)]
        · rw [h1] at hbig
          have hd : decide (32 * w + n ≠ 0 ∧ p.params.numSources ≤ 32 * w + n) = true := by
            simp only [decide_eq_true_eq]; exact ⟨h0, hbig⟩
          simp only [List.filter_cons, List.filter_nil, hd, Bool.true_and]
          cases v.getLsbD n <;> simp
      · simp only [hbig, if_false]
        refine ⟨h1, h2, ?_, fun u => ?_, fun u i => ?_, ?_⟩
        · exact Plic.shapeOk_modTarget _ _ h3 (by simp) (fun x i hi => .inl hi)
        · rw [Plic.target_modTarget _ (by rw [hs.2.1, h1]; exact ht)]
          split
          · next h => rw [h]; exact h4 t
          · exact h4 u
        · rw [h1] at hbig
          have htl : t < q.tgts.length := by rw [hs.2.1, h1]; exact ht
          have hlen := (hs.2.2 _ (Plic.target_mem htl)).1
          by_cases hut : u = t
          · subst hut
            by_cases hi0 : i = 0
            · have hq := h5 u i
              simp only [Plic.isEnabled, hi0, if_true] at hq ⊢
              rw [if_neg (by omega)]
            · have he : (q.modTarget u (fun x => { x with enabled := x.enabled.set (32 * w + n - 1) (v.getLsbD n) })).isEnabled
                  u i = if i = 32 * w + n then v.getLsbD n else q.isEnabled u i := by
                simp only [Plic.isEnabled, hi0, if_false, Plic.target_modTarget _ htl, if_true, List.getD_eq_getElem?_getD,
                  List.getElem?_set]
                by_cases hi : i = 32 * w + n
                · subst hi
                  simp only [if_true]
                  rw [if_pos (by rw [h1] at hlen; omega)]; rfl
                · rw [if_neg (by omega), if_neg hi]
              rw [he]
              by_cases hi : i = 32 * w + n
              · rw [if_pos hi, if_pos (by omega), hi]; simp
              · rw [if_neg hi, h5]
                by_cases hc : u = u ∧ 1 ≤ i ∧ i < p.params.numSources ∧ 32 * w ≤ i ∧ i < 32 * w + n
                · rw [if_pos hc, if_pos (by omega)]
                · rw [if_neg hc, if_neg (by omega)]
          · have he : (q.modTarget t (fun x => { x with enabled := x.enabled.set (32 * w + n - 1) (v.getLsbD n) })).isEnabled
                u i = q.isEnabled u i := by
              simp [Plic.isEnabled, Plic.target_modTarget _ htl, hut]
            rw [he, h5, if_neg (by tauto), if_neg (by tauto)]
        · rw [h1] at hbig
          simp [hbig]

/-! ## The operations, each once -/

/-- A write of `ENABLE[t][w]` (30_encoding.md R112, 41_plic.md R165): what it leaves, and what it reports. -/
theorem Plic.writeEnable_spec {p : Plic} {t w : Nat} {v : Word} (ht : t < p.params.numTargets) (hp : p.shapeOk = true) :
    (p.writeEnable t w v).core.params = p.params ∧ (p.writeEnable t w v).core.srcs = p.srcs ∧
      (p.writeEnable t w v).core.shapeOk = true ∧
      (∀ u, ((p.writeEnable t w v).core.target u).inService = (p.target u).inService) ∧
      (∀ u i, (p.writeEnable t w v).core.isEnabled u i =
        if u = t ∧ 1 ≤ i ∧ i < p.params.numSources ∧ 32 * w ≤ i ∧ i < 32 * w + 32 then v.getLsbD (i - 32 * w)
        else p.isEnabled u i) ∧
      (p.writeEnable t w v).diags =
        ((List.range 32).filter (fun b => decide (32 * w + b ≠ 0 ∧ p.params.numSources ≤ 32 * w + b) &&
          v.getLsbD b)).map (fun b => raiseDiag .enableNonexistentSource (.num ((32 * w + b : Nat) : Int))) ∧
      (p.writeEnable t w v).drives = (p.writeEnable t w v).core.drives ∧ (p.writeEnable t w v).reply = none := by
  have hnt : ¬ p.params.numTargets ≤ t := by omega
  obtain ⟨h1, h2, h3, h4, h5, h6⟩ := Plic.enableBits_spec (w := w) (v := v) ht hp 32 _ rfl
  simp only [Plic.writeEnable, hnt, if_false]
  exact ⟨h1, h2, h3, h4, h5, h6, by trivial, by trivial⟩

/-- A claim that selects a source (41_plic.md R167). -/
theorem Plic.claim_some {p : Plic} {t i : Nat} (ht : t < p.params.numTargets) (h : p.selected t = some i) :
    p.claim t = (((p.modSource i (fun x => { x with isPending := false })).modTarget t
      (fun x => { x with inService := x.inService ++ [i] })).reEvaluate).returning (BitVec.ofNat 32 i) := by
  have hnt : ¬ p.params.numTargets ≤ t := by omega
  simp only [Plic.claim, hnt, if_false, h]

/-- A claim that finds nothing (41_plic.md R167). -/
theorem Plic.claim_none {p : Plic} {t : Nat} (ht : t < p.params.numTargets) (h : p.selected t = none) :
    p.claim t = Eff.read p 0 := by
  have hnt : ¬ p.params.numTargets ≤ t := by omega
  simp only [Plic.claim, hnt, if_false, h]

/-- A complete that names the top of the stack (41_plic.md R168). -/
theorem Plic.complete_top {p : Plic} {t : Nat} {v : Word} (ht : t < p.params.numTargets) (h0 : v.toNat ≠ 0)
    (hv : v.toNat < p.params.numSources) (h : (p.target t).inService.getLast? = some v.toNat) :
    p.complete t v = ((p.modTarget t (fun x => { x with inService := x.inService.dropLast })).modSource v.toNat
      (fun x => { x with isPending := x.state })).reEvaluate := by
  have hnt : ¬ p.params.numTargets ≤ t := by omega
  have hnv : ¬ (v.toNat = 0 ∨ p.params.numSources ≤ v.toNat) := by omega
  simp only [Plic.complete, hnt, hnv, if_false, h, ne_eq, not_true_eq_false]

/-- An input number in range (41_plic.md R161). -/
theorem Plic.onGpio_inRange {p : Plic} {n : Nat} {v : Bool} (h1 : 1 ≤ n) (h2 : n < p.params.numSources) :
    p.onGpio n v = .ok (p.input n v) := by
  have : inputInRange 1 p.params.numSources n = true := by simp [inputInRange]; omega
  simp [Plic.onGpio, this]

/-- An input number out of range (41_plic.md R162). -/
theorem Plic.onGpio_outOfRange {p : Plic} {n : Int} {v : Bool} (h : n < 1 ∨ (p.params.numSources : Int) ≤ n) :
    p.onGpio n v = .error (.plicGpioOutOfRange n) := by
  have : inputInRange 1 p.params.numSources n = false := by simp [inputInRange]; omega
  simp [Plic.onGpio, this]

/-- The PLIC in its reset state has the right shape. -/
theorem Plic.reset_shapeOk {q : PlicParams} (h : (CtrlParams.plic q).valid = true) : (Plic.reset q).shapeOk = true := by
  have : 2 ≤ q.numSources := by
    simp only [CtrlParams.valid, CtrlParams.firstInvalid, PlicParams.firstInvalid] at h
    by_contra hn
    simp [show q.numSources < 2 by omega] at h
  rw [Plic.shapeOk_iff]
  simp only [Plic.reset, List.length_replicate, List.mem_replicate]
  refine ⟨by omega, by trivial, ?_⟩
  rintro x ⟨-, rfl⟩
  simp; omega

end Sys2Proof.Machine
end

