-- ==== Sys2Proof/Laws/SystemReset.lean ====
section
/-! SUPPORT. What a system reset does, said once: it completes on sound wiring, it keeps the platform, and what it has once reset
stays as it is. -/

namespace Sys2Proof.Machine

/-- The state and the outputs of controller `d` are as before. -/
def Kept (d : Nat) (s t : State) : Prop :=
  (t.ctrls[d]?).map (fun x => (x.core, x.outs)) = (s.ctrls[d]?).map (fun x => (x.core, x.outs))

theorem kept_hears (d : Nat) : Hears (Kept d) where
  refl _ := rfl
  trans h g := g.trans h
  hear _ _ _ _ := rfl

theorem Kept.of_putLevel {d c : Nat} (h : c ≠ d) (s : State) (i : Nat) (v : Bool) : Kept d s (s.putLevel (.out c i) v) := by
  simp [Kept, h]

theorem Kept.of_putEff {d c : Nat} (h : c ≠ d) (s : State) (e : Eff Core) : Kept d s (s.putEff c e) := by
  simp [Kept, h]

/-- During a system reset no nested event changes a controller that has been reset (70_reset_and_hazards.md R405). -/
theorem deliver_settled {done : List Nat} {d : Nat} (hd : d ∈ done) :
    ∀ k c n v s t, deliver done k c n v s = .ok t → Kept d s t := by
  intro k
  induction k with
  | zero => intro c n v s t h; simp [deliver] at h
  | succ k ih =>
    intro c n v s t h
    simp only [deliver] at h
    cases hx : s.ctrls[c]? with
    | none => simp [hx] at h
    | some x =>
      simp only [hx] at h
      cases he : x.core.hearGpio (decide (c ∈ done)) n v with
      | error r => simp [he] at h
      | ok e =>
        simp only [he] at h
        by_cases hc : c = d
        · subst hc
          obtain ⟨hcore, hdrives⟩ := Core.hearGpio_settled (by simpa [hd] using he)
          rw [hdrives, driveAll, Except.ok.injEq] at h
          simp [← h, Kept, hx, hcore]
        · exact (kept_hears d).trans (Kept.of_putEff hc s e)
            (driveAll_rel (kept_hears d) ih (fun s i v => Kept.of_putLevel hc s i v) _ _ _ h)

@[simp] theorem Core.resetEff_core (k : Core) : k.resetEff.core = Core.reset k.params := by cases k <;> rfl
@[simp] theorem Core.resetEff_drives (k : Core) : k.resetEff.drives = resetDrives k.params.numOutputs := by cases k <;> rfl
@[simp] theorem Core.resetEff_diags (k : Core) : k.resetEff.diags = [] := by cases k <;> rfl
@[simp] theorem Core.reset_params (q : CtrlParams) : (Core.reset q).params = q := by cases q <;> rfl

/-! ## The resets, one after another -/

/-- One `Reset()` within a system reset, on sound wiring: it completes, keeps the platform and what was reset before, and
leaves the controller in its reset state with its outputs driven low. -/
theorem resetOne_spec {done : List Nat} {s : State} {c : Nat} {x : Ctrl} (hs : s.sound = true) (hx : s.ctrls[c]? = some x)
    (hc : c ∉ done) :
    ∃ t, driveAll (deliver done s.depthBound) c x.core.resetEff.drives (s.putEff c x.core.resetEff) = .ok t ∧ Steady s t ∧
      (∀ d ∈ done, Kept d s t) ∧ t.ctrls[c]? = some (x.after x.core.resetEff) := by
  have hlt : c < s.ctrls.length := (List.getElem?_eq_some_iff.1 hx).1
  have ha := s.sound_acyclic hs
  have hst0 : Steady s (s.putEff c x.core.resetEff) := Steady.of_putEff hx (by simp)
  obtain ⟨t, ht⟩ := driveAll_ok (done := done) (k := s.depthBound) (c := c) (w := s.wiring)
    (fun d hd e he v u h1 h2 h3 => deliver_ok s.depthBound d (heightWithin_mono _ (Nat.le_succ _) (acyclic_height ha
      (by simpa [State.wiring_length] using wiringTargets_lt hd))) e he v u h1 h2 h3)
    x.core.resetEff.drives _ (hst0.wired.trans (s.sound_wired hs)) (s.wiring_putEff c _)
  refine ⟨t, ht, hst0.trans (driveAll_steady ht), fun d hd => ?_, ?_⟩
  · have hcd : c ≠ d := fun h => hc (h ▸ hd)
    exact (kept_hears d).trans (Kept.of_putEff hcd s _)
      (driveAll_rel (kept_hears d) (deliver_settled hd _) (fun s i v => Kept.of_putLevel hcd s i v) _ _ _ ht)
  · rw [driveAll_self (acyclic_height ha hlt) _ _ _ (s.wiring_putEff c _) ht]
    simp [hx, Ctrl.after]

theorem Steady.sound {s t : State} (h : Steady s t) : t.sound = s.sound := by
  rw [State.sound, State.sound, h.wired, State.acyclic, State.acyclic, h.2.2.2.1]

/-- On sound wiring the resets complete, keep the platform, and leave what had been reset before as it was. -/
theorem resetInTurn_spec : ∀ order done s, s.sound = true → (∀ c ∈ order, c < s.ctrls.length ∧ c ∉ done) → order.Nodup →
    ∃ t, resetInTurn done order s = .ok t ∧ Steady s t ∧ ∀ d ∈ done, Kept d s t := by
  intro order
  induction order with
  | nil => intro done s _ _ _; exact ⟨s, rfl, Steady.refl s, fun d _ => (kept_hears d).refl s⟩
  | cons c cs ih =>
    intro done s hs hlt hnd
    obtain ⟨hc, hcd⟩ := hlt c (List.mem_cons_self ..)
    obtain ⟨s', h1, hst, hk, -⟩ := resetOne_spec hs (List.getElem?_eq_getElem hc) hcd
    rw [List.nodup_cons] at hnd
    obtain ⟨t, ht, hst', hk'⟩ := ih (c :: done) s' (hst.sound.trans hs)
      (fun d hd => ⟨hst.length ▸ (hlt d (List.mem_cons_of_mem _ hd)).1, by
        have := (hlt d (List.mem_cons_of_mem _ hd)).2
        have : d ≠ c := fun h => hnd.1 (h ▸ hd)
        simp_all⟩) hnd.2
    refine ⟨t, by simp only [resetInTurn, List.getElem?_eq_getElem hc, h1, ht], hst.trans hst', fun d hd => ?_⟩
    exact (kept_hears d).trans (hk d hd) (hk' d (List.mem_cons_of_mem _ hd))

/-! ## The external lines -/

/-- What setting an external line never changes. -/
def SamePlatform (s t : State) : Prop :=
  t.inbox = s.inbox ∧ t.reply = s.reply ∧ t.wiring = s.wiring ∧ t.platform = s.platform ∧
    t.ctrls.map Ctrl.base = s.ctrls.map Ctrl.base ∧
    t.lines.map SigLine.receivers = s.lines.map SigLine.receivers ∧ s.TracesGrow t

theorem SamePlatform.of_steady {s t : State} (h : Steady s t) : SamePlatform s t :=
  ⟨h.1, h.2.2.1, h.2.2.2.1, h.platform, h.2.2.2.2.2.1, by rw [h.2.1], h.2.2.2.2.2.2⟩

theorem SamePlatform.trans {a b c : State} (h : SamePlatform a b) (g : SamePlatform b c) : SamePlatform a c :=
  ⟨g.1.trans h.1, g.2.1.trans h.2.1, g.2.2.1.trans h.2.2.1, g.2.2.2.1.trans h.2.2.2.1, g.2.2.2.2.1.trans h.2.2.2.2.1,
    g.2.2.2.2.2.1.trans h.2.2.2.2.2.1, h.2.2.2.2.2.2.trans g.2.2.2.2.2.2⟩

theorem SamePlatform.of_putLevel (s : State) (k : Nat) (v : Bool) : SamePlatform s (s.putLevel (.ext k) v) :=
  ⟨rfl, rfl, rfl, by simp [State.platform], rfl, map_modify_of_eq _ _ _ _ fun _ => rfl, State.TracesGrow.refl s⟩

theorem wired_of_receivers {s t : State} (hp : t.platform = s.platform) (hw : t.wiring = s.wiring)
    (hl : t.lines.map SigLine.receivers = s.lines.map SigLine.receivers) : t.wired = s.wired := by
  have h : ∀ u : State, u.lines.all (fun l => l.receivers.all (Endpoint.ok u.platform)) =
      (u.lines.map SigLine.receivers).all (fun r => r.all (Endpoint.ok u.platform)) := fun u => by
    rw [List.all_map]; rfl
  rw [State.wired, State.wired, h t, h s, hl, hp, hw]

theorem SamePlatform.sound {s t : State} (h : SamePlatform s t) : t.sound = s.sound := by
  rw [State.sound, State.sound, wired_of_receivers h.2.2.2.1 h.2.2.1 h.2.2.2.2.2.1, State.acyclic, State.acyclic, h.2.2.1]

/-- Setting an external line on sound wiring: it completes; of the lines only this one's level changes. -/
theorem setLine_ext_spec {done : List Nat} {s : State} (hs : s.sound = true) (k : Nat) (v : Bool) :
    ∃ t, setLine (deliver done s.depthBound) (.ext k) v s = .ok t ∧ SamePlatform s t ∧
      t.lines = s.lines.modify k (fun l => l.withLevel v) ∧ ∀ d ∈ done, Kept d s t := by
  unfold setLine
  cases hl : s.line? (.ext k) with
  | none =>
    have hl : s.lines[k]? = none := hl
    exact ⟨s, rfl, SamePlatform.of_steady (Steady.refl s), (modify_withLevel_same (by simp [hl])).symm,
      fun d _ => (kept_hears d).refl s⟩
  | some l =>
    have hl : s.lines[k]? = some l := hl
    by_cases hv : l.level = v
    · exact ⟨s, by simp [hv], SamePlatform.of_steady (Steady.refl s), (modify_withLevel_same (by simp [hl, hv])).symm,
        fun d _ => (kept_hears d).refl s⟩
    · simp only [hv, if_false]
      have hp := SamePlatform.of_putLevel s k v
      have hsp : (s.putLevel (.ext k) v).sound = true := hp.sound.trans hs
      obtain ⟨t, ht, hst, hk⟩ := notifyAll_ok (dl := deliver done s.depthBound) v
        (fun u => Steady (s.putLevel (.ext k) v) u ∧ ∀ d ∈ done, Kept d s u)
        (fun u r n hu => ⟨hu.1.trans (steady_propagates.hear u r n v), fun d hd => hu.2 d hd⟩) l.receivers _
        ⟨Steady.refl _, fun d _ => (kept_hears d).refl s⟩
        (by
          intro e he c hc u hu
          have hok : e.ok s.platform = true := by
            have := s.sound_wired hs
            simp only [State.wired, Bool.and_eq_true, List.all_eq_true] at this
            exact this.1 l (List.mem_of_getElem? hl) e he
          obtain ⟨x, hx, -⟩ := Endpoint.ok_accepts hok hc
          have hh := acyclic_height (s.sound_acyclic hs) (List.getElem?_eq_some_iff.1 hx).1
          obtain ⟨t, ht⟩ := deliver_ok (done := done) s.depthBound c (heightWithin_mono _ (Nat.le_succ _) hh) e hc v u
            (hu.1.wired.trans (State.sound_wired hsp)) (hu.1.2.2.2.1.trans hp.2.2.1)
            (by rw [hu.1.platform, hp.2.2.2.1]; exact hok)
          exact ⟨t, ht, hu.1.trans (deliver_steady ht),
            fun d hd => (kept_hears d).trans (hu.2 d hd) (deliver_settled hd _ _ _ _ _ _ ht)⟩)
      exact ⟨t, ht, hp.trans (SamePlatform.of_steady hst), hst.2.1, hk⟩

/-- Lowering external lines on sound wiring: it completes, the lines named are low. -/
theorem lowerLines_spec : ∀ ks s, s.sound = true →
    ∃ t, lowerLines (deliver [] s.depthBound) ks s = .ok t ∧ SamePlatform s t ∧
      ∀ k l, t.lines[k]? = some l → (k ∈ ks ∨ ∃ l', s.lines[k]? = some l' ∧ l'.level = false) → l.level = false := by
  intro ks
  induction ks with
  | nil =>
    intro s _
    refine ⟨s, rfl, SamePlatform.of_steady (Steady.refl s), fun k l hl h => ?_⟩
    obtain h | ⟨l', h, hv⟩ := h
    · simp at h
    · rw [hl] at h; cases h; exact hv
  | cons a ks ih =>
    intro s hs
    obtain ⟨u, hu, hp, hlines, -⟩ := setLine_ext_spec (done := []) hs a false
    obtain ⟨t, ht, hp', hlow⟩ := ih u (hp.sound.trans hs)
    have hlen : u.depthBound = s.depthBound := by
      have := congrArg List.length hp.2.2.2.2.1
      simpa [State.depthBound] using this
    refine ⟨t, by rw [hlen] at ht; simp only [lowerLines, hu, ht], hp.trans hp', fun k l hl h => hlow k l hl ?_⟩
    by_cases hk : k ∈ ks
    · exact .inl hk
    · right
      have hlt : k < s.lines.length := by
        have h1 := (List.getElem?_eq_some_iff.1 hl).1
        have h2 := congrArg List.length (hp.trans hp').2.2.2.2.2.1
        simp only [List.length_map] at h2
        omega
      rw [hlines, List.getElem?_modify, List.getElem?_eq_getElem hlt]
      by_cases hak : a = k
      · exact ⟨_, rfl, by simp [hak]⟩
      · obtain h | ⟨l', h, hv⟩ := h
        · simp [hk, Ne.symm hak] at h
        · rw [List.getElem?_eq_getElem hlt] at h
          cases h
          exact ⟨_, rfl, by simpa [hak] using hv⟩

end Sys2Proof.Machine
end

