-- ==== Sys2Proof/Laws/Vic.lean ====
section
/-! SUPPORT. What the procedures of the VIC-style controller do: the line fields bit by bit, the queue as a sorted list, the
purge as a drop of inactive entries. -/

namespace Sys2Proof.Machine

/-! ## Line fields -/

theorem Vic.isActive_eq (v : Vic) (L : Nat) :
    v.isActive L = (v.enabled.getLsbD L && (v.pinState.getLsbD L || v.softState.getLsbD L)) := by
  simp [Vic.isActive, Vic.activeMask]

/-- One field of one line is written, every other line keeps all of its own. -/
theorem Vic.putField_isActive_ne {v : Vic} {f : LineField} {L K : Nat} {b : Bool} (hL : L < 32) (h : K ≠ L) :
    (v.putField f L b).isActive K = v.isActive K := by
  cases f <;> simp [Vic.isActive_eq, Vic.putField, putBit_bit hL, h]

theorem Vic.key_congr {v v' : Vic} (h : v'.slots = v.slots) (L : Nat) : v'.key L = v.key L := by
  simp [Vic.key, Vic.vectorId, h]

theorem Vic.key_ok (v : Vic) (L : Nat) : v.key L < Config.vicSlots ∨ v.key L = Config.intMax := by
  unfold Vic.key
  cases h : v.vectorId L with
  | none => right; rfl
  | some n =>
    left
    exact List.mem_range.1 (List.mem_of_find?_eq_some h)

/-! ## The queue -/

theorem mem_takeWhile_holds {α : Type} {P : α → Bool} : ∀ {l : List α} {a : α}, a ∈ l.takeWhile P → P a = true := by
  intro l
  induction l with
  | nil => intro a h; simp at h
  | cons x l ih =>
    intro a h
    by_cases hx : P x = true
    · simp only [List.takeWhile_cons, hx, if_true, List.mem_cons] at h
      rcases h with rfl | h
      · exact hx
      · exact ih h
    · simp [hx] at h

theorem dropWhile_drop {α : Type} (P : α → Bool) :
    ∀ l : List α, l.takeWhile P = l.take (l.takeWhile P).length ∧ l.dropWhile P = l.drop (l.takeWhile P).length := by
  intro l
  induction l with
  | nil => simp
  | cons x l ih =>
    by_cases hx : P x = true
    · simpa [hx] using ih
    · simp [hx]

theorem dropWhile_head {α : Type} (P : α → Bool) : ∀ (l : List α) a, (l.dropWhile P).head? = some a → P a = false := by
  intro l
  induction l with
  | nil => simp
  | cons x l ih =>
    intro a h
    by_cases hx : P x = true
    · simp only [List.dropWhile_cons, hx, if_true] at h; exact ih a h
    · simp only [List.dropWhile_cons, hx] at h
      simp only [Bool.false_eq_true, if_false, List.head?_cons, Option.some.injEq] at h
      rw [← h]; simpa using hx

/-- An insertion puts one new entry at one place; in a queue with ascending keys, no key before it is greater and none after
it is less (42_vic.md R213). -/
theorem insertEntry_split (q : List VicEntry) (e : VicEntry) (j : Nat) :
    ∃ a b, q = a ++ b ∧ insertEntry q e j = a ++ e :: b ∧
      (q.Pairwise (fun x y => x.key ≤ y.key) → (∀ x ∈ a, x.key ≤ e.key) ∧ ∀ x ∈ b, e.key ≤ x.key) := by
  unfold insertEntry
  simp only
  generalize hb : q.takeWhile (fun x => decide (x.key < e.key)) = before
  generalize hr : q.dropWhile (fun x => decide (x.key < e.key)) = rest
  generalize hs : rest.takeWhile (fun x => decide (x.key = e.key)) = same
  generalize ha : rest.dropWhile (fun x => decide (x.key = e.key)) = after
  have hq : q = before ++ rest := by rw [← hb, ← hr, List.takeWhile_append_dropWhile]
  have hrr : rest = same ++ after := by rw [← hs, ← ha, List.takeWhile_append_dropWhile]
  have hj : same.take j ++ (same.drop j ++ after) = rest := by
    rw [← List.append_assoc, List.take_append_drop, hrr]
  refine ⟨before ++ same.take j, same.drop j ++ after, ?_, by simp, fun hsort => ?_⟩
  · rw [List.append_assoc, hj, hq]
  · have hbk : ∀ x ∈ before, x.key ≤ e.key := by
      intro x hx
      rw [← hb] at hx
      have := mem_takeWhile_holds hx
      simp only [decide_eq_true_eq] at this
      omega
    have hsk : ∀ x ∈ same, x.key = e.key := by
      intro x hx
      rw [← hs] at hx
      simpa using mem_takeWhile_holds hx
    have hrk : ∀ x ∈ rest, e.key ≤ x.key := by
      intro x hx
      rw [hq] at hsort
      have hrs := (List.pairwise_append.1 hsort).2.1
      cases hrest : rest with
      | nil => simp [hrest] at hx
      | cons y l =>
        have hy := dropWhile_head (fun x : VicEntry => decide (x.key < e.key)) q y (by rw [hr, hrest]; rfl)
        simp only [decide_eq_false_iff_not] at hy
        rw [hrest] at hx hrs
        rcases List.mem_cons.1 hx with rfl | hx
        · omega
        · have := (List.pairwise_cons.1 hrs).1 x hx
          omega
    constructor
    · intro x hx
      rcases List.mem_append.1 hx with hx | hx
      · exact hbk x hx
      · exact Nat.le_of_eq (hsk x (List.mem_of_mem_take hx))
    · intro x hx
      rcases List.mem_append.1 hx with hx | hx
      · exact Nat.le_of_eq (hsk x (List.mem_of_mem_drop hx)).symm
      · exact hrk x (by rw [hrr]; exact List.mem_append_right _ hx)

/-- The old entries and the new one, and no others. -/
theorem insertEntry_perm (q : List VicEntry) (e : VicEntry) (j : Nat) : (insertEntry q e j).Perm (e :: q) := by
  obtain ⟨a, b, rfl, h, -⟩ := insertEntry_split q e j
  rw [h]
  exact List.perm_middle

/-- The old entries keep their order. -/
theorem insertEntry_sublist (q : List VicEntry) (e : VicEntry) (j : Nat) : q.Sublist (insertEntry q e j) := by
  obtain ⟨a, b, rfl, h, -⟩ := insertEntry_split q e j
  rw [h]
  exact (List.Sublist.refl _).append (List.sublist_cons_self _ _)

/-- Keys stay ascending (42_vic.md R213). -/
theorem insertEntry_sorted {q : List VicEntry} (hq : q.Pairwise (fun a b => a.key ≤ b.key)) (e : VicEntry) (j : Nat) :
    (insertEntry q e j).Pairwise (fun a b => a.key ≤ b.key) := by
  obtain ⟨a, b, rfl, h, hk⟩ := insertEntry_split q e j
  obtain ⟨ha, hb⟩ := hk hq
  have hp := List.pairwise_append.1 hq
  rw [h, List.pairwise_append, List.pairwise_cons]
  refine ⟨hp.1, ⟨hb, hp.2.1⟩, fun x hx y hy => ?_⟩
  rcases List.mem_cons.1 hy with rfl | hy
  · exact ha x hx
  · exact hp.2.2 x hx y hy

/-! ## `Change`, `Purge` -/

/-- `Change` writes the one field, and enqueues the line if it becomes active and is not FIQ-classified (42_vic.md R201,
R213). -/
theorem Vic.change_spec (f : LineField) (b : Bool) (v : Vic) (L : Nat) :
    (Vic.change f b v L).pinState = (v.putField f L b).pinState ∧
      (Vic.change f b v L).softState = (v.putField f L b).softState ∧
      (Vic.change f b v L).enabled = (v.putField f L b).enabled ∧
      (Vic.change f b v L).isFiq = v.isFiq ∧ (Vic.change f b v L).slots = v.slots ∧
      (Vic.change f b v L).addrs = v.addrs ∧ (Vic.change f b v L).defVectAddr = v.defVectAddr ∧
      (Vic.change f b v L).stack = v.stack ∧
      (Vic.change f b v L).queue =
        if !v.isActive L && (v.putField f L b).isActive L && !v.isFiq.getLsbD L then
          insertEntry v.queue { line := L, key := v.key L }
            (v.tiePosition { line := L, key := v.key L } (tieCount v.queue (v.key L)))
        else v.queue := by
  unfold Vic.change
  simp only [Vic.putField_isFiq]
  split
  · refine ⟨rfl, rfl, rfl, by simp, by simp, by simp, by simp, by simp, ?_⟩
    simp only [Vic.enqueue, Vic.putField_queue, Vic.key_congr (v.putField_slots f L b), Vic.tiePosition,
      Vic.putField_params]
  · refine ⟨rfl, rfl, rfl, by simp, by simp, by simp, by simp, by simp, by simp⟩

/-- What `Purge` takes from the front of the queue is inactive, and the new front is active (42_vic.md R215). -/
theorem Vic.purge_queue (v : Vic) :
    ∃ k, v.purge.queue = v.queue.drop k ∧ (∀ e ∈ v.queue.take k, v.isActive e.line = false) ∧
      ∀ e, v.purge.queue.head? = some e → v.isActive e.line = true := by
  obtain ⟨ht, hd⟩ := dropWhile_drop (fun e : VicEntry => !v.isActive e.line) v.queue
  refine ⟨_, hd, fun e he => ?_, fun e he => ?_⟩
  · rw [← ht] at he
    simpa using mem_takeWhile_holds he
  · simpa using dropWhile_head _ _ _ he

/-- What `Purge` takes from the top of the stack is inactive, and the new top is active (42_vic.md R215). -/
theorem Vic.purge_stack (v : Vic) :
    ∃ k, v.purge.stack = v.stack.take k ∧ (∀ e ∈ v.stack.drop k, v.isActive e.line = false) ∧
      ∀ e, v.purge.stack.getLast? = some e → v.isActive e.line = true := by
  obtain ⟨ht, hd⟩ := dropWhile_drop (fun e : VicEntry => !v.isActive e.line) v.stack.reverse
  generalize hn : (v.stack.reverse.takeWhile (fun e => !v.isActive e.line)).length = n at ht hd
  refine ⟨v.stack.length - n, ?_, fun e he => ?_, fun e he => ?_⟩
  · simp [Vic.purge, hd, List.drop_reverse]
  · have : e ∈ v.stack.reverse.takeWhile (fun e => !v.isActive e.line) := by
      rw [ht, List.take_reverse]
      simpa using he
    simpa using mem_takeWhile_holds this
  · simp only [Vic.purge, List.getLast?_reverse] at he
    simpa using dropWhile_head _ _ _ he

/-! ## A write that changes many lines -/

/-- The word of one field of all lines. -/
def Vic.field (v : Vic) : LineField → Word
  | .pinState => v.pinState
  | .softState => v.softState
  | .enabled => v.enabled

/-- Line `L` becomes active, and is not FIQ-classified, when the field is written: `Change` enqueues it (42_vic.md R201). -/
def Vic.wakes (f : LineField) (b : Bool) (v : Vic) (L : Nat) : Bool :=
  !v.isActive L && (v.putField f L b).isActive L && !v.isFiq.getLsbD L

theorem Vic.putField_field (v : Vic) (f g : LineField) (L : Nat) (b : Bool) :
    (v.putField f L b).field g = if g = f then putBit (v.field g) L b else v.field g := by
  cases f <;> cases g <;> rfl

theorem Vic.change_field (v : Vic) (f g : LineField) (L : Nat) (b : Bool) :
    (Vic.change f b v L).field g = if g = f then putBit (v.field g) L b else v.field g := by
  rw [← Vic.putField_field]
  obtain ⟨h1, h2, h3, -⟩ := Vic.change_spec f b v L
  cases g
  · exact h1
  · exact h2
  · exact h3

theorem Vic.isActive_field {v v' : Vic} {K : Nat} (h : ∀ g, (v'.field g).getLsbD K = (v.field g).getLsbD K) :
    v'.isActive K = v.isActive K := by
  have h1 := h .pinState
  have h2 := h .softState
  have h3 := h .enabled
  simp only [Vic.field] at h1 h2 h3
  simp [Vic.isActive_eq, h1, h2, h3]

/-- A change of one line leaves what another line would do. -/
theorem Vic.wakes_change {f : LineField} {b : Bool} {v : Vic} {L K : Nat} (hL : L < 32) (hK : K < 32) (h : K ≠ L) :
    Vic.wakes f b (Vic.change f b v L) K = Vic.wakes f b v K := by
  have h1 : (Vic.change f b v L).isActive K = v.isActive K := by
    apply Vic.isActive_field
    intro g
    rw [Vic.change_field]
    split <;> simp [putBit_bit hL, h]
  have h2 : ((Vic.change f b v L).putField f K b).isActive K = (v.putField f K b).isActive K := by
    apply Vic.isActive_field
    intro g
    rw [Vic.putField_field, Vic.putField_field, Vic.change_field]
    split
    · simp [putBit_bit hK]
    · rfl
  obtain ⟨-, -, -, h4, -⟩ := Vic.change_spec f b v L
  simp only [Vic.wakes, h1, h2, h4]

/-- What changing several lines does: the field of those lines, and one entry more in the queue for each line that wakes. -/
theorem Vic.foldChange_spec (f : LineField) (b : Bool) :
    ∀ (ls : List Nat) (v : Vic), ls.Nodup → (∀ L ∈ ls, L < 32) → ∀ r, ls.foldl (Vic.change f b) v = r →
      (∀ g j, (r.field g).getLsbD j = if g = f ∧ j ∈ ls then b else (v.field g).getLsbD j) ∧
      (∀ g, g ≠ f → r.field g = v.field g) ∧
      r.params = v.params ∧ r.isFiq = v.isFiq ∧ r.slots = v.slots ∧ r.addrs = v.addrs ∧
      r.defVectAddr = v.defVectAddr ∧ r.stack = v.stack ∧
      r.queue.Perm (v.queue ++ (ls.filter (Vic.wakes f b v)).map (fun L => { line := L, key := v.key L })) ∧
      v.queue.Sublist r.queue ∧
      (v.queue.Pairwise (fun a b => a.key ≤ b.key) → r.queue.Pairwise (fun a b => a.key ≤ b.key)) := by
  intro ls
  induction ls with
  | nil =>
    rintro v - - r rfl
    refine ⟨fun g j => by simp, fun _ _ => rfl, rfl, rfl, rfl, rfl, rfl, rfl, by simp, List.Sublist.refl _, id⟩
  | cons L ls ih =>
    rintro v hnd hlt r rfl
    have hL := hlt L (List.mem_cons_self ..)
    obtain ⟨hLls, hnd'⟩ := List.nodup_cons.1 hnd
    obtain ⟨-, -, -, c4, c5, c6, c7, c8, c9⟩ := Vic.change_spec f b v L
    obtain ⟨i1, i2, i3, i4, i5, i6, i7, i8, i9, i10, i11⟩ :=
      ih (Vic.change f b v L) hnd' (fun K hK => hlt K (List.mem_cons_of_mem _ hK)) _ rfl
    have hq : (Vic.change f b v L).queue.Perm
          (v.queue ++ ([L].filter (Vic.wakes f b v)).map (fun L => { line := L, key := v.key L })) ∧
        v.queue.Sublist (Vic.change f b v L).queue ∧
        (v.queue.Pairwise (fun a b => a.key ≤ b.key) →
          (Vic.change f b v L).queue.Pairwise (fun a b => a.key ≤ b.key)) := by
      rw [c9]
      by_cases hw : Vic.wakes f b v L = true
      · have hw' := hw
        unfold Vic.wakes at hw'
        rw [if_pos hw']
        simp only [List.filter_cons, hw, if_true, List.filter_nil, List.map_cons, List.map_nil]
        exact ⟨(insertEntry_perm _ _ _).trans (List.perm_append_singleton _ _).symm, insertEntry_sublist _ _ _,
          fun h => insertEntry_sorted h _ _⟩
      · have hw' := hw
        unfold Vic.wakes at hw'
        rw [if_neg hw']
        simp only [List.filter_cons, hw, List.filter_nil]
        simp
    have hkey : ∀ K, (Vic.change f b v L).key K = v.key K := Vic.key_congr c5
    have hfil : ls.filter (Vic.wakes f b (Vic.change f b v L)) = ls.filter (Vic.wakes f b v) := by
      apply List.filter_congr
      intro K hK
      exact Vic.wakes_change hL (hlt K (List.mem_cons_of_mem _ hK)) (fun h => hLls (h ▸ hK))
    simp only [List.foldl_cons]
    refine ⟨fun g j => ?_, fun g hg => ?_, by rw [i3]; exact Vic.change_params .., i4.trans c4, i5.trans c5, i6.trans c6,
      i7.trans c7, i8.trans c8, ?_, hq.2.1.trans i10, fun h => i11 (hq.2.2 h)⟩
    · rw [i1, Vic.change_field]
      by_cases hg : g = f
      · by_cases hj : j ∈ ls
        · simp [hg, hj]
        · by_cases hjL : j = L
          · simp [hg, hjL, putBit_bit hL]
          · simp [hg, hj, hjL, putBit_bit hL]
      · simp [hg]
    · rw [i2 g hg, Vic.change_field, if_neg hg]
    · rw [hfil] at i9
      refine i9.trans ?_
      simp only [hkey]
      refine (hq.1.append_right _).trans ?_
      rw [List.append_assoc, ← List.map_append, ← List.filter_append]
      rfl

theorem nodup_bitsOf (w : Word) : (bitsOf w).Nodup := List.nodup_range.filter _

theorem lt_of_mem_bitsOf {w : Word} {L : Nat} (h : L ∈ bitsOf w) : L < 32 := (mem_bitsOf.1 h).1

/-- A write that sets or clears one field of the lines whose bit is 1 (42_vic.md R204, R205), before `Update`. -/
theorem Vic.writeLines_field (v : Vic) (f : LineField) (w : Word) :
    (((bitsOf w).foldl (Vic.change f true) v).field f = v.field f ||| w) ∧
      ((bitsOf w).foldl (Vic.change f false) v).field f = v.field f &&& ~~~w := by
  constructor
  · obtain ⟨h, -⟩ := Vic.foldChange_spec f true (bitsOf w) v (nodup_bitsOf w) (fun _ => lt_of_mem_bitsOf) _ rfl
    apply BitVec.eq_of_getLsbD_eq
    intro i hi
    rw [h, BitVec.getLsbD_or]
    by_cases hw : w.getLsbD i = true
    · rw [if_pos ⟨rfl, mem_bitsOf.2 ⟨hi, hw⟩⟩, hw, Bool.or_true]
    · rw [if_neg (fun hm => hw (mem_bitsOf.1 hm.2).2), Bool.eq_false_iff.2 hw, Bool.or_false]
  · obtain ⟨h, -⟩ := Vic.foldChange_spec f false (bitsOf w) v (nodup_bitsOf w) (fun _ => lt_of_mem_bitsOf) _ rfl
    apply BitVec.eq_of_getLsbD_eq
    intro i hi
    rw [h, BitVec.getLsbD_and, BitVec.getLsbD_not]
    by_cases hw : w.getLsbD i = true
    · rw [if_pos ⟨rfl, mem_bitsOf.2 ⟨hi, hw⟩⟩, hw, Bool.not_true, Bool.and_false, Bool.and_false]
    · rw [if_neg (fun hm => hw (mem_bitsOf.1 hm.2).2), Bool.eq_false_iff.2 hw, decide_eq_true hi, Bool.not_false,
        Bool.and_self, Bool.and_true]

/-! ## Shape -/

theorem Vic.shapeOk_iff (v : Vic) :
    v.shapeOk = true ↔ v.slots.length = Config.vicSlots ∧ v.addrs.length = Config.vicSlots ∧
      (∀ e ∈ v.queue, VicEntry.ok e = true) ∧ (∀ e ∈ v.stack, VicEntry.ok e = true) ∧ v.queue.Pairwise (fun a b => a.key ≤ b.key) := by
  simp [Vic.shapeOk, keysAscend, and_assoc]

/-- `Purge` keeps the shape, and leaves both ends active. -/
theorem Vic.purge_shapeOk {v : Vic} (h : v.shapeOk = true) : v.purge.shapeOk = true ∧ v.purge.endsActive = true := by
  rw [Vic.shapeOk_iff] at h ⊢
  obtain ⟨k, hk, -, hk'⟩ := v.purge_queue
  obtain ⟨m, hm, -, hm'⟩ := v.purge_stack
  refine ⟨⟨h.1, h.2.1, ?_, ?_, ?_⟩, ?_⟩
  · rw [hk]; exact fun e he => h.2.2.1 e (List.mem_of_mem_drop he)
  · rw [hm]; exact fun e he => h.2.2.2.1 e (List.mem_of_mem_take he)
  · rw [hk]; exact h.2.2.2.2.sublist (List.drop_sublist _ _)
  · simp only [Vic.endsActive, Bool.and_eq_true]
    constructor
    · cases hq : v.purge.queue.head? with
      | none => rfl
      | some e => exact hk' e hq
    · cases hq : v.purge.stack.getLast? with
      | none => rfl
      | some e => exact hm' e hq

theorem VicEntry.ok_key {v : Vic} {L : Nat} (hL : L < 32) : VicEntry.ok { line := L, key := v.key L } = true := by
  have := v.key_ok L
  simp only [VicEntry.ok, Bool.and_eq_true, decide_eq_true_eq]
  exact ⟨hL, this⟩

/-- Changing several lines keeps the shape. -/
theorem Vic.foldChange_shapeOk {f : LineField} {b : Bool} {ls : List Nat} {v : Vic} (hnd : ls.Nodup)
    (hlt : ∀ L ∈ ls, L < 32) (h : v.shapeOk = true) : (ls.foldl (Vic.change f b) v).shapeOk = true := by
  obtain ⟨-, -, -, -, h5, h6, -, h8, h9, -, h11⟩ := Vic.foldChange_spec f b ls v hnd hlt _ rfl
  rw [Vic.shapeOk_iff] at h ⊢
  refine ⟨by rw [h5]; exact h.1, by rw [h6]; exact h.2.1, fun e he => ?_, by rw [h8]; exact h.2.2.2.1, h11 h.2.2.2.2⟩
  rcases List.mem_append.1 (h9.mem_iff.1 he) with he | he
  · exact h.2.2.1 e he
  · obtain ⟨L, hL, rfl⟩ := List.mem_map.1 he
    exact VicEntry.ok_key (hlt L (List.mem_filter.1 hL).1)

theorem Vic.reset_shapeOk (q : VicParams) : (Vic.reset q).shapeOk = true := by
  simp [Vic.shapeOk_iff, Vic.reset]

end Sys2Proof.Machine
end

