-- ==== Sys2Proof/Tests/Slice0.lean ====
section
/-! SUPPORT. Tests: ill-formed terms that well-formedness refuses, one event tuple per row written out from the register maps
of 30_encoding.md, one or two single steps per instruction with results taken from 95_test_vectors.md, and for each statement
with hypotheses a witness that meets them. -/

namespace Sys2Proof.Tests

open Sys2Proof Sys2Proof.Machine Sys2Proof.Claims

/-! ## Well-formedness refuses -/

/-- Refused: there is one external line. -/
theorem test_ill_formed_line_missing : (.slSet (.ext 1) true : Instr).wellFormed Config.resetPlatform = false := by decide

/-- Refused: an output is set by its controller only. -/
theorem test_ill_formed_line_output_set : (.slSet (.out 0 0) true : Instr).wellFormed Config.resetPlatform = false := by decide

/-- Refused: the same. -/
theorem test_ill_formed_line_output_set_true : (.slSetTrue (.out 0 0) : Instr).wellFormed Config.resetPlatform = false := by decide

/-- Refused: the same. -/
theorem test_ill_formed_line_output_unset : (.slUnset (.out 0 0) : Instr).wellFormed Config.resetPlatform = false := by decide

/-- Refused: the same. -/
theorem test_ill_formed_line_output_blink : (.slBlink (.out 0 0) : Instr).wellFormed Config.resetPlatform = false := by decide

/-- Refused: the PLIC has one output. -/
theorem test_ill_formed_query_missing_output : (.slQuery (.out 0 1) : Instr).wellFormed Config.resetPlatform = false := by decide

/-- Refused: there are four instances. -/
theorem test_ill_formed_instance_missing : (.plicReset 4 : Instr).wellFormed Config.resetPlatform = false := by decide

/-- Refused: instance 1 is the VIC. -/
theorem test_ill_formed_instance_of_other_kind : (.plicReset 1 : Instr).wellFormed Config.resetPlatform = false := by decide

/-- Refused: source 0 is no input. -/
theorem test_ill_formed_plic_input_zero : (.plicOnGpio 0 0 true : Instr).wellFormed Config.resetPlatform = false := by decide

/-- Refused: source 1 is an input. -/
theorem test_ill_formed_plic_input_in_range : (.plicOnGpioOutOfRange 0 1 true : Instr).wellFormed Config.resetPlatform = false := by decide

/-- Refused: sources are 0 to 3. -/
theorem test_ill_formed_plic_priority_past_end : (.plicPriorityWrite 0 4 0 : Instr).wellFormed Config.resetPlatform = false := by decide

/-- Refused: sources are 0 to 3. -/
theorem test_ill_formed_plic_priority_read_past_end : (.plicPriorityRead 0 4 : Instr).wellFormed Config.resetPlatform = false := by decide

/-- Refused: there is one target. -/
theorem test_ill_formed_plic_enable_target : (.plicEnableWrite 0 1 0 0 : Instr).wellFormed Config.resetPlatform = false := by decide

/-- Refused: words are 0 to 31. -/
theorem test_ill_formed_plic_enable_word : (.plicEnableRead 0 0 32 : Instr).wellFormed Config.resetPlatform = false := by decide

/-- Refused: there is one target. -/
theorem test_ill_formed_plic_claim_target : (.plicClaimRead 0 1 : Instr).wellFormed Config.resetPlatform = false := by decide

/-- Refused: there is one target. -/
theorem test_ill_formed_plic_complete_target : (.plicCompleteWrite 0 1 1 : Instr).wellFormed Config.resetPlatform = false := by decide

/-- Refused: lines are 0 to 31. -/
theorem test_ill_formed_vic_line : (.vicOnGpio 1 32 true : Instr).wellFormed Config.resetPlatform = false := by decide

/-- Refused: line 31 is an input. -/
theorem test_ill_formed_vic_line_in_range : (.vicOnGpioOutOfRange 1 31 true : Instr).wellFormed Config.resetPlatform = false := by decide

/-- Refused: instance 0 is the PLIC. -/
theorem test_ill_formed_vic_kind : (.vicIrqStatusRead 0 : Instr).wellFormed Config.resetPlatform = false := by decide

/-- Refused: slots are 0 to 15. -/
theorem test_ill_formed_vic_slot : (.vicVectCntlWrite 1 16 0 : Instr).wellFormed Config.resetPlatform = false := by decide

/-- Refused: slots are 0 to 15. -/
theorem test_ill_formed_vic_addr_slot : (.vicVectAddrNRead 1 16 : Instr).wellFormed Config.resetPlatform = false := by decide

/-- Refused: line 8 is not configurable. -/
theorem test_ill_formed_exti_direct_as_configurable : (.extiOnGpioConfigurable 2 8 true : Instr).wellFormed Config.resetPlatform = false := by decide

/-- Refused: line 7 is configurable. -/
theorem test_ill_formed_exti_configurable_as_direct : (.extiOnGpioDirect 2 7 true : Instr).wellFormed Config.resetPlatform = false := by decide

/-- Refused: line 8 is direct here. -/
theorem test_ill_formed_exti_not_dropped : (.extiOnGpioDropped 2 8 true : Instr).wellFormed Config.resetPlatform = false := by decide

/-- Refused: line 15 exists. -/
theorem test_ill_formed_exti_in_range : (.extiOnGpioOutOfRange 2 15 true : Instr).wellFormed Config.resetPlatform = false := by decide

/-- Refused: instance 3 is the INTMUX. -/
theorem test_ill_formed_exti_kind : (.extiPrWrite 3 1 : Instr).wellFormed Config.resetPlatform = false := by decide

/-- Refused: no negative source. -/
theorem test_ill_formed_mux_source : (.muxOnGpio 3 (-1) true : Instr).wellFormed Config.resetPlatform = false := by decide

/-- Refused: source 0 is an input. -/
theorem test_ill_formed_mux_source_in_range : (.muxOnGpioOutOfRange 3 0 true : Instr).wellFormed Config.resetPlatform = false := by decide

/-- Refused: channels are 0 and 1. -/
theorem test_ill_formed_mux_channel : (.muxIerWrite 3 2 0 : Instr).wellFormed Config.resetPlatform = false := by decide

/-- Refused: bit 0 set is the channel reset. -/
theorem test_ill_formed_mux_mode_write_with_reset_bit : (.muxCsrModeWrite 3 0 1 : Instr).wellFormed Config.resetPlatform = false := by decide

/-- Refused: bit 0 clear is the mode write. -/
theorem test_ill_formed_mux_reset_write_without_reset_bit : (.muxCsrResetWrite 3 0 2 : Instr).wellFormed Config.resetPlatform = false := by decide

/-- Refused: a register stands there. -/
theorem test_ill_formed_unhandled_at_register : (.anyUnhandledRead 1 0x030 : Instr).wellFormed Config.resetPlatform = false := by decide

/-- Refused: no multiple of four. -/
theorem test_ill_formed_unhandled_misaligned : (.anyUnhandledRead 1 0x022 : Instr).wellFormed Config.resetPlatform = false := by decide

/-- Refused: at `Size`. -/
theorem test_ill_formed_unhandled_outside_window : (.anyUnhandledWrite 1 0x1000 0 : Instr).wellFormed Config.resetPlatform = false := by decide

/-- Refused: INTENABLE can be written. -/
theorem test_ill_formed_readonly_at_writable : (.anyReadonlyWrite 1 0x010 0 : Instr).wellFormed Config.resetPlatform = false := by decide

/-! ## Refused event tuples -/

/-- 20_memory.md R74: an 8-bit and a 16-bit access. -/
theorem test_decode_narrow :
    decode Config.resetPlatform (.memRead 0 0x200004 1) = .error (.narrowAccess 1) ∧
      decode Config.resetPlatform (.memWrite 1 0x010 2 0) = .error (.narrowAccess 2) := by decide

/-- R74: a misaligned access. -/
theorem test_decode_misaligned : decode Config.resetPlatform (.memRead 0 0x000006 4) = .error (.misaligned 6) := by decide

/-- R71: at `Size` the access never reaches the controller; just below it, it does. -/
theorem test_decode_window :
    decode Config.resetPlatform (.memRead 3 0x80 4) = .error (.outsideWindow 0x80) ∧
      decode Config.resetPlatform (.memRead 3 0x7C 4) = .ok (.anyUnhandledRead 3 0x7C) := by decide

/-- 10_state.md R26: an output line is not set from outside; an instance and a line that do not exist. -/
theorem test_decode_not_owner :
    decode Config.resetPlatform (.slSet (.out 0 0) true) = .error (.notOwner (.out 0 0)) ∧
      decode Config.resetPlatform (.slBlink (.ext 1)) = .error (.noSuchLine (.ext 1)) ∧
      decode Config.resetPlatform (.evReset 4) = .error (.noSuchController 4) := by decide

/-! ## Every row decodes -/

/-- An EXTI that drops events of lines that are not configurable (V-EXTI-5). -/
def droppingPlatform : Platform where
  ctrls := [.exti { numLines := 16, configurableMask := 0x00FF, treatNonconfigAsDirect := false, directIgnoresMask := true }]
  numLines := 0

/-- R141: `SL_SET` of the external line. -/
theorem test_decode_slSet :
    decode Config.resetPlatform (.slSet (.ext 0) true) = .ok (.slSet (.ext 0) true) := by decide

/-- R142: `Set()` has the tuple of `Set(true)`. -/
theorem test_decode_slSetTrue :
    decode Config.resetPlatform (.slSet (.ext 0) true) = .ok (.slSet (.ext 0) true) := by decide

/-- R142: `Unset()` has the tuple of `Set(false)`. -/
theorem test_decode_slUnset :
    decode Config.resetPlatform (.slSet (.ext 0) false) = .ok (.slSet (.ext 0) false) := by decide

/-- R144. -/
theorem test_decode_slBlink :
    decode Config.resetPlatform (.slBlink (.ext 0)) = .ok (.slBlink (.ext 0)) := by decide

/-- R145, of an output line. -/
theorem test_decode_slQuery :
    decode Config.resetPlatform (.slQuery (.out 3 1)) = .ok (.slQuery (.out 3 1)) := by decide

/-- R161, the greatest source. -/
theorem test_decode_plicOnGpio :
    decode Config.resetPlatform (.evGpio 0 3 true) = .ok (.plicOnGpio 0 3 true) := by decide

/-- R162, V-PLIC-13. -/
theorem test_decode_plicOnGpioOutOfRange :
    decode Config.resetPlatform (.evGpio 0 0 true) = .ok (.plicOnGpioOutOfRange 0 0 true) := by decide

/-- R110, P1: PRIORITY[3] at 0x00000C. -/
theorem test_decode_plicPriorityWrite :
    decode Config.resetPlatform (.memWrite 0 0x0000000C 4 2) = .ok (.plicPriorityWrite 0 3 2) := by decide

/-- R110, V-PLIC-5: PRIORITY[2] at 0x000008. -/
theorem test_decode_plicPriorityRead :
    decode Config.resetPlatform (.memRead 0 0x00000008 4) = .ok (.plicPriorityRead 0 2) := by decide

/-- R110, V-PLIC-6: ENABLE[0][1] at 0x002004. -/
theorem test_decode_plicEnableWrite :
    decode Config.resetPlatform (.memWrite 0 0x00002004 4 1) = .ok (.plicEnableWrite 0 0 1 1) := by decide

/-- R110: the last ENABLE word of target 0. -/
theorem test_decode_plicEnableRead :
    decode Config.resetPlatform (.memRead 0 0x0000207C 4) = .ok (.plicEnableRead 0 0 31) := by decide

/-- R110, T1: CLAIMCOMPLETE[0] at 0x200004. -/
theorem test_decode_plicClaimRead :
    decode Config.resetPlatform (.memRead 0 0x00200004 4) = .ok (.plicClaimRead 0 0) := by decide

/-- R110, T2. -/
theorem test_decode_plicCompleteWrite :
    decode Config.resetPlatform (.memWrite 0 0x00200004 4 1) = .ok (.plicCompleteWrite 0 0 1) := by decide

/-- R401. -/
theorem test_decode_plicReset :
    decode Config.resetPlatform (.evReset 0) = .ok (.plicReset 0) := by decide

/-- R202, the greatest line. -/
theorem test_decode_vicOnGpio :
    decode Config.resetPlatform (.evGpio 1 31 true) = .ok (.vicOnGpio 1 31 true) := by decide

/-- R203, V-VIC-8. -/
theorem test_decode_vicOnGpioOutOfRange :
    decode Config.resetPlatform (.evGpio 1 32 true) = .ok (.vicOnGpioOutOfRange 1 32 true) := by decide

/-- R116: 0x000. -/
theorem test_decode_vicIrqStatusRead :
    decode Config.resetPlatform (.memRead 1 0x000 4) = .ok (.vicIrqStatusRead 1) := by decide

/-- R116: 0x004. -/
theorem test_decode_vicFiqStatusRead :
    decode Config.resetPlatform (.memRead 1 0x004 4) = .ok (.vicFiqStatusRead 1) := by decide

/-- R116: 0x008. -/
theorem test_decode_vicRawIntrRead :
    decode Config.resetPlatform (.memRead 1 0x008 4) = .ok (.vicRawIntrRead 1) := by decide

/-- R116: 0x00C. -/
theorem test_decode_vicIntSelectRead :
    decode Config.resetPlatform (.memRead 1 0x00C 4) = .ok (.vicIntSelectRead 1) := by decide

/-- R116, V-VIC-3. -/
theorem test_decode_vicIntSelectWrite :
    decode Config.resetPlatform (.memWrite 1 0x00C 4 1) = .ok (.vicIntSelectWrite 1 1) := by decide

/-- R116: 0x010. -/
theorem test_decode_vicIntEnableRead :
    decode Config.resetPlatform (.memRead 1 0x010 4) = .ok (.vicIntEnableRead 1) := by decide

/-- R116, T7. -/
theorem test_decode_vicIntEnableWrite :
    decode Config.resetPlatform (.memWrite 1 0x010 4 0x288) = .ok (.vicIntEnableWrite 1 0x288) := by decide

/-- R116: 0x014. -/
theorem test_decode_vicIntEnClearRead :
    decode Config.resetPlatform (.memRead 1 0x014 4) = .ok (.vicIntEnClearRead 1) := by decide

/-- R116, V-VIC-12. -/
theorem test_decode_vicIntEnClearWrite :
    decode Config.resetPlatform (.memWrite 1 0x014 4 8) = .ok (.vicIntEnClearWrite 1 8) := by decide

/-- R116: 0x018. -/
theorem test_decode_vicSoftIntRead :
    decode Config.resetPlatform (.memRead 1 0x018 4) = .ok (.vicSoftIntRead 1) := by decide

/-- R116, V-VIC-4. -/
theorem test_decode_vicSoftIntWrite :
    decode Config.resetPlatform (.memWrite 1 0x018 4 0x10) = .ok (.vicSoftIntWrite 1 0x10) := by decide

/-- R116: 0x01C. -/
theorem test_decode_vicSoftIntClearRead :
    decode Config.resetPlatform (.memRead 1 0x01C 4) = .ok (.vicSoftIntClearRead 1) := by decide

/-- R116, V-VIC-4. -/
theorem test_decode_vicSoftIntClearWrite :
    decode Config.resetPlatform (.memWrite 1 0x01C 4 0x10) = .ok (.vicSoftIntClearWrite 1 0x10) := by decide

/-- R116, T7: VECTADDR at 0x030. -/
theorem test_decode_vicVectAddrRead :
    decode Config.resetPlatform (.memRead 1 0x030 4) = .ok (.vicVectAddrRead 1) := by decide

/-- R116, T7. -/
theorem test_decode_vicVectAddrWrite :
    decode Config.resetPlatform (.memWrite 1 0x030 4 0) = .ok (.vicVectAddrWrite 1 0) := by decide

/-- R116: 0x034. -/
theorem test_decode_vicDefVectAddrRead :
    decode Config.resetPlatform (.memRead 1 0x034 4) = .ok (.vicDefVectAddrRead 1) := by decide

/-- R116, T7. -/
theorem test_decode_vicDefVectAddrWrite :
    decode Config.resetPlatform (.memWrite 1 0x034 4 0x3000) = .ok (.vicDefVectAddrWrite 1 0x3000) := by decide

/-- R116: VECTADDRn[15] at 0x13C. -/
theorem test_decode_vicVectAddrNRead :
    decode Config.resetPlatform (.memRead 1 0x13C 4) = .ok (.vicVectAddrNRead 1 15) := by decide

/-- R116, T7: VECTADDRn[2] at 0x108. -/
theorem test_decode_vicVectAddrNWrite :
    decode Config.resetPlatform (.memWrite 1 0x108 4 0x1000) = .ok (.vicVectAddrNWrite 1 2 0x1000) := by decide

/-- R116: VECTCNTL[15] at 0x23C. -/
theorem test_decode_vicVectCntlRead :
    decode Config.resetPlatform (.memRead 1 0x23C 4) = .ok (.vicVectCntlRead 1 15) := by decide

/-- R116, T7: VECTCNTL[2] at 0x208. -/
theorem test_decode_vicVectCntlWrite :
    decode Config.resetPlatform (.memWrite 1 0x208 4 0x27) = .ok (.vicVectCntlWrite 1 2 0x27) := by decide

/-- R401. -/
theorem test_decode_vicReset :
    decode Config.resetPlatform (.evReset 1) = .ok (.vicReset 1) := by decide

/-- R251, the last line of the mask 0x00FF. -/
theorem test_decode_extiOnGpioConfigurable :
    decode Config.resetPlatform (.evGpio 2 7 false) = .ok (.extiOnGpioConfigurable 2 7 false) := by decide

/-- R251, V-EXTI-4. -/
theorem test_decode_extiOnGpioDirect :
    decode Config.resetPlatform (.evGpio 2 8 true) = .ok (.extiOnGpioDirect 2 8 true) := by decide

/-- R251, R256, V-EXTI-5: with `TREAT_NONCONFIG_AS_DIRECT = false`. -/
theorem test_decode_extiOnGpioDropped :
    decode droppingPlatform (.evGpio 0 8 true) = .ok (.extiOnGpioDropped 0 8 true) := by decide

/-- R252, V-EXTI-5. -/
theorem test_decode_extiOnGpioOutOfRange :
    decode Config.resetPlatform (.evGpio 2 16 true) = .ok (.extiOnGpioOutOfRange 2 16 true) := by decide

/-- R124: 0x00. -/
theorem test_decode_extiImrRead :
    decode Config.resetPlatform (.memRead 2 0x00 4) = .ok (.extiImrRead 2) := by decide

/-- R124, T4. -/
theorem test_decode_extiImrWrite :
    decode Config.resetPlatform (.memWrite 2 0x00 4 1) = .ok (.extiImrWrite 2 1) := by decide

/-- R124: 0x08. -/
theorem test_decode_extiRtsrRead :
    decode Config.resetPlatform (.memRead 2 0x08 4) = .ok (.extiRtsrRead 2) := by decide

/-- R124, T4. -/
theorem test_decode_extiRtsrWrite :
    decode Config.resetPlatform (.memWrite 2 0x08 4 1) = .ok (.extiRtsrWrite 2 1) := by decide

/-- R124: 0x0C. -/
theorem test_decode_extiFtsrRead :
    decode Config.resetPlatform (.memRead 2 0x0C 4) = .ok (.extiFtsrRead 2) := by decide

/-- R124, V-EXTI-2. -/
theorem test_decode_extiFtsrWrite :
    decode Config.resetPlatform (.memWrite 2 0x0C 4 2) = .ok (.extiFtsrWrite 2 2) := by decide

/-- R124: 0x10. -/
theorem test_decode_extiSwierRead :
    decode Config.resetPlatform (.memRead 2 0x10 4) = .ok (.extiSwierRead 2) := by decide

/-- R124, V-EXTI-3. -/
theorem test_decode_extiSwierWrite :
    decode Config.resetPlatform (.memWrite 2 0x10 4 0x103) = .ok (.extiSwierWrite 2 0x103) := by decide

/-- R124: 0x14. -/
theorem test_decode_extiPrRead :
    decode Config.resetPlatform (.memRead 2 0x14 4) = .ok (.extiPrRead 2) := by decide

/-- R124, T4. -/
theorem test_decode_extiPrWrite :
    decode Config.resetPlatform (.memWrite 2 0x14 4 1) = .ok (.extiPrWrite 2 1) := by decide

/-- R401. -/
theorem test_decode_extiReset :
    decode Config.resetPlatform (.evReset 2) = .ok (.extiReset 2) := by decide

/-- R291, the greatest source. -/
theorem test_decode_muxOnGpio :
    decode Config.resetPlatform (.evGpio 3 31 true) = .ok (.muxOnGpio 3 31 true) := by decide

/-- R292, V-MUX-7. -/
theorem test_decode_muxOnGpioOutOfRange :
    decode Config.resetPlatform (.evGpio 3 32 true) = .ok (.muxOnGpioOutOfRange 3 32 true) := by decide

/-- R128: CSR[1] at 0x40. -/
theorem test_decode_muxCsrRead :
    decode Config.resetPlatform (.memRead 3 0x40 4) = .ok (.muxCsrRead 3 1) := by decide

/-- R128, R129, T6: bit 0 clear. -/
theorem test_decode_muxCsrModeWrite :
    decode Config.resetPlatform (.memWrite 3 0x00 4 2) = .ok (.muxCsrModeWrite 3 0 2) := by decide

/-- R128, R129, V-MUX-3: bit 0 set. -/
theorem test_decode_muxCsrResetWrite :
    decode Config.resetPlatform (.memWrite 3 0x40 4 3) = .ok (.muxCsrResetWrite 3 1 3) := by decide

/-- R128: VEC[1] at 0x44. -/
theorem test_decode_muxVecRead :
    decode Config.resetPlatform (.memRead 3 0x44 4) = .ok (.muxVecRead 3 1) := by decide

/-- R128: IER[1] at 0x50. -/
theorem test_decode_muxIerRead :
    decode Config.resetPlatform (.memRead 3 0x50 4) = .ok (.muxIerRead 3 1) := by decide

/-- R128, T6: IER[0] at 0x10. -/
theorem test_decode_muxIerWrite :
    decode Config.resetPlatform (.memWrite 3 0x10 4 7) = .ok (.muxIerWrite 3 0 7) := by decide

/-- R128: IPR[1] at 0x60. -/
theorem test_decode_muxIprRead :
    decode Config.resetPlatform (.memRead 3 0x60 4) = .ok (.muxIprRead 3 1) := by decide

/-- R401. -/
theorem test_decode_muxReset :
    decode Config.resetPlatform (.evReset 3) = .ok (.muxReset 3) := by decide

/-- R79, V-PLIC-10: no pending array. -/
theorem test_decode_anyUnhandledRead :
    decode Config.resetPlatform (.memRead 0 0x001000 4) = .ok (.anyUnhandledRead 0 0x1000) := by decide

/-- R79, V-PLIC-10: ENABLE[1][0] with one target. -/
theorem test_decode_anyUnhandledWrite :
    decode Config.resetPlatform (.memWrite 0 0x00002080 4 2) = .ok (.anyUnhandledWrite 0 0x2080 2) := by decide

/-- R117, V-VIC-10: IRQSTATUS. -/
theorem test_decode_anyReadonlyWrite :
    decode Config.resetPlatform (.memWrite 1 0x000 4 0xFFFFFFFF) = .ok (.anyReadonlyWrite 1 0 0xFFFFFFFF) := by decide

/-! ## One step -/

/-- A platform of one controller whose output `i` drives outside receiver `i`; the outputs listed are high. -/
def alone (k : Core) (high : List Nat) : State where
  ctrls := [
    { base := 0, core := k, trace := []
      outs := (List.range k.params.numOutputs).map (fun i =>
        { level := high.contains i, receivers := [{ receiver := .outside i, number := 0 }] }) }]
  lines := []
  inbox := []
  reply := none
  callbacks := []

/-- A platform of one external line that drives outside receiver 5. -/
def lineAlone (level : Bool) : State where
  ctrls := []
  lines := [{ level := level, receivers := [{ receiver := .outside 5, number := 0 }] }]
  inbox := []
  reply := none
  callbacks := []

/-- The state one event leads to. -/
def next? (o : Host.Outcome State Fault Refusal) : Option State :=
  match o with
  | .next t => some t
  | _ => none

/-- One step on one event. -/
def after? (s : State) (e : Event) : Option State := next? (step { s with inbox := [e] })

/-- What the event returned; the controller's state; the callbacks made; the records added. -/
def replyOf (s : State) (e : Event) : Option Reply := (after? s e).bind State.reply
def coreOf (s : State) (e : Event) : Option Core := ((after? s e).bind (fun t => t.ctrls[0]?)).map Ctrl.core
def heard (s : State) (e : Event) : Option (List (Nat × Bool)) :=
  (after? s e).map (fun t => (t.callbacks.drop s.callbacks.length).map (fun a => (a.receiver, a.value)))
def diagsOf (s : State) (e : Event) : Option (List (Severity × Nat × DiagInfo)) :=
  ((after? s e).bind (fun t => t.ctrls[0]?)).map (fun x => x.trace.map (fun d => (d.severity, d.cause.code, d.info)))

def p0 : Plic := Plic.reset { numSources := 4, numTargets := 1, prioritiesEnabled := true }
def v0 : Vic := Vic.reset { tie := 0 }
def e0 : Exti :=
  Exti.reset { numLines := 16, configurableMask := 0xFF, treatNonconfigAsDirect := true, directIgnoresMask := false }
def m0 : Mux := Mux.reset { numChannels := 2, muxSources := 32 }

/-- A pending, asserted source of the given priority; and one claimed while asserted. -/
def pend (pr : Word) : PlicSrc := { priority := pr, state := true, isPending := true }
def held (pr : Word) : PlicSrc := { priority := pr, state := true, isPending := false }
def idle : PlicSrc := { priority := 1, state := false, isPending := false }

/-- The PLIC with given sources 1 to 3, enabled sources 1 to 3 and stack. -/
def plicOf (srcs : List PlicSrc) (en : List Bool) (stack : List Nat) : Plic :=
  { p0 with srcs := srcs, tgts := [{ enabled := en, inService := stack }] }

/-- The VIC after prelude V of 95_test_vectors.md: line 7 in slot 2, line 3 in slot 5, line 9 in none, all three enabled. -/
def vV : Vic :=
  { v0 with
    enabled := 0x288
    defVectAddr := 0x3000
    slots := (v0.slots.set 2 { enable := true, source := 7 }).set 5 { enable := true, source := 3 }
    addrs := (v0.addrs.set 2 0x1000).set 5 0x2000 }

/-- INT_MAX, the key of an unvectored line. -/
def unvectored : Nat := 2147483647

/-- V-ACC-1: the access modes on a field 4 bits wide. -/
theorem test_access_modes :
    [AccessMode.write, .toggle, .writeOneToClear, .writeZeroToClear, .set, .read].map
      (fun m => m.after (0b1100 : BitVec 4) 0b1010) = [0b1010, 0b0110, 0b0100, 0b1000, 0b1110, 0b1100] := by decide

/-! ### Signal Line -/

/-- V-SL-1, V-SL-5: a change calls back once, with the new value. -/
theorem test_set_changes : heard (lineAlone false) (.slSet (.ext 0) true) = some [(5, true)] := by decide

/-- V-SL-1: the level the line has already. -/
theorem test_set_same : heard (lineAlone true) (.slSet (.ext 0) true) = some [] := by decide

/-- R142: `Set()` is `Set(true)`. -/
theorem test_setTrue :
    (next? (exec (.slSetTrue (.ext 0)) (lineAlone false))).map State.callbacks =
      some [{ receiver := 5, number := 0, value := true }] := by decide

/-- R142: `Unset()` is `Set(false)`. -/
theorem test_unset :
    (next? (exec (.slUnset (.ext 0)) (lineAlone true))).map State.callbacks =
      some [{ receiver := 5, number := 0, value := false }] := by decide

/-- V-SL-2: a blink of a low line. -/
theorem test_blink_low : heard (lineAlone false) (.slBlink (.ext 0)) = some [(5, true), (5, false)] := by decide

/-- V-SL-2: a blink of a high line. -/
theorem test_blink_high : heard (lineAlone true) (.slBlink (.ext 0)) = some [(5, false)] := by decide

/-- R145. -/
theorem test_query : replyOf (lineAlone true) (.slQuery (.ext 0)) = some (.level true) := by decide

/-! ### PLIC -/

/-- V-PLIC-9: a rising input sets `St` and `Pd`; 1 > 1 is false, so the line stays low. -/
theorem test_plic_input_rises :
    coreOf (alone (.plic (plicOf [idle, idle, idle] [true, false, false] [1])) []) (.evGpio 0 1 true) =
        some (.plic (plicOf [pend 1, idle, idle] [true, false, false] [1])) ∧
      heard (alone (.plic (plicOf [idle, idle, idle] [true, false, false] [1])) []) (.evGpio 0 1 true) = some [] := by decide

/-- V-PLIC-9: a falling input keeps `Pd`. -/
theorem test_plic_input_falls :
    coreOf (alone (.plic (plicOf [pend 1, idle, idle] [true, false, false] [1])) []) (.evGpio 0 1 false) =
      some (.plic (plicOf [{ priority := 1, state := false, isPending := true }, idle, idle] [true, false, false] [1])) := by
  decide

/-- V-PLIC-13: source 0 and source 4 of 4 are refused. -/
theorem test_plic_input_refused :
    (match step { alone (.plic p0) [] with inbox := [.evGpio 0 4 true] } with
      | .refused r => some r
      | _ => none) = some (.plicGpioOutOfRange 4) := by decide

/-- V-PLIC-12: the priority in service is read live. -/
theorem test_plic_priority_write :
    heard (alone (.plic (plicOf [idle, pend 1, held 2] [false, true, true] [3])) []) (.memWrite 0 0x00000C 4 0) =
      some [(0, true)] := by decide

/-- V-PLIC-5: source 0. -/
theorem test_plic_priority_write_source0 :
    diagsOf (alone (.plic p0) []) (.memWrite 0 0x000000 4 5) = some [(.warning, 7, .num 5)] := by decide

/-- V-PLIC-5. -/
theorem test_plic_priority_read : replyOf (alone (.plic p0) []) (.memRead 0 0x000008 4) = some (.word 1) := by decide

set_option maxRecDepth 4000 in
/-- V-PLIC-6: bit 0 silent, source 4 of 4 reported. -/
theorem test_plic_enable_write :
    coreOf (alone (.plic p0) []) (.memWrite 0 0x002000 4 0x1F) =
        some (.plic (plicOf [idle, idle, idle] [true, true, true] [])) ∧
      diagsOf (alone (.plic p0) []) (.memWrite 0 0x002000 4 0x1F) = some [(.warning, 9, .num 4)] := by decide

/-- V-PLIC-6. -/
theorem test_plic_enable_read :
    replyOf (alone (.plic (plicOf [idle, idle, idle] [true, true, true] [])) []) (.memRead 0 0x002000 4) =
      some (.word 0xE) := by decide

/-- T1: of equal priorities the lower id, and the line falls. -/
theorem test_plic_claim_tie :
    replyOf (alone (.plic (plicOf [pend 1, idle, pend 1] [true, false, true] [])) [0]) (.memRead 0 0x200004 4) =
        some (.word 1) ∧
      heard (alone (.plic (plicOf [pend 1, idle, pend 1] [true, false, true] [])) [0]) (.memRead 0 0x200004 4) =
        some [(0, false)] := by decide

/-- P1: the higher priority first. -/
theorem test_plic_claim_priority :
    coreOf (alone (.plic (plicOf [idle, pend 1, pend 2] [false, true, true] [])) [0]) (.memRead 0 0x200004 4) =
      some (.plic (plicOf [idle, pend 1, held 2] [false, true, true] [3])) := by decide

/-- T2: still asserted, so pending again, and the line rises. -/
theorem test_plic_complete_rearms :
    coreOf (alone (.plic (plicOf [held 1, idle, idle] [true, false, false] [1])) []) (.memWrite 0 0x200004 4 1) =
        some (.plic (plicOf [pend 1, idle, idle] [true, false, false] [])) ∧
      heard (alone (.plic (plicOf [held 1, idle, idle] [true, false, false] [1])) []) (.memWrite 0 0x200004 4 1) =
        some [(0, true)] := by decide

/-- V-PLIC-8: not the top of the stack. -/
theorem test_plic_complete_mismatch :
    diagsOf (alone (.plic (plicOf [held 1, held 5, idle] [true, true, false] [1, 2])) []) (.memWrite 0 0x200004 4 1) =
      some [(.error, 6, .pair 1 2)] := by decide

/-- T5. -/
theorem test_plic_reset :
    coreOf (alone (.plic (plicOf [pend 7, idle, idle] [true, false, false] [])) [0]) (.evReset 0) = some (.plic p0) ∧
      heard (alone (.plic (plicOf [pend 7, idle, idle] [true, false, false] [])) [0]) (.evReset 0) = some [(0, false)] := by
  decide

/-! ### VIC -/

/-- T7: the more urgent line goes in front. -/
theorem test_vic_input_sorts :
    coreOf (alone (.vic { vV with pinState := 0x208, queue := [{ line := 3, key := 5 }, { line := 9, key := unvectored }] })
        [0]) (.evGpio 0 7 true) =
      some (.vic { vV with
        pinState := 0x288
        queue := [{ line := 7, key := 2 }, { line := 3, key := 5 }, { line := 9, key := unvectored }] }) := by decide

/-- V-VIC-5: a silenced line leaves the top of the stack. -/
theorem test_vic_input_purges :
    coreOf (alone (.vic { vV with pinState := 0x80, stack := [{ line := 7, key := 2 }] }) []) (.evGpio 0 7 false) =
      some (.vic vV) := by decide

/-- V-VIC-8. -/
theorem test_vic_input_out_of_range :
    diagsOf (alone (.vic v0) []) (.evGpio 0 32 true) = some [(.error, 2, .num 32)] := by decide

/-- V-VIC-4 and V-VIC-12: the views of one active line. -/
theorem test_vic_status_reads :
    replyOf (alone (.vic { v0 with enabled := 0x10, softState := 0x10 }) [0]) (.memRead 0 0x000 4) = some (.word 0x10) ∧
      replyOf (alone (.vic { v0 with pinState := 8 }) []) (.memRead 0 0x008 4) = some (.word 8) ∧
      replyOf (alone (.vic { v0 with pinState := 8 }) []) (.memRead 0 0x000 4) = some (.word 0) := by decide

/-- V-VIC-3: an active FIQ line shows in `FIQSTATUS` and not in `IRQSTATUS`. -/
theorem test_vic_fiq_status_reads :
    replyOf (alone (.vic { v0 with enabled := 1, isFiq := 1, pinState := 1 }) [1]) (.memRead 0 0x004 4) = some (.word 1) ∧
      replyOf (alone (.vic { v0 with enabled := 1, isFiq := 1, pinState := 1 }) [1]) (.memRead 0 0x000 4) = some (.word 0) := by
  decide

/-- V-VIC-3: a FIQ line raises `FIQ` and is not queued. -/
theorem test_vic_fiq_bypass :
    heard (alone (.vic { v0 with enabled := 1, isFiq := 1 }) []) (.evGpio 0 0 true) = some [(1, true)] ∧
      coreOf (alone (.vic { v0 with enabled := 1, isFiq := 1 }) []) (.evGpio 0 0 true) =
        some (.vic { v0 with enabled := 1, isFiq := 1, pinState := 1 }) := by decide

/-- V-VIC-3, R118. -/
theorem test_vic_int_select :
    coreOf (alone (.vic v0) []) (.memWrite 0 0x00C 4 1) = some (.vic { v0 with isFiq := 1 }) ∧
      replyOf (alone (.vic { v0 with isFiq := 1 }) []) (.memRead 0 0x00C 4) = some (.word 1) := by decide

/-- R206: an active line is not reclassified. -/
theorem test_vic_int_select_refused :
    (match step { alone (.vic { v0 with enabled := 8, pinState := 8, queue := [{ line := 3, key := unvectored }] }) [0] with
        inbox := [.memWrite 0 0x00C 4 8] } with
      | .refused r => some r
      | _ => none) = some .vicReclassifiesLiveLine := by decide

/-- V-VIC-12: enabling a line whose pin is high enqueues it. -/
theorem test_vic_enable_write :
    coreOf (alone (.vic { v0 with pinState := 8 }) []) (.memWrite 0 0x010 4 8) =
        some (.vic { v0 with pinState := 8, enabled := 8, queue := [{ line := 3, key := unvectored }] }) ∧
      heard (alone (.vic { v0 with pinState := 8 }) []) (.memWrite 0 0x010 4 8) = some [(0, true)] := by decide

/-- V-VIC-12: zeros leave bits alone, and the register reads back. -/
theorem test_vic_enable_read : replyOf (alone (.vic { v0 with enabled := 8 }) []) (.memRead 0 0x010 4) = some (.word 8) := by
  decide

/-- V-VIC-12: disabling purges. -/
theorem test_vic_enable_clear :
    coreOf (alone (.vic { v0 with pinState := 8, enabled := 8, queue := [{ line := 3, key := unvectored }] }) [0])
        (.memWrite 0 0x014 4 8) = some (.vic { v0 with pinState := 8 }) ∧
      replyOf (alone (.vic { v0 with enabled := 8 }) []) (.memRead 0 0x014 4) = some (.word 0) := by decide

/-- V-VIC-4. -/
theorem test_vic_soft_int :
    coreOf (alone (.vic { v0 with enabled := 0x10 }) []) (.memWrite 0 0x018 4 0x10) =
        some (.vic { v0 with enabled := 0x10, softState := 0x10, queue := [{ line := 4, key := unvectored }] }) ∧
      replyOf (alone (.vic { v0 with softState := 0x10 }) []) (.memRead 0 0x018 4) = some (.word 0x10) := by decide

/-- V-VIC-4: still active through the pin, so nothing moves. -/
theorem test_vic_soft_int_clear :
    heard (alone (.vic { v0 with enabled := 0x10, softState := 0x10, pinState := 0x10, queue := [{ line := 4, key := unvectored }] })
        [0]) (.memWrite 0 0x01C 4 0x10) = some [] ∧
      replyOf (alone (.vic { v0 with softState := 0x10 }) []) (.memRead 0 0x01C 4) = some (.word 0) := by decide

/-- T7: the first acknowledge. -/
theorem test_vic_acknowledge :
    replyOf (alone (.vic { vV with pinState := 0x88, queue := [{ line := 7, key := 2 }, { line := 3, key := 5 }] }) [0])
        (.memRead 0 0x030 4) = some (.word 0x1000) ∧
      coreOf (alone (.vic { vV with pinState := 0x88, queue := [{ line := 7, key := 2 }, { line := 3, key := 5 }] }) [0])
        (.memRead 0 0x030 4) =
        some (.vic { vV with pinState := 0x88, queue := [{ line := 3, key := 5 }], stack := [{ line := 7, key := 2 }] }) := by
  decide

/-- V-VIC-9: the key of the entry is old, the address is of the slot now. -/
theorem test_vic_acknowledge_remapped :
    replyOf (alone (.vic { vV with pinState := 0x80, queue := [{ line := 7, key := unvectored }] }) [0]) (.memRead 0 0x030 4) =
      some (.word 0x1000) := by decide

/-- V-VIC-2: the last finish uncovers the queue. -/
theorem test_vic_finish :
    heard (alone (.vic { vV with
        pinState := 0x208, queue := [{ line := 9, key := unvectored }], stack := [{ line := 3, key := 5 }] }) [])
      (.memWrite 0 0x030 4 0) = some [(0, true)] := by decide

/-- T7: nothing in service. -/
theorem test_vic_finish_nothing :
    diagsOf (alone (.vic v0) []) (.memWrite 0 0x030 4 0) = some [(.warning, 10, .num 0)] := by decide

/-- T7, R211, R122. -/
theorem test_vic_def_vect_addr :
    coreOf (alone (.vic v0) []) (.memWrite 0 0x034 4 0x3000) = some (.vic { v0 with defVectAddr := 0x3000 }) ∧
      replyOf (alone (.vic vV) []) (.memRead 0 0x034 4) = some (.word 0x3000) := by decide

/-- T7, R211, R122. -/
theorem test_vic_vect_addr_n :
    coreOf (alone (.vic v0) []) (.memWrite 0 0x108 4 0x1000) = some (.vic { v0 with addrs := v0.addrs.set 2 0x1000 }) ∧
      replyOf (alone (.vic vV) []) (.memRead 0 0x114 4) = some (.word 0x2000) := by decide

/-- V-VIC-10: reserved bits read 0. -/
theorem test_vic_vect_cntl :
    coreOf (alone (.vic v0) []) (.memWrite 0 0x200 4 0xFFFFFFFF) =
        some (.vic { v0 with slots := v0.slots.set 0 { enable := true, source := 31 } }) ∧
      replyOf (alone (.vic { v0 with slots := v0.slots.set 0 { enable := true, source := 31 } }) []) (.memRead 0 0x200 4) =
        some (.word 0x3F) := by decide

/-- V-VIC-11: of two slots that name a line the lowest is its vector. -/
theorem test_vic_lowest_slot :
    Vic.vectorId { v0 with slots := (v0.slots.set 4 { enable := true, source := 6 }).set 1 { enable := true, source := 6 } } 6 =
      some 1 := by decide

/-- V-RST-2. -/
theorem test_vic_reset :
    coreOf (alone (.vic { vV with enabled := 1, isFiq := 1, pinState := 1 }) [1]) (.evReset 0) = some (.vic v0) ∧
      heard (alone (.vic { vV with enabled := 1, isFiq := 1, pinState := 1 }) [1]) (.evReset 0) = some [(1, false)] := by decide

/-! ### EXTI -/

/-- V-EXTI-2: a falling edge. -/
theorem test_exti_falling :
    coreOf (alone (.exti { e0 with ftsr := 2, imr := 2 }) []) (.evGpio 0 1 false) =
        some (.exti { e0 with ftsr := 2, imr := 2, pr := 2 }) ∧
      heard (alone (.exti { e0 with ftsr := 2, imr := 2 }) []) (.evGpio 0 1 false) = some [(1, true)] := by decide

/-- V-EXTI-2: a masked edge is lost. -/
theorem test_exti_masked :
    coreOf (alone (.exti { e0 with rtsr := 1 }) []) (.evGpio 0 0 true) = some (.exti { e0 with rtsr := 1 }) := by decide

/-- V-EXTI-4: a direct line passes through, and `PR` stays 0. -/
theorem test_exti_direct :
    heard (alone (.exti { e0 with imr := 0x100 }) []) (.evGpio 0 8 true) = some [(8, true)] ∧
      coreOf (alone (.exti { e0 with imr := 0x100 }) []) (.evGpio 0 8 true) = some (.exti { e0 with imr := 0x100 }) := by decide

/-- V-EXTI-4: masked, it is dropped and the output stays high. -/
theorem test_exti_direct_masked : heard (alone (.exti e0) [8]) (.evGpio 0 8 false) = some [] := by decide

/-- V-EXTI-5. -/
theorem test_exti_dropped :
    diagsOf (alone (.exti (Exti.reset { e0.params with treatNonconfigAsDirect := false })) []) (.evGpio 0 8 true) =
      some [(.error, 2, .num 8)] := by decide

/-- V-EXTI-5. -/
theorem test_exti_out_of_range : diagsOf (alone (.exti e0) []) (.evGpio 0 16 true) = some [(.error, 2, .num 16)] := by decide

/-- V-EXTI-6: bits of lines that do not exist. -/
theorem test_exti_imr :
    coreOf (alone (.exti e0) []) (.memWrite 0 0x00 4 0xFFFFFFFF) = some (.exti { e0 with imr := 0xFFFF }) ∧
      replyOf (alone (.exti { e0 with imr := 0xFFFF }) []) (.memRead 0 0x00 4) = some (.word 0xFFFF) := by decide

/-- V-EXTI-6: bits of lines that are not configurable. -/
theorem test_exti_rtsr :
    coreOf (alone (.exti e0) []) (.memWrite 0 0x08 4 0xFFFFFFFF) = some (.exti { e0 with rtsr := 0xFF }) ∧
      replyOf (alone (.exti { e0 with rtsr := 0xFF }) []) (.memRead 0 0x08 4) = some (.word 0xFF) := by decide

/-- R257 on `FTSR`. -/
theorem test_exti_ftsr :
    coreOf (alone (.exti e0) []) (.memWrite 0 0x0C 4 0x102) = some (.exti { e0 with ftsr := 2 }) ∧
      replyOf (alone (.exti { e0 with ftsr := 2 }) []) (.memRead 0 0x0C 4) = some (.word 2) := by decide

/-- V-EXTI-3. -/
theorem test_exti_swier :
    coreOf (alone (.exti { e0 with imr := 0x102 }) []) (.memWrite 0 0x10 4 0x103) =
        some (.exti { e0 with imr := 0x102, pr := 2 }) ∧
      heard (alone (.exti { e0 with imr := 0x102 }) []) (.memWrite 0 0x10 4 0x103) = some [(1, true)] ∧
      replyOf (alone (.exti { e0 with imr := 0x102, pr := 2 }) [1]) (.memRead 0 0x10 4) = some (.word 0) := by decide

/-- T4: write one to clear. -/
theorem test_exti_pr :
    coreOf (alone (.exti { e0 with imr := 1, rtsr := 1, pr := 1 }) [0]) (.memWrite 0 0x14 4 1) =
        some (.exti { e0 with imr := 1, rtsr := 1 }) ∧
      heard (alone (.exti { e0 with imr := 1, rtsr := 1, pr := 1 }) [0]) (.memWrite 0 0x14 4 1) = some [(0, false)] ∧
      replyOf (alone (.exti { e0 with pr := 1 }) [0]) (.memRead 0 0x14 4) = some (.word 1) := by decide

/-- V-EXTI-4: a reserved bit of `PR` moves nothing. -/
theorem test_exti_pr_reserved : heard (alone (.exti e0) [8]) (.memWrite 0 0x14 4 0x100) = some [] := by decide

/-- V-RST-3. -/
theorem test_exti_reset :
    coreOf (alone (.exti { e0 with imr := 1, rtsr := 1, pr := 1 }) [0]) (.evReset 0) = some (.exti e0) ∧
      heard (alone (.exti { e0 with imr := 1, rtsr := 1, pr := 1 }) [0]) (.evReset 0) = some [(0, false)] := by decide

/-! ### INTMUX -/

/-- A channel in AND mode over sources 0 to 2. -/
def andChan : MuxChan := { andMode := true, ier := 7 }
def orChan (ier : Word) : MuxChan := { andMode := false, ier := ier }

/-- T6: the third of three. -/
theorem test_mux_input_and :
    heard (alone (.intmux { m0 with inputs := 3, chans := [andChan, orChan 0] }) []) (.evGpio 0 2 true) =
      some [(0, true)] := by decide

/-- V-MUX-6: both channels, ascending. -/
theorem test_mux_input_or :
    heard (alone (.intmux { m0 with chans := [orChan 1, orChan 1] }) []) (.evGpio 0 0 true) =
      some [(0, true), (1, true)] := by decide

/-- V-MUX-7. -/
theorem test_mux_input_out_of_range :
    diagsOf (alone (.intmux m0) []) (.evGpio 0 32 true) = some [(.error, 2, .num 32)] := by decide

/-- V-MUX-4 and V-MUX-2: `AND` at bit 1, the output at bit 31. -/
theorem test_mux_csr_read :
    replyOf (alone (.intmux { m0 with chans := [{ andMode := true, ier := 0 }, orChan 0] }) []) (.memRead 0 0x00 4) =
        some (.word 2) ∧
      replyOf (alone (.intmux { m0 with inputs := 0x10, chans := [orChan 0x14, orChan 0] }) [0]) (.memRead 0 0x00 4) =
        some (.word 0x80000000) := by decide

/-- T6: AND to OR. -/
theorem test_mux_mode_write :
    heard (alone (.intmux { m0 with inputs := 5, chans := [andChan, orChan 0] }) []) (.memWrite 0 0x00 4 0) =
      some [(0, true)] := by decide

/-- V-MUX-3: the channel reset leaves the other channel and the inputs. -/
theorem test_mux_channel_reset :
    coreOf (alone (.intmux { m0 with inputs := 0xFF, chans := [orChan 1, { andMode := true, ier := 0xFF }] }) [0, 1])
        (.memWrite 0 0x40 4 3) = some (.intmux { m0 with inputs := 0xFF, chans := [orChan 1, orChan 0] }) := by decide

/-- V-MUX-2: the lowest pending source. -/
theorem test_mux_vec_read :
    replyOf (alone (.intmux { m0 with inputs := 0x14, chans := [orChan 0x14, orChan 0] }) [0]) (.memRead 0 0x04 4) =
      some (.word 2) := by decide

/-- V-MUX-7: with 8 sources, the bits of the others stay 0. -/
theorem test_mux_ier :
    coreOf (alone (.intmux (Mux.reset { numChannels := 2, muxSources := 8 })) []) (.memWrite 0 0x10 4 0xFFFFFFFF) =
        some (.intmux { Mux.reset { numChannels := 2, muxSources := 8 } with chans := [orChan 0xFF, orChan 0] }) ∧
      replyOf (alone (.intmux { m0 with chans := [orChan 0xFF, orChan 0] }) []) (.memRead 0 0x10 4) = some (.word 0xFF) := by
  decide

/-- V-MUX-2: the source outside the mask does not show. -/
theorem test_mux_ipr_read :
    replyOf (alone (.intmux { m0 with inputs := 0x30, chans := [orChan 0x14, orChan 0] }) [0]) (.memRead 0 0x20 4) =
      some (.word 0x10) := by decide

/-- V-RST-4. -/
theorem test_mux_reset :
    coreOf (alone (.intmux { m0 with inputs := 7, chans := [andChan, orChan 0] }) [0]) (.evReset 0) = some (.intmux m0) ∧
      heard (alone (.intmux { m0 with inputs := 7, chans := [andChan, orChan 0] }) [0]) (.evReset 0) = some [(0, false)] := by
  decide

/-! ### Any controller -/

/-- V-PLIC-10. -/
theorem test_unhandled_read :
    replyOf (alone (.plic p0) []) (.memRead 0 0x001000 4) = some (.word 0) ∧
      diagsOf (alone (.plic p0) []) (.memRead 0 0x001000 4) = some [(.info, 11, .num 0x1000)] := by decide

/-- V-PLIC-10. -/
theorem test_unhandled_write :
    diagsOf (alone (.plic p0) []) (.memWrite 0 0x200000 4 5) = some [(.info, 12, .num 0x200000)] := by decide

/-- V-VIC-10: silently ignored. -/
theorem test_readonly_write :
    coreOf (alone (.vic vV) []) (.memWrite 0 0x000 4 0xFFFFFFFF) = some (.vic vV) ∧
      diagsOf (alone (.vic vV) []) (.memWrite 0 0x000 4 0xFFFFFFFF) = some [] := by decide

/-! ### The host's hooks -/

/-- A table word of 12 bits is a VIC offset: `VECTADDR` at 0x030; one of 26 bits a PLIC offset. -/
theorem test_table_word :
    decodeTableWord 12 0x030 = some (.vicVectAddrRead 1) ∧ decodeTableWord 26 0x200004 = some (.plicClaimRead 0 0) ∧
      decodeTableWord 6 0x10 = some (.muxIerRead 3 0) := by decide

/-- `step` runs the word placed by `withFetchWord`. -/
theorem test_fetch_word :
    (next? (step (State.reset.withFetchWord 26 0x000008))).bind State.reply = some (.word 1) := by decide

/-! ## Witnesses: every statement's hypotheses are met somewhere, at boundary values -/

theorem next_of_some {o : Host.Outcome State Fault Refusal} (h : (next? o).isSome = true) : ∃ t, o = .next t := by
  cases o with
  | next t => exact ⟨t, rfl⟩
  | fault r => cases h
  | refused r => cases h

theorem next_of_reply {o : Host.Outcome State Fault Refusal} {r : Reply} (h : (next? o).bind State.reply = some r) :
    ∃ t, o = .next t ∧ t.reply = some r := by
  cases o with
  | next t => exact ⟨t, rfl, h⟩
  | fault r => cases h
  | refused r => cases h

theorem next_get {o : Host.Outcome State Fault Refusal} (h : (next? o).isSome = true) : o = .next ((next? o).get h) := by
  cases o with
  | next t => rfl
  | fault r => cases h
  | refused r => cases h

/-- A PLIC with sources 1 and 3 claimable, 2 pending and not enabled; priorities 1, 9, 1. -/
def pTie : Plic := plicOf [pend 1, pend 9, pend 1] [true, false, true] []
/-- A PLIC with source 3 in service over source 1. -/
def pNested : Plic := plicOf [held 1, idle, held 2] [true, true, true] [1, 3]
/-- A PLIC with priorities disabled. -/
def pFixed : Plic := Plic.reset { numSources := 4, numTargets := 1, prioritiesEnabled := false }
/-- A VIC that serves line 3 and has line 7 and line 9 waiting. -/
def vBusy : Vic :=
  { vV with
    pinState := 0x288
    queue := [{ line := 7, key := 2 }, { line := 9, key := unvectored }]
    stack := [{ line := 3, key := 5 }] }
/-- A VIC in which the lines of slots 2 and 5 and of no slot wait. -/
def vThree : Vic :=
  { vV with
    pinState := 0x288
    queue := [{ line := 7, key := 2 }, { line := 3, key := 5 }, { line := 9, key := unvectored }] }
/-- An EXTI with lines 0 and 7 unmasked and rising. -/
def eEdge : Exti := { e0 with imr := 0x181, rtsr := 0x81, pr := 1 }
/-- An EXTI whose direct lines ignore the mask; and one that drops. -/
def eFree : Exti :=
  Exti.reset { numLines := 16, configurableMask := 0xFF, treatNonconfigAsDirect := true, directIgnoresMask := true }
def eDrop : Exti :=
  Exti.reset { numLines := 16, configurableMask := 0xFF, treatNonconfigAsDirect := false, directIgnoresMask := false }
/-- An INTMUX with an AND and an OR channel. -/
def mTwo : Mux := { m0 with inputs := 5, chans := [andChan, orChan 4] }

theorem plicAt (p : Plic) (h : (alone (.plic p) []).sound = true)
    (hs : ∀ x ∈ (alone (.plic p) []).ctrls, x.shapeOk = true) : PlicAt (alone (.plic p) []) 0 p :=
  ⟨h, _, rfl, rfl, hs _ (List.mem_cons_self ..)⟩
theorem vicAt (v : Vic) (h : (alone (.vic v) []).sound = true)
    (hs : ∀ x ∈ (alone (.vic v) []).ctrls, x.shapeOk = true) : VicAt (alone (.vic v) []) 0 v :=
  ⟨h, _, rfl, rfl, hs _ (List.mem_cons_self ..)⟩
theorem extiAt (e : Exti) (h : (alone (.exti e) []).sound = true)
    (hs : ∀ x ∈ (alone (.exti e) []).ctrls, x.shapeOk = true) : ExtiAt (alone (.exti e) []) 0 e :=
  ⟨h, _, rfl, rfl, hs _ (List.mem_cons_self ..)⟩
theorem muxAt (m : Mux) (h : (alone (.intmux m) []).sound = true)
    (hs : ∀ x ∈ (alone (.intmux m) []).ctrls, x.shapeOk = true) : MuxAt (alone (.intmux m) []) 0 m :=
  ⟨h, _, rfl, rfl, hs _ (List.mem_cons_self ..)⟩

theorem at_pTie : PlicAt (alone (.plic pTie) []) 0 pTie := plicAt _ (by decide) (by decide)
theorem at_pNested : PlicAt (alone (.plic pNested) []) 0 pNested := plicAt _ (by decide) (by decide)
theorem at_pFixed : PlicAt (alone (.plic pFixed) []) 0 pFixed := plicAt _ (by decide) (by decide)
theorem at_p0 : PlicAt (alone (.plic p0) []) 0 p0 := plicAt _ (by decide) (by decide)
theorem at_v0 : VicAt (alone (.vic v0) []) 0 v0 := vicAt _ (by decide) (by decide)
theorem at_vBusy : VicAt (alone (.vic vBusy) []) 0 vBusy := vicAt _ (by decide) (by decide)
theorem at_vThree : VicAt (alone (.vic vThree) []) 0 vThree := vicAt _ (by decide) (by decide)
theorem at_eEdge : ExtiAt (alone (.exti eEdge) []) 0 eEdge := extiAt _ (by decide) (by decide)
theorem at_eFree : ExtiAt (alone (.exti eFree) []) 0 eFree := extiAt _ (by decide) (by decide)
theorem at_eDrop : ExtiAt (alone (.exti eDrop) []) 0 eDrop := extiAt _ (by decide) (by decide)
theorem at_mTwo : MuxAt (alone (.intmux mTwo) []) 0 mTwo := muxAt _ (by decide) (by decide)

/-- A PLIC whose output drives its own source 1: a cycle. -/
def looped : State where
  ctrls := [Ctrl.fresh 0 (.plic p0.params) [[{ receiver := .ctrl 0, number := 1 }]]]
  lines := []
  inbox := []
  reply := none
  callbacks := []

/-- A PLIC, a VIC that serves line 7 and has line 3 waiting, wired to source 1, and an INTMUX whose high output holds line 7 up:
reset in the order PLIC, INTMUX, VIC, the falling line 7 lets the VIC raise its output (log entry 23). -/
def lateReset : State where
  ctrls :=
    [ Ctrl.fresh 0 (.plic { numSources := 2, numTargets := 1, prioritiesEnabled := true }) [[]],
      { Ctrl.fresh 0x4000000 (.vic { tie := 0 }) [[{ receiver := .ctrl 0, number := 1 }], []] with
        core := .vic { v0 with
          pinState := 0x88
          enabled := 0x88
          stack := [{ line := 7, key := 2 }]
          queue := [{ line := 3, key := 5 }] } },
      { Ctrl.fresh 0x4001000 (.intmux { numChannels := 1, muxSources := 1 }) [[]] with
        core := .intmux { params := { numChannels := 1, muxSources := 1 }, inputs := 1, chans := [orChan 1] }
        outs := [{ level := true, receivers := [{ receiver := .ctrl 1, number := 7 }] }] } ]
  lines := []
  inbox := []
  reply := none
  callbacks := []

/-- An INTMUX whose channel 0 lets source 0 through, wired to PLIC source 1 and to receiver 5. -/
def chained : State where
  ctrls :=
    [ Ctrl.fresh 0 (.plic p0.params) [[]],
      { Ctrl.fresh 0x4000000 (.intmux m0.params) [[{ receiver := .ctrl 0, number := 1 }, { receiver := .outside 5, number := 0 }], []]
        with core := .intmux { m0 with chans := [orChan 1, orChan 0] } } ]
  lines := []
  inbox := []
  reply := none
  callbacks := []

/-- R405: a system reset leaves every controller reset, also in the order in which separate resets do not. -/
theorem test_system_reset_order :
    (after? lateReset (.systemReset [0, 2, 1])).map (fun t => t.ctrls.map (fun x => decide (x.core = Core.reset x.core.params))) =
      some [true, true, true] := by decide

/-- R405: every controller is reset, each once; another order is refused. -/
theorem test_system_reset_refused : after? lateReset (.systemReset [0, 2]) = none := by decide

/-- R82, R141: an output that rises reaches the receivers, a controller and one outside. -/
theorem test_propagation :
    (after? chained (.evGpio 1 0 true)).map (fun t => (t.callbacks, t.ctrls[0]?.map Ctrl.core)) =
      some ([{ receiver := 5, number := 0, value := true }], some (.plic { p0 with srcs := [pend 1, idle, idle] })) := by decide

/-! ### The machine -/

theorem witness_StepRunsDecodedEvent :
    State.reset.inbox = [] ∧ decode State.reset.platform (.evGpio 0 3 true) = .ok (.plicOnGpio 0 3 true) ∧
      decode State.reset.platform (.memRead 0 6 4) = .error (.misaligned 6) ∧
      ∀ order, Event.memRead 0 6 4 ≠ .systemReset order :=
  ⟨by decide, by decide, by decide, fun _ => by simp⟩

theorem witness_ResetValuesOfEveryField : 1 ≤ 3 ∧ 3 < p0.params.numSources ∧ 1 < m0.params.numChannels := by decide

theorem witness_ResetPutsControllerInResetState :
    State.reset.sound = true ∧ (∀ x ∈ State.reset.ctrls, x.shapeOk = true) ∧
      [Instr.plicReset 0, .vicReset 1, .extiReset 2, .muxReset 3].all (fun i => i.wellFormed State.reset.platform) = true := by
  decide

theorem witness_SecondResetChangesNothing :
    State.reset.sound = true ∧ (∃ t, exec (.plicReset 0) State.reset = .next t) ∧
      (∃ t, exec (.vicReset 1) State.reset = .next t) ∧ (∃ t, exec (.extiReset 2) State.reset = .next t) ∧
      ∃ t, exec (.muxReset 3) State.reset = .next t :=
  ⟨by decide, next_of_some (by decide), next_of_some (by decide), next_of_some (by decide), next_of_some (by decide)⟩

theorem witness_UpstreamFirstResetLeavesAllReset :
    State.reset.sound = true ∧ (∀ x ∈ State.reset.ctrls, x.shapeOk = true) ∧
      (∀ c, c ∈ [3, 1, 2, 0] ↔ c < State.reset.ctrls.length) ∧
      [3, 1, 2, 0].Pairwise (fun a b => State.reset.downstream b a = false) :=
  ⟨by decide, by decide, fun c => by simp [State.reset]; omega, by decide⟩

/-- The witness is of the hypotheses; the log's entry 23 gives the state that refutes the conclusion. -/
theorem witness_ResetsInAnyOrderAgree :
    State.reset.sound = true ∧ (∀ x ∈ State.reset.ctrls, x.ok = true) ∧ [0, 1, 2, 3].Nodup ∧
      ∀ c, c ∈ [0, 1, 2, 3] ↔ c < State.reset.ctrls.length :=
  ⟨by decide, by decide, by decide, fun c => by simp [State.reset]; omega⟩

theorem witness_SystemResetInAnyOrderLeavesAllReset :
    lateReset.sound = true ∧ (∀ x ∈ lateReset.ctrls, x.shapeOk = true) ∧
      [0, 2, 1].Perm (List.range lateReset.ctrls.length) := by decide

theorem witness_DecodeOfEncodeIsTheInstruction :
    (∀ q ∈ Config.resetPlatform.ctrls, q.valid = true) ∧
      (Instr.plicEnableWrite 0 0 31 0xFFFFFFFF).wellFormed Config.resetPlatform = true ∧
      (Instr.slSetTrue (.ext 0)).wellFormed Config.resetPlatform = true ∧
      (Instr.slUnset (.ext 0)).wellFormed Config.resetPlatform = true := by decide

theorem witness_DecodedEventIsWellFormedAndEncodesBack :
    decode Config.resetPlatform (.memWrite 3 0x60 4 5) = .ok (.anyReadonlyWrite 3 0x60 5) := by decide

theorem witness_BadAccessCyclicWiringAndForeignLineAreRefused :
    0 < State.reset.ctrls.length ∧ 1 ≠ 4 ∧ 6 % 4 ≠ 0 ∧ looped.acyclic = false ∧ State.reset.acyclic = true := by decide

theorem witness_EveryStepKeepsTheInvariant :
    (∀ x ∈ State.reset.ctrls, x.ok = true) ∧
      ∃ t, step { State.reset with inbox := [.evGpio 3 0 true] } = .next t :=
  ⟨by decide, next_of_some (by decide)⟩

theorem witness_WellFormedInstructionsComplete :
    State.reset.sound = true ∧ (∀ x ∈ State.reset.ctrls, x.shapeOk = true) ∧
      (Instr.slQuery (.out 2 15)).wellFormed State.reset.platform = true ∧
      State.reset.allows (.vicIntSelectWrite 1 0xFFFFFFFF) = true ∧
      (Instr.vicIntSelectWrite 1 0xFFFFFFFF).wellFormed State.reset.platform = true := by decide

theorem witness_PlatformConstantsNeverChange : ∃ t, exec (.slSet (.ext 0) true) State.reset = .next t :=
  next_of_some (by decide)

theorem witness_UnrelatedControllersAreUntouched :
    decode State.reset.platform (.evGpio 3 31 true) = .ok (.muxOnGpio 3 31 true) ∧
      decode State.reset.platform (.memRead 3 0x04 4) = .ok (.muxVecRead 3 0) ∧
      decode State.reset.platform (.memWrite 3 0x10 4 1) = .ok (.muxIerWrite 3 0 1) ∧
      decode State.reset.platform (.evReset 3) = .ok (.muxReset 3) ∧
      State.reset.downstream 3 0 = false ∧ State.reset.downstream 3 1 = true ∧
      (∃ t, exec (.muxOnGpio 3 31 true) State.reset = .next t) ∧ (∃ t, exec (.muxVecRead 3 0) State.reset = .next t) ∧
      (∃ t, exec (.muxIerWrite 3 0 1) State.reset = .next t) ∧ ∃ t, exec (.muxReset 3) State.reset = .next t :=
  ⟨by decide, by decide, by decide, by decide, by decide, by decide, next_of_some (by decide), next_of_some (by decide),
    next_of_some (by decide), next_of_some (by decide)⟩

/-! ### Signal Lines -/

theorem witness_OutputChangesReachTheirReceivers :
    chained.sound = true ∧ (∃ x, chained.ctrls[1]? = some x) ∧ EventOn chained 1 (.muxOnGpio 1 0 true) ∧
      ∃ t, exec (.muxOnGpio 1 0 true) (unwired chained 1) = .next t ∧ ∃ y, t.ctrls[1]? = some y :=
  ⟨by decide, ⟨_, rfl⟩, ⟨.evGpio 1 0 true, by decide, Or.inl ⟨0, true, rfl⟩⟩, _, next_get (by decide),
    Option.isSome_iff_exists.mp (by decide)⟩

/-- A change that a controller hears of. -/
theorem witness_SetStoresLevelAndNotifiesOncePerChange_controller :
    State.reset.sound = true ∧ ∃ l, State.reset.lines[0]? = some l ∧ l.level ≠ true ∧ ∃ e ∈ l.receivers, e.receiver = .ctrl 2 :=
  ⟨by decide, _, rfl, by decide, _, List.mem_cons_self, rfl⟩

theorem witness_SetStoresLevelAndNotifiesOncePerChange :
    (lineAlone true).sound = true ∧
      ∃ l, (lineAlone true).lines[0]? = some l ∧ l.level = true ∧ l.level ≠ false ∧ AllOutside l :=
  ⟨by decide, _, rfl, rfl, by decide, fun e he => ⟨5, by simp at he; rw [he]⟩⟩

theorem witness_LineOperationsComplete : State.reset.sound = true ∧ ∃ l, State.reset.lines[0]? = some l :=
  ⟨by decide, _, rfl⟩

theorem witness_BlinkIsAPulseOnLowAndAFallOnHigh :
    (lineAlone false).sound = true ∧ ∃ l, (lineAlone false).lines[0]? = some l ∧ l.level = false ∧ AllOutside l :=
  ⟨by decide, _, rfl, rfl, fun e he => ⟨5, by simp at he; rw [he]⟩⟩

theorem witness_QueryReturnsTheLevel :
    State.reset.sound = true ∧ (∃ l, State.reset.line? (.ext 0) = some l) ∧ ∃ l, State.reset.line? (.out 2 15) = some l :=
  ⟨by decide, ⟨_, rfl⟩, _, rfl⟩

/-! ### PLIC -/

theorem witness_PlicInputStoresLevelAndLatchesPending :
    PlicAt (alone (.plic pTie) []) 0 pTie ∧ 1 ≤ 3 ∧ 3 < pTie.params.numSources :=
  ⟨at_pTie, by decide, by decide⟩

theorem witness_PlicInputOutOfRangeIsRefused :
    PlicAt (alone (.plic p0) []) 0 p0 ∧ (0 : Int) < 1 ∧ (p0.params.numSources : Int) ≤ 4 :=
  ⟨at_p0, by decide, by decide⟩

theorem witness_PriorityWriteStoresOrReports :
    PlicAt (alone (.plic pFixed) []) 0 pFixed ∧ pFixed.params.prioritiesEnabled = false ∧
      PlicAt (alone (.plic p0) []) 0 p0 ∧ p0.params.prioritiesEnabled = true ∧ 3 < p0.params.numSources :=
  ⟨at_pFixed, rfl, at_p0, rfl, by decide⟩

theorem witness_PlicPlainReadsReturnState :
    PlicAt (alone (.plic pTie) []) 0 pTie ∧ 3 < pTie.params.numSources ∧ 0 < pTie.params.numTargets ∧ 31 < 32 :=
  ⟨at_pTie, by decide, by decide, by decide⟩

theorem witness_EnableWriteSetsEachSourceOfTheWord :
    PlicAt (alone (.plic pNested) []) 0 pNested ∧ 0 < pNested.params.numTargets ∧ 31 < 32 :=
  ⟨at_pNested, by decide, by decide⟩

theorem best_pTie : Best pTie 0 1 := by
  refine ⟨⟨by decide, by decide, by decide, by decide⟩, ?_⟩
  rintro j ⟨h1, h2, h3, -⟩
  have h2' : j < 4 := h2
  have : j = 1 ∨ j = 2 ∨ j = 3 := by omega
  rcases this with rfl | rfl | rfl
  · exact ⟨by decide, fun _ => by decide⟩
  · exact absurd h3 (by decide)
  · exact ⟨by decide, fun _ => by decide⟩

theorem none_pNested : ∀ i, ¬ Claimable pNested 0 i := by
  rintro j ⟨h1, h2, -, h4⟩
  have h2' : j < 4 := h2
  have : j = 1 ∨ j = 2 ∨ j = 3 := by omega
  rcases this with rfl | rfl | rfl <;> exact absurd h4 (by decide)

theorem witness_ClaimTakesTheBestSource :
    PlicAt (alone (.plic pTie) []) 0 pTie ∧ 0 < pTie.params.numTargets ∧ Best pTie 0 1 :=
  ⟨at_pTie, by decide, best_pTie⟩

theorem witness_ClaimTakesTheBestSource_nothing :
    PlicAt (alone (.plic pNested) []) 0 pNested ∧ 0 < pNested.params.numTargets ∧ ∀ i, ¬ Claimable pNested 0 i :=
  ⟨at_pNested, by decide, none_pNested⟩

theorem witness_ClaimReturnsOnlyEnabledPendingSources :
    PlicAt (alone (.plic pTie) []) 0 pTie ∧ 0 < pTie.params.numTargets ∧
      ∃ u, exec (.plicClaimRead 0 0) (alone (.plic pTie) []) = .next u ∧ u.reply = some (.word 1) :=
  ⟨at_pTie, by decide, next_of_reply (by decide)⟩

/-- Between the two claims: a rise of source 2, a complete of source 2, a priority write. -/
def quiet : List Event := [.evGpio 0 2 true, .memWrite 0 0x200004 4 2, .memWrite 0 0x00000C 4 7]

theorem quiet_leaves : ∀ e ∈ quiet, LeavesSource (alone (.plic pTie) []) 0 1 e := by
  have hd : NeverDrives (alone (.plic pTie) []) 0 0 1 := by
    intro a _ l hl e he
    cases a with
    | zero =>
      obtain ⟨i, -, rfl⟩ : ∃ i < (Core.plic pTie).params.numOutputs, [{ receiver := Receiver.outside i, number := 0 }] = l := by
        simpa [alone, State.wiring] using hl
      intro h
      rw [List.mem_singleton.mp he] at h
      exact absurd h.1 (by simp)
    | succ a => cases a <;> simp [alone, State.wiring] at hl
  intro e he
  simp only [quiet, List.mem_cons, List.not_mem_nil, or_false] at he
  rcases he with rfl | rfl | rfl
  · exact ⟨by simp, hd⟩
  · exact ⟨by simp, hd⟩
  · exact ⟨by simp, hd⟩

theorem witness_OneOccurrenceIsClaimedOnce :
    PlicAt (alone (.plic pTie) []) 0 pTie ∧ 0 < pTie.params.numTargets ∧
      ∃ u, exec (.plicClaimRead 0 0) (alone (.plic pTie) []) = .next u ∧ u.reply = some (.word 1) ∧ (1 : Word) ≠ 0 ∧
        (∀ e ∈ quiet, LeavesSource (alone (.plic pTie) []) 0 (1 : Word).toNat e) ∧
        ∃ w, deliverAll quiet u = .next w ∧ ∃ z, exec (.plicClaimRead 0 0) w = .next z ∧ z.reply = some (.word 3) :=
  ⟨at_pTie, by decide, _, next_get (by decide), by decide, by decide, quiet_leaves, _, next_get (by decide),
    next_of_reply (by decide)⟩

theorem witness_CompletePopsAndRearms :
    PlicAt (alone (.plic pNested) []) 0 pNested ∧ 0 < pNested.params.numTargets ∧
      (pNested.target 0).inService.getLast? = some (3 : Word).toNat :=
  ⟨at_pNested, by decide, by decide⟩

theorem witness_WrongCompleteOnlyReports :
    PlicAt (alone (.plic pNested) []) 0 pNested ∧ 0 < pNested.params.numTargets ∧
      pNested.params.numSources ≤ (4 : Word).toNat ∧
      ((1 : Word) ≠ 0 ∧ (1 : Word).toNat < pNested.params.numSources ∧
        (pNested.target 0).inService.getLast? = some 3 ∧ 3 ≠ (1 : Word).toNat) ∧
      PlicAt (alone (.plic p0) []) 0 p0 ∧ (3 : Word) ≠ 0 ∧ (3 : Word).toNat < p0.params.numSources ∧
      (p0.target 0).inService = [] :=
  ⟨at_pNested, by decide, by decide, by decide, at_p0, by decide, by decide, by decide⟩

theorem witness_NamedCallsOnAbsentTargetOnlyReport :
    PlicAt (alone (.plic p0) []) 0 p0 ∧ p0.params.numTargets ≤ 1 ∧ 31 < 32 :=
  ⟨at_p0, by decide, by decide⟩

/-! ### VIC -/

theorem witness_VicDerivedValues :
    vBusy.shapeOk = true ∧ 31 < 32 ∧ vBusy.vectorId 3 = some 5 ∧ vBusy.vectorId 31 = none := by decide

theorem witness_VicInputStoresPinAndEnqueues : VicAt (alone (.vic vBusy) []) 0 vBusy ∧ 31 < 32 := ⟨at_vBusy, by decide⟩

theorem witness_VicEnableWrites : VicAt (alone (.vic vBusy) []) 0 vBusy := at_vBusy

theorem witness_VicSoftwareInterruptWrites : VicAt (alone (.vic vThree) []) 0 vThree := at_vThree

theorem witness_VicClassificationWrite :
    VicAt (alone (.vic vBusy) []) 0 vBusy ∧
      (∀ L < 32, (0x80000001 : Word).getLsbD L ≠ vBusy.isFiq.getLsbD L →
        vBusy.isActive L = false ∧ ∀ e ∈ vBusy.queue ++ vBusy.stack, e.line ≠ L) ∧
      ∃ L < 32, (0x8 : Word).getLsbD L ≠ vBusy.isFiq.getLsbD L ∧
        (vBusy.isActive L = true ∨ ∃ e ∈ vBusy.queue ++ vBusy.stack, e.line = L) :=
  ⟨at_vBusy, by decide, 3, by decide, by decide, Or.inl (by decide)⟩

theorem witness_VicSlotWriteKeepsQueuedKeys : VicAt (alone (.vic vBusy) []) 0 vBusy ∧ 15 < 16 := ⟨at_vBusy, by decide⟩

theorem witness_VicAcknowledge :
    VicAt (alone (.vic v0) []) 0 v0 ∧ v0.queue = [] ∧ VicAt (alone (.vic vBusy) []) 0 vBusy ∧
      vBusy.queue = { line := 7, key := 2 } :: [{ line := 9, key := unvectored }] ∧ vBusy.vectorId 7 = some 2 ∧
      vBusy.vectorId 9 = none :=
  ⟨at_v0, rfl, at_vBusy, rfl, by decide, by decide⟩

theorem witness_VicFinishCurrent :
    VicAt (alone (.vic v0) []) 0 v0 ∧ v0.stack = [] ∧ VicAt (alone (.vic vBusy) []) 0 vBusy ∧ vBusy.stack ≠ [] :=
  ⟨at_v0, rfl, at_vBusy, by decide⟩

theorem witness_VicServesInOrderOfVectorSlot :
    VicAt (alone (.vic vThree) []) 0 vThree ∧
      vThree.queue.Perm [{ line := 7, key := 2 }, { line := 3, key := 5 }, { line := 9, key := 2147483647 }] ∧
      vThree.isActive 7 = true ∧ vThree.isActive 3 = true ∧ vThree.isActive 9 = true ∧ vThree.vectorId 7 = some 2 ∧
      vThree.vectorId 3 = some 5 ∧ vThree.vectorId 9 = none ∧ vThree.addrs[2]? = some 0x1000 ∧
      vThree.addrs[5]? = some 0x2000 :=
  ⟨at_vThree, List.Perm.refl _, by decide, by decide, by decide, by decide, by decide, by decide, by decide, by decide⟩

theorem witness_VicAddressWritesOnlyStore : VicAt (alone (.vic vBusy) []) 0 vBusy ∧ 15 < 16 := ⟨at_vBusy, by decide⟩

theorem witness_VicPlainReads :
    VicAt (alone (.vic vBusy) []) 0 vBusy ∧ (∃ a, vBusy.addrs[15]? = some a) ∧ ∃ x, vBusy.slots[15]? = some x :=
  ⟨at_vBusy, ⟨_, rfl⟩, _, rfl⟩

theorem witness_VicInputOutOfRangeOnlyReports :
    VicAt (alone (.vic vBusy) []) 0 vBusy ∧ (31 : Int) < 32 ∧ (-1 : Int) < 0 :=
  ⟨at_vBusy, by decide, by decide⟩

/-! ### EXTI -/

theorem witness_ExtiConfigurableLine :
    ExtiAt (alone (.exti eEdge) []) 0 eEdge ∧ 7 < eEdge.params.numLines ∧
      eEdge.params.configurableMask.getLsbD 7 = true ∧ eEdge.imr.getLsbD 7 = true ∧ eEdge.rtsr.getLsbD 7 = true ∧
      eEdge.ftsr.getLsbD 7 = false ∧ eEdge.imr.getLsbD 1 = false :=
  ⟨at_eEdge, by decide, by decide, by decide, by decide, by decide, by decide⟩

theorem witness_ExtiEdgeMasking :
    ExtiAt (alone (.exti eEdge) []) 0 eEdge ∧ 7 < eEdge.params.numLines ∧
      eEdge.params.configurableMask.getLsbD 7 = true ∧ eEdge.imr.getLsbD 7 = true ∧ eEdge.rtsr.getLsbD 7 = true ∧
      eEdge.ftsr.getLsbD 7 = false ∧ (0x80 : Word).getLsbD 7 = true :=
  ⟨at_eEdge, by decide, by decide, by decide, by decide, by decide, by decide⟩

theorem witness_ExtiDirectLine :
    ExtiAt (alone (.exti eEdge) []) 0 eEdge ∧ 15 < eEdge.params.numLines ∧
      eEdge.params.configurableMask.getLsbD 8 = false ∧ eEdge.params.configurableMask.getLsbD 15 = false ∧
      eEdge.params.treatNonconfigAsDirect = true ∧ eEdge.params.directIgnoresMask = false ∧
      eEdge.imr.getLsbD 8 = true ∧ eEdge.imr.getLsbD 15 = false ∧
      ExtiAt (alone (.exti eFree) []) 0 eFree ∧ eFree.params.directIgnoresMask = true ∧
      eFree.params.treatNonconfigAsDirect = true :=
  ⟨at_eEdge, by decide, by decide, by decide, rfl, rfl, by decide, by decide, at_eFree, rfl, rfl⟩

theorem witness_ExtiDroppedAndOutOfRange :
    ExtiAt (alone (.exti eDrop) []) 0 eDrop ∧ (-1 : Int) < 0 ∧ (eDrop.params.numLines : Int) ≤ 16 ∧
      15 < eDrop.params.numLines ∧ eDrop.params.configurableMask.getLsbD 15 = false ∧
      eDrop.params.treatNonconfigAsDirect = false :=
  ⟨at_eDrop, by decide, by decide, by decide, by decide, rfl⟩

theorem witness_ExtiMaskAndTriggerWrites : ExtiAt (alone (.exti eEdge) []) 0 eEdge := at_eEdge

theorem witness_ExtiSoftwareInterrupt :
    ExtiAt (alone (.exti eEdge) []) 0 eEdge ∧ (0x80 : Word).getLsbD 7 = true ∧
      eEdge.params.configurableMask.getLsbD 7 = true ∧ eEdge.imr.getLsbD 7 = true :=
  ⟨at_eEdge, by decide, by decide, by decide⟩

theorem witness_ExtiPendingClear :
    ExtiAt (alone (.exti eEdge) []) 0 eEdge ∧ (1 : Word).getLsbD 0 = true ∧
      eEdge.params.configurableMask.getLsbD 0 = true :=
  ⟨at_eEdge, by decide, by decide⟩

theorem witness_ExtiPlainReads : ExtiAt (alone (.exti eEdge) []) 0 eEdge := at_eEdge

/-! ### INTMUX -/

theorem witness_MuxDerivedValues :
    mTwo.chans[0]? = some andChan ∧ andChan.andMode = true ∧ mTwo.chans[1]? = some (orChan 4) ∧
      (orChan 4).andMode = false ∧ mTwo.ipr 1 ≠ 0 ∧ m0.chans[1]? = some (orChan 0) ∧ m0.ipr 1 = 0 := by decide

theorem witness_MuxInput :
    MuxAt (alone (.intmux mTwo) []) 0 mTwo ∧ 31 < mTwo.params.muxSources ∧ (-1 : Int) < 0 ∧
      (mTwo.params.muxSources : Int) ≤ 32 :=
  ⟨at_mTwo, by decide, by decide, by decide⟩

theorem witness_MuxChannelWrites :
    MuxAt (alone (.intmux mTwo) []) 0 mTwo ∧ mTwo.chans[1]? = some (orChan 4) ∧ (2 : Word).getLsbD 0 = false ∧
      (3 : Word).getLsbD 0 = true :=
  ⟨at_mTwo, rfl, by decide, by decide⟩

theorem witness_MuxReads : MuxAt (alone (.intmux mTwo) []) 0 mTwo ∧ mTwo.chans[0]? = some andChan := ⟨at_mTwo, rfl⟩

/-! ### Any controller -/

theorem witness_UnhandledAndReadOnlyAccesses :
    State.reset.sound = true ∧ (∃ x, State.reset.ctrls[3]? = some x) ∧ 0x7C % 4 = 0 ∧
      0x7C < (CtrlParams.intmux m0.params).size ∧ regAt (.intmux m0.params) 0x7C = none ∧
      regAt (.intmux m0.params) 0x60 = some (.muxIpr 1) ∧ (Reg.muxIpr 1).readOnly = true :=
  ⟨by decide, ⟨_, rfl⟩, by decide, by decide, by decide, by decide, rfl⟩

theorem witness_OnlyTwoReadsHaveSideEffects :
    (∃ x, State.reset.ctrls[1]? = some x ∧ regAt x.core.params 0x034 = some .vicDefVectAddr) ∧
      Reg.vicDefVectAddr ≠ .vicVectAddr ∧ (∀ k, Reg.vicDefVectAddr ≠ .plicClaimComplete k) ∧
      decode State.reset.platform (.memRead 1 0x034 4) = .ok (.vicDefVectAddrRead 1) ∧
      ∃ t, exec (.vicDefVectAddrRead 1) State.reset = .next t :=
  ⟨⟨_, rfl, by decide⟩, by decide, fun k => by simp, by decide, next_of_some (by decide)⟩

end Sys2Proof.Tests
end

section
/-! The reset state of every kind of controller: its values field by field (10_state.md R68), and that it has the shape, the
active ends and the low outputs that the invariant asks for. -/

namespace Sys2Proof.Machine

/-! ## Values -/

/-- A real source of a PLIC right after reset (10_state.md R68). -/
theorem Plic.reset_source {q : PlicParams} {i : Nat} (h1 : 1 ≤ i) (h2 : i < q.numSources) :
    (Plic.reset q).source i = { priority := 1, state := false, isPending := false } := by
  have h0 : i ≠ 0 := by omega
  have hlt : i - 1 < q.numSources - 1 := by omega
  simp [Plic.source, Plic.reset, h0, List.getD_eq_getElem?_getD, hlt]

@[simp] theorem Plic.reset_target (q : PlicParams) (t : Nat) :
    (Plic.reset q).target t =
      if t < q.numTargets then { enabled := List.replicate (q.numSources - 1) false, inService := [] } else Plic.noTarget := by
  rw [Plic.target, Plic.reset, List.getD_eq_getElem?_getD, List.getElem?_replicate]
  split <;> rfl

@[simp] theorem Plic.reset_inService (q : PlicParams) (t : Nat) : ((Plic.reset q).target t).inService = [] := by
  rw [Plic.reset_target]
  split <;> rfl

@[simp] theorem Plic.reset_isEnabled (q : PlicParams) (t i : Nat) : (Plic.reset q).isEnabled t i = false := by
  rw [Plic.isEnabled, Plic.reset_target]
  by_cases ht : t < q.numTargets
  · simp [ht]
  · simp [ht, Plic.noTarget]

/-! ## Shape and outputs -/

theorem Exti.reset_shapeOk (q : ExtiParams) : (Exti.reset q).shapeOk = true := by
  simp [Exti.shapeOk, Exti.reset]

theorem Mux.reset_shapeOk (q : MuxParams) : (Mux.reset q).shapeOk = true := by
  simp [Mux.shapeOk, Mux.reset]

theorem Core.reset_shapeOk {q : CtrlParams} (h : q.valid = true) : (Core.reset q).shapeOk = true := by
  cases q with
  | plic q => exact Plic.reset_shapeOk h
  | vic q => exact Vic.reset_shapeOk q
  | exti q => exact Exti.reset_shapeOk q
  | intmux q => exact Mux.reset_shapeOk q

theorem Core.reset_endsActive (q : CtrlParams) : (Core.reset q).endsActive = true := by
  cases q <;> rfl

/-- Nothing is enabled, so no source is claimable. -/
theorem Plic.reset_eval (q : PlicParams) (t : Nat) : (Plic.reset q).eval t = false := by
  have h : (Plic.reset q).candidates t = [] :=
    List.eq_nil_iff_forall_not_mem.2 fun i hi => by simpa using (Plic.mem_candidates.1 hi).2.1
  simp [Plic.eval, h]

theorem Mux.reset_eval (q : MuxParams) (ch : Nat) : (Mux.reset q).eval ch = false := by
  have h : (Mux.reset q).chan ch = { andMode := false, ier := 0 } := by
    simp [Mux.chan, Mux.reset]
  simp [Mux.eval, Mux.ipr, h]

/-- Every output that is a function of the state is low right after reset. -/
theorem Core.reset_outLevel {q : CtrlParams} {i : Nat} {b : Bool} (h : (Core.reset q).outLevel i = some b) : b = false := by
  cases q with
  | plic q => simpa [Core.reset, Core.outLevel, Plic.reset_eval] using h.symm
  | vic q =>
    have hirq : (Vic.reset q).irqLevel = false := rfl
    have hfiq : (Vic.reset q).fiqLevel = false := by simp [Vic.fiqLevel, Vic.fiqStatus, Vic.activeMask, Vic.reset]
    simpa [Core.reset, Core.outLevel, hirq, hfiq] using h.symm
  | exti q =>
    simp only [Core.reset, Core.outLevel, Exti.reset] at h
    split at h <;> simp_all
  | intmux q => simpa [Core.reset, Core.outLevel, Mux.reset_eval] using h.symm

end Sys2Proof.Machine
end

section
/-! What one step does, an equation per case (10_state.md R21, 20_memory.md R80, R81; log entries 1, 34). -/

namespace Sys2Proof.Machine

theorem step_nil {s : State} (h : s.inbox = []) : step s = .next s := by
  rw [step, h]

theorem step_systemReset {s : State} {order : List Nat} {rest : List Event} (h : s.inbox = .systemReset order :: rest) :
    step s = State.systemReset { s with inbox := rest } order := by
  rw [step, h]

/-- An event that decodes is run as its instruction; a system reset decodes to none. -/
theorem step_decoded {s : State} {e : Event} {rest : List Event} {i : Instr} (h : s.inbox = e :: rest)
    (hd : decode s.platform e = .ok i) : step s = exec i { s with inbox := rest } := by
  rw [step, h]
  cases e with
  | systemReset order => cases hd
  | _ => simp only [hd]

theorem step_undecodable {s : State} {e : Event} {rest : List Event} {err : DecodeError} (h : s.inbox = e :: rest)
    (he : ∀ order, e ≠ .systemReset order) (hd : decode s.platform e = .error err) :
    step s = .refused (.undecodable err) := by
  rw [step, h]
  cases e with
  | systemReset order => exact absurd rfl (he order)
  | _ => simp only [hd]

/-- Every next state of a step: the same state, what a system reset answers, or what an instruction answers. -/
theorem step_next {s t : State} (h : step s = .next t) :
    t = s ∨ (∃ order rest, State.systemReset { s with inbox := rest } order = .next t) ∨
      ∃ i rest, exec i { s with inbox := rest } = .next t := by
  cases hs : s.inbox with
  | nil =>
    rw [step_nil hs, Host.Outcome.next.injEq] at h
    exact .inl h.symm
  | cons e rest =>
    by_cases he : ∃ order, e = .systemReset order
    · obtain ⟨order, rfl⟩ := he
      exact .inr (.inl ⟨order, rest, step_systemReset hs ▸ h⟩)
    · rw [not_exists] at he
      cases hd : decode s.platform e with
      | error err =>
        rw [step_undecodable hs he hd] at h
        cases h
      | ok i => exact .inr (.inr ⟨i, rest, step_decoded hs hd ▸ h⟩)

end Sys2Proof.Machine
end

section
/-! The vector slot that serves a VIC line (10_state.md R40). -/

namespace Sys2Proof.Machine

/-- Slot `n` of a VIC is enabled and names line `L` (10_state.md R40). -/
def Vic.assigns (v : Vic) (n L : Nat) : Prop := ∃ x, v.slots[n]? = some x ∧ x.enable = true ∧ x.source.toNat = L

/-- The vector id is the least slot that is assigned to the line (10_state.md R40; least: D43). -/
theorem Vic.vectorId_eq_some {v : Vic} {L n : Nat} :
    v.vectorId L = some n ↔ n < Config.vicSlots ∧ v.assigns n L ∧ ∀ m < n, ¬ v.assigns m L := by
  have hslot : ∀ m, (v.slots[m]?).elim false (fun s => s.enable && s.source.toNat == L) = true ↔ v.assigns m L := by
    intro m
    cases h : v.slots[m]? <;> simp [Vic.assigns, h]
  rw [Vic.vectorId, List.find?_range_eq_some]
  simp only [hslot, List.mem_range, Bool.not_eq_true', ← Bool.not_eq_true]
  tauto

theorem Vic.key_of_vectorId {v : Vic} {L n : Nat} (h : v.vectorId L = some n) : v.key L = n := by
  rw [Vic.key, h, Option.getD_some]

theorem Vic.key_of_unvectored {v : Vic} {L : Nat} (h : v.vectorId L = none) : v.key L = Config.intMax := by
  rw [Vic.key, h, Option.getD_none]

end Sys2Proof.Machine
end

section
/-! What an effect has to do for its controller's invariant to hold after it (`Eff.KeepsOk`), and that every operation of every
kind of controller does so. -/

namespace Sys2Proof.Machine

/-! ## The invariant of one controller, taken apart -/

/-- The part of a controller's invariant that speaks of its parameters and its state, not of its output lines. -/
structure Core.Ok (k : Core) : Prop where
  valid : k.params.valid = true
  shape : k.shapeOk = true
  ends : k.endsActive = true

theorem Ctrl.outputsOk_iff (x : Ctrl) :
    x.outputsOk = true ↔ ∀ i b l, x.core.outLevel i = some b → x.outs[i]? = some l → l.level = b := by
  simp only [Ctrl.outputsOk, List.all_eq_true, List.mem_range]
  constructor
  · intro h i b l hb hl
    have hi := h i (List.getElem?_eq_some_iff.1 hl).1
    simpa [hb, hl] using hi
  · intro h i _
    cases hb : x.core.outLevel i with
    | none => rfl
    | some b =>
      cases hl : x.outs[i]? with
      | none => rfl
      | some l => simpa using h i b l hb hl

theorem Ctrl.ok_iff (x : Ctrl) :
    x.ok = true ↔ x.core.Ok ∧ x.outs.length = x.core.params.numOutputs ∧
      ∀ i b l, x.core.outLevel i = some b → x.outs[i]? = some l → l.level = b := by
  rw [← Ctrl.outputsOk_iff]
  simp only [Ctrl.ok, Ctrl.shapeOk, Bool.and_eq_true, decide_eq_true_eq]
  constructor
  · rintro ⟨⟨⟨⟨hv, hs⟩, hl⟩, he⟩, ho⟩
    exact ⟨⟨hv, hs, he⟩, hl, ho⟩
  · rintro ⟨⟨hv, hs, he⟩, hl, ho⟩
    exact ⟨⟨⟨⟨hv, hs⟩, hl⟩, he⟩, ho⟩

/-- The reset state of valid parameters satisfies the state's part of the invariant. -/
theorem Core.reset_ok {q : CtrlParams} (h : q.valid = true) : (Core.reset q).Ok :=
  ⟨by rwa [Core.reset_params], Core.reset_shapeOk h, Core.reset_endsActive q⟩

/-- Every output of a controller just constructed is low (10_state.md R28). -/
theorem Ctrl.fresh_low {base : Nat} {q : CtrlParams} {fanout : List (List Endpoint)} {l : SigLine}
    (h : l ∈ (Ctrl.fresh base q fanout).outs) : l.level = false := by
  obtain ⟨i, -, rfl⟩ := List.mem_map.1 h
  rfl

/-- A controller just constructed with valid parameters satisfies its invariant (70_reset_and_hazards.md R404). -/
theorem Ctrl.fresh_ok {base : Nat} {q : CtrlParams} {fanout : List (List Endpoint)} (h : q.valid = true) :
    (Ctrl.fresh base q fanout).ok = true := by
  rw [Ctrl.ok_iff]
  refine ⟨Core.reset_ok h, by simp [Ctrl.fresh], fun i b l hb hl => ?_⟩
  rw [Core.reset_outLevel hb, Ctrl.fresh_low (List.mem_of_getElem? hl)]

/-! ## Effects that keep the invariant -/

/-- The effect `e` keeps the invariant of a controller in state `k`: it keeps the parameters, and if `k` satisfies the state's
part then so does the next state, every output that is a function of the state being driven to its new level last, or left
where it already is. -/
structure Eff.KeepsOk (k : Core) (e : Eff Core) : Prop where
  params : e.core.params = k.params
  ok : k.Ok → e.core.Ok
  levels : k.Ok → ∀ i b, i < k.params.numOutputs → e.core.outLevel i = some b →
    (lastDrive e.drives i).or (k.outLevel i) = some b

theorem Ctrl.driven_outs_length (x : Ctrl) (ds : List (Nat × Bool)) : (x.driven ds).outs.length = x.outs.length := by
  unfold Ctrl.driven
  induction ds generalizing x with
  | nil => rfl
  | cons d ds ih => simpa using ih { x with outs := x.outs.modify d.1 (fun l => l.withLevel d.2) }

/-- What `Eff.KeepsOk` is for: the controller satisfies its invariant after its own event. -/
theorem Ctrl.after_ok {x : Ctrl} {e : Eff Core} (hx : x.ok = true) (he : e.KeepsOk x.core) : (x.after e).ok = true := by
  rw [Ctrl.ok_iff] at hx ⊢
  obtain ⟨hok, hlen, houts⟩ := hx
  refine ⟨he.ok hok, ?_, fun i b l hb hl => ?_⟩
  · exact (Ctrl.driven_outs_length _ _).trans (hlen.trans (congrArg CtrlParams.numOutputs he.params.symm))
  · rw [Ctrl.after, Ctrl.driven_outs, Option.map_eq_some_iff] at hl
    obtain ⟨l₀, hl₀, rfl⟩ := hl
    have hi : i < x.core.params.numOutputs := hlen ▸ (List.getElem?_eq_some_iff.1 hl₀).1
    have hdriven := he.levels hok i b hi hb
    rw [SigLine.withLevel_level]
    cases hd : lastDrive e.drives i with
    | none =>
      rw [hd, Option.none_or] at hdriven
      exact houts i b l₀ hdriven hl₀
    | some b' => simpa [hd] using hdriven

/-- An effect that keeps the state and drives nothing: a read, a diagnostic, or nothing at all. -/
theorem Eff.KeepsOk.of_same {k : Core} {e : Eff Core} (hc : e.core = k) (hd : e.drives = []) : e.KeepsOk k := by
  refine ⟨by rw [hc], fun h => hc ▸ h, fun _ i b _ hb => ?_⟩
  rwa [hd, lastDrive, Option.none_or, ← hc]

/-- `Reset()` (70_reset_and_hazards.md R401): the reset state, every output driven low. -/
theorem Core.resetEff_keepsOk (k : Core) : k.resetEff.KeepsOk k where
  params := by simp
  ok h := by simpa using Core.reset_ok h.valid
  levels _ i b hi hb := by
    rw [Core.resetEff_core] at hb
    simp [hi, Core.reset_outLevel hb]

/-! ## PLIC -/

/-- An operation of a PLIC that keeps parameters and shape and re-evaluates every target (41_plic.md R169). -/
theorem Plic.keepsOk_of_drives {p : Plic} {e : Eff Plic} (hp : e.core.params = p.params)
    (hs : p.shapeOk = true → e.core.shapeOk = true) (hd : e.drives = e.core.drives) : (e.lift .plic).KeepsOk (.plic p) where
  params := congrArg CtrlParams.plic hp
  ok h := ⟨(congrArg (fun q => (CtrlParams.plic q).valid) hp).trans h.valid, hs h.shape, rfl⟩
  levels _ i b hi hb := by
    have hi' : i < e.core.params.numTargets := hp ▸ hi
    rw [Eff.lift_drives, hd, lastDrive_plic, if_pos hi', Option.some_or]
    exact hb

theorem Plic.input_keepsOk (p : Plic) (i : Nat) (v : Bool) : ((p.input i v).lift .plic).KeepsOk (.plic p) :=
  Plic.keepsOk_of_drives (by simp [Plic.input]) (Plic.shapeOk_modSource i _) rfl

/-- Of the three cases of `SetPriority` two only report (41_plic.md R163). -/
theorem Plic.setPriority_keepsOk (p : Plic) (i : Nat) (v : Word) : ((p.setPriority i v).lift .plic).KeepsOk (.plic p) := by
  unfold Plic.setPriority
  split
  · exact .of_same rfl rfl
  · split
    · exact .of_same rfl rfl
    · exact Plic.keepsOk_of_drives (by simp) (Plic.shapeOk_modSource i _) rfl

theorem Plic.enableSource_params (p : Plic) (t i : Nat) (en : Bool) : (p.enableSource t i en).1.params = p.params := by
  unfold Plic.enableSource
  split
  · rfl
  · split <;> rfl

theorem Plic.enableBits_params (t w : Nat) (v : Word) (bits : List Nat) (a : Plic × List Diag) :
    (bits.foldl (Plic.enableBit t w v) a).1.params = a.1.params := by
  induction bits generalizing a with
  | nil => rfl
  | cons b bits ih =>
    rw [List.foldl_cons, ih, Plic.enableBit]
    split
    · rfl
    · exact Plic.enableSource_params ..

theorem Plic.writeEnable_keepsOk (p : Plic) (t w : Nat) (v : Word) : ((p.writeEnable t w v).lift .plic).KeepsOk (.plic p) := by
  by_cases ht : t < p.params.numTargets
  · have hnt : ¬ p.params.numTargets ≤ t := by omega
    refine Plic.keepsOk_of_drives ?_ (fun h => ?_) ?_
    · simp only [Plic.writeEnable, hnt, if_false, Plic.enableBits_params]
    · obtain ⟨-, -, hs, -⟩ := Plic.writeEnable_spec (w := w) (v := v) ht h
      exact hs
    · simp only [Plic.writeEnable, hnt, if_false]
  · rw [Plic.writeEnable, if_pos (by omega)]
    exact .of_same rfl rfl

/-- A claim puts on the stack a candidate, which is a real source (41_plic.md R167). -/
theorem Plic.claim_keepsOk (p : Plic) (t : Nat) : ((p.claim t).lift .plic).KeepsOk (.plic p) := by
  by_cases ht : t < p.params.numTargets
  · cases hsel : p.selected t with
    | none =>
      rw [Plic.claim_none ht hsel]
      exact .of_same rfl rfl
    | some i =>
      rw [Plic.claim_some ht hsel]
      have hi := (Plic.mem_candidates.1 (Plic.selected_eq_some.1 hsel).1).1
      refine Plic.keepsOk_of_drives (by simp) (fun h => ?_) rfl
      refine Plic.shapeOk_modTarget _ _ (Plic.shapeOk_modSource i _ h) (fun _ => rfl) (fun x j hj => ?_)
      rcases List.mem_append.1 hj with hj | hj
      · exact .inl hj
      · rw [List.mem_singleton.1 hj, Plic.modSource_params]
        exact .inr hi
  · rw [Plic.claim, if_pos (by omega)]
    exact .of_same rfl rfl

/-- Of the cases of `Complete` all but the last only report: there the completed source leaves the top of the stack
(41_plic.md R168). -/
theorem Plic.complete_keepsOk (p : Plic) (t : Nat) (v : Word) : ((p.complete t v).lift .plic).KeepsOk (.plic p) := by
  unfold Plic.complete
  split
  · exact .of_same rfl rfl
  · split
    · exact .of_same rfl rfl
    · split
      · exact .of_same rfl rfl
      · split
        · exact .of_same rfl rfl
        · exact Plic.keepsOk_of_drives (by simp) (fun h => Plic.shapeOk_modSource _ _
            (Plic.shapeOk_modTarget _ _ h (fun _ => rfl) (fun _ _ hj => .inl (List.mem_of_mem_dropLast hj)))) rfl

/-! ## VIC -/

/-- An operation of a VIC that keeps parameters and shape and ends in `Update` (42_vic.md R214). -/
theorem Vic.keepsOk_of_update {v u : Vic} {e : Eff Vic} (hp : u.params = v.params) (hs : v.shapeOk = true → u.shapeOk = true)
    (hc : e.core = u.purge) (hd : e.drives = u.purge.drives) : (e.lift .vic).KeepsOk (.vic v) where
  params := by simp [Core.params, hc, hp]
  ok h := by
    obtain ⟨hshape, hends⟩ := Vic.purge_shapeOk (hs h.shape)
    rw [Eff.lift_core, hc]
    exact ⟨rfl, hshape, hends⟩
  levels _ i b hi hb := by
    rw [Eff.lift_core, hc, Core.outLevel] at hb
    rw [Eff.lift_drives, hd, lastDrive_vic]
    have hi : i < 2 := hi
    obtain rfl | rfl : i = 0 ∨ i = 1 := by omega
    · simpa using hb
    · simpa using hb

/-- `Update` itself, after a change that keeps parameters and shape. -/
theorem Vic.update_keepsOk {v u : Vic} (hp : u.params = v.params) (hs : v.shapeOk = true → u.shapeOk = true) :
    (u.update.lift .vic).KeepsOk (.vic v) :=
  Vic.keepsOk_of_update hp hs rfl rfl

theorem Vic.foldChange_params (f : LineField) (b : Bool) (ls : List Nat) (v : Vic) :
    (ls.foldl (Vic.change f b) v).params = v.params := by
  induction ls generalizing v with
  | nil => rfl
  | cons L ls ih => rw [List.foldl_cons, ih, Vic.change_params]

theorem Vic.writeLines_keepsOk (v : Vic) (f : LineField) (b : Bool) (w : Word) :
    ((v.writeLines f b w).lift .vic).KeepsOk (.vic v) :=
  Vic.update_keepsOk (Vic.foldChange_params ..) (Vic.foldChange_shapeOk (nodup_bitsOf w) (fun _ => lt_of_mem_bitsOf))

/-- `Change` of one existing line keeps the shape. -/
theorem Vic.change_shapeOk {f : LineField} {b : Bool} {v : Vic} {L : Nat} (hL : L < 32) (h : v.shapeOk = true) :
    (Vic.change f b v L).shapeOk = true :=
  Vic.foldChange_shapeOk (ls := [L]) (List.nodup_singleton L) (by simpa using hL) h

/-- The shape asks only how many slots and addresses there are, and of queue and stack. -/
theorem Vic.shapeOk_of_eq {v u : Vic} (h : v.shapeOk = true) (hs : u.slots.length = v.slots.length)
    (ha : u.addrs.length = v.addrs.length) (hq : u.queue = v.queue) (ht : u.stack = v.stack) : u.shapeOk = true := by
  rwa [Vic.shapeOk, hs, ha, hq, ht]

theorem Vic.writeVectCntl_keepsOk (v : Vic) (n : Nat) (w : Word) : ((v.writeVectCntl n w).lift .vic).KeepsOk (.vic v) :=
  Vic.update_keepsOk rfl fun h => Vic.shapeOk_of_eq h List.length_set rfl rfl rfl

/-- An acknowledge moves the front of the queue to the top of the stack (42_vic.md R208). -/
theorem Vic.acknowledge_keepsOk (v : Vic) : (v.acknowledge.lift .vic).KeepsOk (.vic v) := by
  unfold Vic.acknowledge
  split
  · exact .of_same rfl rfl
  · next e rest hq =>
    refine Vic.keepsOk_of_update (u := { v with queue := rest, stack := v.stack ++ [e] }) rfl (fun h => ?_) rfl rfl
    rw [Vic.shapeOk_iff, hq] at h
    rw [Vic.shapeOk_iff]
    obtain ⟨hslots, haddrs, hqueue, hstack, hsorted⟩ := h
    obtain ⟨he, hrest⟩ := List.forall_mem_cons.1 hqueue
    exact ⟨hslots, haddrs, hrest, List.forall_mem_append.2 ⟨hstack, by simpa using he⟩, (List.pairwise_cons.1 hsorted).2⟩

theorem Vic.finish_keepsOk (v : Vic) (w : Word) : ((v.finish w).lift .vic).KeepsOk (.vic v) := by
  unfold Vic.finish
  split
  · exact .of_same rfl rfl
  · refine Vic.update_keepsOk rfl fun h => ?_
    rw [Vic.shapeOk_iff] at h ⊢
    obtain ⟨hslots, haddrs, hqueue, hstack, hsorted⟩ := h
    exact ⟨hslots, haddrs, hqueue, fun e he => hstack e (List.mem_of_mem_dropLast he), hsorted⟩

/-- A write of an address changes nothing the invariant speaks of (42_vic.md R211). -/
theorem Vic.writeDefVectAddr_keepsOk (v : Vic) (w : Word) : ((v.writeDefVectAddr w).lift .vic).KeepsOk (.vic v) where
  params := rfl
  ok h := ⟨rfl, Vic.shapeOk_of_eq (v := v) h.shape rfl rfl rfl rfl, h.ends⟩
  levels _ _ _ _ hb := hb

theorem Vic.writeVectAddrN_keepsOk (v : Vic) (n : Nat) (w : Word) : ((v.writeVectAddrN n w).lift .vic).KeepsOk (.vic v) where
  params := rfl
  ok h := ⟨rfl, Vic.shapeOk_of_eq (v := v) h.shape rfl List.length_set rfl rfl, h.ends⟩
  levels _ _ _ _ hb := hb

/-! ## EXTI -/

/-- An operation of an EXTI that keeps parameters and shape and drives each configurable line to its bit of `PR`, or leaves both
as they are (10_state.md R52). -/
theorem Exti.keepsOk_of_pr {x : Exti} {e : Eff Exti} (hp : e.core.params = x.params)
    (hs : (CtrlParams.exti x.params).valid = true → x.shapeOk = true → e.core.shapeOk = true)
    (hd : (CtrlParams.exti x.params).valid = true → ∀ i, x.params.configurableMask.getLsbD i = true →
      (lastDrive e.drives i).or (some (x.pr.getLsbD i)) = some (e.core.pr.getLsbD i)) : (e.lift .exti).KeepsOk (.exti x) where
  params := congrArg CtrlParams.exti hp
  ok h := ⟨(congrArg (fun q => (CtrlParams.exti q).valid) hp).trans h.valid, hs h.valid h.shape, rfl⟩
  levels h i b _ hb := by
    rw [Eff.lift_core, Core.outLevel, hp] at hb
    by_cases hc : x.params.configurableMask.getLsbD i = true
    · rw [if_pos hc] at hb
      rw [Eff.lift_drives, Core.outLevel, if_pos hc, hd h.valid i hc, hb]
    · rw [if_neg hc] at hb
      cases hb

theorem extiClass_configurable {q : ExtiParams} {n : Int} (h : extiClass q n = .configurable) :
    n.toNat < q.numLines ∧ q.configurableMask.getLsbD n.toNat = true := by
  unfold extiClass at h
  split at h
  · cases h
  · next hn =>
    split at h
    · next hc => exact ⟨by omega, hc⟩
    · split at h <;> cases h

theorem extiClass_direct {q : ExtiParams} {n : Int} (h : extiClass q n = .direct) :
    q.configurableMask.getLsbD n.toNat = false := by
  unfold extiClass at h
  split at h
  · cases h
  · split at h
    · cases h
    · next hc => exact Bool.eq_false_iff.2 hc

theorem Exti.onConfigurable_keepsOk (x : Exti) {L : Nat} (v : Bool) (hL : L < x.params.numLines)
    (hc : x.params.configurableMask.getLsbD L = true) : ((x.onConfigurable L v).lift .exti).KeepsOk (.exti x) := by
  unfold Exti.onConfigurable
  split
  · have h32 : (CtrlParams.exti x.params).valid = true → L < 32 := fun h => by
      obtain ⟨-, hle, -⟩ := ExtiParams.numLines_le h
      omega
    refine Exti.keepsOk_of_pr rfl (fun hv h => ?_) (fun hv i _ => ?_)
    · rw [Exti.shapeOk_iff] at h ⊢
      obtain ⟨himr, hrtsr, hftsr, hpr⟩ := h
      refine ⟨himr, hrtsr, hftsr, fun i hi hb => ?_⟩
      by_cases hiL : i = L
      · exact (Exti.configMask_bit hv i).trans (hiL ▸ hc)
      · exact hpr i hi (by simpa [putBit_bit (h32 hv), hiL] using hb)
    · rw [Eff.change_core, Eff.change_drives, putBit_bit (h32 hv)]
      by_cases hiL : L = i
      · simp [lastDrive, hiL]
      · simp [lastDrive, hiL, Ne.symm hiL]
  · exact .of_same rfl rfl

/-- A direct line has no bit in `PR`, and the invariant says nothing of its level (43_exti.md R255). -/
theorem Exti.onDirect_keepsOk (x : Exti) {L : Nat} (v : Bool) (hc : x.params.configurableMask.getLsbD L = false) :
    ((x.onDirect L v).lift .exti).KeepsOk (.exti x) := by
  unfold Exti.onDirect
  split
  · refine Exti.keepsOk_of_pr rfl (fun _ h => h) (fun _ i hi => ?_)
    have hiL : L ≠ i := by
      rintro rfl
      rw [hc] at hi
      cases hi
    simp [lastDrive, hiL]
  · exact .of_same rfl rfl

/-- A bit that a masked write leaves set lies in the mask, if it did before. -/
theorem writeField_bit_mask {m : AccessMode} {mask stored w : Word} {i : Nat}
    (h : stored.getLsbD i = true → mask.getLsbD i = true) (hb : (writeField m mask stored w).getLsbD i = true) :
    mask.getLsbD i = true := by
  rw [writeField_bit] at hb
  by_cases hm : mask.getLsbD i = true
  · exact hm
  · rw [if_neg hm] at hb
    exact h hb

theorem Exti.writeImr_keepsOk (x : Exti) (w : Word) : ((x.writeImr w).lift .exti).KeepsOk (.exti x) := by
  refine Exti.keepsOk_of_pr rfl (fun _ h => ?_) (fun _ _ _ => rfl)
  rw [Exti.shapeOk_iff] at h ⊢
  obtain ⟨himr, hrtsr, hftsr, hpr⟩ := h
  exact ⟨fun i hi => writeField_bit_mask (himr i hi), hrtsr, hftsr, hpr⟩

theorem Exti.writeRtsr_keepsOk (x : Exti) (w : Word) : ((x.writeRtsr w).lift .exti).KeepsOk (.exti x) := by
  refine Exti.keepsOk_of_pr rfl (fun _ h => ?_) (fun _ _ _ => rfl)
  rw [Exti.shapeOk_iff] at h ⊢
  obtain ⟨himr, hrtsr, hftsr, hpr⟩ := h
  exact ⟨himr, fun i hi => writeField_bit_mask (hrtsr i hi), hftsr, hpr⟩

theorem Exti.writeFtsr_keepsOk (x : Exti) (w : Word) : ((x.writeFtsr w).lift .exti).KeepsOk (.exti x) := by
  refine Exti.keepsOk_of_pr rfl (fun _ h => ?_) (fun _ _ _ => rfl)
  rw [Exti.shapeOk_iff] at h ⊢
  obtain ⟨himr, hrtsr, hftsr, hpr⟩ := h
  exact ⟨himr, hrtsr, fun i hi => writeField_bit_mask (hftsr i hi), hpr⟩

theorem Exti.writeSwier_keepsOk (x : Exti) (w : Word) : ((x.writeSwier w).lift .exti).KeepsOk (.exti x) := by
  refine Exti.keepsOk_of_pr rfl (fun hv h => ?_) (fun hv i _ => ?_)
  · rw [Exti.shapeOk_iff] at h ⊢
    obtain ⟨himr, hrtsr, hftsr, hpr⟩ := h
    refine ⟨himr, hrtsr, hftsr, fun i hi hb => ?_⟩
    simp only [Exti.writeSwier, Eff.change_core, BitVec.getLsbD_or, Bool.or_eq_true] at hb
    rcases hb with hb | hb
    · exact hpr i hi hb
    · rw [Exti.forced_bit hv, Bool.and_eq_true, Bool.and_eq_true] at hb
      exact (Exti.configMask_bit hv i).trans hb.1.2
  · simp only [Exti.writeSwier, Eff.change_drives, Eff.change_core, lastDrive_bitsOf, BitVec.getLsbD_or]
    cases (x.forced w).getLsbD i <;> simp

theorem Exti.writePr_keepsOk (x : Exti) (w : Word) : ((x.writePr w).lift .exti).KeepsOk (.exti x) := by
  refine Exti.keepsOk_of_pr rfl (fun _ h => ?_) (fun hv i hi => ?_)
  · rw [Exti.shapeOk_iff] at h ⊢
    obtain ⟨himr, hrtsr, hftsr, hpr⟩ := h
    exact ⟨himr, hrtsr, hftsr, fun i hi => writeField_bit_mask (hpr i hi)⟩
  · have hm : x.configMask.getLsbD i = true := (Exti.configMask_bit hv i).trans hi
    have hlt : i < 32 := BitVec.lt_of_getLsbD hm
    simp only [Exti.writePr, Eff.change_drives, Eff.change_core, lastDrive_bitsOf, writeField_bit, hm, if_true,
      AccessMode.after, BitVec.getLsbD_and, BitVec.getLsbD_not, hlt]
    cases w.getLsbD i <;> simp

/-! ## INTMUX -/

/-- An operation of an INTMUX that keeps parameters and shape and re-evaluates every channel (44_intmux.md R293). -/
theorem Mux.reEvaluate_keepsOk {m n : Mux} (hp : n.params = m.params)
    (hs : (CtrlParams.intmux m.params).valid = true → m.shapeOk = true → n.shapeOk = true) :
    (n.reEvaluate.lift .intmux).KeepsOk (.intmux m) where
  params := congrArg CtrlParams.intmux hp
  ok h := ⟨(congrArg (fun q => (CtrlParams.intmux q).valid) hp).trans h.valid, hs h.valid h.shape, rfl⟩
  levels _ i b hi hb := by
    have hi' : i < n.params.numChannels := hp ▸ hi
    rw [Eff.lift_drives, Mux.reEvaluate_drives, lastDrive_mux, if_pos hi', Option.some_or]
    exact hb

theorem Mux.shapeOk_iff (m : Mux) :
    m.shapeOk = true ↔ m.chans.length = m.params.numChannels ∧
      (∀ i < 32, m.inputs.getLsbD i = true → m.sourceMask.getLsbD i = true) ∧
      ∀ x ∈ m.chans, x.ier &&& ~~~m.sourceMask = 0 := by
  simp only [Mux.shapeOk, Bool.and_eq_true, decide_eq_true_eq, List.all_eq_true, and_not_eq_zero_iff, and_assoc]

/-- A change of one channel whose new enable bits are of existing sources keeps the shape. -/
theorem Mux.modChan_shapeOk {m : Mux} (ch : Nat) {f : MuxChan → MuxChan} (h : m.shapeOk = true)
    (hf : ∀ x, x.ier &&& ~~~m.sourceMask = 0 → (f x).ier &&& ~~~m.sourceMask = 0) : (m.modChan ch f).shapeOk = true := by
  rw [Mux.shapeOk_iff] at h ⊢
  obtain ⟨hlen, hin, hier⟩ := h
  refine ⟨by simpa [Mux.modChan] using hlen, hin, fun x hx => ?_⟩
  rcases mem_modify hx with hx | ⟨y, hy, rfl⟩
  · exact hier x hx
  · exact hf y (hier y hy)

theorem Mux.writeIer_keepsOk (m : Mux) (ch : Nat) (w : Word) : ((m.writeIer ch w).lift .intmux).KeepsOk (.intmux m) :=
  Mux.reEvaluate_keepsOk rfl fun _ h => Mux.modChan_shapeOk ch h fun _ _ =>
    and_not_eq_zero_iff.2 fun i _ hi => by
      rw [BitVec.getLsbD_and, Bool.and_eq_true] at hi
      exact hi.2

theorem Mux.writeMode_keepsOk (m : Mux) (ch : Nat) (w : Word) : ((m.writeMode ch w).lift .intmux).KeepsOk (.intmux m) :=
  Mux.reEvaluate_keepsOk rfl fun _ h => Mux.modChan_shapeOk ch h fun _ hx => hx

theorem Mux.resetChan_keepsOk (m : Mux) (ch : Nat) : ((m.resetChan ch).lift .intmux).KeepsOk (.intmux m) :=
  Mux.reEvaluate_keepsOk rfl fun _ h => Mux.modChan_shapeOk ch h fun _ _ => by simp

/-- The input of an existing source is stored. -/
theorem Mux.input_keepsOk (m : Mux) {L : Nat} (v : Bool) (hL : L < m.params.muxSources) :
    ((Mux.reEvaluate { m with inputs := putBit m.inputs L v }).lift .intmux).KeepsOk (.intmux m) := by
  refine Mux.reEvaluate_keepsOk rfl fun hv h => ?_
  obtain ⟨-, h32, -⟩ := MuxParams.muxSources_le hv
  rw [Mux.shapeOk_iff] at h ⊢
  obtain ⟨hlen, hin, hier⟩ := h
  refine ⟨hlen, fun i hi hb => ?_, hier⟩
  by_cases hiL : i = L
  · exact (Mux.sourceMask_bit (m := { m with inputs := putBit m.inputs L v }) h32 i).trans (by simpa [hiL] using hL)
  · refine hin i hi ?_
    simpa [putBit_bit (show L < 32 by omega), hiL] using hb

end Sys2Proof.Machine
end

section
/-! Every instruction is an event of one of three kinds (`exec_isEvent`): a line operation, a level query, or an event on one
controller whose operation keeps that controller's invariant. -/

namespace Sys2Proof.Machine

/-! ## Operations -/

/-- Whatever the operation answers, unless it refuses, keeps the invariant of a controller in state `k`. -/
def AnswersOk (k : Core) (r : Except Refusal (Eff Core)) : Prop := ∀ e, r = .ok e → e.KeepsOk k

/-- The same of an operation on the state of one kind of controller. -/
def AnswersOkOf {α : Type} (f : α → Core) (a : α) (r : Except Refusal (Eff α)) : Prop :=
  ∀ e, r = .ok e → (e.lift f).KeepsOk (f a)

theorem AnswersOkOf.map {α : Type} {f : α → Core} {a : α} {r : Except Refusal (Eff α)} (h : AnswersOkOf f a r) :
    AnswersOk (f a) (r.map (Eff.lift f)) := by
  intro e he
  obtain ⟨e', he', rfl⟩ := Except.map_ok he
  exact h e' he'

theorem AnswersOkOf.ok {α : Type} {f : α → Core} {a : α} {e : Eff α} (h : (e.lift f).KeepsOk (f a)) :
    AnswersOkOf f a (.ok e) := by
  rintro _ ⟨⟩
  exact h

theorem AnswersOkOf.error {α : Type} {f : α → Core} {a : α} {x : Refusal} : AnswersOkOf f a (.error x) := by
  rintro _ ⟨⟩

theorem AnswersOkOf.ite {α : Type} {f : α → Core} {a : α} {c : Prop} [Decidable c] {r r' : Except Refusal (Eff α)}
    (h : AnswersOkOf f a r) (h' : AnswersOkOf f a r') : AnswersOkOf f a (if c then r else r') := by
  split
  · exact h
  · exact h'

theorem AnswersOkOf.guarded {α : Type} {f : α → Core} {a : α} {b : Bool} {e : Eff α} (h : (e.lift f).KeepsOk (f a)) :
    AnswersOkOf f a (Machine.guarded b e) :=
  .ite (.ok h) .error

/-- A read without side effect (20_memory.md R77). -/
theorem AnswersOkOf.read {α : Type} {f : α → Core} {a : α} {v : Word} : AnswersOkOf f a (.ok (Eff.read a v)) :=
  .ok (.of_same rfl rfl)

theorem Plic.onGpio_answersOk (p : Plic) (n : Int) (v : Bool) : AnswersOkOf .plic p (p.onGpio n v) :=
  .ite (.ok (p.input_keepsOk n.toNat v)) .error

theorem Vic.onGpio_answersOk (x : Vic) (n : Int) (v : Bool) : AnswersOkOf .vic x (x.onGpio n v) := by
  unfold Vic.onGpio
  split
  · next h =>
    obtain ⟨h0, h32⟩ : 0 ≤ n ∧ n < 32 := by simpa [inputInRange, Config.vicLines] using h
    have hn : n.toNat < 32 := by omega
    exact .ok (Vic.update_keepsOk (Vic.change_params ..) (Vic.change_shapeOk hn))
  · exact .ok (.of_same rfl rfl)

theorem Exti.onGpio_answersOk (x : Exti) (n : Int) (v : Bool) : AnswersOkOf .exti x (x.onGpio n v) := by
  unfold Exti.onGpio
  cases hc : extiClass x.params n with
  | configurable =>
    obtain ⟨hlt, hmask⟩ := extiClass_configurable hc
    exact .ok (x.onConfigurable_keepsOk v hlt hmask)
  | direct => exact .ok (x.onDirect_keepsOk v (extiClass_direct hc))
  | dropped => exact .ok (.of_same rfl rfl)
  | outOfRange => exact .ok (.of_same rfl rfl)

theorem Mux.onGpio_answersOk (m : Mux) (n : Int) (v : Bool) : AnswersOkOf .intmux m (m.onGpio n v) := by
  unfold Mux.onGpio
  split
  · next h =>
    obtain ⟨h0, hlt⟩ : 0 ≤ n ∧ n < m.params.muxSources := by simpa [inputInRange] using h
    have hn : n.toNat < m.params.muxSources := by omega
    exact .ok (m.input_keepsOk v hn)
  · exact .ok (.of_same rfl rfl)

theorem Core.onGpio_answersOk (k : Core) (n : Int) (v : Bool) : AnswersOk k (k.onGpio n v) := by
  cases k with
  | plic p => exact (p.onGpio_answersOk n v).map
  | vic x => exact (x.onGpio_answersOk n v).map
  | exti x => exact (x.onGpio_answersOk n v).map
  | intmux m => exact (m.onGpio_answersOk n v).map

/-- So does `OnGPIO` as delivered during a system reset. -/
theorem Core.hearGpio_answersOk (settled : Bool) (k : Core) (n : Int) (v : Bool) : AnswersOk k (k.hearGpio settled n v) := by
  intro e he
  cases settled with
  | false => exact k.onGpio_answersOk n v e (by rwa [Core.hearGpio_false] at he)
  | true =>
    obtain ⟨hcore, hdrives⟩ := Core.hearGpio_settled he
    exact .of_same hcore hdrives

theorem onPlic_answersOk {f : Plic → Except Refusal (Eff Plic)} (h : ∀ p, AnswersOkOf .plic p (f p)) (k : Core) :
    AnswersOk k (onPlic f k) := by
  cases k with
  | plic p => exact (h p).map
  | _ => rintro _ ⟨⟩

theorem onVic_answersOk {f : Vic → Except Refusal (Eff Vic)} (h : ∀ x, AnswersOkOf .vic x (f x)) (k : Core) :
    AnswersOk k (onVic f k) := by
  cases k with
  | vic x => exact (h x).map
  | _ => rintro _ ⟨⟩

theorem onExti_answersOk {f : Exti → Except Refusal (Eff Exti)} (h : ∀ x, AnswersOkOf .exti x (f x)) (k : Core) :
    AnswersOk k (onExti f k) := by
  cases k with
  | exti x => exact (h x).map
  | _ => rintro _ ⟨⟩

theorem onMux_answersOk {f : Mux → Except Refusal (Eff Mux)} (h : ∀ m, AnswersOkOf .intmux m (f m)) (k : Core) :
    AnswersOk k (onMux f k) := by
  cases k with
  | intmux m => exact (h m).map
  | _ => rintro _ ⟨⟩

/-- An access that falls to no register, or to a read-only one, changes no state on any kind of controller. -/
theorem guarded_answersOk {b : Bool} {k : Core} {e : Eff Core} (hc : e.core = k) (hd : e.drives = []) :
    AnswersOk k (guarded b e) := by
  cases b with
  | false => rintro _ ⟨⟩
  | true =>
    rintro _ ⟨⟩
    exact .of_same hc hd

/-! ## Instructions -/

/-- What the meaning of an instruction at a state can be. -/
inductive IsEvent (s : State) : Host.Outcome State Fault Refusal → Prop where
  | line (L : LineRef) (levels : List Bool) : IsEvent s (lineEvent s L levels)
  | query (L : LineRef) : IsEvent s (queryEvent s L)
  | ctrl (c : Nat) {f : Core → Except Refusal (Eff Core)} (hf : ∀ k, AnswersOk k (f k)) : IsEvent s (ctrlEvent s c f)

theorem IsEvent.plic {s : State} (c : Nat) {f : Plic → Except Refusal (Eff Plic)} (h : ∀ p, AnswersOkOf .plic p (f p)) :
    IsEvent s (ctrlEvent s c (onPlic f)) := .ctrl c (onPlic_answersOk h)

theorem IsEvent.vic {s : State} (c : Nat) {f : Vic → Except Refusal (Eff Vic)} (h : ∀ x, AnswersOkOf .vic x (f x)) :
    IsEvent s (ctrlEvent s c (onVic f)) := .ctrl c (onVic_answersOk h)

theorem IsEvent.exti {s : State} (c : Nat) {f : Exti → Except Refusal (Eff Exti)} (h : ∀ x, AnswersOkOf .exti x (f x)) :
    IsEvent s (ctrlEvent s c (onExti f)) := .ctrl c (onExti_answersOk h)

theorem IsEvent.mux {s : State} (c : Nat) {f : Mux → Except Refusal (Eff Mux)} (h : ∀ m, AnswersOkOf .intmux m (f m)) :
    IsEvent s (ctrlEvent s c (onMux f)) := .ctrl c (onMux_answersOk h)

/-- Every instruction is a line operation, a level query or an event on one controller. -/
theorem exec_isEvent (i : Instr) (s : State) : IsEvent s (exec i s) := by
  cases i with
  | slSet L v => exact .line L [v]
  | slSetTrue L => exact .line L [true]
  | slUnset L => exact .line L [false]
  | slBlink L => exact .line L [true, false]
  | slQuery L => exact .query L
  | plicOnGpio c n v => exact .plic c fun p => .ite (p.onGpio_answersOk n v) .error
  | plicOnGpioOutOfRange c n v => exact .plic c fun p => .ite .error (p.onGpio_answersOk n v)
  | plicPriorityWrite c i v => exact .plic c fun p => .guarded (p.setPriority_keepsOk i v)
  | plicPriorityRead c i => exact .plic c fun p => .guarded (.of_same rfl rfl)
  | plicEnableWrite c t w v => exact .plic c fun p => .guarded (p.writeEnable_keepsOk t w v)
  | plicEnableRead c t w => exact .plic c fun p => .guarded (.of_same rfl rfl)
  | plicClaimRead c t => exact .plic c fun p => .ok (p.claim_keepsOk t)
  | plicCompleteWrite c t v => exact .plic c fun p => .ok (p.complete_keepsOk t v)
  | plicReset c => exact .plic c fun p => .ok (Core.resetEff_keepsOk (.plic p))
  | vicOnGpio c n v => exact .vic c fun x => .ite (x.onGpio_answersOk n v) .error
  | vicOnGpioOutOfRange c n v => exact .vic c fun x => .ite .error (x.onGpio_answersOk n v)
  | vicIrqStatusRead c => exact .vic c fun _ => .read
  | vicFiqStatusRead c => exact .vic c fun _ => .read
  | vicRawIntrRead c => exact .vic c fun _ => .read
  | vicIntSelectRead c => exact .vic c fun _ => .read
  | vicIntSelectWrite c v =>
    exact .vic c fun x => .ite .error (.ok (Vic.update_keepsOk rfl fun h => Vic.shapeOk_of_eq h rfl rfl rfl rfl))
  | vicIntEnableRead c => exact .vic c fun _ => .read
  | vicIntEnableWrite c v => exact .vic c fun x => .ok (x.writeLines_keepsOk .enabled true v)
  | vicIntEnClearRead c => exact .vic c fun _ => .read
  | vicIntEnClearWrite c v => exact .vic c fun x => .ok (x.writeLines_keepsOk .enabled false v)
  | vicSoftIntRead c => exact .vic c fun _ => .read
  | vicSoftIntWrite c v => exact .vic c fun x => .ok (x.writeLines_keepsOk .softState true v)
  | vicSoftIntClearRead c => exact .vic c fun _ => .read
  | vicSoftIntClearWrite c v => exact .vic c fun x => .ok (x.writeLines_keepsOk .softState false v)
  | vicVectAddrRead c => exact .vic c fun x => .ok x.acknowledge_keepsOk
  | vicVectAddrWrite c v => exact .vic c fun x => .ok (x.finish_keepsOk v)
  | vicDefVectAddrRead c => exact .vic c fun _ => .read
  | vicDefVectAddrWrite c v => exact .vic c fun x => .ok (x.writeDefVectAddr_keepsOk v)
  | vicVectAddrNRead c n => exact .vic c fun x => .guarded (.of_same rfl rfl)
  | vicVectAddrNWrite c n v => exact .vic c fun x => .guarded (x.writeVectAddrN_keepsOk n v)
  | vicVectCntlRead c n => exact .vic c fun x => .guarded (.of_same rfl rfl)
  | vicVectCntlWrite c n v => exact .vic c fun x => .guarded (x.writeVectCntl_keepsOk n v)
  | vicReset c => exact .vic c fun x => .ok (Core.resetEff_keepsOk (.vic x))
  | extiOnGpioConfigurable c n v => exact .exti c fun x => .ite (x.onGpio_answersOk n v) .error
  | extiOnGpioDirect c n v => exact .exti c fun x => .ite (x.onGpio_answersOk n v) .error
  | extiOnGpioDropped c n v => exact .exti c fun x => .ite (x.onGpio_answersOk n v) .error
  | extiOnGpioOutOfRange c n v => exact .exti c fun x => .ite (x.onGpio_answersOk n v) .error
  | extiImrRead c => exact .exti c fun _ => .read
  | extiImrWrite c v => exact .exti c fun x => .ok (x.writeImr_keepsOk v)
  | extiRtsrRead c => exact .exti c fun _ => .read
  | extiRtsrWrite c v => exact .exti c fun x => .ok (x.writeRtsr_keepsOk v)
  | extiFtsrRead c => exact .exti c fun _ => .read
  | extiFtsrWrite c v => exact .exti c fun x => .ok (x.writeFtsr_keepsOk v)
  | extiSwierRead c => exact .exti c fun _ => .read
  | extiSwierWrite c v => exact .exti c fun x => .ok (x.writeSwier_keepsOk v)
  | extiPrRead c => exact .exti c fun _ => .read
  | extiPrWrite c v => exact .exti c fun x => .ok (x.writePr_keepsOk v)
  | extiReset c => exact .exti c fun x => .ok (Core.resetEff_keepsOk (.exti x))
  | muxOnGpio c n v => exact .mux c fun m => .ite (m.onGpio_answersOk n v) .error
  | muxOnGpioOutOfRange c n v => exact .mux c fun m => .ite .error (m.onGpio_answersOk n v)
  | muxCsrRead c ch => exact .mux c fun m => .guarded (.of_same rfl rfl)
  | muxCsrModeWrite c ch v => exact .mux c fun m => .guarded (m.writeMode_keepsOk ch v)
  | muxCsrResetWrite c ch v => exact .mux c fun m => .guarded (m.resetChan_keepsOk ch)
  | muxVecRead c ch => exact .mux c fun m => .guarded (.of_same rfl rfl)
  | muxIerRead c ch => exact .mux c fun m => .guarded (.of_same rfl rfl)
  | muxIerWrite c ch v => exact .mux c fun m => .guarded (m.writeIer_keepsOk ch v)
  | muxIprRead c ch => exact .mux c fun m => .guarded (.of_same rfl rfl)
  | muxReset c => exact .mux c fun m => .ok (Core.resetEff_keepsOk (.intmux m))
  | anyUnhandledRead c off => exact .ctrl c fun k => guarded_answersOk (e := Eff.unhandledRead k off) rfl rfl
  | anyUnhandledWrite c off v => exact .ctrl c fun k => guarded_answersOk (e := Eff.unhandledWrite k off) rfl rfl
  | anyReadonlyWrite c off v => exact .ctrl c fun _ => guarded_answersOk rfl rfl

/-- Every event is refused on a platform whose wiring has a cycle (20_memory.md R85; log entry 9). -/
theorem IsEvent.cyclic {s : State} {o : Host.Outcome State Fault Refusal} (h : IsEvent s o) (ha : s.acyclic = false) :
    o = .refused .cyclicWiring := by
  cases h with
  | line L levels => simp [lineEvent, ha]
  | query L => simp [queryEvent, ha]
  | ctrl c hf => exact ctrlEvent_cyclic ha c _

theorem exec_acyclic {i : Instr} {s t : State} (h : exec i s = .next t) : s.acyclic = true := by
  by_contra hn
  rw [(exec_isEvent i s).cyclic (Bool.eq_false_iff.2 hn)] at h
  cases h

/-! ## What each kind of event does to the state -/

theorem toOutcome_next {r : Except Refusal State} {t : State} : toOutcome r = .next t ↔ r = .ok t := by
  cases r <;> simp [toOutcome]

theorem lineEvent_next {s t : State} {L : LineRef} {levels : List Bool} (h : lineEvent s L levels = .next t) :
    ∃ k, L = .ext k ∧ setLevels s.delivery (.ext k) levels { s with reply := none } = .ok t := by
  unfold lineEvent at h
  split at h
  · split at h
    · next hL =>
      cases L with
      | ext k => exact ⟨k, rfl, toOutcome_next.1 h⟩
      | out c i => cases hL
    · cases h
  · cases h

theorem queryEvent_next {s t : State} {L : LineRef} (h : queryEvent s L = .next t) : ∃ v, t = { s with reply := v } := by
  unfold queryEvent at h
  split at h
  · split at h
    · cases h
    · cases h
      exact ⟨_, rfl⟩
  · cases h

/-- Setting a line to one level after another, if storing its level preserves the relation. -/
theorem setLevels_rel {R : State → State → Prop} (hR : Hears R) {dl : Delivery}
    (hdl : ∀ c n v s t, dl c n v s = .ok t → R s t) {L : LineRef} (hlevel : ∀ s v, R s (s.putLevel L v)) :
    ∀ levels s t, setLevels dl L levels s = .ok t → R s t := by
  intro levels
  induction levels with
  | nil =>
    rintro s t ⟨⟩
    exact hR.refl s
  | cons v levels ih =>
    intro s t h
    rw [setLevels] at h
    split at h
    · cases h
    · next s' h1 => exact hR.trans (setLine_rel hR hdl (hlevel s v) h1) (ih s' t h)

/-- What every event preserves: a relation that nested events preserve, and storing the level of an external line, writing what is
returned, and an effect on one controller that keeps its parameters. -/
theorem exec_rel {R : State → State → Prop} (hR : Hears R) (hdl : ∀ k c n v s t, deliver [] k c n v s = .ok t → R s t)
    (hext : ∀ s k v, R s (s.putLevel (.ext k) v)) (hreply : ∀ s v, R s { s with reply := v })
    (hrun : ∀ s t c x e, s.acyclic = true → s.ctrls[c]? = some x → e.KeepsOk x.core → runEff s c e = .ok t → R s t)
    {i : Instr} {s t : State} (h : exec i s = .next t) : R s t := by
  have hi := exec_isEvent i s
  rw [h] at hi
  generalize ho : Host.Outcome.next t = o at hi
  cases hi with
  | line L levels =>
    obtain ⟨k, rfl, hset⟩ := lineEvent_next ho.symm
    exact hR.trans (hreply s none) (setLevels_rel hR (hdl _) (fun s v => hext s k v) levels _ _ hset)
  | query L =>
    obtain ⟨v, rfl⟩ := queryEvent_next ho.symm
    exact hreply s v
  | ctrl c hf =>
    obtain ⟨x, e, ha, hx, he, hrunEff⟩ := ctrlEvent_next ho.symm
    exact hrun s t c x e ha hx (hf x.core e he) hrunEff

end Sys2Proof.Machine
end

section
/-! The invariant of every controller is kept by whatever propagates: by a delivered event with all it nests, by an instruction,
by a system reset. The argument follows one controller `d` at a time: an event on another controller leaves it alone until it is
itself delivered to, and on acyclic wiring nothing its own outputs drive comes back to it before all of them are driven. -/

namespace Sys2Proof.Machine

/-- Controller `d`, if there is one, satisfies its invariant. -/
def State.OkAt (s : State) (d : Nat) : Prop := ∀ x, s.ctrls[d]? = some x → x.ok = true

theorem State.inv_iff (s : State) : s.Inv ↔ ∀ d, s.OkAt d := by
  simp only [State.Inv, State.OkAt, List.mem_iff_getElem?]
  exact ⟨fun h d x hx => h x ⟨d, hx⟩, fun h x ⟨d, hx⟩ => h d x hx⟩

/-- The wiring is kept, and on acyclic wiring the invariant of controller `d`. -/
structure KeepsOkAt (d : Nat) (s t : State) : Prop where
  wiring : t.wiring = s.wiring
  ok : s.acyclic = true → s.OkAt d → t.OkAt d

/-- A change of anything but controller `d` keeps it. -/
theorem KeepsOkAt.of_eq {d : Nat} {s t : State} (hw : t.wiring = s.wiring) (hd : t.ctrls[d]? = s.ctrls[d]?) :
    KeepsOkAt d s t :=
  ⟨hw, fun _ h x hx => h x (hd ▸ hx)⟩

theorem keepsOkAt_hears (d : Nat) : Hears (KeepsOkAt d) where
  refl _ := .of_eq rfl rfl
  trans {a b c} hab hbc :=
    ⟨hbc.wiring.trans hab.wiring, fun ha h => hbc.ok (by rwa [State.acyclic, hab.wiring]) (hab.ok ha h)⟩
  hear _ _ _ _ := .of_eq rfl rfl

/-- Controller `c` takes the state of its own effect and then its outputs are driven: if the deliveries keep the invariant of `d`,
so does the whole. -/
theorem driveAll_putEff_keepsOkAt {done : List Nat} {k c d : Nat} {s t : State} {x : Ctrl} {e : Eff Core}
    (hdl : ∀ c n v s t, deliver done k c n v s = .ok t → KeepsOkAt d s t) (hx : s.ctrls[c]? = some x)
    (he : e.KeepsOk x.core) (h : driveAll (deliver done k) c e.drives (s.putEff c e) = .ok t) : KeepsOkAt d s t := by
  by_cases hc : c = d
  · subst hc
    refine ⟨(driveAll_steady h).2.2.2.1.trans (s.wiring_putEff c e), fun ha hok y hy => ?_⟩
    have hheight := acyclic_height ha (List.getElem?_eq_some_iff.1 hx).1
    rw [driveAll_self hheight _ _ _ (s.wiring_putEff c e) h] at hy
    have hafter : y = x.after e := by simpa [hx, Ctrl.after, eq_comm] using hy
    exact hafter ▸ Ctrl.after_ok (hok x hx) he
  · have hput : KeepsOkAt d s (s.putEff c e) := .of_eq (s.wiring_putEff c e) (by simp [hc])
    exact (keepsOkAt_hears d).trans hput (driveAll_rel (keepsOkAt_hears d) hdl
      (fun s i v => .of_eq (s.wiring_putLevel _ v) (by simp [hc])) _ _ _ h)

/-- A delivered event, with all it nests, keeps the invariant of every controller. -/
theorem deliver_keepsOkAt {done : List Nat} {d : Nat} : ∀ k c n v s t, deliver done k c n v s = .ok t → KeepsOkAt d s t := by
  intro k
  induction k with
  | zero => rintro c n v s t ⟨⟩
  | succ k ih =>
    intro c n v s t h
    simp only [deliver] at h
    split at h
    · cases h
    · next x hx =>
      split at h
      · cases h
      · next e he => exact driveAll_putEff_keepsOkAt ih hx (Core.hearGpio_answersOk _ _ _ _ e he) h

theorem putLevel_ext_keepsOkAt (d : Nat) (s : State) (k : Nat) (v : Bool) : KeepsOkAt d s (s.putLevel (.ext k) v) :=
  .of_eq rfl rfl

theorem exec_keepsOkAt {d : Nat} {i : Instr} {s t : State} (h : exec i s = .next t) : KeepsOkAt d s t :=
  exec_rel (keepsOkAt_hears d) deliver_keepsOkAt (putLevel_ext_keepsOkAt d) (fun _ _ => .of_eq rfl rfl)
    (fun s _ _ _ e _ hx he hrun => (keepsOkAt_hears d).trans (b := { s with reply := e.reply }) (.of_eq rfl rfl)
      (driveAll_putEff_keepsOkAt (deliver_keepsOkAt s.depthBound) hx he hrun)) h

/-! ## System reset -/

theorem lowerLines_rel {R : State → State → Prop} (hR : Hears R) {dl : Delivery}
    (hdl : ∀ c n v s t, dl c n v s = .ok t → R s t) (hlevel : ∀ s k v, R s (s.putLevel (.ext k) v)) :
    ∀ ks s t, lowerLines dl ks s = .ok t → R s t := by
  intro ks
  induction ks with
  | nil =>
    rintro s t ⟨⟩
    exact hR.refl s
  | cons k ks ih =>
    intro s t h
    rw [lowerLines] at h
    split at h
    · cases h
    · next s' h1 => exact hR.trans (setLine_rel hR hdl (hlevel s k false) h1) (ih s' t h)

theorem resetInTurn_keepsOkAt {d : Nat} : ∀ order done s t, resetInTurn done order s = .ok t → KeepsOkAt d s t := by
  intro order
  induction order with
  | nil =>
    rintro done s t ⟨⟩
    exact (keepsOkAt_hears d).refl s
  | cons c cs ih =>
    intro done s t h
    rw [resetInTurn] at h
    split at h
    · cases h
    · next x hx =>
      split at h
      · cases h
      · next s' h1 =>
        exact (keepsOkAt_hears d).trans (driveAll_putEff_keepsOkAt (deliver_keepsOkAt _) hx x.core.resetEff_keepsOk h1)
          (ih _ s' t h)

theorem systemReset_next {s t : State} {order : List Nat} (h : s.systemReset order = .next t) :
    s.acyclic = true ∧ ∃ u, lowerLines s.delivery (List.range s.lines.length) { s with reply := none } = .ok u ∧
      resetInTurn [] order u = .ok t := by
  unfold State.systemReset at h
  split at h
  · next ha =>
    split at h
    · split at h
      · cases h
      · next u hu => exact ⟨ha, u, hu, toOutcome_next.1 h⟩
    · cases h
  · cases h

theorem systemReset_keepsOkAt {d : Nat} {s t : State} {order : List Nat} (h : s.systemReset order = .next t) :
    KeepsOkAt d s t := by
  obtain ⟨-, u, hlower, hreset⟩ := systemReset_next h
  have hlow := lowerLines_rel (keepsOkAt_hears d) (deliver_keepsOkAt _) (putLevel_ext_keepsOkAt d) _ _ _ hlower
  have hreply : KeepsOkAt d s { s with reply := none } := .of_eq rfl rfl
  exact (keepsOkAt_hears d).trans ((keepsOkAt_hears d).trans hreply hlow) (resetInTurn_keepsOkAt _ _ _ _ hreset)

/-! ## The whole platform -/

theorem State.Inv.of_keepsOkAt {s t : State} (hs : s.Inv) (ha : s.acyclic = true) (h : ∀ d, KeepsOkAt d s t) : t.Inv :=
  t.inv_iff.2 fun d => (h d).ok ha (s.inv_iff.1 hs d)

theorem exec_inv {i : Instr} {s t : State} (hs : s.Inv) (h : exec i s = .next t) : t.Inv :=
  hs.of_keepsOkAt (exec_acyclic h) fun _ => exec_keepsOkAt h

theorem systemReset_inv {s t : State} {order : List Nat} (hs : s.Inv) (h : s.systemReset order = .next t) : t.Inv :=
  hs.of_keepsOkAt (systemReset_next h).1 fun _ => systemReset_keepsOkAt h

end Sys2Proof.Machine
end

section
/-! What no event changes: the platform's constants, the undelivered events, what the traces and the record of callbacks already
hold (10_state.md R23, R25, R27; 00_scope.md section 3). -/

namespace Sys2Proof.Machine

/-- The platform's constants and the undelivered events are as before, and no trace and no callback is lost. -/
structure SameConstants (s t : State) : Prop where
  wiring : t.wiring = s.wiring
  platform : t.platform = s.platform
  bases : t.ctrls.map Ctrl.base = s.ctrls.map Ctrl.base
  receivers : t.lines.map SigLine.receivers = s.lines.map SigLine.receivers
  inbox : t.inbox = s.inbox
  traces : s.TracesGrow t
  callbacks : ∃ l, t.callbacks = s.callbacks ++ l

theorem SameConstants.of_samePlatform {s t : State} (h : SamePlatform s t) (hc : ∃ l, t.callbacks = s.callbacks ++ l) :
    SameConstants s t := by
  obtain ⟨hinbox, -, hwiring, hplatform, hbases, hreceivers, htraces⟩ := h
  exact ⟨hwiring, hplatform, hbases, hreceivers, hinbox, htraces, hc⟩

theorem SameConstants.of_steady {s t : State} (h : Steady s t) (hc : ∃ l, t.callbacks = s.callbacks ++ l) :
    SameConstants s t :=
  .of_samePlatform (SamePlatform.of_steady h) hc

theorem SameConstants.trans {a b c : State} (h : SameConstants a b) (g : SameConstants b c) : SameConstants a c where
  wiring := g.wiring.trans h.wiring
  platform := g.platform.trans h.platform
  bases := g.bases.trans h.bases
  receivers := g.receivers.trans h.receivers
  inbox := g.inbox.trans h.inbox
  traces := h.traces.trans g.traces
  callbacks := by
    obtain ⟨l, hl⟩ := h.callbacks
    obtain ⟨m, hm⟩ := g.callbacks
    exact ⟨l ++ m, by rw [hm, hl, List.append_assoc]⟩

theorem sameConstants_propagates : Propagates SameConstants where
  refl s := .of_steady (Steady.refl s) ⟨[], by simp⟩
  trans := SameConstants.trans
  hear s r n v := .of_steady (steady_propagates.hear s r n v) ⟨_, rfl⟩
  level s c i v := .of_steady (steady_propagates.level s c i v) ⟨[], by simp⟩
  gpio s c x m n v e hx he := .of_steady (steady_propagates.gpio s c x m n v e hx he) ⟨[], by simp⟩

theorem putLevel_ext_sameConstants (s : State) (k : Nat) (v : Bool) : SameConstants s (s.putLevel (.ext k) v) :=
  .of_samePlatform (SamePlatform.of_putLevel s k v) ⟨[], by simp⟩

theorem reply_sameConstants (s : State) (v : Option Reply) : SameConstants s { s with reply := v } :=
  ⟨rfl, rfl, rfl, rfl, rfl, State.TracesGrow.refl s, [], by simp⟩

/-- One atomic event on a controller, by an effect that keeps its parameters. -/
theorem runEff_sameConstants {s t : State} {c : Nat} {x : Ctrl} {e : Eff Core} (hx : s.ctrls[c]? = some x)
    (he : e.core.params = x.core.params) (h : runEff s c e = .ok t) : SameConstants s t := by
  have hput : SameConstants s (s.putEff c e) := .of_steady (Steady.of_putEff hx he) ⟨[], by simp⟩
  have hbegin : SameConstants s (s.begin c e) := hput.trans (reply_sameConstants _ e.reply)
  exact hbegin.trans (driveAll_rel sameConstants_propagates.toHears (deliver_rel sameConstants_propagates _)
    (fun s i v => sameConstants_propagates.level s c i v) _ _ _ h)

theorem exec_sameConstants {i : Instr} {s t : State} (h : exec i s = .next t) : SameConstants s t :=
  exec_rel sameConstants_propagates.toHears (deliver_rel sameConstants_propagates) putLevel_ext_sameConstants
    reply_sameConstants (fun _ _ _ _ _ _ hx he hrun => runEff_sameConstants hx he.params hrun) h

/-- The trace of each controller, one at a time. -/
theorem State.TracesGrow.trace {s t : State} (h : s.TracesGrow t) {c : Nat} {x y : Ctrl} (hx : s.ctrls[c]? = some x)
    (hy : t.ctrls[c]? = some y) : ∃ l, y.trace = x.trace ++ l := by
  obtain ⟨l, hl⟩ := h c
  exact ⟨l, by simpa [hx, hy] using hl⟩

end Sys2Proof.Machine
end

section
/-! The statements about the state and its reset, settled. -/

namespace Sys2Proof.Proofs

open Sys2Proof.Machine

/-- Settles O1: the equations of `step`. -/
theorem stepRunsDecodedEvent : Obligations.StepRunsDecodedEvent := by
  intro s
  refine ⟨step_nil, fun e rest hs => ⟨?_, fun i hd => step_decoded hs hd, fun err he hd => step_undecodable hs he hd⟩⟩
  rintro order rfl
  exact step_systemReset hs

/-- Settles O2: every list of the reset state is made of copies of one value. -/
theorem resetValuesOfEveryField : Obligations.ResetValuesOfEveryField := by
  refine ⟨fun q => ?plic, fun q => ?vic, fun q => ⟨rfl, rfl, rfl, rfl⟩, fun q => ⟨rfl, fun ch h => ?mux⟩⟩
  case plic =>
    exact ⟨fun i => Plic.reset_source, Plic.reset_isEnabled q, Plic.reset_inService q, List.length_replicate,
      List.length_replicate⟩
  case vic =>
    exact ⟨rfl, rfl, rfl, rfl, fun n h => List.getElem?_replicate_of_lt h, fun n h => List.getElem?_replicate_of_lt h, rfl,
      rfl, rfl⟩
  case mux => exact List.getElem?_replicate_of_lt h

/-- Settles O8: the controllers of `State.reset` are freshly constructed with valid parameters. -/
theorem resetStateIsSound : Obligations.ResetStateIsSound := by
  have hfresh : ∀ x ∈ State.reset.ctrls, ∃ base q fanout, x = Ctrl.fresh base q fanout ∧ q.valid = true := by
    simp only [State.reset, List.forall_mem_cons]
    exact ⟨⟨_, _, _, rfl, by decide⟩, ⟨_, _, _, rfl, by decide⟩, ⟨_, _, _, rfl, by decide⟩, ⟨_, _, _, rfl, by decide⟩,
      List.forall_mem_nil _⟩
  refine ⟨fun x hx => ?inv, by decide, rfl, fun x hx => ?core, by decide, rfl, rfl, rfl⟩
  case inv =>
    obtain ⟨base, q, fanout, rfl, hq⟩ := hfresh x hx
    exact Ctrl.fresh_ok hq
  case core =>
    obtain ⟨base, q, fanout, rfl, -⟩ := hfresh x hx
    exact ⟨congrArg Core.reset (Core.reset_params q).symm, rfl, fun l => Ctrl.fresh_low⟩

/-- Settles O13: an instruction and a system reset keep the invariant, and a step is one of them. -/
theorem everyStepKeepsTheInvariant : Obligations.EveryStepKeepsTheInvariant := by
  intro s t hs h
  rcases step_next h with rfl | ⟨order, rest, hreset⟩ | ⟨i, rest, hexec⟩
  · exact hs
  · exact systemReset_inv (s := { s with inbox := rest }) hs hreset
  · exact exec_inv (s := { s with inbox := rest }) hs hexec

/-- Settles O15: every elementary change inside an event keeps the constants. -/
theorem platformConstantsNeverChange : Obligations.PlatformConstantsNeverChange := by
  intro s t i h
  have hc := exec_sameConstants h
  exact ⟨hc.wiring, hc.platform, hc.bases, hc.receivers, hc.inbox, fun c x y => hc.traces.trace, hc.callbacks⟩

/-- Settles O34: `isActive` bit by bit, `vectorId` as the least assigned slot. -/
theorem vicDerivedValues : Obligations.VicDerivedValues := by
  intro v L _ _
  refine ⟨v.isActive_eq L, fun n => ?_, fun n => Vic.key_of_vectorId, Vic.key_of_unvectored⟩
  rw [Vic.vectorId_eq_some]
  simp only [Vic.assigns, not_exists, not_and, Config.vicSlots]

end Sys2Proof.Proofs
end

section
/-! Decoding taken apart, row by row: the instruction an event of a controller decodes to, and that its own event tuple is the one
decoded (30_encoding.md R100, R105). -/

namespace Sys2Proof

open Machine

/-- The controller an event is for, if it is an input level, a bus access or a reset (30_encoding.md R100). -/
def Event.ctrl? : Event → Option Nat
  | .evGpio c _ _ | .memRead c _ _ | .memWrite c _ _ _ | .evReset c => some c
  | .slSet _ _ | .slBlink _ | .slQuery _ | .systemReset _ => none

theorem busError_eq_none {q : CtrlParams} {off bytes : Nat} (h : busError q off bytes = none) :
    bytes = 4 ∧ off % 4 = 0 ∧ off < q.size := by
  unfold busError at h
  split at h
  · cases h
  · split at h
    · cases h
    · split at h
      · cases h
      · omega

/-- A narrow or misaligned access is a bus error, whatever the window (20_memory.md R74). -/
theorem busError_eq_some {q : CtrlParams} {off bytes : Nat} (h : bytes ≠ 4 ∨ off % 4 ≠ 0) :
    ∃ err, busError q off bytes = some err := by
  cases hb : busError q off bytes with
  | some err => exact ⟨err, rfl⟩
  | none =>
    obtain ⟨h4, hoff, -⟩ := busError_eq_none hb
    omega

theorem decode_evGpio_ok {p : Platform} {c : Nat} {n : Int} {v : Bool} {i : Instr} (h : decode p (.evGpio c n v) = .ok i) :
    ∃ q, p.ctrls[c]? = some q ∧ i = decodeGpio q c n v := by
  simp only [decode] at h
  split at h
  · cases h
  · next q hq => exact ⟨q, hq, (Except.ok.inj h).symm⟩

theorem decode_evReset_ok {p : Platform} {c : Nat} {i : Instr} (h : decode p (.evReset c) = .ok i) :
    ∃ q, p.ctrls[c]? = some q ∧ i = decodeReset q c := by
  simp only [decode] at h
  split at h
  · cases h
  · next q hq => exact ⟨q, hq, (Except.ok.inj h).symm⟩

theorem decode_memRead_ok {p : Platform} {c off bytes : Nat} {i : Instr} (h : decode p (.memRead c off bytes) = .ok i) :
    ∃ q, p.ctrls[c]? = some q ∧ busError q off bytes = none ∧
      i = (regAt q off).elim (.anyUnhandledRead c off) (decodeRegRead c) := by
  simp only [decode] at h
  split at h
  · cases h
  · next q hq =>
    split at h
    · cases h
    · next hb =>
      refine ⟨q, hq, hb, ?_⟩
      split at h <;> next hr => rw [hr]; exact (Except.ok.inj h).symm

theorem decode_memWrite_ok {p : Platform} {c off bytes : Nat} {v : Word} {i : Instr}
    (h : decode p (.memWrite c off bytes v) = .ok i) :
    ∃ q, p.ctrls[c]? = some q ∧ busError q off bytes = none ∧
      i = (regAt q off).elim (.anyUnhandledWrite c off v) (fun r => decodeRegWrite c r v) := by
  simp only [decode] at h
  split at h
  · cases h
  · next q hq =>
    split at h
    · cases h
    · next hb =>
      refine ⟨q, hq, hb, ?_⟩
      split at h <;> next hr => rw [hr]; exact (Except.ok.inj h).symm

theorem decode_slSet_ok {p : Platform} {L : LineRef} {v : Bool} {i : Instr} (h : decode p (.slSet L v) = .ok i) :
    i = .slSet L v := by
  simp only [decode] at h
  split at h
  · cases h
  · exact (Except.ok.inj h).symm

theorem decode_slBlink_ok {p : Platform} {L : LineRef} {i : Instr} (h : decode p (.slBlink L) = .ok i) : i = .slBlink L := by
  simp only [decode] at h
  split at h
  · cases h
  · exact (Except.ok.inj h).symm

theorem decode_slQuery_ok {p : Platform} {L : LineRef} {i : Instr} (h : decode p (.slQuery L) = .ok i) : i = .slQuery L := by
  simp only [decode] at h
  split at h
  · exact (Except.ok.inj h).symm
  · cases h

/-! ## Encoding back -/

theorem encode_decodeGpio (q : CtrlParams) (c : Nat) (n : Int) (v : Bool) : encode (decodeGpio q c n v) = .evGpio c n v := by
  cases q <;> simp only [decodeGpio] <;> split <;> rfl

theorem encode_decodeReset (q : CtrlParams) (c : Nat) : encode (decodeReset q c) = .evReset c := by
  cases q <;> rfl

theorem encode_decodeRegRead (c : Nat) (r : Reg) : encode (decodeRegRead c r) = readOf c r := by
  cases r <;> rfl

/-- A write of `CSR` is one of two rows, both with the tuple of the register's write (30_encoding.md R129). -/
theorem encode_decodeRegWrite (c : Nat) (r : Reg) (v : Word) : encode (decodeRegWrite c r v) = writeOf c r v := by
  cases r with
  | muxCsr ch => simp only [decodeRegWrite]; split <;> rfl
  | _ => rfl

/-- The event tuple of a decoded instruction is the one decoded. -/
theorem encode_of_decode {p : Platform} {e : Event} {i : Instr} (h : decode p e = .ok i) : encode i = e := by
  cases e with
  | evGpio c n v =>
    obtain ⟨q, -, rfl⟩ := decode_evGpio_ok h
    exact encode_decodeGpio q c n v
  | evReset c =>
    obtain ⟨q, -, rfl⟩ := decode_evReset_ok h
    exact encode_decodeReset q c
  | memRead c off bytes =>
    obtain ⟨q, -, hb, rfl⟩ := decode_memRead_ok h
    obtain ⟨rfl, -, -⟩ := busError_eq_none hb
    cases hr : regAt q off with
    | none => rfl
    | some r => exact (encode_decodeRegRead c r).trans (by rw [readOf, (regAt_sound hr).1])
  | memWrite c off bytes v =>
    obtain ⟨q, -, hb, rfl⟩ := decode_memWrite_ok h
    obtain ⟨rfl, -, -⟩ := busError_eq_none hb
    cases hr : regAt q off with
    | none => rfl
    | some r => exact (encode_decodeRegWrite c r v).trans (by rw [writeOf, (regAt_sound hr).1])
  | slSet L v =>
    obtain rfl := decode_slSet_ok h
    rfl
  | slBlink L =>
    obtain rfl := decode_slBlink_ok h
    rfl
  | slQuery L =>
    obtain rfl := decode_slQuery_ok h
    rfl
  | systemReset order => cases h

end Sys2Proof
end

section
/-! In which order an operation drives the outputs of its controller: every operation of every kind of controller drives outputs of
ascending index, each at most once (20_memory.md R82; D3). -/

namespace Sys2Proof.Machine

/-- The outputs driven have ascending indices. -/
def Ascending (ds : List (Nat × Bool)) : Prop := ds.Pairwise (fun a b => a.1 < b.1)

theorem Ascending.nil : Ascending [] := List.Pairwise.nil

theorem Ascending.single (d : Nat × Bool) : Ascending [d] := List.pairwise_singleton ..

theorem Ascending.map {l : List Nat} (f : Nat → Bool) (h : l.Pairwise (· < ·)) : Ascending (l.map (fun i => (i, f i))) :=
  List.pairwise_map.2 h

theorem bitsOf_ascending (w : Word) (b : Bool) : Ascending ((bitsOf w).map (fun L => (L, b))) :=
  .map (fun _ => b) (List.pairwise_lt_range.filter _)

theorem Plic.drives_ascending (p : Plic) : Ascending p.drives := .map p.eval List.pairwise_lt_range

theorem Vic.update_ascending (v : Vic) : Ascending v.update.drives := by
  simp [Ascending, Vic.drives]

theorem Mux.drives_ascending (m : Mux) : Ascending m.drives := .map m.eval List.pairwise_lt_range

theorem Core.resetEff_ascending (k : Core) : Ascending k.resetEff.drives := by
  rw [Core.resetEff_drives]
  exact .map (fun _ => false) List.pairwise_lt_range

theorem Plic.setPriority_ascending (p : Plic) (i : Nat) (v : Word) : Ascending (p.setPriority i v).drives := by
  unfold Plic.setPriority
  split
  · exact .nil
  · split
    · exact .nil
    · exact Plic.drives_ascending _

theorem Plic.writeEnable_ascending (p : Plic) (t w : Nat) (v : Word) : Ascending (p.writeEnable t w v).drives := by
  by_cases ht : p.params.numTargets ≤ t
  · rw [Plic.writeEnable, if_pos ht]
    exact .nil
  · have hdrives : (p.writeEnable t w v).drives = (p.writeEnable t w v).core.drives := by
      simp only [Plic.writeEnable, ht, if_false]
    rw [hdrives]
    exact Plic.drives_ascending _

theorem Plic.claim_ascending (p : Plic) (t : Nat) : Ascending (p.claim t).drives := by
  unfold Plic.claim
  split
  · exact .nil
  · split
    · exact .nil
    · exact Plic.drives_ascending _

theorem Plic.complete_ascending (p : Plic) (t : Nat) (v : Word) : Ascending (p.complete t v).drives := by
  unfold Plic.complete
  split
  · exact .nil
  · split
    · exact .nil
    · split
      · exact .nil
      · split
        · exact .nil
        · exact Plic.drives_ascending _

theorem Vic.acknowledge_ascending (v : Vic) : Ascending v.acknowledge.drives := by
  unfold Vic.acknowledge
  split
  · exact .nil
  · exact Vic.update_ascending _

theorem Vic.finish_ascending (v : Vic) (w : Word) : Ascending (v.finish w).drives := by
  unfold Vic.finish
  split
  · exact .nil
  · exact Vic.update_ascending _

theorem Exti.onConfigurable_ascending (x : Exti) (L : Nat) (v : Bool) : Ascending (x.onConfigurable L v).drives := by
  unfold Exti.onConfigurable
  split
  · exact .single _
  · exact .nil

theorem Exti.onDirect_ascending (x : Exti) (L : Nat) (v : Bool) : Ascending (x.onDirect L v).drives := by
  unfold Exti.onDirect
  split
  · exact .single _
  · exact .nil

end Sys2Proof.Machine
end

section
/-! Every instruction of a controller's event, uniformly: `Instr.IsOp` says which operation of which controller it is, that the
operation keeps the controller's invariant and drives outputs in ascending order, and that it answers whenever the instruction is
well formed and allowed (20_memory.md R80). -/

namespace Sys2Proof.Machine

/-! ## Operations -/

/-- The operation's answer on a controller in state `k`: whatever it is, it keeps the invariant and drives ascending outputs; and
there is one if `wf` holds. -/
structure Performs (k : Core) (wf : Prop) (r : Except Refusal (Eff Core)) : Prop where
  lawful : ∀ e, r = .ok e → e.KeepsOk k ∧ Ascending e.drives
  completes : wf → ∃ e, r = .ok e

/-- The same of an operation on the state of one kind of controller. -/
structure PerformsOf {α : Type} (f : α → Core) (a : α) (wf : Prop) (r : Except Refusal (Eff α)) : Prop where
  answersOk : AnswersOkOf f a r
  ascending : ∀ e, r = .ok e → Ascending e.drives
  completes : wf → ∃ e, r = .ok e

theorem PerformsOf.map {α : Type} {f : α → Core} {a : α} {wf : Prop} {r : Except Refusal (Eff α)} (h : PerformsOf f a wf r) :
    Performs (f a) wf (r.map (Eff.lift f)) where
  lawful e he := by
    obtain ⟨e', he', rfl⟩ := Except.map_ok he
    exact ⟨h.answersOk e' he', h.ascending e' he'⟩
  completes hwf := by
    obtain ⟨e, rfl⟩ := h.completes hwf
    exact ⟨_, rfl⟩

section
variable {α : Type} {f : α → Core} {a : α} {wf : Prop}

theorem PerformsOf.ok {e : Eff α} (h : (e.lift f).KeepsOk (f a)) (hd : Ascending e.drives) : PerformsOf f a wf (.ok e) where
  answersOk := .ok h
  ascending := by rintro _ ⟨⟩; exact hd
  completes _ := ⟨e, rfl⟩

theorem PerformsOf.guarded {b : Bool} {e : Eff α} (hwf : wf → b = true) (h : (e.lift f).KeepsOk (f a))
    (hd : Ascending e.drives) : PerformsOf f a wf (Machine.guarded b e) where
  answersOk := .guarded h
  ascending e' he := by
    cases b
    · cases he
    · cases he
      exact hd
  completes h := by
    rw [hwf h]
    exact ⟨e, rfl⟩

/-- A read without side effect (20_memory.md R77). -/
theorem PerformsOf.read {v : Word} : PerformsOf f a wf (.ok (Eff.read a v)) := .ok (.of_same rfl rfl) .nil

theorem PerformsOf.guardedRead {b : Bool} {v : Word} (hwf : wf → b = true) :
    PerformsOf f a wf (Machine.guarded b (Eff.read a v)) := .guarded hwf (.of_same rfl rfl) .nil

/-- An operation that is run only where its row's condition `c` holds. -/
theorem PerformsOf.ite {c : Prop} [Decidable c] {wf' : Prop} {r : Except Refusal (Eff α)} {x : Refusal} (hc : wf → c ∧ wf')
    (h : PerformsOf f a wf' r) : PerformsOf f a wf (if c then r else .error x) where
  answersOk := .ite h.answersOk .error
  ascending e he := by
    split at he
    · exact h.ascending e he
    · cases he
  completes hwf := by
    rw [if_pos (hc hwf).1]
    exact h.completes (hc hwf).2

/-- An operation that is run only outside its row's condition `c`. -/
theorem PerformsOf.iteNot {c : Prop} [Decidable c] {wf' : Prop} {r : Except Refusal (Eff α)} {x : Refusal}
    (hc : wf → ¬ c ∧ wf') (h : PerformsOf f a wf' r) : PerformsOf f a wf (if c then .error x else r) where
  answersOk := .ite .error h.answersOk
  ascending e he := by
    split at he
    · cases he
    · exact h.ascending e he
  completes hwf := by
    rw [if_neg (hc hwf).1]
    exact h.completes (hc hwf).2

end

/-! ## `OnGPIO` -/

/-- `OnGPIO` of a PLIC answers inside its input range (41_plic.md R161, R162). -/
theorem Plic.onGpio_performs (p : Plic) (n : Int) (v : Bool) :
    PerformsOf .plic p (inputInRange 1 p.params.numSources n = true) (p.onGpio n v) :=
  .ite (fun h => ⟨h, h⟩) (.ok (p.input_keepsOk n.toNat v) (Plic.drives_ascending _))

theorem Vic.onGpio_performs (x : Vic) (n : Int) (v : Bool) : PerformsOf .vic x True (x.onGpio n v) where
  answersOk := x.onGpio_answersOk n v
  ascending e he := by
    unfold Vic.onGpio at he
    split at he <;> cases he
    · exact Vic.update_ascending _
    · exact .nil
  completes _ := by
    unfold Vic.onGpio
    split <;> exact ⟨_, rfl⟩

theorem Exti.onGpio_performs (x : Exti) (n : Int) (v : Bool) : PerformsOf .exti x True (x.onGpio n v) where
  answersOk := x.onGpio_answersOk n v
  ascending e he := by
    unfold Exti.onGpio at he
    split at he <;> cases he
    · exact x.onConfigurable_ascending n.toNat v
    · exact x.onDirect_ascending n.toNat v
    · exact .nil
    · exact .nil
  completes _ := by
    unfold Exti.onGpio
    split <;> exact ⟨_, rfl⟩

theorem Mux.onGpio_performs (m : Mux) (n : Int) (v : Bool) : PerformsOf .intmux m True (m.onGpio n v) where
  answersOk := m.onGpio_answersOk n v
  ascending e he := by
    unfold Mux.onGpio at he
    split at he <;> cases he
    · exact Mux.drives_ascending _
    · exact .nil
  completes _ := by
    unfold Mux.onGpio
    split <;> exact ⟨_, rfl⟩

/-! ## Instructions -/

/-- On every state of platform `p` the instruction `i` is an event on controller `c`, whose operation is `f`. -/
structure IsOp (p : Platform) (i : Instr) (c : Nat) (f : Core → Except Refusal (Eff Core)) : Prop where
  exec_eq : ∀ s : State, s.platform = p → exec i s = ctrlEvent s c f
  lawful : ∀ k e, f k = .ok e → e.KeepsOk k ∧ Ascending e.drives
  completes : ∀ s : State, s.platform = p → i.wellFormed p = true → s.allows i = true →
    ∃ x e, s.ctrls[c]? = some x ∧ f x.core = .ok e

/-- On every state of platform `p` the instruction `i` is an event on controller `c`. -/
def HasOp (p : Platform) (i : Instr) (c : Nat) : Prop := ∃ f, IsOp p i c f

/-- Every controller of the platform is there in the state, with those parameters. -/
theorem State.exists_ctrl {s : State} {c : Nat} {q : CtrlParams} (h : s.platform.ctrls[c]? = some q) :
    ∃ x, s.ctrls[c]? = some x ∧ x.core.params = q := by
  rw [State.platform_ctrls] at h
  exact Option.map_eq_some_iff.1 h

theorem Core.eq_plic {k : Core} {q : PlicParams} (h : k.params = .plic q) : ∃ p : Plic, k = .plic p ∧ p.params = q := by
  cases k <;> cases h
  exact ⟨_, rfl, rfl⟩

theorem Core.eq_vic {k : Core} {q : VicParams} (h : k.params = .vic q) : ∃ x : Vic, k = .vic x := by
  cases k <;> cases h
  exact ⟨_, rfl⟩

theorem Core.eq_exti {k : Core} {q : ExtiParams} (h : k.params = .exti q) : ∃ x : Exti, k = .exti x ∧ x.params = q := by
  cases k <;> cases h
  exact ⟨_, rfl, rfl⟩

theorem Core.eq_mux {k : Core} {q : MuxParams} (h : k.params = .intmux q) : ∃ m : Mux, k = .intmux m ∧ m.params = q := by
  cases k <;> cases h
  exact ⟨_, rfl, rfl⟩

section
variable {p : Platform} {i : Instr} {c : Nat}

/-- A row of a PLIC whose operands satisfy `g` of the parameters. -/
theorem HasOp.plic {f : Plic → Except Refusal (Eff Plic)} {g : PlicParams → Bool}
    (hexec : ∀ s : State, s.platform = p → exec i s = ctrlEvent s c (onPlic f))
    (hwf : i.wellFormed p = true → p.plicWith c g = true) (h : ∀ x, PerformsOf .plic x (g x.params = true) (f x)) :
    HasOp p i c := by
  refine ⟨onPlic f, hexec, fun k e he => ?_, fun s hs hi _ => ?_⟩
  · cases k with
    | plic x => exact (h x).map.lawful e he
    | _ => cases he
  · subst hs
    obtain ⟨q, hq, hg⟩ := Platform.plicWith_iff.1 (hwf hi)
    obtain ⟨x, hx, hparams⟩ := State.exists_ctrl hq
    obtain ⟨a, ha, rfl⟩ := Core.eq_plic hparams
    obtain ⟨e, he⟩ := (h a).map.completes hg
    exact ⟨x, e, hx, by rw [ha]; exact he⟩

/-- A row of a VIC whose operands satisfy `wf`. -/
theorem HasOp.vic {f : Vic → Except Refusal (Eff Vic)} {wf : Prop}
    (hexec : ∀ s : State, s.platform = p → exec i s = ctrlEvent s c (onVic f))
    (hwf : i.wellFormed p = true → p.isVic c = true ∧ wf) (h : ∀ x, PerformsOf .vic x wf (f x)) : HasOp p i c := by
  refine ⟨onVic f, hexec, fun k e he => ?_, fun s hs hi _ => ?_⟩
  · cases k with
    | vic x => exact (h x).map.lawful e he
    | _ => cases he
  · subst hs
    obtain ⟨q, hq⟩ := Platform.isVic_iff.1 (hwf hi).1
    obtain ⟨x, hx, hparams⟩ := State.exists_ctrl hq
    obtain ⟨a, ha⟩ := Core.eq_vic hparams
    obtain ⟨e, he⟩ := (h a).map.completes (hwf hi).2
    exact ⟨x, e, hx, by rw [ha]; exact he⟩

/-- A row of an EXTI whose operands satisfy `g` of the parameters. -/
theorem HasOp.exti {f : Exti → Except Refusal (Eff Exti)} {g : ExtiParams → Bool}
    (hexec : ∀ s : State, s.platform = p → exec i s = ctrlEvent s c (onExti f))
    (hwf : i.wellFormed p = true → p.extiWith c g = true) (h : ∀ x, PerformsOf .exti x (g x.params = true) (f x)) :
    HasOp p i c := by
  refine ⟨onExti f, hexec, fun k e he => ?_, fun s hs hi _ => ?_⟩
  · cases k with
    | exti x => exact (h x).map.lawful e he
    | _ => cases he
  · subst hs
    obtain ⟨q, hq, hg⟩ := Platform.extiWith_iff.1 (hwf hi)
    obtain ⟨x, hx, hparams⟩ := State.exists_ctrl hq
    obtain ⟨a, ha, rfl⟩ := Core.eq_exti hparams
    obtain ⟨e, he⟩ := (h a).map.completes hg
    exact ⟨x, e, hx, by rw [ha]; exact he⟩

/-- A row of an INTMUX whose operands satisfy `g` of the parameters. -/
theorem HasOp.mux {f : Mux → Except Refusal (Eff Mux)} {g : MuxParams → Bool}
    (hexec : ∀ s : State, s.platform = p → exec i s = ctrlEvent s c (onMux f))
    (hwf : i.wellFormed p = true → p.muxWith c g = true) (h : ∀ x, PerformsOf .intmux x (g x.params = true) (f x)) :
    HasOp p i c := by
  refine ⟨onMux f, hexec, fun k e he => ?_, fun s hs hi _ => ?_⟩
  · cases k with
    | intmux x => exact (h x).map.lawful e he
    | _ => cases he
  · subst hs
    obtain ⟨q, hq, hg⟩ := Platform.muxWith_iff.1 (hwf hi)
    obtain ⟨x, hx, hparams⟩ := State.exists_ctrl hq
    obtain ⟨a, ha, rfl⟩ := Core.eq_mux hparams
    obtain ⟨e, he⟩ := (h a).map.completes hg
    exact ⟨x, e, hx, by rw [ha]; exact he⟩

/-- A row of every kind of controller: an access at an offset whose register, or its absence, satisfies `g`; its effect keeps the
state and drives nothing. -/
theorem HasOp.any {off : Nat} {g : Option Reg → Bool} {f : Core → Eff Core}
    (hexec : ∀ s : State, s.platform = p → exec i s = ctrlEvent s c (fun k => guarded (p.windowWith c off g) (f k)))
    (hwf : i.wellFormed p = true → p.windowWith c off g = true) (hc : ∀ k, (f k).core = k) (hd : ∀ k, (f k).drives = []) :
    HasOp p i c := by
  refine ⟨_, hexec, fun k e he => ⟨guarded_answersOk (hc k) (hd k) e he, ?_⟩, fun s hs hi _ => ?_⟩
  · unfold guarded at he
    split at he
    · rw [← Except.ok.inj he, hd]
      exact .nil
    · cases he
  · subst hs
    obtain ⟨q, hq, -⟩ := Platform.windowWith_iff.1 (hwf hi)
    obtain ⟨x, hx, -⟩ := State.exists_ctrl hq
    exact ⟨x, f x.core, hx, by rw [hwf hi]; rfl⟩

/-- A PLIC input out of range has an effect of no kind; it is never allowed (41_plic.md R162). -/
theorem HasOp.plicOutOfRange (p : Platform) (c : Nat) (n : Int) (v : Bool) : HasOp p (.plicOnGpioOutOfRange c n v) c := by
  refine ⟨_, fun _ _ => rfl, fun k e he => ?_, fun s _ _ h => by cases h⟩
  cases k with
  | plic x =>
    refine PerformsOf.map (wf := False) ?_ |>.lawful e he
    exact .iteNot False.elim (x.onGpio_performs n v)
  | _ => cases he

/-- An `INTSELECT` write answers unless it reclassifies a live line (42_vic.md R206). -/
theorem HasOp.intSelect (p : Platform) (c : Nat) (v : Word) : HasOp p (.vicIntSelectWrite c v) c := by
  have hop : ∀ x : Vic, PerformsOf .vic x (x.reclassifiesLive v = false) (x.writeIntSelect v) := fun x =>
    .iteNot (fun h => ⟨by rw [h]; exact Bool.false_ne_true, trivial⟩)
      (.ok (wf := True) (Vic.update_keepsOk rfl fun h => Vic.shapeOk_of_eq h rfl rfl rfl rfl) (Vic.update_ascending _))
  refine ⟨onVic (fun x => x.writeIntSelect v), fun _ _ => rfl, fun k e he => ?_, fun s hs hi ha => ?_⟩
  · cases k with
    | vic x => exact (hop x).map.lawful e he
    | _ => cases he
  · subst hs
    obtain ⟨q, hq⟩ := Platform.isVic_iff.1 hi
    obtain ⟨x, hx, hparams⟩ := State.exists_ctrl hq
    obtain ⟨a, hk⟩ := Core.eq_vic hparams
    obtain ⟨e, he⟩ := (hop a).map.completes (by simpa [State.allows, hx, hk] using ha)
    exact ⟨x, e, hx, by rw [hk]; exact he⟩

end

/-- Every instruction whose event is one of a controller is an operation of that controller. -/
theorem exec_isOp (p : Platform) {i : Instr} {c : Nat} (h : (encode i).ctrl? = some c) : HasOp p i c := by
  cases i <;> cases h
  case plicOnGpio n v => exact .plic (fun _ _ => rfl) id fun x => .ite (fun h => ⟨h, h⟩) (x.onGpio_performs n v)
  case plicOnGpioOutOfRange n v => exact .plicOutOfRange p c n v
  case plicPriorityWrite i v =>
    exact .plic (fun _ _ => rfl) id fun x => .guarded id (x.setPriority_keepsOk i v) (x.setPriority_ascending i v)
  case plicPriorityRead i | plicEnableRead t w =>
    exact .plic (fun _ _ => rfl) id fun x => .guardedRead id
  case plicEnableWrite t w v =>
    exact .plic (fun _ _ => rfl) id fun x =>
      .guarded (fun h => (Bool.and_eq_true_iff.1 h).2) (x.writeEnable_keepsOk t w v) (x.writeEnable_ascending t w v)
  case plicClaimRead t => exact .plic (fun _ _ => rfl) id fun x => .ok (x.claim_keepsOk t) (x.claim_ascending t)
  case plicCompleteWrite t v =>
    exact .plic (fun _ _ => rfl) id fun x => .ok (x.complete_keepsOk t v) (x.complete_ascending t v)
  case plicReset =>
    exact .plic (fun _ _ => rfl) id fun x => .ok (Core.resetEff_keepsOk (.plic x)) (Core.resetEff_ascending (.plic x))
  case vicOnGpio n v =>
    exact .vic (fun _ _ => rfl) Bool.and_eq_true_iff.1 fun x => .ite (fun h => ⟨h, trivial⟩) (x.onGpio_performs n v)
  case vicOnGpioOutOfRange n v =>
    exact .vic (fun _ _ => rfl) Bool.and_eq_true_iff.1 fun x =>
      .iteNot (fun h => ⟨by simpa using h, trivial⟩) (x.onGpio_performs n v)
  case vicIrqStatusRead | vicFiqStatusRead | vicRawIntrRead | vicIntSelectRead | vicIntEnableRead | vicIntEnClearRead
    | vicSoftIntRead | vicSoftIntClearRead | vicDefVectAddrRead =>
    exact .vic (fun _ _ => rfl) (⟨·, trivial⟩) fun x => .read
  case vicIntSelectWrite v => exact .intSelect p c v
  case vicIntEnableWrite v =>
    exact .vic (fun _ _ => rfl) (⟨·, trivial⟩) fun x => .ok (x.writeLines_keepsOk .enabled true v) (Vic.update_ascending _)
  case vicIntEnClearWrite v =>
    exact .vic (fun _ _ => rfl) (⟨·, trivial⟩) fun x => .ok (x.writeLines_keepsOk .enabled false v) (Vic.update_ascending _)
  case vicSoftIntWrite v =>
    exact .vic (fun _ _ => rfl) (⟨·, trivial⟩) fun x => .ok (x.writeLines_keepsOk .softState true v) (Vic.update_ascending _)
  case vicSoftIntClearWrite v =>
    exact .vic (fun _ _ => rfl) (⟨·, trivial⟩) fun x => .ok (x.writeLines_keepsOk .softState false v) (Vic.update_ascending _)
  case vicVectAddrRead =>
    exact .vic (fun _ _ => rfl) (⟨·, trivial⟩) fun x => .ok x.acknowledge_keepsOk x.acknowledge_ascending
  case vicVectAddrWrite v =>
    exact .vic (fun _ _ => rfl) (⟨·, trivial⟩) fun x => .ok (x.finish_keepsOk v) (x.finish_ascending v)
  case vicDefVectAddrWrite v =>
    exact .vic (fun _ _ => rfl) (⟨·, trivial⟩) fun x => .ok (x.writeDefVectAddr_keepsOk v) .nil
  case vicVectAddrNRead n | vicVectCntlRead n =>
    exact .vic (fun _ _ => rfl) Bool.and_eq_true_iff.1 fun x => .guardedRead id
  case vicVectAddrNWrite n v =>
    exact .vic (fun _ _ => rfl) Bool.and_eq_true_iff.1 fun x => .guarded id (x.writeVectAddrN_keepsOk n v) .nil
  case vicVectCntlWrite n v =>
    exact .vic (fun _ _ => rfl) Bool.and_eq_true_iff.1 fun x =>
      .guarded id (x.writeVectCntl_keepsOk n v) (Vic.update_ascending _)
  case vicReset =>
    exact .vic (fun _ _ => rfl) (⟨·, trivial⟩) fun x =>
      .ok (Core.resetEff_keepsOk (.vic x)) (Core.resetEff_ascending (.vic x))
  case extiOnGpioConfigurable n v | extiOnGpioDirect n v | extiOnGpioDropped n v | extiOnGpioOutOfRange n v =>
    exact .exti (fun _ _ => rfl) id fun x => .ite (fun h => ⟨eq_of_beq h, trivial⟩) (x.onGpio_performs n v)
  case extiImrRead | extiRtsrRead | extiFtsrRead | extiSwierRead | extiPrRead =>
    exact .exti (fun _ _ => rfl) id fun x => .read
  case extiImrWrite v => exact .exti (fun _ _ => rfl) id fun x => .ok (x.writeImr_keepsOk v) .nil
  case extiRtsrWrite v => exact .exti (fun _ _ => rfl) id fun x => .ok (x.writeRtsr_keepsOk v) .nil
  case extiFtsrWrite v => exact .exti (fun _ _ => rfl) id fun x => .ok (x.writeFtsr_keepsOk v) .nil
  case extiSwierWrite v =>
    exact .exti (fun _ _ => rfl) id fun x => .ok (x.writeSwier_keepsOk v) (bitsOf_ascending _ true)
  case extiPrWrite v => exact .exti (fun _ _ => rfl) id fun x => .ok (x.writePr_keepsOk v) (bitsOf_ascending _ false)
  case extiReset =>
    exact .exti (fun _ _ => rfl) id fun x => .ok (Core.resetEff_keepsOk (.exti x)) (Core.resetEff_ascending (.exti x))
  case muxOnGpio n v => exact .mux (fun _ _ => rfl) id fun x => .ite (fun h => ⟨h, trivial⟩) (x.onGpio_performs n v)
  case muxOnGpioOutOfRange n v =>
    exact .mux (fun _ _ => rfl) id fun x => .iteNot (fun h => ⟨by simpa using h, trivial⟩) (x.onGpio_performs n v)
  case muxCsrRead ch | muxVecRead ch | muxIerRead ch | muxIprRead ch =>
    exact .mux (fun _ _ => rfl) id fun x => .guardedRead id
  case muxCsrModeWrite ch v =>
    exact .mux (fun _ _ => rfl) id fun x => .guarded id (x.writeMode_keepsOk ch v) (Mux.drives_ascending _)
  case muxCsrResetWrite ch v =>
    exact .mux (fun _ _ => rfl) id fun x => .guarded id (x.resetChan_keepsOk ch) (Mux.drives_ascending _)
  case muxIerWrite ch v =>
    exact .mux (fun _ _ => rfl) id fun x => .guarded id (x.writeIer_keepsOk ch v) (Mux.drives_ascending _)
  case muxReset =>
    exact .mux (fun _ _ => rfl) id fun x => .ok (Core.resetEff_keepsOk (.intmux x)) (Core.resetEff_ascending (.intmux x))
  case anyUnhandledRead off =>
    exact .any (f := fun k => Eff.unhandledRead k off) (by rintro s rfl; rfl) id (fun _ => rfl) (fun _ => rfl)
  case anyUnhandledWrite off v =>
    exact .any (f := fun k => Eff.unhandledWrite k off) (by rintro s rfl; rfl) id (fun _ => rfl) (fun _ => rfl)
  case anyReadonlyWrite off v =>
    exact .any (f := fun k => Eff.nothing k) (by rintro s rfl; rfl) id (fun _ => rfl) (fun _ => rfl)

end Sys2Proof.Machine
end

section
/-! Which events complete on sound wiring, and that the wiring stays sound (20_memory.md R80). -/

namespace Sys2Proof.Machine

theorem SameConstants.sound {s t : State} (h : SameConstants s t) : t.sound = s.sound := by
  rw [State.sound, State.sound, wired_of_receivers h.platform h.wiring h.receivers, State.acyclic, State.acyclic, h.wiring]

theorem State.settable_ext {s : State} {L : LineRef} (h : L.settable s.platform = true) : ∃ k, L = .ext k := by
  cases L with
  | ext k => exact ⟨k, rfl⟩
  | out c i => cases h

/-- Every level of an external line can be set, one after another. -/
theorem setLevels_ok {k : Nat} : ∀ (levels : List Bool) (s : State), s.sound = true →
    ∃ t, setLevels s.delivery (.ext k) levels s = .ok t := by
  intro levels
  induction levels with
  | nil => exact fun s _ => ⟨s, rfl⟩
  | cons v levels ih =>
    intro s hs
    obtain ⟨u, hu, hsame, -⟩ := setLine_ext_spec (done := []) hs k v
    obtain ⟨t, ht⟩ := ih u (hsame.sound.trans hs)
    have hdl : u.delivery = s.delivery := by
      have hlen := congrArg List.length hsame.2.2.2.2.1
      simp only [List.length_map] at hlen
      rw [State.delivery, State.delivery, State.depthBound, State.depthBound, hlen]
    refine ⟨t, ?_⟩
    have hu' : setLine s.delivery (.ext k) v s = .ok u := hu
    rw [setLevels, hu']
    exact hdl ▸ ht

theorem lineEvent_completes {s : State} {L : LineRef} (levels : List Bool) (hs : s.sound = true)
    (hL : L.settable s.platform = true) : ∃ t, lineEvent s L levels = .next t := by
  obtain ⟨k, rfl⟩ := s.settable_ext hL
  obtain ⟨t, ht⟩ := setLevels_ok (k := k) levels { s with reply := none } hs
  refine ⟨t, ?_⟩
  rw [lineEvent, if_pos (s.sound_acyclic hs), if_pos hL]
  exact toOutcome_next.2 ht

/-- A line of the platform is an external line, or an output that a controller has if it is well shaped (10_state.md R26). -/
theorem State.exists_line {s : State} {L : LineRef} (hshape : ∀ x ∈ s.ctrls, x.shapeOk = true)
    (hL : L.isLine s.platform = true) : ∃ l, s.line? L = some l := by
  cases L with
  | ext k =>
    have hk : k < s.lines.length := of_decide_eq_true hL
    exact ⟨_, List.getElem?_eq_getElem hk⟩
  | out c i =>
    simp only [LineRef.isLine, State.platform_ctrls] at hL
    cases hx : s.ctrls[c]? with
    | none => simp [hx] at hL
    | some x =>
      have hshapeOk := hshape x (List.mem_of_getElem? hx)
      have hi : i < x.outs.length := by
        simp only [Ctrl.shapeOk, Bool.and_eq_true, decide_eq_true_eq] at hshapeOk
        simpa [hx, hshapeOk.2] using hL
      exact ⟨x.outs[i], by simp [State.line?, hx, hi]⟩

theorem queryEvent_completes {s : State} {L : LineRef} (hs : s.sound = true) (hshape : ∀ x ∈ s.ctrls, x.shapeOk = true)
    (hL : L.isLine s.platform = true) : ∃ t, queryEvent s L = .next t := by
  obtain ⟨l, hl⟩ := s.exists_line hshape hL
  exact ⟨_, by rw [queryEvent, if_pos (s.sound_acyclic hs), hl]⟩

/-- An instruction of a controller completes if its operation answers. -/
theorem IsOp.exec_completes {p : Platform} {i : Instr} {c : Nat} {f : Core → Except Refusal (Eff Core)} {s : State}
    (hop : IsOp p i c f) (hp : s.platform = p) (hs : s.sound = true) (hwf : i.wellFormed p = true)
    (hallow : s.allows i = true) : ∃ t, exec i s = .next t := by
  obtain ⟨x, e, hx, he⟩ := hop.completes s hp hwf hallow
  obtain ⟨t, ht, -⟩ := ctrlEvent_spec hs hx he (hop.lawful x.core e he).1.params
  exact ⟨t, (hop.exec_eq s hp).trans ht⟩

/-- A well-formed instruction that is allowed completes on sound wiring. -/
theorem exec_completes {i : Instr} {s : State} (hs : s.sound = true) (hshape : ∀ x ∈ s.ctrls, x.shapeOk = true)
    (hwf : i.wellFormed s.platform = true) (hallow : s.allows i = true) : ∃ t, exec i s = .next t := by
  cases hc : (encode i).ctrl? with
  | some c =>
    obtain ⟨f, hop⟩ := exec_isOp s.platform hc
    exact hop.exec_completes rfl hs hwf hallow
  | none =>
    cases i with
    | slSet L v => exact lineEvent_completes [v] hs hwf
    | slSetTrue L => exact lineEvent_completes [true] hs hwf
    | slUnset L => exact lineEvent_completes [false] hs hwf
    | slBlink L => exact lineEvent_completes [true, false] hs hwf
    | slQuery L => exact queryEvent_completes hs hshape hwf
    | _ => cases hc

/-- An event on one controller leaves alone every controller that is not downstream of it (20_memory.md R84). -/
theorem runEff_local {s t : State} {c d : Nat} {e : Eff Core} (h : runEff s c e = .ok t) (hd : s.downstream c d = false) :
    t.ctrls[d]? = s.ctrls[d]? := by
  simp only [State.downstream, reachesWithin, Bool.or_eq_false_iff, beq_eq_false_iff_ne, List.any_eq_false] at hd
  obtain ⟨hcd, htargets⟩ := hd
  have hlocal := deliver_local.driveAll_local (w := s.wiring) (k := s.depthBound) hcd
    (fun a ha => deliver_local s.depthBound a d (by simpa using htargets a ha)) _ _ _ (s.wiring_begin c e) h
  rw [hlocal]
  simp [hcd]

/-! ## Reads without side effect -/

/-- The operation's answer is a value, its state being unchanged and no output driven (20_memory.md R77). -/
def OnlyReads {α : Type} (f : α → Except Refusal (Eff α)) : Prop := ∀ a e, f a = .ok e → ∃ w, e = Eff.read a w

theorem OnlyReads.ok {α : Type} (g : α → Word) : OnlyReads (fun a => .ok (Eff.read a (g a))) := by
  rintro a _ ⟨⟩
  exact ⟨_, rfl⟩

theorem OnlyReads.guarded {α : Type} (b : α → Bool) (g : α → Word) :
    OnlyReads (fun a => Machine.guarded (b a) (Eff.read a (g a))) := by
  intro a e he
  simp only [Machine.guarded] at he
  split at he
  · exact ⟨_, (Except.ok.inj he).symm⟩
  · cases he

theorem OnlyReads.lift {α : Type} {f : α → Except Refusal (Eff α)} (h : OnlyReads f) {k : α → Core} {a : α} {e : Eff Core}
    (he : (f a).map (Eff.lift k) = .ok e) : ∃ w, e = Eff.read (k a) w := by
  obtain ⟨e', he', rfl⟩ := Except.map_ok he
  obtain ⟨w, rfl⟩ := h a e' he'
  exact ⟨w, rfl⟩

theorem OnlyReads.plic {f : Plic → Except Refusal (Eff Plic)} (h : OnlyReads f) : OnlyReads (onPlic f) := by
  intro k e he
  cases k with
  | plic p => exact h.lift he
  | _ => cases he

theorem OnlyReads.vic {f : Vic → Except Refusal (Eff Vic)} (h : OnlyReads f) : OnlyReads (onVic f) := by
  intro k e he
  cases k with
  | vic x => exact h.lift he
  | _ => cases he

theorem OnlyReads.exti {f : Exti → Except Refusal (Eff Exti)} (h : OnlyReads f) : OnlyReads (onExti f) := by
  intro k e he
  cases k with
  | exti x => exact h.lift he
  | _ => cases he

theorem OnlyReads.mux {f : Mux → Except Refusal (Eff Mux)} (h : OnlyReads f) : OnlyReads (onMux f) := by
  intro k e he
  cases k with
  | intmux m => exact h.lift he
  | _ => cases he

/-- The read of every register but two is an operation that only reads (20_memory.md R77). -/
theorem exec_decodeRegRead (c : Nat) {r : Reg} (hvic : r ≠ .vicVectAddr) (hplic : ∀ t, r ≠ .plicClaimComplete t) :
    ∃ f, OnlyReads f ∧ ∀ s, exec (decodeRegRead c r) s = ctrlEvent s c f := by
  cases r with
  | plicClaimComplete t => exact absurd rfl (hplic t)
  | vicVectAddr => exact absurd rfl hvic
  | plicPriority i | plicEnable t w => exact ⟨_, .plic (.guarded _ _), fun _ => rfl⟩
  | vicIrqStatus | vicFiqStatus | vicRawIntr | vicIntSelect | vicIntEnable | vicIntEnClear | vicSoftInt | vicSoftIntClear
  | vicDefVectAddr => exact ⟨_, .vic (.ok _), fun _ => rfl⟩
  | vicVectAddrN n | vicVectCntl n => exact ⟨_, .vic (.guarded _ _), fun _ => rfl⟩
  | extiImr | extiRtsr | extiFtsr | extiSwier | extiPr => exact ⟨_, .exti (.ok _), fun _ => rfl⟩
  | muxCsr ch | muxVec ch | muxIer ch | muxIpr ch => exact ⟨_, .mux (.guarded _ _), fun _ => rfl⟩

theorem ctrlEvent_onlyReads {s t : State} {c : Nat} {f : Core → Except Refusal (Eff Core)} (hf : OnlyReads f)
    (h : ctrlEvent s c f = .next t) : ∃ w : Word, t = { s with reply := some (.word w) } := by
  obtain ⟨x, e, ha, hx, he, -⟩ := ctrlEvent_next h
  obtain ⟨w, rfl⟩ := hf x.core e he
  rw [event_same ha hx he rfl rfl rfl, Host.Outcome.next.injEq] at h
  exact ⟨w, h.symm⟩

/-! ## Accesses to no register, and to a read-only one -/

/-- An access whose row condition holds of its offset runs its effect. -/
theorem guarded_window {s : State} {c off : Nat} {x : Ctrl} {g : Option Reg → Bool} {e : Eff Core}
    (hx : s.ctrls[c]? = some x) (h4 : off % 4 = 0) (hsize : off < x.core.params.size)
    (hg : g (regAt x.core.params off) = true) : guarded (s.platform.windowWith c off g) e = .ok e := by
  have hwin : s.platform.windowWith c off g = true :=
    Platform.windowWith_iff.2 ⟨x.core.params, by rw [State.platform_ctrls, hx]; rfl, h4, hsize, hg⟩
  rw [hwin]
  rfl

end Sys2Proof.Machine
end

section
/-! The statements about what is refused, what completes, and what an event leaves alone, settled. -/

namespace Sys2Proof.Proofs

open Sys2Proof.Machine Sys2Proof.Claims

/-- Settles O14: an instruction of a controller is an operation that answers; a line of sound wiring can be set. -/
theorem wellFormedInstructionsComplete : Obligations.WellFormedInstructionsComplete := by
  intro s i hs hshape hwf hallow
  obtain ⟨t, ht⟩ := exec_completes hs hshape hwf hallow
  have hc := exec_sameConstants ht
  exact ⟨t, ht, hc.sound.trans hs, hc.inbox⟩

/-- Settles O16: the instruction is an operation of the event's controller, and running an effect is local. -/
theorem unrelatedControllersAreUntouched : Obligations.UnrelatedControllersAreUntouched := by
  intro s t e i c d he hdecode h hd
  have hc : (encode i).ctrl? = some c := by
    rw [encode_of_decode hdecode]
    obtain ⟨n, v, rfl⟩ | ⟨off, rfl⟩ | ⟨off, v, rfl⟩ | rfl := he <;> rfl
  obtain ⟨f, hop⟩ := exec_isOp s.platform hc
  rw [hop.exec_eq s rfl] at h
  obtain ⟨x, e, -, -, -, hrun⟩ := ctrlEvent_next h
  exact runEff_local hrun hd

/-- Settles O58: the effects keep the state and drive nothing; the last one reports nothing either. -/
theorem unhandledAndReadOnlyAccesses : Obligations.UnhandledAndReadOnlyAccesses := by
  intro s c x off v hs hx h4 hsize
  have ha := s.sound_acyclic hs
  refine ⟨fun hnone => ⟨?read, ?write⟩, fun r hr hro => ?readOnly⟩
  case read =>
    exact event_onlyTrace (f := fun k => guarded _ (Eff.unhandledRead k off)) ha hx
      (guarded_window hx h4 hsize (by rw [hnone]; rfl)) rfl rfl
  case write =>
    exact event_onlyTrace (f := fun k => guarded _ (Eff.unhandledWrite k off)) ha hx
      (guarded_window hx h4 hsize (by rw [hnone]; rfl)) rfl rfl
  case readOnly =>
    exact event_same (f := fun k => guarded _ (Eff.nothing k)) ha hx
      (guarded_window hx h4 hsize (by rw [hr]; exact hro)) rfl rfl rfl

/-- Settles O60: the row a read decodes to is the register's, whose operation only reads. -/
theorem onlyTwoReadsHaveSideEffects : Obligations.OnlyTwoReadsHaveSideEffects := by
  intro s t c off x r i hx hr hvic hplic hdecode h
  obtain ⟨q, hq, -, rfl⟩ := decode_memRead_ok hdecode
  rw [State.platform_ctrls, hx, Option.map_some, Option.some.injEq] at hq
  subst hq
  rw [hr, Option.elim_some] at h
  obtain ⟨f, hf, hexec⟩ := exec_decodeRegRead c hvic hplic
  exact ctrlEvent_onlyReads hf ((hexec s).symm.trans h)

/-- Settles O12: the decoder rejects the access, every kind of event tests the wiring, and a line event its owner. -/
theorem badAccessCyclicWiringAndForeignLineAreRefused : Obligations.BadAccessCyclicWiringAndForeignLineAreRefused := by
  refine ⟨fun s c off bytes v rest hc hbad => ?access, fun s i ha => (exec_isEvent i s).cyclic ha,
    fun s c i v instr ha hinstr => ?foreign⟩
  case access =>
    have hq : s.platform.ctrls[c]? = some (s.ctrls[c]).core.params := by
      rw [State.platform_ctrls, List.getElem?_eq_getElem hc, Option.map_some]
    obtain ⟨err, herr⟩ := busError_eq_some (q := (s.ctrls[c]).core.params) hbad
    refine ⟨⟨err, step_undecodable rfl (fun _ => Event.noConfusion) ?_⟩, err,
      step_undecodable rfl (fun _ => Event.noConfusion) ?_⟩
    · show decode s.platform _ = _
      simp only [decode, hq, herr]
    · show decode s.platform _ = _
      simp only [decode, hq, herr]
  case foreign =>
    have hline : ∀ levels, lineEvent s (.out c i) levels = .refused (.lineNotOwned (.out c i)) := fun levels => by
      rw [lineEvent, if_pos ha, if_neg (by simp [LineRef.settable])]
    obtain rfl | rfl | rfl | rfl := hinstr <;> exact hline _

end Sys2Proof.Proofs
end

section
/-! Two runs side by side. A delivered event, with all it nests, does the same from two states that a relation `R` ties, if the
relation survives every elementary change at the inputs the event can reach (`Along`). What R82 nests is said once here; the uses are
a state with another reply, one with other levels on outputs that are not reached, and, both states being the same, an invariant. -/

namespace Sys2Proof.Machine

/-! ## What a delivery can reach -/

/-- `P` holds of controller and number of every `OnGPIO` that a delivery of `OnGPIO(n, _)` to controller `c` can nest to depth `k`. -/
def Along (w : List (List (List Endpoint))) (P : Nat → Int → Prop) : Nat → Nat → Int → Prop
  | 0, _, _ => True
  | k + 1, c, n =>
    P c n ∧ ∀ l ∈ w.getD c [], ∀ e ∈ l, ∀ b, e.receiver = .ctrl b → b < w.length → Along w P k b e.number

/-- An endpoint of the wiring that names a controller makes it a target. -/
theorem mem_wiringTargets {w : List (List (List Endpoint))} {c b : Nat} {l : List Endpoint} {e : Endpoint}
    (hl : l ∈ w.getD c []) (he : e ∈ l) (hb : e.receiver = .ctrl b) (hlt : b < w.length) : b ∈ wiringTargets w c := by
  rw [wiringTargets, List.mem_filter, List.mem_filterMap]
  exact ⟨⟨e, List.mem_flatten.2 ⟨l, hl, he⟩, by simp [Endpoint.ctrl?, hb]⟩, by simpa using hlt⟩

/-- What lies downstream of a target of `c` lies downstream of `c`. -/
theorem reachesWithin_target {w : List (List (List Endpoint))} {k c a d : Nat} (ha : a ∈ wiringTargets w c)
    (h : reachesWithin w k a d = true) : reachesWithin w (k + 1) c d = true := by
  rw [reachesWithin, Bool.or_eq_true]
  exact .inr (List.any_eq_true.2 ⟨a, ha, h⟩)

theorem reachesWithin_self (w : List (List (List Endpoint))) (k c : Nat) : reachesWithin w k c c = true := by
  cases k <;> simp [reachesWithin]

theorem Along.of_forall {w : List (List (List Endpoint))} {P : Nat → Int → Prop} (h : ∀ a n, P a n) :
    ∀ k c n, Along w P k c n := by
  intro k
  induction k with
  | zero => exact fun _ _ => trivial
  | succ k ih => exact fun c n => ⟨h c n, fun _ _ e _ b _ _ => ih b e.number⟩

/-- A controller that no chain from `c` reaches is not reached by a delivery to `c`. -/
theorem Along.of_not_reaches {w : List (List (List Endpoint))} {d : Nat} :
    ∀ k c n, reachesWithin w k c d = false → Along w (fun a _ => a ≠ d) k c n := by
  intro k
  induction k with
  | zero => exact fun _ _ _ => trivial
  | succ k ih =>
    intro c n hr
    refine ⟨?_, fun l hl e he b hb hlt => ih b e.number ?_⟩
    · rintro rfl
      rw [reachesWithin_self] at hr
      cases hr
    · by_contra hreach
      rw [Bool.not_eq_false] at hreach
      rw [reachesWithin_target (mem_wiringTargets hl he hb hlt) hreach] at hr
      cases hr

/-! ## The two runs -/

/-- A relation between the states of two runs that every elementary change at an input satisfying `P` preserves. -/
structure Simulates (P : Nat → Int → Prop) (R : State → State → Prop) : Prop where
  hear : ∀ {s s'} r n v, R s s' → R (s.hear r n v) (s'.hear r n v)
  same : ∀ {s s' c n}, P c n → R s s' → s'.ctrls[c]? = s.ctrls[c]?
  level : ∀ {s s' c n} i v, P c n → R s s' → R (s.putLevel (.out c i) v) (s'.putLevel (.out c i) v)
  gpio : ∀ {s s' c n v x e}, P c n → R s s' → s.ctrls[c]? = some x → x.core.onGpio n v = .ok e →
    R (s.putEff c e) (s'.putEff c e)

/-- What `dl` delivers to input `n` of controller `c` on wiring `w`, `dl'` delivers too, to a related state. -/
def Follows (w : List (List (List Endpoint))) (R : State → State → Prop) (dl dl' : Delivery) (c : Nat) (n : Int) : Prop :=
  ∀ v s s' t, s.wiring = w → R s s' → dl c n v s = .ok t → t.wiring = w ∧ ∃ t', dl' c n v s' = .ok t' ∧ R t t'

section
variable {w : List (List (List Endpoint))} {P : Nat → Int → Prop} {R : State → State → Prop} {dl dl' : Delivery}

theorem notifyAll_follows (hR : Simulates P R) {v : Bool} : ∀ (es : List Endpoint) (s s' t : State),
    (∀ e ∈ es, ∀ b, e.receiver = .ctrl b → Follows w R dl dl' b e.number) → s.wiring = w → R s s' →
    notifyAll dl v es s = .ok t → t.wiring = w ∧ ∃ t', notifyAll dl' v es s' = .ok t' ∧ R t t' := by
  intro es
  induction es with
  | nil =>
    rintro s s' t - hw hs ⟨⟩
    exact ⟨hw, s', rfl, hs⟩
  | cons e es ih =>
    intro s s' t hes hw hs h
    obtain ⟨he, hes⟩ := List.forall_mem_cons.1 hes
    have hone : ∀ u, notifyOne dl v e s = .ok u → u.wiring = w ∧ ∃ u', notifyOne dl' v e s' = .ok u' ∧ R u u' := by
      intro u hu
      unfold notifyOne at hu ⊢
      cases hr : e.receiver with
      | ctrl b =>
        simp only [hr] at hu ⊢
        exact he b hr v s s' u hw hs hu
      | outside r =>
        simp only [hr] at hu ⊢
        cases hu
        exact ⟨hw, _, rfl, hR.hear r e.number v hs⟩
    rw [notifyAll] at h
    split at h
    · cases h
    · next u hu =>
      obtain ⟨hwu, u', hu', hRu⟩ := hone u hu
      obtain ⟨hwt, t', ht', hRt⟩ := ih u u' t hes hwu hRu h
      exact ⟨hwt, t', by rw [notifyAll, hu']; exact ht', hRt⟩

/-- What `Set` of an output does: nothing, if there is no such output or it has that level; else its receivers hear of it. -/
theorem setLine_out {s t : State} {c i : Nat} {v : Bool} (h : setLine dl (.out c i) v s = .ok t) :
    ((∀ l, s.line? (.out c i) = some l → l.level = v) ∧ t = s) ∨
      ∃ l, s.line? (.out c i) = some l ∧ l.level ≠ v ∧ notifyAll dl v l.receivers (s.putLevel (.out c i) v) = .ok t := by
  unfold setLine at h
  split at h
  · next hl => exact .inl ⟨by simp [hl], (Except.ok.inj h).symm⟩
  · next l hl =>
    split at h
    · next hv => exact .inl ⟨fun l' hl' => by rw [hl] at hl'; cases hl'; exact hv, (Except.ok.inj h).symm⟩
    · next hv => exact .inr ⟨l, hl, hv, h⟩

theorem setLine_out_quiet {s : State} {c i : Nat} {v : Bool} (h : ∀ l, s.line? (.out c i) = some l → l.level = v) :
    setLine dl (.out c i) v s = .ok s := by
  unfold setLine
  split
  · rfl
  · next l hl => rw [if_pos (h l hl)]

theorem setLine_out_change {s : State} {c i : Nat} {v : Bool} {l : SigLine} (hl : s.line? (.out c i) = some l)
    (hv : l.level ≠ v) : setLine dl (.out c i) v s = notifyAll dl v l.receivers (s.putLevel (.out c i) v) := by
  rw [setLine, hl]
  exact if_neg hv

/-- The receivers of an output of `c` are endpoints of its wiring. -/
theorem line_out_receivers {s : State} {c i : Nat} {l : SigLine} (hw : s.wiring = w) (hl : s.line? (.out c i) = some l) :
    l.receivers ∈ w.getD c [] := hw ▸ (s.line_out_mem hl).1

theorem driveAll_follows (hR : Simulates P R) {c : Nat} {n : Int} (hP : P c n)
    (hdl : ∀ l ∈ w.getD c [], ∀ e ∈ l, ∀ b, e.receiver = .ctrl b → Follows w R dl dl' b e.number) :
    ∀ (ds : List (Nat × Bool)) (s s' t : State), s.wiring = w → R s s' → driveAll dl c ds s = .ok t →
      t.wiring = w ∧ ∃ t', driveAll dl' c ds s' = .ok t' ∧ R t t' := by
  intro ds
  induction ds with
  | nil =>
    rintro s s' t hw hs ⟨⟩
    exact ⟨hw, s', rfl, hs⟩
  | cons d ds ih =>
    intro s s' t hw hs h
    have hline : s'.line? (.out c d.1) = s.line? (.out c d.1) := by simp only [State.line?, hR.same hP hs]
    rw [driveAll] at h
    split at h
    · cases h
    · next u hu =>
      have hset : u.wiring = w ∧ ∃ u', setLine dl' (.out c d.1) d.2 s' = .ok u' ∧ R u u' := by
        obtain ⟨hquiet, rfl⟩ | ⟨l, hl, hv, hnotify⟩ := setLine_out hu
        · exact ⟨hw, s', setLine_out_quiet (hline ▸ hquiet), hs⟩
        · rw [setLine_out_change (hline.trans hl) hv]
          exact notifyAll_follows hR _ _ _ _ (hdl _ (line_out_receivers hw hl))
            ((s.wiring_putLevel _ _).trans hw) (hR.level d.1 d.2 hP hs) hnotify
      obtain ⟨hwu, u', hu', hRu⟩ := hset
      obtain ⟨hwt, t', ht', hRt⟩ := ih u u' t hwu hRu h
      exact ⟨hwt, t', by rw [driveAll, hu']; exact ht', hRt⟩

end

/-- A delivered event: the controller exists and accepts it, its state is written, its outputs are driven. -/
theorem deliver_succ {k c : Nat} {n : Int} {v : Bool} {s t : State} :
    deliver [] (k + 1) c n v s = .ok t ↔ ∃ x e, s.ctrls[c]? = some x ∧ x.core.onGpio n v = .ok e ∧
      driveAll (deliver [] k) c e.drives (s.putEff c e) = .ok t := by
  simp only [deliver, List.not_mem_nil, decide_false, Core.hearGpio_false]
  cases hx : s.ctrls[c]? with
  | none => simp
  | some x => cases he : x.core.onGpio n v <;> simp [he]

/-- A controller delivered to is one of the platform. -/
theorem deliver_lt {k c : Nat} {n : Int} {v : Bool} {s t : State} (h : deliver [] k c n v s = .ok t) : c < s.wiring.length := by
  cases k with
  | zero => cases h
  | succ k =>
    obtain ⟨x, e, hx, -⟩ := deliver_succ.1 h
    rw [State.wiring_length]
    exact (List.getElem?_eq_some_iff.1 hx).1

/-- The second run follows the first, also with more depth to spare. -/
theorem deliver_follows {w : List (List (List Endpoint))} {P : Nat → Int → Prop} {R : State → State → Prop}
    (hR : Simulates P R) : ∀ k k' c n, k ≤ k' → Along w P k c n → Follows w R (deliver [] k) (deliver [] k') c n := by
  intro k
  induction k with
  | zero => rintro k' c n - - v s s' t - - ⟨⟩
  | succ k ih =>
    rintro k' c n hk ⟨hP, halong⟩ v s s' t hw hs h
    obtain ⟨k', rfl⟩ : ∃ m, k' = m + 1 := ⟨k' - 1, by omega⟩
    obtain ⟨x, e, hx, he, hdrive⟩ := deliver_succ.1 h
    have hdl : ∀ l ∈ w.getD c [], ∀ a ∈ l, ∀ b, a.receiver = .ctrl b →
        Follows w R (deliver [] k) (deliver [] k') b a.number := by
      intro l hl a ha b hb v u u' z hu hRu hz
      exact ih k' b a.number (by omega) (halong l hl a ha b hb (hu ▸ deliver_lt hz)) v u u' z hu hRu hz
    obtain ⟨hwt, t', ht', hRt⟩ := driveAll_follows hR hP hdl _ _ _ _ ((s.wiring_putEff c e).trans hw)
      (hR.gpio hP hs hx he) hdrive
    exact ⟨hwt, t', deliver_succ.2 ⟨x, e, (hR.same hP hs).trans hx, he, ht'⟩, hRt⟩

/-- What the receivers of an output hear is followed, if what can be reached from each of them satisfies `P`. -/
theorem follows_of_along {w : List (List (List Endpoint))} {P : Nat → Int → Prop} {R : State → State → Prop}
    (hR : Simulates P R) {k k' c : Nat} {n : Int} (hk : k ≤ k') (h : c < w.length → Along w P k c n) :
    Follows w R (deliver [] k) (deliver [] k') c n := by
  intro v s s' t hw hs ht
  exact deliver_follows hR k k' c n hk (h (hw ▸ deliver_lt ht)) v s s' t hw hs ht

/-! ## States that differ in the reply only -/

/-- The second state is the first but for what the last event returned. -/
def SameButReply (s t : State) : Prop := ∃ r, t = { s with reply := r }

theorem sameButReply_simulates : Simulates (fun _ _ => True) SameButReply where
  hear _ _ _ := by rintro ⟨r, rfl⟩; exact ⟨r, rfl⟩
  same _ := by rintro ⟨r, rfl⟩; rfl
  level _ _ _ := by rintro ⟨r, rfl⟩; exact ⟨r, rfl⟩
  gpio _ := by rintro ⟨r, rfl⟩ _ _; exact ⟨r, rfl⟩

/-! ## States that differ in the levels of one controller's outputs -/

/-- The levels of some outputs of controller `c` are stored, and nobody hears of them. -/
def State.driven (s : State) (c : Nat) (ds : List (Nat × Bool)) : State :=
  { s with ctrls := s.ctrls.modify c (fun x => x.driven ds) }

theorem driven_simulates (c : Nat) (ds : List (Nat × Bool)) :
    Simulates (fun a _ => a ≠ c) (fun s s' => s' = s.driven c ds) where
  hear _ _ _ := by rintro rfl; rfl
  same ha := by rintro rfl; simp [State.driven, Ne.symm ha]
  level i v ha := by
    rintro rfl
    simp only [State.driven, State.putLevel, State.mk.injEq, and_true]
    exact List.modify_modify_ne _ _ _ (Ne.symm ha)
  gpio ha := by
    rintro rfl _ _
    simp only [State.driven, State.putEff, State.mk.injEq, and_true]
    exact List.modify_modify_ne _ _ _ (Ne.symm ha)

end Sys2Proof.Machine
end

section
/-! The outputs of an event: driving them one after the other is the same as storing all their levels first and then letting the
receivers of those that changed hear, in the same order (20_memory.md R82, 40_signal_line.md R141, R143). It rests on acyclic wiring:
what an output causes never comes back to its controller, so it neither sees nor touches the levels of the outputs still to come. -/

namespace Sys2Proof.Machine

/-- The receivers of each of a list of lines are notified of its level, line after line. -/
def notifyLines (dl : Delivery) : List (List Endpoint × Bool) → State → Except Refusal State
  | [], s => .ok s
  | l :: ls, s =>
    match notifyAll dl l.2 l.1 s with
    | .error r => .error r
    | .ok s' => notifyLines dl ls s'

theorem notifyLines_cons {dl : Delivery} {l : List Endpoint × Bool} {ls : List (List Endpoint × Bool)} {s u : State}
    (h : notifyAll dl l.2 l.1 s = .ok u) : notifyLines dl (l :: ls) s = notifyLines dl ls u := by
  rw [notifyLines, h]

/-- What driving output `d.1` to level `d.2` changes: nothing, or its receivers hear of the level. -/
def driveChange (outs : List SigLine) (d : Nat × Bool) : Option (List Endpoint × Bool) :=
  (outs[d.1]?).bind (fun l => if l.level = d.2 then none else some (l.receivers, d.2))

/-- The changes that a list of drives makes, each output being driven once. -/
def driveChanges (outs : List SigLine) (ds : List (Nat × Bool)) : List (List Endpoint × Bool) := ds.filterMap (driveChange outs)

theorem driveChange_quiet {outs : List SigLine} {d : Nat × Bool} (h : ∀ l, outs[d.1]? = some l → l.level = d.2) :
    driveChange outs d = none := by
  unfold driveChange
  cases hl : outs[d.1]? with
  | none => rfl
  | some l => exact if_pos (h l hl)

theorem driveChange_change {outs : List SigLine} {d : Nat × Bool} {l : SigLine} (hl : outs[d.1]? = some l)
    (hv : l.level ≠ d.2) : driveChange outs d = some (l.receivers, d.2) := by
  rw [driveChange, hl]
  exact if_neg hv

/-- A level stored on a lower output does not matter to the drives that follow. -/
theorem driveChanges_modify {outs : List SigLine} {d : Nat × Bool} {ds : List (Nat × Bool)} (h : ∀ a ∈ ds, d.1 < a.1) :
    driveChanges (outs.modify d.1 (fun l => l.withLevel d.2)) ds = driveChanges outs ds := by
  refine List.filterMap_congr fun a ha => ?_
  have hother : (outs.modify d.1 (fun l => l.withLevel d.2))[a.1]? = outs[a.1]? := by simp [Nat.ne_of_lt (h a ha)]
  rw [driveChange, driveChange, hother]

@[simp] theorem State.driven_nil (s : State) (c : Nat) : s.driven c [] = s := by
  have hself : s.ctrls.modify c (fun x => x.driven []) = s.ctrls := modify_self fun _ _ => rfl
  rw [State.driven, hself]

theorem State.driven_cons (s : State) (c : Nat) (d : Nat × Bool) (ds : List (Nat × Bool)) :
    s.driven c (d :: ds) = (s.putLevel (.out c d.1) d.2).driven c ds := by
  simp only [State.driven, State.putLevel, List.modify_modify_eq]
  rfl

/-- Storing a level that is there already changes nothing. -/
theorem State.driven_cons_quiet {s : State} {c : Nat} {x : Ctrl} {d : Nat × Bool} (ds : List (Nat × Bool))
    (hx : s.ctrls[c]? = some x) (h : ∀ l, x.outs[d.1]? = some l → l.level = d.2) : s.driven c (d :: ds) = s.driven c ds := by
  have hput : s.putLevel (.out c d.1) d.2 = s := by
    simp only [State.putLevel]
    rw [modify_self]
    intro a ha
    rw [hx, Option.some.injEq] at ha
    rw [← ha, modify_withLevel_same h]
  rw [State.driven_cons, hput]

theorem State.line_out_of {s : State} {c : Nat} {x : Ctrl} (hx : s.ctrls[c]? = some x) (i : Nat) :
    s.line? (.out c i) = x.outs[i]? := by
  rw [State.line?, hx, Option.bind_some]

section
variable {w : List (List (List Endpoint))} {k c : Nat}

/-- What the receivers of an output of `c` are delivered does not see the levels of `c`'s outputs, if nothing comes back to `c`. -/
theorem follows_driven (hback : ∀ a ∈ wiringTargets w c, ∀ j, reachesWithin w j a c = false) (ds : List (Nat × Bool))
    {l : List Endpoint} (hl : l ∈ w.getD c []) : ∀ e ∈ l, ∀ b, e.receiver = .ctrl b →
      Follows w (fun s s' => s' = s.driven c ds) (deliver [] k) (deliver [] k) b e.number :=
  fun e he b hb => follows_of_along (driven_simulates c ds) (Nat.le_refl k) fun hlt =>
    Along.of_not_reaches k b e.number (hback b (mem_wiringTargets hl he hb hlt) k)

/-- Nor does it change controller `c`. -/
theorem notifyAll_keeps_driver (hback : ∀ a ∈ wiringTargets w c, ∀ j, reachesWithin w j a c = false) {l : List Endpoint}
    (hl : l ∈ w.getD c []) {v : Bool} {s t : State} (hw : s.wiring = w) (h : notifyAll (deliver [] k) v l s = .ok t) :
    t.ctrls[c]? = s.ctrls[c]? := by
  refine deliver_local.notifyAll_local (w := w) l (fun e he b hb n v' u z hu hz => ?_) _ _ hw h
  have hlt : b < w.length := hu ▸ deliver_lt hz
  exact deliver_local k b c (hback b (mem_wiringTargets hl he hb hlt) k) n v' u z hu hz

/-- Driving outputs of ascending index is storing all the levels, and then letting the receivers of those that changed hear. -/
theorem driveAll_notifyLines (hback : ∀ a ∈ wiringTargets w c, ∀ j, reachesWithin w j a c = false) :
    ∀ (ds : List (Nat × Bool)) (s t : State) (x : Ctrl), Ascending ds → s.wiring = w → s.ctrls[c]? = some x →
      driveAll (deliver [] k) c ds s = .ok t →
      notifyLines (deliver [] k) (driveChanges x.outs ds) (s.driven c ds) = .ok t := by
  intro ds
  induction ds with
  | nil =>
    rintro s t x - - hx ⟨⟩
    rw [s.driven_nil]
    rfl
  | cons d ds ih =>
    intro s t x hasc hw hx h
    obtain ⟨hlt, hasc⟩ := List.pairwise_cons.1 hasc
    rw [driveAll] at h
    split at h
    · cases h
    · next u hu =>
      obtain ⟨hquiet, rfl⟩ | ⟨l, hl, hv, hnotify⟩ := setLine_out hu
      · rw [u.line_out_of hx] at hquiet
        rw [u.driven_cons_quiet ds hx hquiet, driveChanges, List.filterMap_cons_none (driveChange_quiet hquiet)]
        exact ih u t x hasc hw hx h
      · have hmem := line_out_receivers hw hl
        rw [s.line_out_of hx] at hl
        have hw' : (s.putLevel (.out c d.1) d.2).wiring = w := (s.wiring_putLevel _ _).trans hw
        have hux : u.ctrls[c]? = some { x with outs := x.outs.modify d.1 (fun l => l.withLevel d.2) } := by
          rw [notifyAll_keeps_driver hback hmem hw' hnotify]
          simp [hx]
        obtain ⟨hwu, _, hdriven, rfl⟩ := notifyAll_follows (driven_simulates c ds) l.receivers _ _ _
          (follows_driven hback ds hmem) hw' rfl hnotify
        have hrest := ih u t _ hasc hwu hux h
        rw [driveChanges_modify hlt] at hrest
        rw [State.driven_cons, driveChanges, List.filterMap_cons_some (driveChange_change hl hv),
          notifyLines_cons hdriven]
        exact hrest

end

/-- With receivers for none of its outputs, driving a controller's outputs stores the levels. -/
theorem driveAll_unheard {dl : Delivery} {c : Nat} : ∀ (ds : List (Nat × Bool)) (s : State) (x : Ctrl),
    s.ctrls[c]? = some x → (∀ l ∈ x.outs, l.receivers = []) → driveAll dl c ds s = .ok (s.driven c ds) := by
  intro ds
  induction ds with
  | nil =>
    intro s x _ _
    rw [s.driven_nil]
    rfl
  | cons d ds ih =>
    intro s x hx hout
    by_cases hquiet : ∀ l, x.outs[d.1]? = some l → l.level = d.2
    · rw [driveAll, setLine_out_quiet (by rwa [s.line_out_of hx]), s.driven_cons_quiet ds hx hquiet]
      exact ih s x hx hout
    · simp only [not_forall] at hquiet
      obtain ⟨l, hl, hv⟩ := hquiet
      rw [driveAll, setLine_out_change ((s.line_out_of hx d.1).trans hl) hv, hout l (List.mem_of_getElem? hl), notifyAll,
        State.driven_cons]
      refine ih _ { x with outs := x.outs.modify d.1 (fun l => l.withLevel d.2) } (by simp [hx]) fun a ha => ?_
      obtain ha | ⟨b, hb, rfl⟩ := mem_modify ha
      · exact hout a ha
      · exact hout b hb

/-! ## The changes read off the outputs before and after -/

theorem lastDrive_mem {ds : List (Nat × Bool)} {i : Nat} {v : Bool} (h : lastDrive ds i = some v) : (i, v) ∈ ds := by
  induction ds with
  | nil => cases h
  | cons d ds ih =>
    rw [lastDrive, Option.or_eq_some_iff] at h
    obtain h | ⟨-, h⟩ := h
    · exact List.mem_cons_of_mem _ (ih h)
    · split at h
      · next hd => cases h; cases hd; exact List.mem_cons_self
      · cases h

/-- Of outputs driven once each, every drive is the last. -/
theorem lastDrive_of_mem {ds : List (Nat × Bool)} (h : Ascending ds) {d : Nat × Bool} (hd : d ∈ ds) :
    lastDrive ds d.1 = some d.2 := by
  induction ds with
  | nil => cases hd
  | cons a ds ih =>
    obtain ⟨hlt, hasc⟩ := List.pairwise_cons.1 h
    obtain rfl | hd := List.mem_cons.1 hd
    · have hnone : lastDrive ds d.1 = none := Option.eq_none_iff_forall_not_mem.2 fun v hv =>
        Nat.lt_irrefl d.1 (hlt (d.1, v) (lastDrive_mem hv))
      rw [lastDrive, hnone, Option.none_or, if_pos rfl]
    · rw [lastDrive, ih hasc hd, Option.some_or]

/-- The change of output `i`, from the level last driven. -/
def lastChange (outs : List SigLine) (ds : List (Nat × Bool)) (i : Nat) : Option (List Endpoint × Bool) :=
  (lastDrive ds i).bind (fun v => driveChange outs (i, v))

theorem driveChanges_eq {outs : List SigLine} {ds : List (Nat × Bool)} (h : Ascending ds) :
    driveChanges outs ds = (ds.map Prod.fst).filterMap (lastChange outs ds) := by
  rw [List.filterMap_map]
  refine List.filterMap_congr fun d hd => ?_
  rw [Function.comp_apply, lastChange, lastDrive_of_mem h hd, Option.bind_some]

theorem range_filterMap_getElem? {α : Type} (l : List α) : (List.range l.length).filterMap (fun i => l[i]?) = l := by
  induction l with
  | nil => rfl
  | cons a l ih =>
    rw [List.length_cons, List.range_succ_eq_map, List.filterMap_cons, List.filterMap_map]
    exact congrArg (a :: ·) ih

/-- Two ascending lists give the same under a partial function that is defined on neither's difference from the other. -/
theorem filterMap_eq_of_ascending {β : Type} {l m : List Nat} {f : Nat → Option β} (hl : l.Pairwise (· < ·))
    (hm : m.Pairwise (· < ·)) (h : ∀ i, (f i).isSome = true → (i ∈ l ↔ i ∈ m)) : l.filterMap f = m.filterMap f := by
  have hdrop : ∀ n : List Nat, n.filterMap f = (n.filter (fun i => (f i).isSome)).filterMap f := fun n => by
    rw [List.filterMap_filter]
    refine List.filterMap_congr fun i _ => ?_
    cases f i <;> rfl
  have hsame : l.filter (fun i => (f i).isSome) = m.filter (fun i => (f i).isSome) :=
    (hl.filter _).eq_of_mem_iff (hm.filter _) fun i => by
      rw [List.mem_filter, List.mem_filter]
      exact and_congr_left (h i)
  rw [hdrop l, hdrop m, hsame]

/-- The outputs whose level differs after a list of drives are those the drives change. -/
theorem changedOutputs_eq {x y : Ctrl} {ds : List (Nat × Bool)} (h : Ascending ds)
    (hy : ∀ i, (y.outs[i]?).map SigLine.level = (x.outs[i]?).map (fun l => (lastDrive ds i).getD l.level)) :
    Claims.changedOutputs x y = driveChanges x.outs ds := by
  rw [driveChanges_eq h, Claims.changedOutputs, ← range_filterMap_getElem? (x.outs.zip y.outs), List.filterMap_filterMap]
  have hlen : (x.outs.zip y.outs).length = x.outs.length := by
    have hge : x.outs.length ≤ y.outs.length := by
      by_contra hlt
      have hend := hy y.outs.length
      rw [List.getElem?_eq_none (Nat.le_refl _), List.getElem?_eq_getElem (Nat.lt_of_not_le hlt)] at hend
      cases hend
    simp [hge]
  have hchange : ∀ i, ((x.outs.zip y.outs)[i]?).bind (fun l => if l.1.level = l.2.level then none else
      some (l.1.receivers, l.2.level)) = lastChange x.outs ds i := by
    intro i
    have hi := hy i
    rw [List.zip, List.getElem?_zipWith, lastChange]
    cases hx : x.outs[i]? with
    | none => cases lastDrive ds i <;> simp [driveChange, hx]
    | some l =>
      rw [hx] at hi
      obtain ⟨l', hl', hlevel⟩ := Option.map_eq_some_iff.1 hi
      cases hd : lastDrive ds i <;> simp [driveChange, hx, hl', hlevel, hd]
  rw [List.filterMap_congr fun i _ => hchange i]
  refine filterMap_eq_of_ascending List.pairwise_lt_range (List.pairwise_map.2 h) fun i hi => ?_
  obtain ⟨a, ha⟩ := Option.isSome_iff_exists.1 hi
  obtain ⟨v, hv, ha⟩ := Option.bind_eq_some_iff.1 ha
  obtain ⟨l, hl, -⟩ := Option.bind_eq_some_iff.1 ha
  have hlt := (List.getElem?_eq_some_iff.1 hl).1
  exact iff_of_true (List.mem_range.2 (hlen ▸ hlt)) (List.mem_map.2 ⟨(i, v), lastDrive_mem hv, rfl⟩)

end Sys2Proof.Machine
end

section
/-! What a receiver hears inside an event is what it hears by its own event: a nested delivery and the `EV_GPIO` event of the same
input do the same, but for the reply (20_memory.md R82, 40_signal_line.md R141). -/

namespace Sys2Proof.Machine

open Sys2Proof.Claims

/-- Whatever row an input event decodes to, its operation is the controller's `OnGPIO`. -/
theorem exec_decodeGpio (k : Core) (c : Nat) (n : Int) (v : Bool) :
    ∃ f, (∀ s, exec (decodeGpio k.params c n v) s = ctrlEvent s c f) ∧ f k = k.onGpio n v := by
  cases k with
  | plic p =>
    simp only [Core.params, decodeGpio]
    split
    · next h => exact ⟨_, fun _ => rfl, by simp only [onPlic, h, if_true]; rfl⟩
    · next h => exact ⟨_, fun _ => rfl, by simp only [onPlic, h]; rfl⟩
  | vic x =>
    simp only [Core.params, decodeGpio]
    split
    · next h => exact ⟨_, fun _ => rfl, by simp only [onVic, h, if_true]; rfl⟩
    · next h => exact ⟨_, fun _ => rfl, by simp only [onVic, h]; rfl⟩
  | exti x =>
    simp only [Core.params, decodeGpio]
    split <;> next h => exact ⟨_, fun _ => rfl, by simp only [onExti, h, if_true]; rfl⟩
  | intmux m =>
    simp only [Core.params, decodeGpio]
    split
    · next h => exact ⟨_, fun _ => rfl, by simp only [onMux, h, if_true]; rfl⟩
    · next h => exact ⟨_, fun _ => rfl, by simp only [onMux, h]; rfl⟩

theorem ctrlEvent_ok {s t : State} {c : Nat} {x : Ctrl} {f : Core → Except Refusal (Eff Core)} {e : Eff Core}
    (ha : s.acyclic = true) (hx : s.ctrls[c]? = some x) (hf : f x.core = .ok e) (h : runEff s c e = .ok t) :
    ctrlEvent s c f = .next t := by
  rw [ctrlEvent, if_pos ha, hx]
  simp only [hf]
  exact toOutcome_next.2 h

theorem State.depthBound_eq (s : State) : s.depthBound = s.wiring.length + 1 := by
  rw [State.depthBound, State.wiring_length]

section
variable {w : List (List (List Endpoint))} {k : Nat}

/-- A receiver hears by its own event what it is delivered. -/
theorem hears_of_notifyOne (ha : acyclicWiring w = true) (hk : k ≤ w.length + 2) {v : Bool} {e : Endpoint} {s s' t : State}
    (hw : s.wiring = w) (hs : SameButReply s s') (h : notifyOne (deliver [] k) v e s = .ok t) :
    ∃ t', hears v e s' = .next t' ∧ SameButReply t t' := by
  obtain ⟨r, rfl⟩ := hs
  unfold notifyOne at h
  unfold hears
  cases hr : e.receiver with
  | outside r' =>
    simp only [hr] at h ⊢
    cases h
    exact ⟨_, rfl, r, rfl⟩
  | ctrl d =>
    simp only [hr] at h ⊢
    cases k with
    | zero => cases h
    | succ k =>
      obtain ⟨x, a, hx, hgpio, hdrive⟩ := deliver_succ.1 h
      obtain ⟨f, hexec, hf⟩ := exec_decodeGpio x.core d e.number v
      have hdepth : k ≤ State.depthBound { s with reply := r } := by
        have hlen : State.depthBound { s with reply := r } = s.wiring.length + 1 := s.depthBound_eq
        rw [hlen, hw]
        omega
      have hfollows : ∀ b n, Follows w SameButReply (deliver [] k) (State.delivery { s with reply := r }) b n := fun b n =>
        deliver_follows sameButReply_simulates k _ b n hdepth (.of_forall (fun _ _ => trivial) _ _ _)
      obtain ⟨-, t', hrun, ht'⟩ := driveAll_follows sameButReply_simulates (n := e.number) trivial
        (fun _ _ a _ b _ => hfollows b a.number) a.drives (s.putEff d a) (State.begin { s with reply := r } d a) t
        ((s.wiring_putEff d a).trans hw) ⟨a.reply, rfl⟩ hdrive
      have hdecode : decode (State.platform { s with reply := r }) (.evGpio d e.number v) =
          .ok (decodeGpio x.core.params d e.number v) := by
        have hq : (State.platform { s with reply := r }).ctrls[d]? = some x.core.params := by
          rw [State.platform_ctrls, hx, Option.map_some]
        simp only [decode, hq]
      have hacyclic : State.acyclic { s with reply := r } = true := by
        rw [← hw] at ha
        exact ha
      rw [hdecode]
      exact ⟨t', (hexec _).trans (ctrlEvent_ok hacyclic hx (hf.trans hgpio) hrun), ht'⟩

theorem notifyOne_steady {v : Bool} {e : Endpoint} {s t : State} (h : notifyOne (deliver [] k) v e s = .ok t) : Steady s t := by
  unfold notifyOne at h
  split at h
  · exact deliver_steady h
  · cases h
    exact steady_propagates.hear _ _ _ _

theorem allHear_of_notifyAll (ha : acyclicWiring w = true) (hk : k ≤ w.length + 2) {v : Bool} :
    ∀ (es : List Endpoint) (s s' t : State), s.wiring = w → SameButReply s s' → notifyAll (deliver [] k) v es s = .ok t →
      ∃ t', allHear v es s' = .next t' ∧ SameButReply t t' ∧ t.wiring = w := by
  intro es
  induction es with
  | nil =>
    rintro s s' t hw hs ⟨⟩
    exact ⟨s', rfl, hs, hw⟩
  | cons e es ih =>
    intro s s' t hw hs h
    rw [notifyAll] at h
    split at h
    · cases h
    · next u hu =>
      obtain ⟨u', hu', hsame⟩ := hears_of_notifyOne ha hk hw hs hu
      rw [allHear, hu']
      exact ih u u' t ((notifyOne_steady hu).2.2.2.1.trans hw) hsame h

theorem allLinesHear_of_notifyLines (ha : acyclicWiring w = true) (hk : k ≤ w.length + 2) :
    ∀ (ls : List (List Endpoint × Bool)) (s s' t : State), s.wiring = w → SameButReply s s' →
      notifyLines (deliver [] k) ls s = .ok t → ∃ t', allLinesHear ls s' = .next t' ∧ SameButReply t t' := by
  intro ls
  induction ls with
  | nil =>
    rintro s s' t - hs ⟨⟩
    exact ⟨s', rfl, hs⟩
  | cons l ls ih =>
    intro s s' t hw hs h
    rw [notifyLines] at h
    split at h
    · cases h
    · next u hu =>
      obtain ⟨u', hu', hsame, hwu⟩ := allHear_of_notifyAll ha hk l.1 s s' u hw hs hu
      rw [allLinesHear, hu']
      exact ih u u' t hwu hsame h

end

/-! ## A controller whose outputs are wired to nothing -/

/-- A controller with its outputs wired to nothing. -/
def Ctrl.unwired (x : Ctrl) : Ctrl := { x with outs := x.outs.map (fun l => { l with receivers := [] }) }

/-- A controller with its outputs wired as those of `x`. -/
def Ctrl.rewired (x y : Ctrl) : Ctrl := { y with outs := List.zipWith (fun a b => { b with receivers := a.receivers }) x.outs y.outs }

theorem State.unwired_ctrls (s : State) (c : Nat) : (unwired s c).ctrls = s.ctrls.modify c Ctrl.unwired := rfl

theorem State.unwired_ctrl {s : State} {c : Nat} {x : Ctrl} (hx : s.ctrls[c]? = some x) :
    (unwired s c).ctrls[c]? = some x.unwired := by
  simp [State.unwired_ctrls, hx]

theorem State.unwired_platform (s : State) (c : Nat) : (unwired s c).platform = s.platform := by
  have hparams : (s.ctrls.modify c Ctrl.unwired).map (fun x => x.core.params) = s.ctrls.map (fun x => x.core.params) :=
    map_modify_of_eq _ _ _ _ fun _ => rfl
  rw [State.platform, State.unwired_ctrls, hparams]
  rfl

/-- The levels of a controller after its own event do not depend on what its outputs are wired to. -/
theorem Ctrl.after_unwired_outs (x : Ctrl) (e : Eff Core) (i : Nat) :
    (x.unwired.after e).outs[i]? =
      (x.outs[i]?).map (fun l => { level := (lastDrive e.drives i).getD l.level, receivers := [] }) := by
  rw [Ctrl.after, Ctrl.driven_outs, Ctrl.unwired]
  simp only [List.getElem?_map, Option.map_map]
  rfl

/-- Wired again, the controller is as after its own event with its outputs wired as they were. -/
theorem Ctrl.rewired_after_unwired (x : Ctrl) (e : Eff Core) : x.rewired (x.unwired.after e) = x.after e := by
  have houts : List.zipWith (fun a b => { b with receivers := a.receivers }) x.outs (x.unwired.after e).outs =
      (x.after e).outs := by
    apply List.ext_getElem?
    intro i
    rw [List.getElem?_zipWith, Ctrl.after_unwired_outs, Ctrl.after, Ctrl.driven_outs]
    cases x.outs[i]? <;> rfl
  rw [Ctrl.rewired, houts]
  rfl

theorem State.wiring_driven (s : State) (c : Nat) (ds : List (Nat × Bool)) : (s.driven c ds).wiring = s.wiring := by
  induction ds generalizing s with
  | nil => rw [s.driven_nil]
  | cons d ds ih => rw [State.driven_cons, ih, State.wiring_putLevel]

/-- The state of controller `c` after its effect, all its levels stored. -/
theorem State.begin_driven_ctrl {s : State} {c : Nat} {x : Ctrl} (e : Eff Core) (hx : s.ctrls[c]? = some x) :
    ((s.begin c e).driven c e.drives).ctrls[c]? = some (x.after e) := by
  simp [State.driven, hx, Ctrl.after]

theorem State.rewired_begin_driven {s : State} {c : Nat} {x : Ctrl} (e : Eff Core) (hx : s.ctrls[c]? = some x) :
    rewired (((unwired s c).begin c e).driven c e.drives) c x = (s.begin c e).driven c e.drives := by
  have hctrls : (((s.ctrls.modify c Ctrl.unwired).modify c (fun y => { y with core := e.core, trace := y.trace ++ e.diags })).modify c
      (fun y => y.driven e.drives)).modify c x.rewired =
      (s.ctrls.modify c (fun y => { y with core := e.core, trace := y.trace ++ e.diags })).modify c (fun y => y.driven e.drives) := by
    apply List.ext_getElem?
    intro j
    by_cases hj : c = j
    · subst hj
      simp only [List.getElem?_modify_eq, hx, Option.map_eq_map, Option.map_some]
      exact congrArg some (x.rewired_after_unwired e)
    · simp [hj]
  simp only [rewired, State.driven, State.begin, State.putEff, unwired, State.mk.injEq, and_true]
  exact hctrls

/-- Wired to nothing, the event stores all its levels and nobody hears. -/
theorem runEff_unwired {s t : State} {c : Nat} {x : Ctrl} {e : Eff Core} (hx : s.ctrls[c]? = some x)
    (h : runEff (unwired s c) c e = .ok t) : t = ((unwired s c).begin c e).driven c e.drives := by
  have hbegin : ((unwired s c).begin c e).ctrls[c]? =
      some { x.unwired with core := e.core, trace := x.trace ++ e.diags } := by
    simp [State.unwired_ctrls, hx, Ctrl.unwired]
  have hnone : ∀ l ∈ x.unwired.outs, l.receivers = [] := by simp [Ctrl.unwired]
  rw [runEff, driveAll_unheard e.drives _ _ hbegin hnone] at h
  exact (Except.ok.inj h).symm

/-- An event on a controller of sound wiring: its outputs stored, then the receivers of those that changed hear of them. -/
theorem runEff_notifyLines {s t : State} {c : Nat} {x : Ctrl} {e : Eff Core} (hs : s.acyclic = true)
    (hx : s.ctrls[c]? = some x) (hasc : Ascending e.drives) (h : runEff s c e = .ok t) :
    notifyLines s.delivery (driveChanges x.outs e.drives) ((s.begin c e).driven c e.drives) = .ok t := by
  have hheight := acyclic_height hs (List.getElem?_eq_some_iff.1 hx).1
  exact driveAll_notifyLines (fun a ha j => no_return ha _ hheight) e.drives _ t
    { x with core := e.core, trace := x.trace ++ e.diags } hasc (s.wiring_begin c e) (by simp [hx]) h

theorem eventOn_ctrl? {s : State} {c : Nat} {i : Instr} (h : EventOn s c i) : (encode i).ctrl? = some c := by
  obtain ⟨e, hdecode, he⟩ := h
  rw [encode_of_decode hdecode]
  obtain ⟨n, v, rfl⟩ | ⟨off, rfl⟩ | ⟨off, v, rfl⟩ | rfl := he <;> rfl

end Sys2Proof.Machine

namespace Sys2Proof.Proofs

open Sys2Proof.Machine Sys2Proof.Claims

/-- Settles O18: the event wired to nothing stores the levels; on the wired platform the changed outputs' receivers then hear, and a
nested delivery is the receiver's own event. -/
theorem outputChangesReachTheirReceivers : Obligations.OutputChangesReachTheirReceivers := by
  intro s t₀ c i x y hs hx hevent h₀ hy
  have ha := s.sound_acyclic hs
  obtain ⟨f, hop⟩ := exec_isOp s.platform (eventOn_ctrl? hevent)
  rw [hop.exec_eq _ (s.unwired_platform c)] at h₀
  obtain ⟨x₀, e, -, hx₀, he, hrun₀⟩ := ctrlEvent_next h₀
  rw [State.unwired_ctrl hx, Option.some.injEq] at hx₀
  subst hx₀
  obtain ⟨hkeeps, hasc⟩ := hop.lawful x.core e he
  obtain rfl := runEff_unwired hx hrun₀
  obtain ⟨t, hrun⟩ := runEff_ok hs hx hkeeps.params
  rw [State.begin_driven_ctrl e (State.unwired_ctrl hx), Option.some.injEq] at hy
  have hchanged : changedOutputs x y = driveChanges x.outs e.drives := by
    refine changedOutputs_eq hasc fun j => ?_
    rw [← hy, Ctrl.after_unwired_outs, Option.map_map]
    rfl
  have hreply : t.reply = e.reply := (runEff_spec ha hx hkeeps.params hrun).2.1
  have hwiring : ((s.begin c e).driven c e.drives).wiring = s.wiring := by rw [State.wiring_driven, State.wiring_begin]
  have hdepth : s.depthBound ≤ s.wiring.length + 2 := by rw [State.depthBound_eq]; omega
  obtain ⟨t', ht', r, rfl⟩ := allLinesHear_of_notifyLines ha hdepth _ _ _ t hwiring ⟨_, rfl⟩
    (runEff_notifyLines ha hx hasc hrun)
  refine ⟨_, by rw [hchanged, State.rewired_begin_driven e hx]; exact ht', ?_⟩
  rw [hop.exec_eq s rfl, ctrlEvent_ok ha hx he hrun]
  show Host.Outcome.next t = .next { t with reply := e.reply }
  rw [← hreply]

end Sys2Proof.Proofs
end

section
/-! When a PLIC source becomes pending: only by a rise of its own input or by a completion that names it (41_plic.md R161, R168). So
an event that does neither, and drives nothing wired to that input, leaves a source that is not pending as it is (20_memory.md R87). -/

namespace Sys2Proof.Machine

/-! ## Sources under an update, whatever the index -/

/-- An update of one source changes no other, and that one only if it exists. -/
theorem Plic.source_modSource_cases (p : Plic) (i : Nat) (f : PlicSrc → PlicSrc) (j : Nat) :
    (p.modSource i f).source j = p.source j ∨ j = i ∧ (p.modSource i f).source j = f (p.source j) := by
  by_cases h0 : i = 0
  · exact .inl (by rw [Plic.modSource, if_pos h0])
  · by_cases hi : i - 1 < p.srcs.length
    · rw [Plic.source_modSource f hi h0]
      by_cases hj : j = i
      · exact .inr ⟨hj, by rw [if_pos hj, hj]⟩
      · exact .inl (if_neg hj)
    · rw [Plic.modSource, if_neg h0, List.modify_eq_self (by omega)]
      exact .inl rfl

theorem Plic.source_modSource_ne {p : Plic} {i j : Nat} (f : PlicSrc → PlicSrc) (h : j ≠ i) :
    (p.modSource i f).source j = p.source j :=
  (p.source_modSource_cases i f j).resolve_right fun ⟨hj, _⟩ => h hj

/-- Source `r` is not pending after the update, if it was not before and the update sets no pending flag. -/
theorem Plic.modSource_notPending {p : Plic} {i r : Nat} {f : PlicSrc → PlicSrc} (hf : ∀ x, x.isPending = false → (f x).isPending = false)
    (h : (p.source r).isPending = false) : ((p.modSource i f).source r).isPending = false := by
  obtain heq | ⟨-, heq⟩ := p.source_modSource_cases i f r
  · rwa [heq]
  · rw [heq]
    exact hf _ h

theorem Plic.source_of_srcs {p q : Plic} (h : q.srcs = p.srcs) (i : Nat) : q.source i = p.source i := by
  rw [Plic.source, Plic.source, h]

theorem Plic.enableSource_srcs (p : Plic) (t i : Nat) (en : Bool) : (p.enableSource t i en).1.srcs = p.srcs := by
  unfold Plic.enableSource
  split
  · rfl
  · split <;> rfl

theorem Plic.enableBits_srcs (t w : Nat) (v : Word) (bits : List Nat) (a : Plic × List Diag) :
    (bits.foldl (Plic.enableBit t w v) a).1.srcs = a.1.srcs := by
  induction bits generalizing a with
  | nil => rfl
  | cons b bits ih =>
    rw [List.foldl_cons, ih, Plic.enableBit]
    split
    · rfl
    · exact Plic.enableSource_srcs ..

theorem Plic.writeEnable_srcs (p : Plic) (t w : Nat) (v : Word) : (p.writeEnable t w v).core.srcs = p.srcs := by
  by_cases ht : p.params.numTargets ≤ t
  · rw [Plic.writeEnable, if_pos ht]
    rfl
  · simp only [Plic.writeEnable, ht, if_false, Plic.enableBits_srcs]

theorem Plic.reset_notPending (q : PlicParams) (r : Nat) : ((Plic.reset q).source r).isPending = false := by
  unfold Plic.source
  split
  · rfl
  · rw [Plic.reset, List.getD_eq_getElem?_getD, List.getElem?_replicate]
    split <;> rfl

/-! ## Operations -/

/-- The operation's answer leaves source `r` of a PLIC not pending. -/
def Rests (r : Nat) (p : Plic) (a : Except Refusal (Eff Plic)) : Prop :=
  ∀ e, a = .ok e → (p.source r).isPending = false → (e.core.source r).isPending = false

section
variable {r : Nat} {p : Plic}

theorem Rests.ok {e : Eff Plic} (h : (p.source r).isPending = false → (e.core.source r).isPending = false) :
    Rests r p (.ok e) := by
  rintro _ ⟨⟩
  exact h

theorem Rests.error {x : Refusal} : Rests r p (.error x) := by
  rintro _ ⟨⟩

theorem Rests.ite {c : Prop} [Decidable c] {a b : Except Refusal (Eff Plic)} (ha : c → Rests r p a) (hb : ¬ c → Rests r p b) :
    Rests r p (if c then a else b) := by
  split
  · next h => exact ha h
  · next h => exact hb h

theorem Rests.guarded {b : Bool} {e : Eff Plic} (h : (p.source r).isPending = false → (e.core.source r).isPending = false) :
    Rests r p (Machine.guarded b e) :=
  .ite (fun _ => .ok h) (fun _ => .error)

/-- Only the rise of its own input makes a source pending (41_plic.md R161). -/
theorem Plic.onGpio_rests {n : Int} {v : Bool} (h : ¬ (n = r ∧ v = true)) : Rests r p (p.onGpio n v) := by
  refine .ite (fun hin => .ok fun hp => ?_) (fun _ => .error)
  by_cases hr : r = n.toNat
  · have hv : v = false := by
      have h1 : (1 : Int) ≤ n ∧ n < p.params.numSources := by simpa [inputInRange] using hin
      simpa [show n = r by omega] using h
    exact Plic.modSource_notPending (fun x hx => by simp [hx, hv]) hp
  · exact (congrArg PlicSrc.isPending (Plic.source_modSource_ne _ hr)).trans hp

theorem Plic.setPriority_notPending (i : Nat) (v : Word) (h : (p.source r).isPending = false) :
    ((p.setPriority i v).core.source r).isPending = false := by
  unfold Plic.setPriority
  split
  · exact h
  · split
    · exact h
    · exact Plic.modSource_notPending (fun _ hx => hx) h

theorem Plic.claim_notPending (t : Nat) (h : (p.source r).isPending = false) :
    ((p.claim t).core.source r).isPending = false := by
  unfold Plic.claim
  split
  · exact h
  · split
    · exact h
    · exact Plic.modSource_notPending (fun _ _ => rfl) h

/-- Only a completion that names it makes a source pending again (41_plic.md R168). -/
theorem Plic.complete_notPending (t : Nat) {v : Word} (hv : v.toNat ≠ r) (h : (p.source r).isPending = false) :
    ((p.complete t v).core.source r).isPending = false := by
  unfold Plic.complete
  split
  · exact h
  · split
    · exact h
    · split
      · exact h
      · split
        · exact h
        · exact (congrArg PlicSrc.isPending (Plic.source_modSource_ne _ (Ne.symm hv))).trans h

end

/-! ## Instructions -/

/-- Source `r` of a controller is pending, if it is a PLIC. -/
def Core.pendingAt (k : Core) (r : Nat) : Bool :=
  match k with
  | .plic p => (p.source r).isPending
  | _ => false

/-- The instruction is neither the rise of input `r` of a PLIC nor a completion of `r`. -/
def Spares (r : Nat) : Instr → Prop
  | .plicOnGpio _ n v => ¬ (n = r ∧ v = true)
  | .plicCompleteWrite _ _ v => v.toNat ≠ r
  | _ => True

section
variable {r c : Nat} {s t : State} {x : Ctrl} {p : Plic}

/-- An operation of a PLIC that leaves source `r` not pending. -/
theorem onPlic_notPending {f : Plic → Except Refusal (Eff Plic)} (hf : Rests r p (f p)) {e : Eff Core}
    (he : onPlic f (.plic p) = .ok e) (h : (p.source r).isPending = false) : e.core.pendingAt r = false := by
  obtain ⟨e', he', rfl⟩ := Except.map_ok he
  exact hf e' he' h

/-- An event on a PLIC is an effect that, source `r` not being pending, leaves it so; for one operation on a PLIC. -/
theorem plicEvent_notPending {f : Plic → Except Refusal (Eff Plic)} (hx : s.ctrls[c]? = some x) (hp : x.core = .plic p)
    (h : ctrlEvent s c (onPlic f) = .next t) (hf : Rests r p (f p)) :
    ∃ e, runEff s c e = .ok t ∧ ((p.source r).isPending = false → e.core.pendingAt r = false) := by
  obtain ⟨y, e, -, hy, he, hrun⟩ := ctrlEvent_next h
  rw [hx, Option.some.injEq] at hy
  rw [← hy, hp] at he
  exact ⟨e, hrun, onPlic_notPending hf he⟩

/-- The same for an access that keeps the state of whatever controller it falls to. -/
theorem anyEvent_notPending {b : Bool} {g : Core → Eff Core} (hx : s.ctrls[c]? = some x) (hp : x.core = .plic p)
    (h : ctrlEvent s c (fun k => guarded b (g k)) = .next t) (hg : ∀ k, (g k).core = k) :
    ∃ e, runEff s c e = .ok t ∧ ((p.source r).isPending = false → e.core.pendingAt r = false) := by
  obtain ⟨y, e, -, hy, he, hrun⟩ := ctrlEvent_next h
  rw [hx, Option.some.injEq] at hy
  refine ⟨e, hrun, fun hr => ?_⟩
  simp only [guarded] at he
  split at he
  · rw [← Except.ok.inj he, hg, ← hy, hp]
    exact hr
  · cases he

/-- No row of a PLIC but the rise of its input and its completion makes a source pending; a row of another kind refuses a PLIC. -/
theorem exec_plic_notPending {i : Instr} (hi : (encode i).ctrl? = some c) (hx : s.ctrls[c]? = some x) (hp : x.core = .plic p)
    (hspare : Spares r i) (h : exec i s = .next t) :
    ∃ e, runEff s c e = .ok t ∧ ((p.source r).isPending = false → e.core.pendingAt r = false) := by
  cases i <;> cases hi
  case plicOnGpio n v =>
    exact plicEvent_notPending hx hp h (.ite (fun _ => Plic.onGpio_rests hspare) (fun _ => .error))
  case plicOnGpioOutOfRange n v =>
    refine plicEvent_notPending hx hp h (.ite (fun _ => .error) (fun hout => ?_))
    rw [Plic.onGpio, if_neg hout]
    exact .error
  case plicPriorityWrite i v => exact plicEvent_notPending hx hp h (.guarded (Plic.setPriority_notPending i v))
  case plicPriorityRead i | plicEnableRead t w => exact plicEvent_notPending hx hp h (.guarded id)
  case plicEnableWrite t w v =>
    refine plicEvent_notPending hx hp h (.guarded fun hr => ?_)
    rwa [Plic.source_of_srcs (p.writeEnable_srcs t w v)]
  case plicClaimRead t => exact plicEvent_notPending hx hp h (.ok (Plic.claim_notPending t))
  case plicCompleteWrite t v => exact plicEvent_notPending hx hp h (.ok (Plic.complete_notPending t hspare))
  case plicReset => exact plicEvent_notPending hx hp h (.ok fun _ => Plic.reset_notPending p.params r)
  case anyUnhandledRead off => exact anyEvent_notPending (g := fun k => Eff.unhandledRead k off) hx hp h fun _ => rfl
  case anyUnhandledWrite off v => exact anyEvent_notPending (g := fun k => Eff.unhandledWrite k off) hx hp h fun _ => rfl
  case anyReadonlyWrite off v => exact anyEvent_notPending (g := Eff.nothing) hx hp h fun _ => rfl
  all_goals
    obtain ⟨y, e, -, hy, he, -⟩ := ctrlEvent_next h
    rw [hx, Option.some.injEq] at hy
    rw [← hy, hp] at he
    cases he

end

/-! ## Propagation -/

/-- Source `r` of controller `c` is not pending. -/
def State.NotPending (s : State) (c r : Nat) : Prop := ∀ x, s.ctrls[c]? = some x → x.core.pendingAt r = false

theorem State.NotPending.of_core {s t : State} {c r : Nat} (h : s.NotPending c r)
    (hc : (t.ctrls[c]?).map Ctrl.core = (s.ctrls[c]?).map Ctrl.core) : t.NotPending c r := by
  intro y hy
  rw [hy, Option.map_some, eq_comm, Option.map_eq_some_iff] at hc
  obtain ⟨x, hx, hcore⟩ := hc
  exact hcore ▸ h x hx

theorem State.NotPending.putLevel {s : State} {c r : Nat} (h : s.NotPending c r) (L : LineRef) (v : Bool) :
    (s.putLevel L v).NotPending c r := by
  refine h.of_core ?_
  cases L with
  | ext k => rfl
  | out d i => by_cases hd : d = c <;> cases hx : s.ctrls[c]? <;> simp [hd, hx]

theorem State.NotPending.putEff {s : State} {c r d : Nat} {e : Eff Core} (h : s.NotPending c r)
    (he : d = c → e.core.pendingAt r = false) : (s.putEff d e).NotPending c r := by
  by_cases hd : d = c
  · subst hd
    intro y hy
    cases hx : s.ctrls[d]? with
    | none => simp [hx] at hy
    | some x =>
      have hcore : e.core = y.core := by simpa [hx] using congrArg Ctrl.core (Option.some.inj (by simpa [hx] using hy))
      rw [← hcore]
      exact he rfl
  · exact h.of_core (by simp [hd])

theorem Core.onGpio_notPending {k : Core} {n : Int} {v : Bool} {e : Eff Core} {r : Nat} (hn : n ≠ r)
    (he : k.onGpio n v = .ok e) (h : k.pendingAt r = false) : e.core.pendingAt r = false := by
  cases k with
  | plic p => exact onPlic_notPending (f := fun p => p.onGpio n v) (Plic.onGpio_rests fun hnv => hn hnv.1) he h
  | _ =>
    obtain ⟨e', -, rfl⟩ := Except.map_ok he
    rfl

/-- A run beside itself, with source `r` of controller `c` not pending: the elementary changes at every other input keep it so. -/
theorem notPending_simulates (c r : Nat) :
    Simulates (fun a n => ¬ (a = c ∧ n = r)) (fun s s' => s' = s ∧ s.NotPending c r) where
  hear _ _ _ := by rintro ⟨rfl, h⟩; exact ⟨rfl, h⟩
  same _ := by rintro ⟨rfl, -⟩; rfl
  level i v _ := by rintro ⟨rfl, h⟩; exact ⟨rfl, h.putLevel _ v⟩
  gpio {_ _ _ _ _ x _} ha := by
    rintro ⟨rfl, h⟩ hx he
    refine ⟨rfl, h.putEff ?_⟩
    rintro rfl
    exact Core.onGpio_notPending (fun hn => ha ⟨rfl, hn⟩) he (h x hx)

/-- No output reached from controller `d` through at most `k` receivers is wired to input `r` of controller `c`. -/
def Misses (w : List (List (List Endpoint))) (c r k d : Nat) : Prop :=
  ∀ a, reachesWithin w k d a = true → ∀ l ∈ w.getD a [], ∀ e ∈ l, ¬ (e.receiver = .ctrl c ∧ e.number = r)

theorem Misses.target {w : List (List (List Endpoint))} {c r k d b : Nat} (h : Misses w c r (k + 1) d)
    (hb : b ∈ wiringTargets w d) : Misses w c r k b :=
  fun a ha => h a (reachesWithin_target hb ha)

theorem reachesWithin_succ {w : List (List (List Endpoint))} :
    ∀ {k c d : Nat}, reachesWithin w k c d = true → reachesWithin w (k + 1) c d = true := by
  intro k
  induction k with
  | zero =>
    intro c d h
    have hcd : c = d := by simpa [reachesWithin] using h
    rw [hcd]
    exact reachesWithin_self w 1 d
  | succ k ih =>
    intro c d h
    rw [reachesWithin, Bool.or_eq_true] at h
    obtain h | h := h
    · rw [eq_of_beq h]
      exact reachesWithin_self w _ d
    · obtain ⟨a, ha, had⟩ := List.any_eq_true.1 h
      exact reachesWithin_target ha (ih had)

theorem Misses.of_succ {w : List (List (List Endpoint))} {c r k d : Nat} (h : Misses w c r (k + 1) d) : Misses w c r k d :=
  fun a ha => h a (reachesWithin_succ ha)

/-- What cannot drive an input is not delivered to it. -/
theorem Along.of_misses {w : List (List (List Endpoint))} {c r : Nat} :
    ∀ k d n, ¬ (d = c ∧ n = (r : Int)) → Misses w c r k d → Along w (fun a n => ¬ (a = c ∧ n = r)) k d n := by
  intro k
  induction k with
  | zero => exact fun _ _ _ _ => trivial
  | succ k ih =>
    intro d n hd hmiss
    refine ⟨hd, fun l hl e he b hb hlt => ih b e.number ?_ (hmiss.target (mem_wiringTargets hl he hb hlt))⟩
    rintro ⟨rfl, hn⟩
    exact hmiss d (reachesWithin_self w _ d) l hl e he ⟨hb, hn⟩

section
variable {w : List (List (List Endpoint))} {c r k : Nat}

/-- A line none of whose receivers is the input, or can drive it, leaves the source alone. -/
theorem notifyAll_notPending {es : List Endpoint} {v : Bool} {s t : State} (hw : s.wiring = w) (hs : s.NotPending c r)
    (hes : ∀ e ∈ es, ∀ b, e.receiver = .ctrl b → b < w.length → ¬ (b = c ∧ e.number = r) ∧ Misses w c r k b)
    (h : notifyAll (deliver [] k) v es s = .ok t) : t.NotPending c r := by
  obtain ⟨-, t', -, -, ht⟩ := notifyAll_follows (dl' := deliver [] k) (notPending_simulates c r) es s s t
    (fun e he b hb => follows_of_along (notPending_simulates c r) (Nat.le_refl k) fun hlt =>
      Along.of_misses k b e.number (hes e he b hb hlt).1 (hes e he b hb hlt).2) hw ⟨rfl, hs⟩ h
  exact ht

/-- Driving the outputs of a controller that cannot drive the input leaves the source alone. -/
theorem driveAll_notPending {d : Nat} {ds : List (Nat × Bool)} {s t : State} (hw : s.wiring = w) (hs : s.NotPending c r)
    (hmiss : Misses w c r (k + 1) d) (h : driveAll (deliver [] k) d ds s = .ok t) : t.NotPending c r := by
  have hother : ¬ (d = c ∧ (-1 : Int) = r) := by omega
  obtain ⟨-, t', -, -, ht⟩ := driveAll_follows (dl' := deliver [] k) (notPending_simulates c r) hother
    (fun l hl e he b hb => follows_of_along (notPending_simulates c r) (Nat.le_refl k) fun hlt =>
      Along.of_misses k b e.number
        (by rintro ⟨rfl, hn⟩; exact hmiss d (reachesWithin_self w _ d) l hl e he ⟨hb, hn⟩)
        (hmiss.target (mem_wiringTargets hl he hb hlt)))
    ds s s t hw ⟨rfl, hs⟩ h
  exact ht

end

end Sys2Proof.Machine
end

section
/-! A claimed source stays not pending through every event that neither asserts nor completes it, a system reset among them, so it is
not claimed again (20_memory.md R87). -/

namespace Sys2Proof.Machine

open Sys2Proof.Claims

/-! ## System reset -/

theorem systemReset_perm {s t : State} {order : List Nat} (h : s.systemReset order = .next t) :
    order.Perm (List.range s.ctrls.length) := by
  unfold State.systemReset at h
  split at h
  · split at h
    · next hperm => exact List.isPerm_iff.1 hperm
    · cases h
  · cases h

theorem Core.reset_notPending (q : CtrlParams) (r : Nat) : (Core.reset q).pendingAt r = false := by
  cases q with
  | plic q => exact Plic.reset_notPending q r
  | _ => rfl

/-- A controller that is reset in its turn keeps its reset state through the turns after it (70_reset_and_hazards.md R405). -/
theorem resetInTurn_notPending {c r : Nat} : ∀ order done s t, s.sound = true →
    (∀ d ∈ order, d < s.ctrls.length ∧ d ∉ done) → order.Nodup → c ∈ order → resetInTurn done order s = .ok t →
    t.NotPending c r := by
  intro order
  induction order with
  | nil =>
    intro done s t _ _ _ hc
    cases hc
  | cons d ds ih =>
    intro done s t hs hd hnodup hc h
    obtain ⟨⟨hlt, hnew⟩, hds⟩ := List.forall_mem_cons.1 hd
    obtain ⟨hnotin, hnodupTail⟩ := List.nodup_cons.1 hnodup
    obtain ⟨u, hu, hst, -, hafter⟩ := resetOne_spec hs (List.getElem?_eq_getElem hlt) hnew
    simp only [resetInTurn, List.getElem?_eq_getElem hlt, hu] at h
    have hsu : u.sound = true := hst.sound.trans hs
    have hds' : ∀ a ∈ ds, a < u.ctrls.length ∧ a ∉ d :: done := fun a ha => by
      refine ⟨hst.length ▸ (hds a ha).1, fun hmem => ?_⟩
      obtain rfl | hmem := List.mem_cons.1 hmem
      · exact hnotin ha
      · exact (hds a ha).2 hmem
    obtain rfl | hc := List.mem_cons.1 hc
    · obtain ⟨t', ht', -, hkept⟩ := resetInTurn_spec ds (c :: done) u hsu hds' hnodupTail
      obtain rfl : t' = t := Except.ok.inj (ht'.symm.trans h)
      have hu : u.NotPending c r := by
        intro y hy
        rw [hafter, Option.some.injEq] at hy
        rw [← hy, Ctrl.after, Ctrl.driven_core, Core.resetEff_core]
        exact Core.reset_notPending _ r
      refine hu.of_core ?_
      have hcore := congrArg (Option.map Prod.fst) (hkept c List.mem_cons_self)
      simpa [Option.map_map, Function.comp_def] using hcore
    · exact ih (d :: done) u t hsu hds' hnodupTail hc h

/-- A system reset completes a platform of sound wiring to the same platform, with no PLIC source pending. -/
theorem systemReset_notPending {s t : State} {order : List Nat} {c r : Nat} (hs : s.sound = true) (hc : c < s.ctrls.length)
    (h : s.systemReset order = .next t) : SamePlatform { s with reply := none } t ∧ t.NotPending c r := by
  obtain ⟨-, u, hlower, hreset⟩ := systemReset_next h
  obtain ⟨u', hu', hsame, -⟩ := lowerLines_spec (List.range s.lines.length) { s with reply := none } hs
  obtain rfl : u' = u := Except.ok.inj (hu'.symm.trans hlower)
  have hperm := systemReset_perm h
  have hlen : u'.ctrls.length = s.ctrls.length := by simpa using congrArg List.length hsame.2.2.2.2.1
  have horder : ∀ d ∈ order, d < u'.ctrls.length ∧ d ∉ ([] : List Nat) := fun d hd =>
    ⟨hlen ▸ List.mem_range.1 (hperm.mem_iff.1 hd), List.not_mem_nil⟩
  have hnodup := hperm.nodup_iff.2 List.nodup_range
  have hsu : u'.sound = true := hsame.sound.trans hs
  obtain ⟨t', ht', hst, -⟩ := resetInTurn_spec order [] u' hsu horder hnodup
  obtain rfl : t' = t := Except.ok.inj (ht'.symm.trans hreset)
  exact ⟨hsame.trans (SamePlatform.of_steady hst),
    resetInTurn_notPending order [] u' t' hsu horder hnodup (hperm.mem_iff.2 (List.mem_range.2 hc)) hreset⟩

/-! ## One event -/

/-- The platform of `s`, in which source `r` of controller `c` is not pending. -/
structure AtRest (s : State) (c r : Nat) (u : State) : Prop where
  wiring : u.wiring = s.wiring
  platform : u.platform = s.platform
  receivers : u.lines.map SigLine.receivers = s.lines.map SigLine.receivers
  notPending : u.NotPending c r

theorem AtRest.sound {s u : State} {c r : Nat} (h : AtRest s c r u) : u.sound = s.sound := by
  rw [State.sound, State.sound, wired_of_receivers h.platform h.wiring h.receivers, State.acyclic, State.acyclic, h.wiring]

theorem AtRest.length {s u : State} {c r : Nat} (h : AtRest s c r u) : u.ctrls.length = s.ctrls.length := by
  rw [← State.wiring_length, h.wiring, State.wiring_length]

theorem AtRest.of_sameConstants {s u t : State} {c r : Nat} (h : AtRest s c r u) (hc : SameConstants u t)
    (ht : t.NotPending c r) : AtRest s c r t :=
  ⟨hc.wiring.trans h.wiring, hc.platform.trans h.platform, hc.receivers.trans h.receivers, ht⟩

theorem Misses.of_neverDrives {s : State} {d c r : Nat} (h : NeverDrives s d c r) :
    Misses s.wiring c r (s.depthBound + 1) d := h

section
variable {s u t : State} {c r : Nat} {p : Plic}

/-- Controller `c` of the platform is a PLIC with the parameters of `p`. -/
theorem AtRest.plic (hu : AtRest s c r u) (hc : PlicAt s c p) :
    ∃ x q, u.ctrls[c]? = some x ∧ x.core = .plic q ∧ q.params = p.params := by
  obtain ⟨-, y, hy, hcore, -⟩ := hc
  have hparams : u.platform.ctrls[c]? = some (.plic p.params) := by
    rw [hu.platform, State.platform_ctrls, hy, Option.map_some, hcore]
    rfl
  obtain ⟨x, hx, hq⟩ := State.exists_ctrl hparams
  obtain ⟨q, hq, hp⟩ := Core.eq_plic hq
  exact ⟨x, q, hx, hq, hp⟩

/-- An event on a controller that cannot drive the input, and is no rise and no completion of the source. -/
theorem ctrl_exec_notPending {d : Nat} {i : Instr} (hu : AtRest s c r u) (hc : PlicAt s c p) (hi : (encode i).ctrl? = some d)
    (hmiss : NeverDrives s d c r) (hspare : d = c → Spares r i) (h : exec i u = .next t) : t.NotPending c r := by
  have hrun : ∃ e, runEff u d e = .ok t ∧ (d = c → e.core.pendingAt r = false) := by
    by_cases hd : d = c
    · subst hd
      obtain ⟨x, q, hx, hq, -⟩ := hu.plic hc
      obtain ⟨e, hrun, he⟩ := exec_plic_notPending hi hx hq (hspare rfl) h
      have hnot := hu.notPending x hx
      rw [hq] at hnot
      exact ⟨e, hrun, fun _ => he hnot⟩
    · obtain ⟨f, hop⟩ := exec_isOp u.platform hi
      rw [hop.exec_eq u rfl] at h
      obtain ⟨x, e, -, -, -, hrun⟩ := ctrlEvent_next h
      exact ⟨e, hrun, fun hdc => absurd hdc hd⟩
  obtain ⟨e, hrun, he⟩ := hrun
  have hbegin : (u.begin d e).NotPending c r := (hu.notPending.putEff he).of_core rfl
  have hdepth : u.depthBound = s.depthBound := by rw [State.depthBound, hu.length, State.depthBound]
  refine driveAll_notPending (k := u.depthBound) ((u.wiring_begin d e).trans hu.wiring) hbegin ?_ hrun
  rw [hdepth]
  exact hmiss

/-- Setting an external line none of whose receivers is the input, or can drive it. -/
theorem setLevels_notPending {k : Nat} (hline : ∀ l, s.line? (.ext k) = some l → ∀ e ∈ l.receivers, ∀ b,
    e.receiver = .ctrl b → ¬ (b = c ∧ e.number = r) ∧ NeverDrives s b c r) : ∀ levels u t, AtRest s c r u →
    setLevels (deliver [] s.depthBound) (.ext k) levels u = .ok t → t.NotPending c r := by
  intro levels
  induction levels with
  | nil =>
    rintro u t hu ⟨⟩
    exact hu.notPending
  | cons v levels ih =>
    intro u t hu h
    rw [setLevels] at h
    split at h
    · cases h
    · next u' h1 =>
      have hconst : SameConstants u u' := setLine_rel sameConstants_propagates.toHears
        (deliver_rel sameConstants_propagates _) (putLevel_ext_sameConstants u k v) h1
      refine ih u' t (hu.of_sameConstants hconst ?_) h
      unfold setLine at h1
      split at h1
      · cases h1
        exact hu.notPending
      · next l hl =>
        split at h1
        · cases h1
          exact hu.notPending
        · have hrecv : ∃ l', s.line? (.ext k) = some l' ∧ l'.receivers = l.receivers := by
            have hk := congrArg (fun m : List (List Endpoint) => m[k]?) hu.receivers
            have hl' : u.lines[k]? = some l := hl
            simp only [List.getElem?_map, hl', Option.map_some] at hk
            exact Option.map_eq_some_iff.1 hk.symm
          obtain ⟨l', hl', hsame⟩ := hrecv
          refine notifyAll_notPending (w := s.wiring) ((u.wiring_putLevel _ v).trans hu.wiring)
            (hu.notPending.putLevel _ v) (fun e he b hb _ => ?_) h1
          obtain ⟨hinput, hmiss⟩ := hline l' hl' e (hsame ▸ he) b hb
          exact ⟨hinput, (Misses.of_neverDrives hmiss).of_succ⟩

/-- The instruction of an event that spares the source spares it. -/
theorem spares_of_decode {e : Event} {i : Instr} (hp : u.platform = s.platform) (he : LeavesSource s c r e)
    (hc : e.ctrl? = some c) (h : decode u.platform e = .ok i) : Spares r i := by
  cases e with
  | evGpio d n v =>
    cases hc
    obtain ⟨q, -, rfl⟩ := decode_evGpio_ok h
    cases q with
    | plic q =>
      simp only [decodeGpio]
      split
      · exact fun hnv => he.1 ⟨rfl, hnv⟩
      · trivial
    | _ => simp only [decodeGpio]; split <;> trivial
  | memRead d off bytes =>
    obtain ⟨q, -, -, rfl⟩ := decode_memRead_ok h
    cases regAt q off with
    | none => trivial
    | some a => cases a <;> trivial
  | memWrite d off bytes v =>
    cases hc
    obtain ⟨q, hq, -, rfl⟩ := decode_memWrite_ok h
    rw [hp] at hq
    obtain ⟨x, hx, rfl⟩ := State.exists_ctrl hq
    cases hreg : regAt x.core.params off with
    | none => trivial
    | some a =>
      cases a with
      | plicClaimComplete t => exact fun hv => he.1 ⟨rfl, hv, x, t, hx, hreg⟩
      | muxCsr ch => simp only [Option.elim_some, decodeRegWrite]; split <;> trivial
      | _ => trivial
  | evReset d =>
    obtain ⟨q, -, rfl⟩ := decode_evReset_ok h
    cases q <;> trivial
  | slSet L v | slBlink L | slQuery L | systemReset order => cases hc

theorem exec_notPending {e : Event} {i : Instr} (hu : AtRest s c r u) (hc : PlicAt s c p) (he : LeavesSource s c r e)
    (hdecode : decode u.platform e = .ok i) (h : exec i u = .next t) : t.NotPending c r := by
  have hctrl : ∀ d, e.ctrl? = some d → NeverDrives s d c r → t.NotPending c r := fun d hd hmiss =>
    ctrl_exec_notPending hu hc (by rwa [encode_of_decode hdecode]) hmiss
      (fun hdc => spares_of_decode hu.platform he (hdc ▸ hd) hdecode) h
  have hline : ∀ L levels, lineEvent u L levels = .next t →
      (∀ l, s.line? L = some l → ∀ e ∈ l.receivers, ∀ b, e.receiver = .ctrl b →
        ¬ (b = c ∧ e.number = r) ∧ NeverDrives s b c r) → t.NotPending c r := by
    intro L levels hev hrecv
    obtain ⟨k, rfl, hset⟩ := lineEvent_next hev
    have hdepth : u.depthBound = s.depthBound := by rw [State.depthBound, hu.length, State.depthBound]
    rw [State.delivery, hdepth] at hset
    exact setLevels_notPending hrecv levels { u with reply := none } t ⟨hu.wiring, hu.platform, hu.receivers, hu.notPending⟩ hset
  cases e with
  | evGpio d n v => exact hctrl d rfl he.2
  | memRead d off bytes => exact hctrl d rfl he
  | memWrite d off bytes v => exact hctrl d rfl he.2
  | evReset d => exact hctrl d rfl he
  | slSet L v =>
    obtain rfl := decode_slSet_ok hdecode
    exact hline L [v] h he
  | slBlink L =>
    obtain rfl := decode_slBlink_ok hdecode
    exact hline L [true, false] h he
  | slQuery L =>
    obtain rfl := decode_slQuery_ok hdecode
    obtain ⟨v, rfl⟩ := queryEvent_next h
    exact hu.notPending
  | systemReset order => cases hdecode

/-- A step on an event that spares the source. -/
theorem step_atRest {e : Event} {rest : List Event} (hu : AtRest s c r u) (hc : PlicAt s c p) (he : LeavesSource s c r e)
    (hin : u.inbox = e :: rest) (h : step u = .next t) : AtRest s c r t ∧ t.inbox = rest := by
  have hrest : AtRest s c r { u with inbox := rest } := ⟨hu.wiring, hu.platform, hu.receivers, hu.notPending⟩
  obtain ⟨hs, x, hx, -⟩ := id hc
  by_cases hreset : ∃ order, e = .systemReset order
  · obtain ⟨order, rfl⟩ := hreset
    rw [step_systemReset hin] at h
    have hlt : c < u.ctrls.length := hu.length ▸ (List.getElem?_eq_some_iff.1 hx).1
    obtain ⟨⟨hinbox, -, hwiring, hplatform, -, hreceivers, -⟩, hnot⟩ :=
      systemReset_notPending (r := r) (hrest.sound.trans hs) hlt h
    exact ⟨⟨hwiring.trans hu.wiring, hplatform.trans hu.platform, hreceivers.trans hu.receivers, hnot⟩, hinbox⟩
  · rw [not_exists] at hreset
    cases hdecode : decode u.platform e with
    | error err =>
      rw [step_undecodable hin hreset hdecode] at h
      cases h
    | ok i =>
      rw [step_decoded hin hdecode] at h
      have hconst := exec_sameConstants h
      exact ⟨hrest.of_sameConstants hconst (exec_notPending hrest hc he hdecode h), hconst.inbox⟩

theorem run_succ_next {M : Host.Core} {k : Nat} {s t : M.State} (h : M.run (k + 1) s = .next t) :
    ∃ u, M.step s = .next u ∧ M.run k u = .next t := by
  rw [Host.Core.run] at h
  split at h
  · next u hu => exact ⟨u, hu, h⟩
  · cases h
  · cases h

/-- A list of such events, one step for each. -/
theorem run_atRest (hc : PlicAt s c p) : ∀ (es : List Event) (u t : State), AtRest s c r u → u.inbox = es →
    (∀ e ∈ es, LeavesSource s c r e) → Host.Core.run Sys2Proof.core es.length u = .next t → AtRest s c r t := by
  intro es
  induction es with
  | nil =>
    rintro u t hu - - ⟨⟩
    exact hu
  | cons e es ih =>
    intro u t hu hin hes h
    obtain ⟨he, hes⟩ := List.forall_mem_cons.1 hes
    obtain ⟨u', hstep, hrun⟩ := run_succ_next (M := Sys2Proof.core) h
    obtain ⟨hu', hin'⟩ := step_atRest hu hc he hin hstep
    exact ih u' t hu' hin' hes hrun

end

/-! ## Claims -/

/-- A claim that returns a source has selected it (41_plic.md R167). -/
theorem Plic.selected_of_claim {p : Plic} {t : Nat} {r : Word} (hp : p.params.numSources ≤ 1024) (hr : r ≠ 0)
    (h : (p.claim t).reply = some (.word r)) : p.selected t = some r.toNat := by
  unfold Plic.claim at h
  split at h
  · cases h
    exact absurd rfl hr
  · split at h
    · cases h
      exact absurd rfl hr
    · next i hi =>
      have hlt := (Plic.mem_candidates.1 (Plic.selected_eq_some.1 hi).1).1.2
      cases h
      rw [hi, BitVec.toNat_ofNat, Nat.mod_eq_of_lt (by omega)]

/-- A claim event on a PLIC, and its effect. -/
theorem claim_exec {s t : State} {c k : Nat} {x : Ctrl} {p : Plic} (hx : s.ctrls[c]? = some x) (hp : x.core = .plic p)
    (h : exec (.plicClaimRead c k) s = .next t) :
    t.reply = (p.claim k).reply ∧ t.ctrls[c]? = some (x.after ((p.claim k).lift .plic)) := by
  obtain ⟨y, e, ha, hy, he, hrun⟩ := ctrlEvent_next (f := onPlic (fun p => .ok (p.claim k))) h
  rw [hx, Option.some.injEq] at hy
  rw [← hy, hp] at he
  obtain rfl : (p.claim k).lift .plic = e := Except.ok.inj he
  have hparams : ((p.claim k).lift .plic).core.params = x.core.params := by
    rw [hp]
    exact (p.claim_keepsOk k).params
  obtain ⟨-, hreply, hafter⟩ := runEff_spec ha hx hparams hrun
  exact ⟨hreply, hafter⟩

/-- A source just claimed is not pending (41_plic.md R167). -/
theorem Plic.claim_clears {p : Plic} {t i : Nat} (hp : p.shapeOk = true) (ht : t < p.params.numTargets)
    (h : p.selected t = some i) : ((p.claim t).core.source i).isPending = false := by
  obtain ⟨h1, hlt⟩ := (Plic.mem_candidates.1 (Plic.selected_eq_some.1 h).1).1
  have hlen := ((Plic.shapeOk_iff p).1 hp).1
  rw [Plic.claim_some ht h, Eff.returning_core, Plic.reEvaluate_core, Plic.source_modTarget,
    Plic.source_modSource _ (by omega) (by omega), if_pos rfl]

end Sys2Proof.Machine

namespace Sys2Proof.Proofs

open Sys2Proof.Machine Sys2Proof.Claims

/-- Settles O30: the first claim clears the pending flag, the events between leave it so, and a claim selects a pending source. -/
theorem oneOccurrenceIsClaimedOnce : Obligations.OneOccurrenceIsClaimedOnce := by
  intro s u w z c p t t' r r' between hplic ht _ hclaim hreply hr hbetween hrun hclaim' hreply'
  obtain ⟨-, x, hx, hp, hshape⟩ := id hplic
  simp only [Ctrl.shapeOk, hp, Bool.and_eq_true] at hshape
  obtain ⟨⟨hvalid, hshape⟩, -⟩ := hshape
  obtain ⟨-, hsources, -⟩ := PlicParams.bounds hvalid
  obtain ⟨hru, hxu⟩ := claim_exec hx hp hclaim
  have hselected := Plic.selected_of_claim hsources hr (hru.symm.trans hreply)
  have hrest : AtRest s c r.toNat u := by
    have hconst := exec_sameConstants hclaim
    refine ⟨hconst.wiring, hconst.platform, hconst.receivers, fun y hy => ?_⟩
    rw [hxu, Option.some.injEq] at hy
    rw [← hy, Ctrl.after, Ctrl.driven_core]
    exact Plic.claim_clears hshape ht hselected
  have hrest' : AtRest s c r.toNat w :=
    run_atRest hplic between { u with inbox := between } w ⟨hrest.wiring, hrest.platform, hrest.receivers, hrest.notPending⟩ rfl hbetween hrun
  obtain ⟨xw, q, hxw, hq, hparams⟩ := hrest'.plic hplic
  obtain ⟨hrz, -⟩ := claim_exec hxw hq hclaim'
  rintro rfl
  have hselected' := Plic.selected_of_claim (hparams ▸ hsources) hr (hrz.symm.trans hreply')
  have hpending := (Plic.mem_candidates.1 (Plic.selected_eq_some.1 hselected').1).2.2
  have hnot := hrest'.notPending xw hxw
  rw [hq] at hnot
  exact Bool.false_ne_true (hnot.symm.trans hpending)

end Sys2Proof.Proofs
end

section
/-! Decode and encode agree in both directions (30_encoding.md R100, R105): a row that decodes is well formed, and a well-formed
row is the one its own event tuple decodes to. -/

namespace Sys2Proof

open Machine

/-! ## The rows of registers -/

theorem CtrlParams.exists_iff {P : CtrlParams → Prop} :
    (∃ q, P q) ↔ (∃ q, P (.plic q)) ∨ (∃ q, P (.vic q)) ∨ (∃ q, P (.exti q)) ∨ ∃ q, P (.intmux q) := by
  refine ⟨fun ⟨q, h⟩ => ?_, ?_⟩
  · cases q with
    | plic q => exact .inl ⟨q, h⟩
    | vic q => exact .inr (.inl ⟨q, h⟩)
    | exti q => exact .inr (.inr (.inl ⟨q, h⟩))
    | intmux q => exact .inr (.inr (.inr ⟨q, h⟩))
  · rintro (⟨q, h⟩ | ⟨q, h⟩ | ⟨q, h⟩ | ⟨q, h⟩) <;> exact ⟨_, h⟩

/-- The operand ranges of a register's read row are the index ranges of the register map (30_encoding.md R105). -/
theorem wellFormed_decodeRegRead_iff {p : Platform} {c : Nat} {r : Reg} :
    (decodeRegRead c r).wellFormed p = true ↔ ∃ q, p.ctrls[c]? = some q ∧ r.inMap q = true := by
  rw [CtrlParams.exists_iff]
  cases r <;> simp [decodeRegRead, Instr.wellFormed, Reg.inMap, Platform.plicWith_iff, Platform.isVic_iff,
    Platform.extiWith_iff, Platform.muxWith_iff]

/-- The operand ranges of a register's write row are those of its read row, whatever is written. -/
theorem wellFormed_decodeRegWrite {p : Platform} {c : Nat} {r : Reg} {v : Word} (hr : r.readOnly = false) :
    (decodeRegWrite c r v).wellFormed p = (decodeRegRead c r).wellFormed p := by
  cases r with
  | muxCsr ch =>
    simp only [decodeRegWrite, decodeRegRead]
    split <;> next hv => simp only [Instr.wellFormed, hv, Bool.not_false, Bool.and_true]
  | vicIrqStatus | vicFiqStatus | vicRawIntr | muxVec | muxIpr => cases hr
  | _ => rfl

theorem decodeRegWrite_of_readOnly {c : Nat} {r : Reg} {v : Word} (hr : r.readOnly = true) :
    decodeRegWrite c r v = .anyReadonlyWrite c r.offset v := by
  cases r with
  | vicIrqStatus | vicFiqStatus | vicRawIntr | muxVec | muxIpr => rfl
  | _ => cases hr

/-! ## What decodes is well formed -/

section
variable {p : Platform} {c : Nat} {q : CtrlParams}

theorem decodeGpio_wellFormed (n : Int) (v : Bool) (hc : p.ctrls[c]? = some q) :
    (decodeGpio q c n v).wellFormed p = true := by
  cases q with
  | plic q => simp only [decodeGpio]; split <;> next hn => exact Platform.plicWith_iff.2 ⟨q, hc, by simp [hn]⟩
  | vic q =>
    have hvic : p.isVic c = true := Platform.isVic_iff.2 ⟨q, hc⟩
    simp only [decodeGpio]
    split <;> next hn => simp [Instr.wellFormed, hvic, hn]
  | exti q => simp only [decodeGpio]; split <;> next hn => exact Platform.extiWith_iff.2 ⟨q, hc, by simp [hn]⟩
  | intmux q => simp only [decodeGpio]; split <;> next hn => exact Platform.muxWith_iff.2 ⟨q, hc, by simp [hn]⟩

theorem decodeReset_wellFormed (hc : p.ctrls[c]? = some q) : (decodeReset q c).wellFormed p = true := by
  cases q with
  | plic q => exact Platform.plicWith_iff.2 ⟨q, hc, rfl⟩
  | vic q => exact Platform.isVic_iff.2 ⟨q, hc⟩
  | exti q => exact Platform.extiWith_iff.2 ⟨q, hc, rfl⟩
  | intmux q => exact Platform.muxWith_iff.2 ⟨q, hc, rfl⟩

theorem decodeRegRead_wellFormed {off : Nat} {r : Reg} (hc : p.ctrls[c]? = some q) (hr : regAt q off = some r) :
    (decodeRegRead c r).wellFormed p = true :=
  wellFormed_decodeRegRead_iff.2 ⟨q, hc, (regAt_sound hr).2⟩

theorem decodeRegWrite_wellFormed {off : Nat} {r : Reg} (v : Word) (hc : p.ctrls[c]? = some q) (hr : regAt q off = some r)
    (hoff : off < q.size) : (decodeRegWrite c r v).wellFormed p = true := by
  cases ho : r.readOnly with
  | false => exact (wellFormed_decodeRegWrite ho).trans (decodeRegRead_wellFormed hc hr)
  | true =>
    obtain ⟨rfl, -⟩ := regAt_sound hr
    rw [decodeRegWrite_of_readOnly ho]
    exact (Platform.windowWith_iff (f := fun r => r.elim false Reg.readOnly)).2
      ⟨q, hc, r.offset_aligned, hoff, by rw [hr]; exact ho⟩

end

theorem setError_eq_none {p : Platform} {L : LineRef} : setError p L = none ↔ L.settable p = true := by
  unfold setError
  split
  · next h => simp [h]
  · next h => split <;> simp [h]

theorem wellFormed_of_decode {p : Platform} {e : Event} {i : Instr} (h : decode p e = .ok i) : i.wellFormed p = true := by
  cases e with
  | evGpio c n v =>
    obtain ⟨q, hc, rfl⟩ := decode_evGpio_ok h
    exact decodeGpio_wellFormed n v hc
  | evReset c =>
    obtain ⟨q, hc, rfl⟩ := decode_evReset_ok h
    exact decodeReset_wellFormed hc
  | memRead c off bytes =>
    obtain ⟨q, hc, hb, rfl⟩ := decode_memRead_ok h
    obtain ⟨-, halign, hoff⟩ := busError_eq_none hb
    cases hr : regAt q off with
    | none => exact Platform.windowWith_iff.2 ⟨q, hc, halign, hoff, by rw [hr]; rfl⟩
    | some r => exact decodeRegRead_wellFormed hc hr
  | memWrite c off bytes v =>
    obtain ⟨q, hc, hb, rfl⟩ := decode_memWrite_ok h
    obtain ⟨-, halign, hoff⟩ := busError_eq_none hb
    cases hr : regAt q off with
    | none => exact Platform.windowWith_iff.2 ⟨q, hc, halign, hoff, by rw [hr]; rfl⟩
    | some r => exact decodeRegWrite_wellFormed v hc hr hoff
  | slSet L v =>
    obtain rfl := decode_slSet_ok h
    simp only [decode] at h
    split at h
    · cases h
    · next hL => exact setError_eq_none.1 hL
  | slBlink L =>
    obtain rfl := decode_slBlink_ok h
    simp only [decode] at h
    split at h
    · cases h
    · next hL => exact setError_eq_none.1 hL
  | slQuery L =>
    obtain rfl := decode_slQuery_ok h
    simp only [decode] at h
    split at h
    · next hL => exact hL
    · cases h
  | systemReset order => cases h

/-! ## What is well formed decodes to itself -/

section
variable {p : Platform} {c : Nat} {i : Instr}

theorem decode_slSet {L : LineRef} {v : Bool} (hL : L.settable p = true) : decode p (.slSet L v) = .ok (.slSet L v) := by
  simp only [decode, setError_eq_none.2 hL]

theorem decode_slBlink {L : LineRef} (hL : L.settable p = true) : decode p (.slBlink L) = .ok (.slBlink L) := by
  simp only [decode, setError_eq_none.2 hL]

theorem decode_slQuery {L : LineRef} (hL : L.isLine p = true) : decode p (.slQuery L) = .ok (.slQuery L) := if_pos hL

theorem decode_evGpio {q : CtrlParams} {n : Int} {v : Bool} (hc : p.ctrls[c]? = some q) :
    decode p (.evGpio c n v) = .ok (decodeGpio q c n v) := by
  simp only [decode, hc]

theorem decode_evReset {q : CtrlParams} (hc : p.ctrls[c]? = some q) : decode p (.evReset c) = .ok (decodeReset q c) := by
  simp only [decode, hc]

/-- A row that is the read row of a register, and has that register's read as its event tuple. -/
theorem decode_encode_read {r : Reg} (hv : ∀ q ∈ p.ctrls, q.valid = true) (hw : i.wellFormed p = true)
    (he : encode i = readOf c r) (hi : decodeRegRead c r = i) : decode p (encode i) = .ok i := by
  subst hi
  obtain ⟨q, hc, hr⟩ := wellFormed_decodeRegRead_iff.1 hw
  rw [he]
  exact decode_readOf hc (Platform.valid_of hv hc) hr

/-- A row that is the write row of a register that is not read-only, and has that register's write as its event tuple. -/
theorem decode_encode_write {r : Reg} {v : Word} (hv : ∀ q ∈ p.ctrls, q.valid = true) (hw : i.wellFormed p = true)
    (he : encode i = writeOf c r v) (ho : r.readOnly = false) (hi : decodeRegWrite c r v = i) :
    decode p (encode i) = .ok i := by
  subst hi
  rw [wellFormed_decodeRegWrite ho] at hw
  obtain ⟨q, hc, hr⟩ := wellFormed_decodeRegRead_iff.1 hw
  rw [he]
  exact decode_writeOf hc (Platform.valid_of hv hc) hr

/-- A mode write of `CSR` has bit 0 of the value clear (30_encoding.md R129). -/
theorem decodeRegWrite_muxCsr_mode {ch : Nat} {v : Word} (hw : (Instr.muxCsrModeWrite c ch v).wellFormed p = true) :
    decodeRegWrite c (.muxCsr ch) v = .muxCsrModeWrite c ch v := by
  obtain ⟨q, -, hf⟩ := Platform.muxWith_iff.1 hw
  obtain ⟨-, hbit⟩ := Bool.and_eq_true_iff.1 hf
  exact if_neg (Bool.eq_false_iff.1 ((Bool.not_eq_true' _).mp hbit))

/-- A channel reset has bit 0 of the value set (30_encoding.md R129). -/
theorem decodeRegWrite_muxCsr_reset {ch : Nat} {v : Word} (hw : (Instr.muxCsrResetWrite c ch v).wellFormed p = true) :
    decodeRegWrite c (.muxCsr ch) v = .muxCsrResetWrite c ch v := by
  obtain ⟨q, -, hf⟩ := Platform.muxWith_iff.1 hw
  obtain ⟨-, hbit⟩ := Bool.and_eq_true_iff.1 hf
  exact if_pos hbit

theorem decode_anyUnhandledRead {off : Nat} (hw : (Instr.anyUnhandledRead c off).wellFormed p = true) :
    decode p (.memRead c off 4) = .ok (.anyUnhandledRead c off) := by
  obtain ⟨q, hc, halign, hoff, hr⟩ := Platform.windowWith_iff.1 hw
  simp only [decode, hc, busError_none halign hoff, Option.isNone_iff_eq_none.1 hr]

theorem decode_anyUnhandledWrite {off : Nat} {v : Word} (hw : (Instr.anyUnhandledWrite c off v).wellFormed p = true) :
    decode p (.memWrite c off 4 v) = .ok (.anyUnhandledWrite c off v) := by
  obtain ⟨q, hc, halign, hoff, hr⟩ := Platform.windowWith_iff.1 hw
  simp only [decode, hc, busError_none halign hoff, Option.isNone_iff_eq_none.1 hr]

theorem decode_anyReadonlyWrite {off : Nat} {v : Word} (hw : (Instr.anyReadonlyWrite c off v).wellFormed p = true) :
    decode p (.memWrite c off 4 v) = .ok (.anyReadonlyWrite c off v) := by
  obtain ⟨q, hc, halign, hoff, ho⟩ := (Platform.windowWith_iff (f := fun r => r.elim false Reg.readOnly)).1 hw
  cases hr : regAt q off with
  | none => rw [hr] at ho; cases ho
  | some r =>
    rw [hr] at ho
    simp only [decode, hc, busError_none halign hoff, hr, decodeRegWrite_of_readOnly ho, (regAt_sound hr).1]

end

end Sys2Proof
end

section
/-! The statements about decoding and encoding, settled. -/

namespace Sys2Proof.Proofs

open Sys2Proof.Machine

/-- Settles O9, row by row: a register's row by the register map, an input's row by its range or class, the others by the
controller or line they name. -/
theorem decodeOfEncodeIsTheInstruction : Obligations.DecodeOfEncodeIsTheInstruction := by
  intro p i hv hw
  cases i with
  | slSet | slSetTrue | slUnset => exact decode_slSet hw
  | slBlink => exact decode_slBlink hw
  | slQuery => exact decode_slQuery hw
  | plicOnGpio | plicOnGpioOutOfRange =>
    obtain ⟨q, hc, hn⟩ := Platform.plicWith_iff.1 hw
    exact (decode_evGpio hc).trans (by simpa [decodeGpio] using hn)
  | vicOnGpio | vicOnGpioOutOfRange =>
    obtain ⟨hk, hn⟩ := Bool.and_eq_true_iff.1 hw
    obtain ⟨q, hc⟩ := Platform.isVic_iff.1 hk
    exact (decode_evGpio hc).trans (by simpa [decodeGpio] using hn)
  | extiOnGpioConfigurable | extiOnGpioDirect | extiOnGpioDropped | extiOnGpioOutOfRange =>
    obtain ⟨q, hc, hn⟩ := Platform.extiWith_iff.1 hw
    exact (decode_evGpio hc).trans (by simp only [decodeGpio, beq_iff_eq.1 hn])
  | muxOnGpio | muxOnGpioOutOfRange =>
    obtain ⟨q, hc, hn⟩ := Platform.muxWith_iff.1 hw
    exact (decode_evGpio hc).trans (by simpa [decodeGpio] using hn)
  | plicReset =>
    obtain ⟨q, hc, -⟩ := Platform.plicWith_iff.1 hw
    exact decode_evReset hc
  | vicReset =>
    obtain ⟨q, hc⟩ := Platform.isVic_iff.1 hw
    exact decode_evReset hc
  | extiReset =>
    obtain ⟨q, hc, -⟩ := Platform.extiWith_iff.1 hw
    exact decode_evReset hc
  | muxReset =>
    obtain ⟨q, hc, -⟩ := Platform.muxWith_iff.1 hw
    exact decode_evReset hc
  | plicPriorityRead | plicEnableRead | plicClaimRead
  | vicIrqStatusRead | vicFiqStatusRead | vicRawIntrRead | vicIntSelectRead | vicIntEnableRead | vicIntEnClearRead
  | vicSoftIntRead | vicSoftIntClearRead | vicVectAddrRead | vicDefVectAddrRead | vicVectAddrNRead | vicVectCntlRead
  | extiImrRead | extiRtsrRead | extiFtsrRead | extiSwierRead | extiPrRead
  | muxCsrRead | muxVecRead | muxIerRead | muxIprRead => exact decode_encode_read hv hw rfl rfl
  | plicPriorityWrite | plicEnableWrite | plicCompleteWrite
  | vicIntSelectWrite | vicIntEnableWrite | vicIntEnClearWrite | vicSoftIntWrite | vicSoftIntClearWrite
  | vicVectAddrWrite | vicDefVectAddrWrite | vicVectAddrNWrite | vicVectCntlWrite
  | extiImrWrite | extiRtsrWrite | extiFtsrWrite | extiSwierWrite | extiPrWrite
  | muxIerWrite => exact decode_encode_write hv hw rfl rfl rfl
  | muxCsrModeWrite => exact decode_encode_write hv hw rfl rfl (decodeRegWrite_muxCsr_mode hw)
  | muxCsrResetWrite => exact decode_encode_write hv hw rfl rfl (decodeRegWrite_muxCsr_reset hw)
  | anyUnhandledRead => exact decode_anyUnhandledRead hw
  | anyUnhandledWrite => exact decode_anyUnhandledWrite hw
  | anyReadonlyWrite => exact decode_anyReadonlyWrite hw

/-- Settles O10: the row of each event is within its own ranges, and none drops a part of the tuple. -/
theorem decodedEventIsWellFormedAndEncodesBack : Obligations.DecodedEventIsWellFormedAndEncodesBack :=
  fun _ _ _ h => ⟨wellFormed_of_decode h, encode_of_decode h⟩

/-- Settles O11: twelve closed events, run through the decoder. -/
theorem writtenOutEventsDecode : Obligations.WrittenOutEventsDecode := by
  unfold Obligations.WrittenOutEventsDecode
  decide

end Sys2Proof.Proofs
end

section
/-! `Set` of an external line by its owner (40_signal_line.md R141 to R144): what one `Set` and a sequence of them do, and what they
leave alone. -/

namespace Sys2Proof.Machine

open Sys2Proof.Claims

/-! ## One `Set` of an external line -/

section
variable {dl : Delivery} {s t : State} {k : Nat} {l : SigLine} {v : Bool}

theorem setLine_ext_quiet (hl : s.lines[k]? = some l) (hv : l.level = v) : setLine dl (.ext k) v s = .ok s := by
  rw [setLine, show s.line? (.ext k) = some l from hl]
  exact if_pos hv

theorem setLine_ext_change (hl : s.lines[k]? = some l) (hv : l.level ≠ v) :
    setLine dl (.ext k) v s = notifyAll dl v l.receivers (s.putLevel (.ext k) v) := by
  rw [setLine, show s.line? (.ext k) = some l from hl]
  exact if_neg hv

/-- What no delivery with the platform's depth bound reaches is not downstream. -/
theorem reachesWithin_of_not_downstream {c d : Nat} (h : s.downstream c d = false) :
    reachesWithin s.wiring s.depthBound c d = false := by
  by_contra hreach
  rw [Bool.not_eq_false] at hreach
  rw [State.downstream, reachesWithin_succ hreach] at h
  cases h

/-- A controller that is not downstream of the line's receivers is left alone (20_memory.md R84). -/
theorem setLine_ext_local {d : Nat} (hl : s.lines[k]? = some l)
    (hd : ∀ e ∈ l.receivers, ∀ b, e.receiver = .ctrl b → s.downstream b d = false)
    (h : setLine s.delivery (.ext k) v s = .ok t) : t.ctrls[d]? = s.ctrls[d]? := by
  by_cases hv : l.level = v
  · rw [setLine_ext_quiet hl hv, Except.ok.injEq] at h
    rw [h]
  · rw [setLine_ext_change hl hv] at h
    exact deliver_local.notifyAll_local (w := s.wiring) l.receivers
      (fun e he b hb => deliver_local s.depthBound b d (reachesWithin_of_not_downstream (hd e he b hb)))
      (s.putLevel (.ext k) v) t (s.wiring_putLevel _ v) h

/-- Receivers that all lie outside are called back in connection order, and nothing else happens. -/
theorem notifyAll_outside (hout : AllOutside l) :
    notifyAll dl v l.receivers s = .ok { s with callbacks := s.callbacks ++ callbacksOf l v } := by
  obtain ⟨b, es⟩ := l
  induction es generalizing s with
  | nil => simp [notifyAll, callbacksOf]
  | cons e es ih =>
    obtain ⟨⟨r, hr⟩, hes⟩ := List.forall_mem_cons.1 hout
    have hone : notifyOne dl v e s = .ok (s.hear r e.number v) := by rw [notifyOne, hr]
    rw [notifyAll, hone]
    refine (ih hes).trans ?_
    simp [callbacksOf, hr, State.hear]

theorem setLine_ext_outside (hl : s.lines[k]? = some l) (hout : AllOutside l) :
    setLine dl (.ext k) v s = .ok { s with
      lines := s.lines.modify k (fun a => a.withLevel v)
      callbacks := s.callbacks ++ if l.level = v then [] else callbacksOf l v } := by
  by_cases hv : l.level = v
  · rw [setLine_ext_quiet hl hv, modify_withLevel_same (by simp [hl, hv]), if_pos hv, List.append_nil]
  · rw [setLine_ext_change hl hv, notifyAll_outside hout, if_neg hv]
    rfl

/-! ## The `Set` calls of the owner's event -/

theorem setLevels_one (L : LineRef) : setLevels dl L [v] s = setLine dl L v s := by
  rw [setLevels]
  cases setLine dl L v s <;> rfl

theorem setLevels_cons {L : LineRef} {vs : List Bool} (h : setLine dl L v s = .ok t) :
    setLevels dl L (v :: vs) s = setLevels dl L vs t := by
  rw [setLevels, h]

/-- The event of an existing external line's owner runs its `Set` calls. -/
theorem lineEvent_ext (hs : s.sound = true) (hl : s.lines[k]? = some l) (levels : List Bool) :
    lineEvent s (.ext k) levels = toOutcome (setLevels s.delivery (.ext k) levels { s with reply := none }) := by
  have hk : LineRef.settable s.platform (.ext k) = true := decide_eq_true (List.getElem?_eq_some_iff.1 hl).1
  rw [lineEvent, if_pos (s.sound_acyclic hs), if_pos hk]

theorem exec_slSet (hs : s.sound = true) (hl : s.lines[k]? = some l) (v : Bool) :
    exec (.slSet (.ext k) v) s = toOutcome (setLine s.delivery (.ext k) v { s with reply := none }) := by
  rw [← setLevels_one]
  exact lineEvent_ext hs hl [v]

theorem exec_slSet_next (hs : s.sound = true) (hl : s.lines[k]? = some l) :
    exec (.slSet (.ext k) v) s = .next t ↔ setLine s.delivery (.ext k) v { s with reply := none } = .ok t := by
  rw [exec_slSet hs hl, toOutcome_next]

/-- A `Set` completes, whatever the line drives, and has the frame of an event on its line. -/
theorem exec_slSet_frame (hs : s.sound = true) (hl : s.lines[k]? = some l) (v : Bool) :
    ∃ t, exec (.slSet (.ext k) v) s = .next t ∧ LineFrame s t k l v := by
  obtain ⟨t, ht, hsame, hlines, -⟩ := setLine_ext_spec (done := []) (s := { s with reply := none }) hs k v
  obtain ⟨hinbox, hreply, hwiring, hplatform, -⟩ := hsame
  exact ⟨t, (exec_slSet_next hs hl).2 ht, hlines, hinbox, hwiring, hplatform, hreply,
    fun d hd => setLine_ext_local (s := { s with reply := none }) hl hd ht⟩

theorem exec_slSet_outside (hs : s.sound = true) (hl : s.lines[k]? = some l) (hout : AllOutside l) (v : Bool) :
    exec (.slSet (.ext k) v) s = .next { s with
      lines := s.lines.modify k (fun a => a.withLevel v)
      callbacks := s.callbacks ++ (if l.level = v then [] else callbacksOf l v)
      reply := none } :=
  (exec_slSet_next hs hl).2 (setLine_ext_outside (s := { s with reply := none }) hl hout)

/-! ## Two `Set` calls, one after the other -/

theorem lineFrame_line (h : LineFrame s t k l v) (hl : s.lines[k]? = some l) : t.lines[k]? = some (l.withLevel v) := by
  rw [h.1, List.getElem?_modify_eq, hl]
  rfl

theorem lineFrame_downstream (h : LineFrame s t k l v) (c d : Nat) : t.downstream c d = s.downstream c d := by
  obtain ⟨-, -, hwiring, -⟩ := h
  rw [State.downstream, State.downstream, State.depthBound_eq, State.depthBound_eq, hwiring]

/-- Two events on a line, the second of which overwrites the level of the first. -/
theorem lineFrame_trans {u : State} {v' : Bool} (h : LineFrame s u k l v) (g : LineFrame u t k (l.withLevel v) v') :
    LineFrame s t k l v' := by
  have hdown := lineFrame_downstream h
  obtain ⟨hlines, hinbox, hwiring, hplatform, -, hlocal⟩ := h
  obtain ⟨glines, ginbox, gwiring, gplatform, greply, glocal⟩ := g
  refine ⟨?_, ginbox.trans hinbox, gwiring.trans hwiring, gplatform.trans hplatform, greply, fun d hd => ?_⟩
  · rw [glines, hlines, List.modify_modify_eq]
    rfl
  · exact (glocal d fun e he b hb => (hdown b d).trans (hd e he b hb)).trans (hlocal d hd)

/-- `Blink()` is `Set(true)`, complete, and then `Set(false)` (40_signal_line.md R144). -/
theorem exec_slBlink (hs : s.sound = true) (hl : s.lines[k]? = some l) (ht : exec (.slSet (.ext k) true) s = .next t) :
    exec (.slBlink (.ext k)) s = exec (.slSet (.ext k) false) t := by
  have hts : t.sound = true := (exec_sameConstants ht).sound.trans hs
  obtain ⟨u, hu, hframe⟩ := exec_slSet_frame hs hl true
  obtain rfl : u = t := Host.Outcome.next.inj (hu.symm.trans ht)
  have hline := lineFrame_line hframe hl
  obtain ⟨-, -, hwiring, -, hreply, -⟩ := hframe
  have hdelivery : u.delivery = s.delivery := by
    rw [State.delivery, State.delivery, State.depthBound_eq, State.depthBound_eq, hwiring]
  have hu₀ : { u with reply := none } = u := by rw [← hreply]
  rw [exec_slSet hts hline, hu₀, hdelivery, ← setLevels_one, ← setLevels_cons ((exec_slSet_next hs hl).1 ht)]
  exact lineEvent_ext hs hl [true, false]

end

/-- The receivers of a line that is set hear of the new level, each by its own event (40_signal_line.md R141, R143). -/
theorem allHear_of_slSet {s t : State} {k : Nat} {l : SigLine} {v : Bool} (hs : s.sound = true) (hl : s.lines[k]? = some l)
    (hv : l.level ≠ v) (h : exec (.slSet (.ext k) v) s = .next t) :
    ∃ r, allHear v l.receivers (s.putLevel (.ext k) v) = .next { t with reply := r } := by
  rw [exec_slSet_next hs hl, setLine_ext_change (s := { s with reply := none }) hl hv] at h
  have hdepth : s.depthBound ≤ s.wiring.length + 2 := by rw [State.depthBound_eq]; omega
  obtain ⟨t', ht', ⟨r, rfl⟩, -⟩ := allHear_of_notifyAll (s.sound_acyclic hs) hdepth l.receivers
    (State.putLevel { s with reply := none } (.ext k) v) (s.putLevel (.ext k) v) t (s.wiring_putLevel (.ext k) v)
    ⟨s.reply, rfl⟩ h
  exact ⟨r, ht'⟩

end Sys2Proof.Machine
end

section
/-! The statements about Signal Lines and their owners' operations, settled. -/

namespace Sys2Proof.Proofs

open Sys2Proof.Machine Sys2Proof.Claims

/-- Settles O17: an unchanged level notifies nobody; a change notifies each receiver, whose nested event is its own. -/
theorem setStoresLevelAndNotifiesOncePerChange : Obligations.SetStoresLevelAndNotifiesOncePerChange := by
  intro s k l v hs hl
  refine ⟨fun hv => ?same, fun hv => ?change, fun hv hout => ?outside⟩
  case same => exact (exec_slSet_next hs hl).2 (setLine_ext_quiet (s := { s with reply := none }) hl hv)
  case change =>
    obtain ⟨t, ht, -, -, -, -, hreply, -⟩ := exec_slSet_frame hs hl v
    obtain ⟨r, hr⟩ := allHear_of_slSet hs hl hv ht
    refine ⟨_, hr, ht.trans ?_⟩
    show Host.Outcome.next t = .next { t with reply := none }
    rw [← hreply]
  case outside =>
    have hset := exec_slSet_outside hs hl hout v
    rwa [if_neg hv] at hset

/-- Settles O19: each operation is one `Set`, or two in a row. -/
theorem lineOperationsComplete : Obligations.LineOperationsComplete := by
  intro s k l v hs hl
  obtain ⟨t, ht, htrue⟩ := exec_slSet_frame hs hl true
  obtain ⟨u, hu, hfalse⟩ := exec_slSet_frame hs hl false
  refine ⟨exec_slSet_frame hs hl v, ⟨t, ht, ht, htrue⟩, ⟨u, hu, hu, hfalse⟩, ?_⟩
  obtain ⟨w, hw, hframe⟩ := exec_slSet_frame ((exec_sameConstants ht).sound.trans hs) (lineFrame_line htrue hl) false
  exact ⟨w, (exec_slBlink hs hl ht).trans hw, lineFrame_trans htrue hframe⟩

/-- Settles O20: a blink is two `Set` calls; to receivers outside, the first calls back if the line was low, the second always. -/
theorem blinkIsAPulseOnLowAndAFallOnHigh : Obligations.BlinkIsAPulseOnLowAndAFallOnHigh := by
  intro s k l hs hl
  refine ⟨?_, fun hout => ?_⟩
  · obtain ⟨t, ht, -⟩ := exec_slSet_frame hs hl true
    exact ⟨t, ht, exec_slBlink hs hl ht⟩
  · have ht := exec_slSet_outside hs hl hout true
    rw [exec_slBlink hs hl ht, exec_slSet_outside ((exec_sameConstants ht).sound.trans hs)
      (l := l.withLevel true) (by simp [hl]) hout false]
    simp only [List.modify_modify_eq]
    rfl

/-- Settles O21: the query's event answers with the level it finds. -/
theorem queryReturnsTheLevel : Obligations.QueryReturnsTheLevel := by
  intro s L l hs hl
  show queryEvent s L = _
  rw [queryEvent, if_pos (s.sound_acyclic hs), hl]

end Sys2Proof.Proofs
end

section
/-! The cases of the PLIC's operations that the semantic functions tell apart, an equation per case, and which source a claim
selects, in the terms of the statements (41_plic.md R161 to R169). -/

namespace Sys2Proof.Machine

open Sys2Proof.Claims

/-! ## Claimable sources -/

theorem Plic.mem_candidates_iff_claimable {p : Plic} {t i : Nat} : i ∈ p.candidates t ↔ Claimable p t i := by
  rw [Plic.mem_candidates, and_assoc, Claimable]

/-- A claim selects the best source (41_plic.md R167). -/
theorem Plic.selected_eq_some_iff_best {p : Plic} {t i : Nat} : p.selected t = some i ↔ Best p t i := by
  simp only [Plic.selected_eq_some, Plic.mem_candidates_iff_claimable, Best]

theorem best_real {p : Plic} {t i : Nat} (h : Best p t i) : 1 ≤ i ∧ i < p.params.numSources := by
  obtain ⟨⟨h1, h2, -⟩, -⟩ := h
  exact ⟨h1, h2⟩

theorem Plic.selected_eq_none_iff_not_claimable {p : Plic} {t : Nat} :
    p.selected t = none ↔ ∀ i, ¬ Claimable p t i := by
  simp only [Plic.selected_eq_none, Plic.mem_candidates_iff_claimable]

/-! ## `PlicEval` -/

theorem Plic.currentPriority_idle {p : Plic} {t : Nat} (h : (p.target t).inService.getLast? = none) :
    p.currentPriority t = 0 := by
  rw [Plic.currentPriority, h]

/-- The priority in service is the live one of the top of the stack (41_plic.md R169; D31). -/
theorem Plic.currentPriority_top {p : Plic} {t i : Nat} (h : (p.target t).inService.getLast? = some i) :
    p.currentPriority t = (p.source i).priority := by
  rw [Plic.currentPriority, h]

theorem Plic.eval_iff {p : Plic} {t : Nat} :
    p.eval t = true ↔ ∃ i, Claimable p t i ∧ (p.currentPriority t).toNat < (p.source i).priority.toNat := by
  simp only [Plic.eval, List.any_eq_true, Plic.mem_candidates_iff_claimable, BitVec.ult, decide_eq_true_eq]

/-! ## Updates of a well-shaped PLIC -/

/-- An update of a real source of a well-shaped PLIC changes that source and no other. -/
theorem Plic.source_modSource_real {p : Plic} {i : Nat} (f : PlicSrc → PlicSrc) (hp : p.shapeOk = true) (h1 : 1 ≤ i)
    (h2 : i < p.params.numSources) (j : Nat) :
    (p.modSource i f).source j = if j = i then f (p.source j) else p.source j := by
  have hlen := ((Plic.shapeOk_iff p).1 hp).1
  rw [Plic.source_modSource f (by omega) (by omega)]
  split
  · next h => rw [h]
  · rfl

/-- Only real sources are in service (10_state.md R32). -/
theorem Plic.inService_real {p : Plic} {t i : Nat} (hp : p.shapeOk = true) (ht : t < p.params.numTargets)
    (h : i ∈ (p.target t).inService) : 1 ≤ i ∧ i < p.params.numSources := by
  obtain ⟨-, hlen, htgts⟩ := (Plic.shapeOk_iff p).1 hp
  exact (htgts _ (Plic.target_mem (by omega))).2 i h

/-! ## Claim and completion: one source and one stack -/

/-- What a claim and a completion have in common: source `i` is updated by `f`, the stack of target `t` by `g`
(41_plic.md R167, R168). -/
def Plic.serve (p : Plic) (i t : Nat) (f : PlicSrc → PlicSrc) (g : List Nat → List Nat) : Plic :=
  (p.modSource i f).modTarget t (fun x => { x with inService := g x.inService })

theorem Plic.claim_best {p : Plic} {t i : Nat} (ht : t < p.params.numTargets) (h : Best p t i) :
    p.claim t = (p.serve i t (fun x => { x with isPending := false }) (· ++ [i])).reEvaluate.returning (BitVec.ofNat 32 i) :=
  Plic.claim_some ht (Plic.selected_eq_some_iff_best.2 h)

/-- The top of the stack is a real source, so a completion that names it passes the range check (41_plic.md R168; D26). -/
theorem Plic.complete_serves {p : Plic} {t : Nat} {v : Word} (hp : p.shapeOk = true) (ht : t < p.params.numTargets)
    (h : (p.target t).inService.getLast? = some v.toNat) :
    p.complete t v = (p.serve v.toNat t (fun x => { x with isPending := x.state }) List.dropLast).reEvaluate := by
  obtain ⟨h1, h2⟩ := Plic.inService_real hp ht (List.mem_of_getLast? h)
  rw [Plic.complete_top ht (by omega) h2 h, Plic.serve, Plic.modSource, Plic.modSource, if_neg (by omega),
    if_neg (by omega)]
  rfl

section
variable {p : Plic} {i t : Nat} (f : PlicSrc → PlicSrc) (g : List Nat → List Nat)

theorem Plic.serve_params : (p.serve i t f g).params = p.params := p.modSource_params i f

theorem Plic.serve_isEnabled (u j : Nat) : (p.serve i t f g).isEnabled u j = p.isEnabled u j :=
  (Plic.isEnabled_modTarget (f := fun x => { x with inService := g x.inService }) (fun _ => rfl) u j).trans
    (p.isEnabled_modSource i f u j)

/-- Only real sources are put on a stack (10_state.md R32). -/
theorem Plic.serve_shapeOk (hp : p.shapeOk = true) (h1 : 1 ≤ i) (h2 : i < p.params.numSources)
    (hg : ∀ l, ∀ j ∈ g l, j ∈ l ∨ j = i) : (p.serve i t f g).shapeOk = true := by
  refine Plic.shapeOk_modTarget t _ (Plic.shapeOk_modSource i f hp) (fun _ => rfl) (fun x j hj => ?_)
  rw [Plic.modSource_params]
  obtain hold | rfl := hg x.inService j hj
  · exact .inl hold
  · exact .inr ⟨h1, h2⟩

theorem Plic.serve_source (hp : p.shapeOk = true) (h1 : 1 ≤ i) (h2 : i < p.params.numSources) (j : Nat) :
    (p.serve i t f g).source j = if j = i then f (p.source j) else p.source j :=
  Plic.source_modSource_real f hp h1 h2 j

theorem Plic.serve_inService (hp : p.shapeOk = true) (ht : t < p.params.numTargets) (u : Nat) :
    ((p.serve i t f g).target u).inService = if u = t then g (p.target u).inService else (p.target u).inService := by
  have hlen := ((Plic.shapeOk_iff p).1 hp).2.1
  rw [Plic.serve, Plic.target_modTarget _ (by rw [Plic.modSource_tgts]; omega)]
  split
  · next hu => rw [Plic.target_modSource, hu]
  · rw [Plic.target_modSource]

end

/-! ## The cases of `SetPriority` and `Complete` -/

theorem Plic.setPriority_disabled {p : Plic} {i : Nat} {v : Word} (h : p.params.prioritiesEnabled = false) :
    p.setPriority i v = Eff.raise p .prioritiesDisabled (.pair i v.toNat) := by
  rw [Plic.setPriority, if_pos h]

theorem Plic.setPriority_source0 {p : Plic} {v : Word} (h : p.params.prioritiesEnabled = true) :
    p.setPriority 0 v = Eff.raise p .prioritySource0 (.num v.toNat) := by
  rw [Plic.setPriority, if_neg (by simp [h]), if_pos rfl]

theorem Plic.setPriority_stores {p : Plic} {i : Nat} {v : Word} (h : p.params.prioritiesEnabled = true) (h0 : i ≠ 0) :
    p.setPriority i v = (p.modSource i (fun x => { x with priority := v })).reEvaluate := by
  rw [Plic.setPriority, if_neg (by simp [h]), if_neg h0]

section
variable {p : Plic} {t : Nat} {v : Word} (ht : t < p.params.numTargets)
include ht

theorem Plic.complete_outOfRange (h : v.toNat = 0 ∨ p.params.numSources ≤ v.toNat) :
    p.complete t v = Eff.raise p .completeOutOfRange (.num v.toNat) := by
  rw [Plic.complete, if_neg (by omega), if_pos h]

theorem Plic.complete_nothingInService (h0 : v.toNat ≠ 0) (hv : v.toNat < p.params.numSources)
    (h : (p.target t).inService.getLast? = none) :
    p.complete t v = Eff.raise p .completeNothingInService (.num v.toNat) := by
  rw [Plic.complete, if_neg (by omega), if_neg (by omega), h]

theorem Plic.complete_mismatch {top : Nat} (h0 : v.toNat ≠ 0) (hv : v.toNat < p.params.numSources)
    (h : (p.target t).inService.getLast? = some top) (hne : top ≠ v.toNat) :
    p.complete t v = Eff.raise p .completeMismatch (.pair v.toNat top) := by
  rw [Plic.complete, if_neg (by omega), if_neg (by omega), h]
  exact if_pos hne

end

/-! ## The write of an `ENABLE` word -/

/-- Source 0, whose bit is ignored silently, lies below `NUM_SOURCES`, so the bits reported are just those past the last source
(30_encoding.md R112). -/
theorem Plic.writeEnable_diags {p : Plic} {t w : Nat} {v : Word} (ht : t < p.params.numTargets) (hp : p.shapeOk = true)
    (hn : 1 ≤ p.params.numSources) :
    (p.writeEnable t w v).diags =
      ((List.range 32).filter (fun b => decide (p.params.numSources ≤ 32 * w + b) && v.getLsbD b)).map
        (fun b => { severity := .warning, cause := .enableNonexistentSource, info := .num ((32 * w + b : Nat) : Int) }) := by
  obtain ⟨-, -, -, -, -, hdiags, -⟩ := Plic.writeEnable_spec (w := w) (v := v) ht hp
  have hreal : ∀ b, (32 * w + b ≠ 0 ∧ p.params.numSources ≤ 32 * w + b) ↔ p.params.numSources ≤ 32 * w + b := by omega
  simp only [hdiags, hreal]
  rfl

/-- The bits of a write of `ENABLE[t][w]`, by the id of the source (30_encoding.md R112; D24). -/
theorem Plic.writeEnable_isEnabled {p : Plic} {t w : Nat} {v : Word} (ht : t < p.params.numTargets) (hp : p.shapeOk = true)
    (u i : Nat) :
    (p.writeEnable t w v).core.isEnabled u i =
      if u = t ∧ 1 ≤ i ∧ i < p.params.numSources ∧ i / 32 = w then v.getLsbD (i % 32) else p.isEnabled u i := by
  obtain ⟨-, -, -, -, henabled, -⟩ := Plic.writeEnable_spec (w := w) (v := v) ht hp
  have hword : (32 * w ≤ i ∧ i < 32 * w + 32) ↔ i / 32 = w := by omega
  simp only [henabled, hword]
  split
  · rw [show i - 32 * w = i % 32 by omega]
  · rfl

end Sys2Proof.Machine
end

section
/-! What an instruction on a PLIC does, read off the effect of its operation: the effect of each instruction once, and what the
platform looks like after an effect of each form (20_memory.md R80). -/

namespace Sys2Proof.Machine

open Sys2Proof.Claims

/-! ## The operation of each instruction -/

/-- `i` is an event on controller `c` whose operation, on a PLIC in state `p`, answers `r`. -/
def PlicAnswers (i : Instr) (c : Nat) (p : Plic) (r : Except Refusal (Eff Plic)) : Prop :=
  ∃ f, (∀ s, exec i s = ctrlEvent s c (onPlic f)) ∧ f p = r

section
variable {p : Plic} (c : Nat)

theorem plicOnGpio_answers {n : Nat} (v : Bool) (h1 : 1 ≤ n) (h2 : n < p.params.numSources) :
    PlicAnswers (.plicOnGpio c n v) c p (.ok (p.input n v)) := by
  refine ⟨_, fun _ => rfl, (if_pos ?_).trans (Plic.onGpio_inRange h1 h2)⟩
  simp only [inputInRange, decide_eq_true_eq]
  omega

theorem plicOnGpioOutOfRange_answers {n : Int} (v : Bool) (h : n < 1 ∨ (p.params.numSources : Int) ≤ n) :
    PlicAnswers (.plicOnGpioOutOfRange c n v) c p (.error (.plicGpioOutOfRange n)) := by
  refine ⟨_, fun _ => rfl, (if_neg ?_).trans (Plic.onGpio_outOfRange h)⟩
  simp only [inputInRange, decide_eq_true_eq]
  omega

theorem plicPriorityWrite_answers {i : Nat} (v : Word) (h : i < p.params.numSources) :
    PlicAnswers (.plicPriorityWrite c i v) c p (.ok (p.setPriority i v)) :=
  ⟨_, fun _ => rfl, if_pos (decide_eq_true h)⟩

theorem plicPriorityRead_answers {i : Nat} (h : i < p.params.numSources) :
    PlicAnswers (.plicPriorityRead c i) c p (.ok (Eff.read p (p.source i).priority)) :=
  ⟨_, fun _ => rfl, if_pos (decide_eq_true h)⟩

theorem plicEnableWrite_answers (t : Nat) {w : Nat} (v : Word) (hw : w < 32) :
    PlicAnswers (.plicEnableWrite c t w v) c p (.ok (p.writeEnable t w v)) :=
  ⟨_, fun _ => rfl, if_pos (decide_eq_true hw)⟩

theorem plicEnableRead_answers {t w : Nat} (ht : t < p.params.numTargets) (hw : w < 32) :
    PlicAnswers (.plicEnableRead c t w) c p (.ok (Eff.read p (p.enableWord t w))) :=
  ⟨_, fun _ => rfl, if_pos (by rw [decide_eq_true ht, decide_eq_true hw]; rfl)⟩

theorem plicClaimRead_answers (t : Nat) : PlicAnswers (.plicClaimRead c t) c p (.ok (p.claim t)) :=
  ⟨_, fun _ => rfl, rfl⟩

theorem plicCompleteWrite_answers (t : Nat) (v : Word) :
    PlicAnswers (.plicCompleteWrite c t v) c p (.ok (p.complete t v)) :=
  ⟨_, fun _ => rfl, rfl⟩

end

/-! ## The instruction's outcome -/

section
variable {s : State} {c : Nat} {p : Plic} {i : Instr} {e : Eff Plic}

theorem plicAt_bounds (h : PlicAt s c p) :
    p.shapeOk = true ∧ 2 ≤ p.params.numSources ∧ p.params.numSources ≤ 1024 := by
  obtain ⟨-, x, -, hp, hshape⟩ := h
  simp only [Ctrl.shapeOk, hp, Bool.and_eq_true] at hshape
  obtain ⟨⟨hvalid, hshape⟩, -⟩ := hshape
  obtain ⟨hlow, hhigh, -⟩ := PlicParams.bounds hvalid
  exact ⟨hshape, hlow, hhigh⟩

/-- An effect that re-evaluates every target leaves every output at the level of `PlicEval` (41_plic.md R169). -/
theorem PlicAnswers.runs (hi : PlicAnswers i c p (.ok e)) (h : PlicAt s c p) (hp : e.core.params = p.params)
    (hd : e.drives = e.core.drives) :
    ∃ t, Runs i s t c (.plic e.core) e.diags e.reply ∧ PlicOuts t c e.core := by
  obtain ⟨f, hexec, hf⟩ := hi
  obtain ⟨hs, x, hx, hcore, hshape⟩ := h
  have hparams : (e.lift .plic).core.params = x.core.params := by
    rw [hcore]
    exact congrArg CtrlParams.plic hp
  obtain ⟨t, ht, hafter, houts, -⟩ := event_after (f := onPlic f) hs hx (by rw [hcore, onPlic, hf]; rfl) hparams
  refine ⟨t, ⟨(hexec s).trans ht, hafter⟩, fun j hj => houts j _ ?_ ?_⟩
  · simp only [Ctrl.shapeOk, Bool.and_eq_true, decide_eq_true_eq, ← hparams] at hshape
    rw [hshape.2]
    exact hj
  · rw [Eff.lift_drives, hd, lastDrive_plic, if_pos hj]

/-- A read without side effect (20_memory.md R77). -/
theorem PlicAnswers.returns {r : Word} (hi : PlicAnswers i c p (.ok (Eff.read p r))) (h : PlicAt s c p) :
    Returns i s (some (.word r)) := by
  obtain ⟨f, hexec, hf⟩ := hi
  obtain ⟨hs, x, hx, hcore, -⟩ := h
  exact (hexec s).trans
    (event_same (f := onPlic f) (s.sound_acyclic hs) hx (by rw [hcore, onPlic, hf]; rfl) hcore.symm rfl rfl)

/-- An operation that only reports (60_exceptions.md R367). -/
theorem PlicAnswers.onlyDiag {cause : Cause} {info : DiagInfo} (hi : PlicAnswers i c p (.ok (Eff.raise p cause info)))
    (h : PlicAt s c p) : OnlyDiag i s c cause.severity cause info none := by
  obtain ⟨f, hexec, hf⟩ := hi
  obtain ⟨hs, x, hx, hcore, -⟩ := h
  obtain ⟨t, ht, honly⟩ :=
    event_onlyTrace (f := onPlic f) (s.sound_acyclic hs) hx (by rw [hcore, onPlic, hf]; rfl) hcore.symm rfl
  exact ⟨t, (hexec s).trans ht, honly⟩

theorem PlicAnswers.refused {r : Refusal} (hi : PlicAnswers i c p (.error r)) (h : PlicAt s c p) :
    exec i s = .refused r := by
  obtain ⟨f, hexec, hf⟩ := hi
  obtain ⟨hs, x, hx, hcore, -⟩ := h
  exact (hexec s).trans (event_refused (f := onPlic f) (s.sound_acyclic hs) hx (by rw [hcore, onPlic, hf]; rfl))

end

end Sys2Proof.Machine
end

section
/-! The statements about the PLIC, settled. -/

namespace Sys2Proof.Proofs

open Sys2Proof.Machine Sys2Proof.Claims

/-- Settles O22: the candidates are the claimable sources, and the stack is empty or has a top. -/
theorem plicOutputRule : Obligations.PlicOutputRule := by
  intro p t
  rw [Plic.eval_iff]
  cases h : (p.target t).inService.getLast? with
  | none =>
    rw [Plic.currentPriority_idle h]
    rfl
  | some top => rw [Plic.currentPriority_top h]

/-- Settles O23: the input updates one source and re-evaluates. -/
theorem plicInputStoresLevelAndLatchesPending : Obligations.PlicInputStoresLevelAndLatchesPending := by
  intro s c p n v h h1 h2
  obtain ⟨hp, -⟩ := plicAt_bounds h
  obtain ⟨t, hruns, houts⟩ := (plicOnGpio_answers c v h1 h2).runs h (Plic.modSource_params ..) rfl
  exact ⟨t, _, hruns, Plic.modSource_params .., Plic.modSource_tgts .., Plic.shapeOk_modSource n _ hp,
    Plic.source_modSource_real _ hp h1 h2, houts⟩

/-- Settles O25: `SetPriority` has two cases that only report, and one that updates a real source and re-evaluates. -/
theorem priorityWriteStoresOrReports : Obligations.PriorityWriteStoresOrReports := by
  intro s c p i v h hi
  obtain ⟨hp, -⟩ := plicAt_bounds h
  have hanswer := plicPriorityWrite_answers c v hi
  refine ⟨fun hdisabled => ?disabled, fun henabled h0 => ?source0, fun henabled h0 => ?stores⟩
  case disabled =>
    rw [Plic.setPriority_disabled hdisabled] at hanswer
    exact hanswer.onlyDiag h
  case source0 =>
    subst h0
    rw [Plic.setPriority_source0 henabled] at hanswer
    exact hanswer.onlyDiag h
  case stores =>
    rw [Plic.setPriority_stores henabled h0] at hanswer
    obtain ⟨t, hruns, houts⟩ := hanswer.runs h (Plic.modSource_params ..) rfl
    exact ⟨t, _, hruns, Plic.modSource_params .., Plic.modSource_tgts .., Plic.shapeOk_modSource i _ hp,
      Plic.source_modSource_real _ hp (by omega) hi, houts⟩

/-- Settles O26: both rows only read; source 0 has priority 0, and the word read is made bit by bit. -/
theorem plicPlainReadsReturnState : Obligations.PlicPlainReadsReturnState := by
  intro s c p h
  refine ⟨fun i hi => ?priority, fun t w ht hw => ⟨_, (plicEnableRead_answers c ht hw).returns h, fun b hb => ?enable⟩⟩
  case priority =>
    have hread := (plicPriorityRead_answers c hi).returns h
    split
    · next h0 =>
      subst h0
      exact hread
    · exact hread
  case enable => rw [Plic.enableWord, wordOfBits_bit, decide_eq_true hb, Bool.true_and]

/-- Settles O27: the fold over the word's bits has been read off in `Plic.writeEnable_spec`. -/
theorem enableWriteSetsEachSourceOfTheWord : Obligations.EnableWriteSetsEachSourceOfTheWord := by
  intro s c p t w v h ht hw
  obtain ⟨hp, hsources, -⟩ := plicAt_bounds h
  obtain ⟨hparams, hsrcs, hshape, hstacks, -, -, hdrives, hreply⟩ := Plic.writeEnable_spec (w := w) (v := v) ht hp
  obtain ⟨u, hruns, houts⟩ := (plicEnableWrite_answers c t v hw).runs h hparams hdrives
  rw [hreply, Plic.writeEnable_diags ht hp (by omega)] at hruns
  exact ⟨u, _, hruns, hparams, hsrcs, hshape, hstacks, Plic.writeEnable_isEnabled ht hp, houts⟩

/-- Settles O28: the selected source is the best one; without a claimable source none is selected. -/
theorem claimTakesTheBestSource : Obligations.ClaimTakesTheBestSource := by
  intro s c p t h ht
  obtain ⟨hp, -⟩ := plicAt_bounds h
  have hanswer := plicClaimRead_answers (p := p) c t
  refine ⟨fun i hbest => ?best, fun hnone => ?nothing⟩
  case best =>
    obtain ⟨h1, h2⟩ := best_real hbest
    rw [Plic.claim_best ht hbest] at hanswer
    obtain ⟨u, hruns, houts⟩ := hanswer.runs h (Plic.serve_params ..) rfl
    exact ⟨u, _, hruns, Plic.serve_params .., Plic.serve_shapeOk _ _ hp h1 h2 (by simp), Plic.serve_source _ _ hp h1 h2,
      Plic.serve_inService _ _ hp ht, Plic.serve_isEnabled _ _, houts⟩
  case nothing =>
    rw [Plic.claim_none ht (Plic.selected_eq_none_iff_not_claimable.2 hnone)] at hanswer
    exact hanswer.returns h

/-- Settles O29: the reply is that of the claim, which selects nothing or the best source; ids fit into a word. -/
theorem claimReturnsOnlyEnabledPendingSources : Obligations.ClaimReturnsOnlyEnabledPendingSources := by
  intro s u c p t r h ht hexec hr
  obtain ⟨-, -, hsources⟩ := plicAt_bounds h
  obtain ⟨-, x, hx, hcore, -⟩ := h
  obtain ⟨hreply, -⟩ := claim_exec hx hcore hexec
  rw [hr] at hreply
  cases hsel : p.selected t with
  | none =>
    rw [Plic.claim_none ht hsel] at hreply
    cases hreply
    exact .inl ⟨rfl, Plic.selected_eq_none_iff_not_claimable.1 hsel⟩
  | some i =>
    have hbest := Plic.selected_eq_some_iff_best.1 hsel
    obtain ⟨-, hi⟩ := best_real hbest
    rw [Plic.claim_some ht hsel] at hreply
    cases hreply
    rw [BitVec.toNat_ofNat, Nat.mod_eq_of_lt (by omega)]
    exact .inr hbest

/-- Settles O31: what is on top of a stack is a real source, so the completion passes every check. -/
theorem completePopsAndRearms : Obligations.CompletePopsAndRearms := by
  intro s c p t v h ht htop
  obtain ⟨hp, -⟩ := plicAt_bounds h
  obtain ⟨h1, h2⟩ := Plic.inService_real hp ht (List.mem_of_getLast? htop)
  have hanswer := plicCompleteWrite_answers (p := p) c t v
  rw [Plic.complete_serves hp ht htop] at hanswer
  obtain ⟨u, hruns, houts⟩ := hanswer.runs h (Plic.serve_params ..) rfl
  exact ⟨u, _, hruns, Plic.serve_params ..,
    Plic.serve_shapeOk _ _ hp h1 h2 (fun _ _ hj => .inl (List.mem_of_mem_dropLast hj)), Plic.serve_source _ _ hp h1 h2,
    Plic.serve_inService _ _ hp ht, Plic.serve_isEnabled _ _, houts⟩

/-- Settles O32: each check that fails makes the operation one that only reports. -/
theorem wrongCompleteOnlyReports : Obligations.WrongCompleteOnlyReports := by
  intro s c p t v h ht
  have hanswer := plicCompleteWrite_answers (p := p) c t v
  have hzero : v ≠ 0 → v.toNat ≠ 0 := fun hv hv0 => hv (BitVec.eq_of_toNat_eq hv0)
  refine ⟨fun hrange => ?outOfRange, fun h0 hv hempty => ?nothing, fun top h0 hv htop hne => ?mismatch⟩
  case outOfRange =>
    rw [Plic.complete_outOfRange ht (hrange.imp_left (congrArg BitVec.toNat))] at hanswer
    exact hanswer.onlyDiag h
  case nothing =>
    rw [Plic.complete_nothingInService ht (hzero h0) hv (List.getLast?_eq_none_iff.2 hempty)] at hanswer
    exact hanswer.onlyDiag h
  case mismatch =>
    rw [Plic.complete_mismatch ht (hzero h0) hv htop hne] at hanswer
    exact hanswer.onlyDiag h

/-- Settles O24: the number is no input, so the operation refuses, and with it the event. -/
theorem plicInputOutOfRangeIsRefused : Obligations.PlicInputOutOfRangeIsRefused :=
  fun _ c _ _ v h hn => (plicOnGpioOutOfRange_answers c v hn).refused h

end Sys2Proof.Proofs
end

section
/-! What an instruction on a controller of any kind does, read off the effect of its operation: what the platform looks like
after an effect of each form (20_memory.md R80). -/

namespace Sys2Proof.Machine

open Sys2Proof.Claims

/-- Instance `c` of a platform with sound wiring is in state `k`. -/
def CoreAt (s : State) (c : Nat) (k : Core) : Prop := s.sound = true ∧ s.holds c k

/-- `i` is an event on controller `c` whose operation, on a controller in state `k`, answers `r`. -/
def Answers (i : Instr) (c : Nat) (k : Core) (r : Except Refusal (Eff Core)) : Prop :=
  ∃ f, (∀ s, exec i s = ctrlEvent s c f) ∧ f k = r

theorem coreAt_iff {s : State} {c : Nat} {k : Core} :
    CoreAt s c k ↔ s.sound = true ∧ ∃ x, s.ctrls[c]? = some x ∧ x.core = k := by
  rw [CoreAt, State.holds, Option.map_eq_some_iff]

/-- The wiring stays sound, so the next event finds the state that this one leaves. -/
theorem runs_coreAt {i : Instr} {s t : State} {c : Nat} {k k' : Core} {diags : List Diag} {reply : Option Reply}
    (h : CoreAt s c k) (hruns : Runs i s t c k' diags reply) : CoreAt t c k' := by
  obtain ⟨hs, -⟩ := h
  obtain ⟨-, hframe, -, hcore, -⟩ := hruns
  exact ⟨hframe.sound.trans hs, hcore⟩

section
variable {s : State} {c : Nat} {k : Core} {i : Instr} {e : Eff Core}

/-- An operation that keeps the parameters completes; each output driven is at the level it is driven to last. -/
theorem Answers.runs (hi : Answers i c k (.ok e)) (h : CoreAt s c k) (hp : e.core.params = k.params) :
    ∃ t, Runs i s t c e.core e.diags e.reply ∧
      ∀ j l b, s.line? (.out c j) = some l → lastDrive e.drives j = some b → t.outIs c j b := by
  obtain ⟨f, hexec, hf⟩ := hi
  obtain ⟨hs, x, hx, rfl⟩ := coreAt_iff.1 h
  obtain ⟨t, ht, hafter, houts, -⟩ := event_after hs hx hf hp
  refine ⟨t, ⟨(hexec s).trans ht, hafter⟩, fun j l b hl hd => houts j b ?_ hd⟩
  rw [State.line?, hx, Option.bind_some] at hl
  exact (List.getElem?_eq_some_iff.1 hl).1

/-- A read without side effect (20_memory.md R77). -/
theorem Answers.returns {r : Word} (hi : Answers i c k (.ok (Eff.read k r))) (h : CoreAt s c k) :
    Returns i s (some (.word r)) := by
  obtain ⟨f, hexec, hf⟩ := hi
  obtain ⟨hs, x, hx, rfl⟩ := coreAt_iff.1 h
  exact (hexec s).trans (event_same (s.sound_acyclic hs) hx hf rfl rfl rfl)

/-- An operation that only reports (60_exceptions.md R367). -/
theorem Answers.onlyDiag {cause : Cause} {info : DiagInfo} (hi : Answers i c k (.ok (Eff.raise k cause info)))
    (h : CoreAt s c k) : OnlyDiag i s c cause.severity cause info none := by
  obtain ⟨f, hexec, hf⟩ := hi
  obtain ⟨hs, x, hx, rfl⟩ := coreAt_iff.1 h
  obtain ⟨t, ht, honly⟩ := event_onlyTrace (s.sound_acyclic hs) hx hf rfl rfl
  exact ⟨t, (hexec s).trans ht, honly⟩

/-- An operation that only stores drives no output, so nothing propagates. -/
theorem Answers.onlyStores {k' : Core} (hi : Answers i c k (.ok (Eff.change k' []))) (h : CoreAt s c k) :
    OnlyStores i s c k' := by
  obtain ⟨f, hexec, hf⟩ := hi
  obtain ⟨hs, x, hx, rfl⟩ := coreAt_iff.1 h
  have hrun : ctrlEvent s c f = .next (s.begin c (Eff.change k' [])) := by
    simp only [ctrlEvent, s.sound_acyclic hs, if_true, hx, hf, runEff_quiet (Eff.change_drives k' []), toOutcome]
  rw [OnlyStores, hexec s, hrun, State.begin, State.putEff]
  simp only [Eff.change_core, Eff.change_diags, Eff.change_reply, List.append_nil]

theorem Answers.refused {r : Refusal} (hi : Answers i c k (.error r)) (h : CoreAt s c k) : exec i s = .refused r := by
  obtain ⟨f, hexec, hf⟩ := hi
  obtain ⟨hs, x, hx, rfl⟩ := coreAt_iff.1 h
  exact (hexec s).trans (event_refused (s.sound_acyclic hs) hx hf)

end

end Sys2Proof.Machine
end

section
/-! The procedures of the VIC in the terms of the statements: the output levels, the purge, `Change` on some lines with the
`Update` after it, which lines are live, which address serves a line, and in which order a queue stands (42_vic.md R201 to
R221). -/

namespace Sys2Proof.Machine

open Sys2Proof.Claims

/-! ## Output levels -/

theorem Vic.fiqLevel_iff {v : Vic} :
    v.fiqLevel = true ↔ ∃ L < 32, v.isActive L = true ∧ v.isFiq.getLsbD L = true := by
  rw [Vic.fiqLevel, bne_iff_ne, word_ne_zero_iff]
  simp only [Vic.fiqStatus, BitVec.getLsbD_and, Bool.and_eq_true, Vic.isActive]

theorem Vic.irqLevel_iff {v : Vic} :
    v.irqLevel = true ↔ ∃ e, v.queue.head? = some e ∧ ∀ top, v.stack.getLast? = some top → e.key < top.key := by
  rw [Vic.irqLevel]
  cases v.queue.head? with
  | none => simp
  | some e => cases v.stack.getLast? <;> simp

/-! ## Purge -/

theorem Vic.purge_frontPurged (v : Vic) : FrontPurged v.isActive v.queue v.purge.queue := v.purge_queue

theorem Vic.purge_topPurged (v : Vic) : TopPurged v.isActive v.stack v.purge.stack := v.purge_stack

/-- A queue with an active front loses nothing (42_vic.md R215). -/
theorem Vic.purge_queue_of_active {v : Vic} (h : ∀ e ∈ v.queue.head?, v.isActive e.line = true) :
    v.purge.queue = v.queue := by
  rw [Vic.purge]
  cases hq : v.queue with
  | nil => rfl
  | cons e rest =>
    rw [hq] at h
    simp [h e rfl]

/-! ## `Change` on some lines, then `Update` -/

section
variable {f : LineField} {b : Bool} {v : Vic} {ls : List Nat}

/-- The lines that wake are those among the changed ones that `Change` enqueues. -/
theorem Vic.newlyActive_foldChange (hnd : ls.Nodup) (hlt : ∀ L ∈ ls, L < 32) :
    (newlyActive v (ls.foldl (Vic.change f b) v)).Perm (ls.filter (Vic.wakes f b v)) := by
  obtain ⟨hfield, -, -, hfiq, -⟩ := Vic.foldChange_spec f b ls v hnd hlt _ rfl
  refine (List.perm_ext_iff_of_nodup (List.nodup_range.filter _) (hnd.filter _)).2 fun L => ?_
  by_cases hL : L ∈ ls
  · have hactive : (ls.foldl (Vic.change f b) v).isActive L = (v.putField f L b).isActive L := by
      refine Vic.isActive_field fun g => ?_
      rw [hfield, Vic.putField_field]
      by_cases hg : g = f
      · simp [hg, hL, putBit_bit (hlt L hL)]
      · simp [hg]
    simp [List.mem_filter, hL, hlt L hL, Vic.wakes, hactive, hfiq]
  · have hactive : (ls.foldl (Vic.change f b) v).isActive L = v.isActive L :=
      Vic.isActive_field fun g => by rw [hfield, if_neg (fun h => hL h.2)]
    simp [List.mem_filter, hL, hactive]

theorem Vic.foldChange_queueStep (hnd : ls.Nodup) (hlt : ∀ L ∈ ls, L < 32) (hv : v.shapeOk = true) :
    QueueStep v (ls.foldl (Vic.change f b) v).purge := by
  obtain ⟨-, -, -, -, -, -, -, hstack, hperm, hsub, hsorted⟩ := Vic.foldChange_spec f b ls v hnd hlt _ rfl
  obtain ⟨-, -, -, -, hqueue⟩ := (Vic.shapeOk_iff v).1 hv
  refine ⟨⟨_, ⟨?entries, hsub, hsorted hqueue⟩, Vic.purge_frontPurged _⟩, ?stack⟩
  case entries => exact hperm.trans (((Vic.newlyActive_foldChange hnd hlt).symm.map _).append_left _)
  case stack =>
    rw [← hstack]
    exact Vic.purge_topPurged _

theorem Vic.foldChange_sameVectors (hnd : ls.Nodup) (hlt : ∀ L ∈ ls, L < 32) :
    SameVectors v (ls.foldl (Vic.change f b) v).purge := by
  obtain ⟨-, -, hparams, -, hslots, haddrs, hdef, -⟩ := Vic.foldChange_spec f b ls v hnd hlt _ rfl
  exact ⟨hparams, hslots, haddrs, hdef⟩

end

/-! ## Live lines, addresses, slots -/

/-- The writes of `INTSELECT` that are refused (42_vic.md R206; D50). -/
theorem Vic.reclassifiesLive_iff {v : Vic} {w : Word} :
    v.reclassifiesLive w = true ↔
      ∃ L < 32, w.getLsbD L ≠ v.isFiq.getLsbD L ∧ (v.isActive L = true ∨ ∃ e ∈ v.queue ++ v.stack, e.line = L) := by
  simp only [Vic.reclassifiesLive, Vic.hasEntry, List.any_eq_true, List.mem_range, Config.vicLines, Bool.and_eq_true,
    Bool.or_eq_true, bne_iff_ne, beq_iff_eq, List.mem_append, or_and_right, exists_or]

theorem Vic.addressOf_unvectored {v : Vic} {L : Nat} (h : v.vectorId L = none) : v.addressOf L = v.defVectAddr := by
  rw [Vic.addressOf, h]

theorem Vic.addressOf_vectored {v : Vic} {L n : Nat} (h : v.vectorId L = some n) : v.addressOf L = v.addrs.getD n 0 := by
  rw [Vic.addressOf, h]

/-- The slot found is one of the 16, so it has an address. -/
theorem Vic.getElem?_addressOf {v : Vic} {L n : Nat} (hv : v.shapeOk = true) (h : v.vectorId L = some n) :
    v.addrs[n]? = some (v.addressOf L) := by
  obtain ⟨hn, -⟩ := Vic.vectorId_eq_some.1 h
  obtain ⟨-, hlen, -⟩ := (Vic.shapeOk_iff v).1 hv
  rw [Vic.addressOf_vectored h, List.getD_eq_getElem?_getD, List.getElem?_eq_getElem (hlen ▸ hn), Option.getD_some]

theorem getElem?_set_eq_ite {α : Type} {l : List α} {n : Nat} {a : α} (h : n < l.length) (m : Nat) :
    (l.set n a)[m]? = if m = n then some a else l[m]? := by
  by_cases hm : m = n
  · rw [if_pos hm, hm, List.getElem?_set_self h]
  · rw [if_neg hm, List.getElem?_set_ne (Ne.symm hm)]

theorem VectSlot.ofWord_eq (w : Word) : VectSlot.ofWord w = { enable := w.getLsbD 5, source := w.extractLsb' 0 5 } := by
  rw [VectSlot.ofWord, BitVec.setWidth_eq_extractLsb' (by decide)]

/-- `Source` in bits 4 to 0, `Enable` above it (30_encoding.md R123). -/
theorem VectSlot.toWord_eq (x : VectSlot) :
    x.toWord = BitVec.ofNat 32 (x.source.toNat + if x.enable then 32 else 0) := by
  have hsum : (x.source.toNat + if x.enable then 32 else 0) = 2 ^ 5 * x.enable.toNat + x.source.toNat := by
    cases x.enable
    · exact (Nat.zero_add _).symm
    · exact Nat.add_comm _ _
  rw [hsum]
  apply BitVec.eq_of_getLsbD_eq
  intro j hj
  rw [VectSlot.toWord, putBit_bit (by decide), BitVec.getLsbD_setWidth, BitVec.getLsbD_ofNat,
    Nat.testBit_two_pow_mul_add _ x.source.isLt, decide_eq_true hj, Bool.true_and, Bool.true_and]
  obtain hlow | rfl | hhigh : j < 5 ∨ j = 5 ∨ 5 < j := by omega
  · rw [if_neg (by omega), if_pos hlow, BitVec.testBit_toNat]
  · cases x.enable <;> rfl
  · rw [if_neg (by omega), if_neg (by omega), BitVec.getLsbD_of_ge _ j (by omega)]
    have hbit : x.enable.toNat < 2 ^ (j - 5) :=
      (Bool.toNat_lt _).trans_le (Nat.pow_le_pow_right Nat.two_pos (show 1 ≤ j - 5 by omega))
    exact (Nat.testBit_lt_two_pow hbit).symm

/-! ## The order of service -/

/-- A queue whose entries all have different keys stands in one order, that of the keys. -/
theorem queue_eq_of_perm {q l : List VicEntry} (hq : q.Pairwise (fun a b => a.key ≤ b.key))
    (hl : l.Pairwise (fun a b => a.key < b.key)) (hperm : q.Perm l) : q = l := by
  refine hperm.eq_of_pairwise (fun a b ha hb hab hba => ?_) hq (hl.imp Nat.le_of_lt)
  have hkeys : (l.map VicEntry.key).Nodup := List.pairwise_map.2 (hl.imp Nat.ne_of_lt)
  exact List.inj_on_of_nodup_map hkeys (hperm.mem_iff.1 ha) hb (Nat.le_antisymm hab hba)

end Sys2Proof.Machine
end

section
/-! What an instruction on a VIC does, read off the effect of its operation: what each row answers, and the platform after a
row that reads, that ends in `Update`, or that writes a field of many lines (42_vic.md R202 to R211). -/

namespace Sys2Proof.Machine

open Sys2Proof.Claims

/-! ## What each instruction answers -/

theorem vicLine_inRange_iff {n : Int} : inputInRange 0 Config.vicLines n = true ↔ 0 ≤ n ∧ n < 32 := decide_eq_true_iff

theorem vicOnGpio_answers {v : Vic} (c : Nat) {L : Nat} (b : Bool) (hL : L < 32) :
    Answers (.vicOnGpio c L b) c (.vic v) (.ok ((([L].foldl (Vic.change .pinState b) v).update).lift .vic)) := by
  have hrange : inputInRange 0 Config.vicLines L = true := vicLine_inRange_iff.2 (by omega)
  refine ⟨_, fun _ => rfl, ?_⟩
  simp only [onVic, Vic.onGpio, hrange, if_true]
  rfl

theorem vicOnGpioOutOfRange_answers {v : Vic} (c : Nat) {n : Int} (b : Bool) (hn : n < 0 ∨ 31 < n) :
    Answers (.vicOnGpioOutOfRange c n b) c (.vic v) (.ok (Eff.raise (.vic v) .gpioOutOfRange (.num n))) := by
  have hrange : ¬ inputInRange 0 Config.vicLines n = true := by
    rw [vicLine_inRange_iff]
    omega
  refine ⟨_, fun _ => rfl, ?_⟩
  simp only [onVic, Vic.onGpio, if_neg hrange]
  rfl

/-- An `INTSELECT` write that reclassifies no live line replaces the classes (42_vic.md R206). -/
theorem vicIntSelectWrite_answers {v : Vic} (c : Nat) {w : Word} (h : v.reclassifiesLive w = false) :
    Answers (.vicIntSelectWrite c w) c (.vic v) (.ok ((Vic.update { v with isFiq := w }).lift .vic)) := by
  refine ⟨_, fun _ => rfl, ?_⟩
  simp only [onVic, Vic.writeIntSelect, h]
  rfl

theorem vicIntSelectWrite_answers_refusal {v : Vic} (c : Nat) {w : Word} (h : v.reclassifiesLive w = true) :
    Answers (.vicIntSelectWrite c w) c (.vic v) (.error .vicReclassifiesLiveLine) := by
  refine ⟨_, fun _ => rfl, ?_⟩
  simp only [onVic, Vic.writeIntSelect, h]
  rfl

/-- A row of a slot or an address: its number is in range. -/
theorem vicGuarded_answers {i : Instr} {v : Vic} {c n : Nat} {g : Vic → Eff Vic} (hn : n < Config.vicSlots)
    (hexec : ∀ s, exec i s = ctrlEvent s c (onVic (fun x => guarded (decide (n < Config.vicSlots)) (g x)))) :
    Answers i c (.vic v) (.ok ((g v).lift .vic)) := by
  refine ⟨_, hexec, ?_⟩
  simp only [onVic, guarded, decide_eq_true hn, if_true]
  rfl

theorem vicVectAddrRead_answers_empty {v : Vic} (c : Nat) (h : v.queue = []) :
    Answers (.vicVectAddrRead c) c (.vic v) (.ok (Eff.read (.vic v) v.defVectAddr)) := by
  refine ⟨_, fun _ => rfl, ?_⟩
  simp only [onVic, Vic.acknowledge, h]
  rfl

/-- The state of a VIC in which the entry `e` has gone from the queue, which now is `rest`, to the stack (42_vic.md R208). -/
def Vic.taking (v : Vic) (e : VicEntry) (rest : List VicEntry) : Vic := { v with queue := rest, stack := v.stack ++ [e] }

theorem vicVectAddrRead_answers {v : Vic} (c : Nat) {e : VicEntry} {rest : List VicEntry} (h : v.queue = e :: rest) :
    Answers (.vicVectAddrRead c) c (.vic v)
      (.ok (((v.taking e rest).update.returning (v.addressOf e.line)).lift .vic)) := by
  refine ⟨_, fun _ => rfl, ?_⟩
  simp only [onVic, Vic.acknowledge, h]
  rfl

theorem vicVectAddrWrite_answers_idle {v : Vic} (c : Nat) (w : Word) (h : v.stack = []) :
    Answers (.vicVectAddrWrite c w) c (.vic v) (.ok (Eff.raise (.vic v) .finishNothingInService (.num w.toNat))) := by
  refine ⟨_, fun _ => rfl, ?_⟩
  simp only [onVic, Vic.finish, h]
  rfl

theorem vicVectAddrWrite_answers {v : Vic} (c : Nat) (w : Word) (h : v.stack ≠ []) :
    Answers (.vicVectAddrWrite c w) c (.vic v) (.ok ((Vic.update { v with stack := v.stack.dropLast }).lift .vic)) := by
  obtain ⟨e, st, hst⟩ := List.exists_cons_of_ne_nil h
  refine ⟨_, fun _ => rfl, ?_⟩
  simp only [onVic, Vic.finish, hst]
  rfl

/-! ## The instruction's outcome -/

section
variable {s : State} {c : Nat} {v u : Vic} {i : Instr}

theorem vicAt_coreAt (h : VicAt s c v) : CoreAt s c (.vic v) := by
  obtain ⟨hs, x, hx, hcore, -⟩ := h
  exact coreAt_iff.2 ⟨hs, x, hx, hcore⟩

theorem vicAt_shapeOk (h : VicAt s c v) : v.shapeOk = true := by
  obtain ⟨-, x, -, hcore, hshape⟩ := h
  simp only [Ctrl.shapeOk, hcore, Bool.and_eq_true] at hshape
  obtain ⟨⟨-, hv⟩, -⟩ := hshape
  exact hv

/-- The outputs `IRQ` and `FIQ` are there (10_state.md R42). -/
theorem vicAt_output (h : VicAt s c v) {j : Nat} (hj : j < 2) : ∃ l, s.line? (.out c j) = some l := by
  obtain ⟨-, x, hx, hcore, hshape⟩ := h
  simp only [Ctrl.shapeOk, hcore, Bool.and_eq_true, decide_eq_true_eq] at hshape
  obtain ⟨-, houts⟩ := hshape
  have hlen : j < x.outs.length := houts ▸ hj
  exact ⟨x.outs[j], by rw [State.line?, hx, Option.bind_some, List.getElem?_eq_getElem hlen]⟩

/-- A row whose operation only reads. -/
theorem vicRead_returns {f : Vic → Except Refusal (Eff Vic)} {r : Word} (h : VicAt s c v)
    (hexec : ∀ s, exec i s = ctrlEvent s c (onVic f)) (hf : f v = .ok (Eff.read v r)) : Returns i s (some (.word r)) :=
  Answers.returns ⟨onVic f, hexec, by rw [onVic, hf]; rfl⟩ (vicAt_coreAt h)

/-- An operation that ends in `Update` leaves the purged state, and both outputs at its levels (42_vic.md R214). -/
theorem Answers.updates {e : Eff Vic} (hi : Answers i c (.vic v) (.ok (e.lift .vic))) (h : VicAt s c v)
    (hp : u.params = v.params) (hc : e.core = u.purge) (hd : e.drives = u.purge.drives) :
    ∃ t, Runs i s t c (.vic u.purge) e.diags e.reply ∧ VicOuts t c u.purge := by
  have hparams : (e.lift .vic).core.params = (Core.vic v).params := by
    rw [Eff.lift_core, hc]
    exact congrArg CtrlParams.vic hp
  obtain ⟨t, hruns, houts⟩ := hi.runs (vicAt_coreAt h) hparams
  obtain ⟨irq, hirq⟩ := vicAt_output h (show 0 < 2 by decide)
  obtain ⟨fiq, hfiq⟩ := vicAt_output h (show 1 < 2 by decide)
  rw [Eff.lift_drives, hd] at houts
  rw [Eff.lift_core, hc] at hruns
  exact ⟨t, hruns, houts 0 irq _ hirq (lastDrive_vic _ 0), houts 1 fiq _ hfiq (lastDrive_vic _ 1)⟩

/-- A write that sets or clears one field of the lines whose bit is 1 (42_vic.md R204, R205). -/
theorem Answers.writesLines {f : LineField} {b : Bool} {w : Word}
    (hi : Answers i c (.vic v) (.ok ((v.writeLines f b w).lift .vic))) (h : VicAt s c v) :
    ∃ t v', Runs i s t c (.vic v') [] none ∧ v'.field f = (if b then v.field f ||| w else v.field f &&& ~~~w) ∧
      (∀ g, g ≠ f → v'.field g = v.field g) ∧ v'.isFiq = v.isFiq ∧ SameVectors v v' ∧ QueueStep v v' ∧
      VicOuts t c v' := by
  have hnd := nodup_bitsOf w
  have hlt : ∀ L ∈ bitsOf w, L < 32 := fun _ => lt_of_mem_bitsOf
  obtain ⟨-, hothers, hparams, hfiq, -⟩ := Vic.foldChange_spec f b (bitsOf w) v hnd hlt _ rfl
  obtain ⟨hset, hclear⟩ := v.writeLines_field f w
  obtain ⟨t, hruns, houts⟩ := hi.updates h hparams rfl rfl
  refine ⟨t, _, hruns, ?written, hothers, hfiq, Vic.foldChange_sameVectors hnd hlt,
    Vic.foldChange_queueStep hnd hlt (vicAt_shapeOk h), houts⟩
  cases b
  · exact hclear
  · exact hset

/-- `INTENABLE` or `INTENCLEAR` (42_vic.md R204). -/
theorem Answers.writesEnabled {b : Bool} {w : Word} (hi : Answers i c (.vic v) (.ok ((v.writeLines .enabled b w).lift .vic)))
    (h : VicAt s c v) :
    ∃ t v', Runs i s t c (.vic v') [] none ∧ v'.enabled = (if b then v.enabled ||| w else v.enabled &&& ~~~w) ∧
      v'.pinState = v.pinState ∧ v'.softState = v.softState ∧ v'.isFiq = v.isFiq ∧ SameVectors v v' ∧ QueueStep v v' ∧
      VicOuts t c v' := by
  obtain ⟨t, v', hruns, hwritten, hothers, hrest⟩ := hi.writesLines h
  exact ⟨t, v', hruns, hwritten, hothers .pinState LineField.noConfusion, hothers .softState LineField.noConfusion, hrest⟩

/-- `SOFTINT` or `SOFTINTCLEAR` (42_vic.md R205). -/
theorem Answers.writesSoftState {b : Bool} {w : Word}
    (hi : Answers i c (.vic v) (.ok ((v.writeLines .softState b w).lift .vic))) (h : VicAt s c v) :
    ∃ t v', Runs i s t c (.vic v') [] none ∧ v'.softState = (if b then v.softState ||| w else v.softState &&& ~~~w) ∧
      v'.pinState = v.pinState ∧ v'.enabled = v.enabled ∧ v'.isFiq = v.isFiq ∧ SameVectors v v' ∧ QueueStep v v' ∧
      VicOuts t c v' := by
  obtain ⟨t, v', hruns, hwritten, hothers, hrest⟩ := hi.writesLines h
  exact ⟨t, v', hruns, hwritten, hothers .pinState LineField.noConfusion, hothers .enabled LineField.noConfusion, hrest⟩

/-- An acknowledge of a queue whose next entry is active: the reply is the front's address, and the next read finds the rest of
the queue, the same lines and the same addresses. -/
theorem acknowledge_next {e : VicEntry} {rest : List VicEntry} (h : CoreAt s c (.vic v)) (hq : v.queue = e :: rest)
    (hnext : ∀ a ∈ rest.head?, v.isActive a.line = true) :
    ∃ t u, exec (.vicVectAddrRead c) s = .next t ∧ t.reply = some (.word (v.addressOf e.line)) ∧ CoreAt t c (.vic u) ∧
      u.queue = rest ∧ u.isActive = v.isActive ∧ u.addressOf = v.addressOf := by
  obtain ⟨t, hruns, -⟩ := (vicVectAddrRead_answers c hq).runs h rfl
  have hcore := runs_coreAt h hruns
  obtain ⟨hexec, -, hreply, -⟩ := hruns
  exact ⟨t, _, hexec, hreply, hcore, Vic.purge_queue_of_active (v := v.taking e rest) hnext, rfl, rfl⟩

end

end Sys2Proof.Machine
end

section
/-! The statements about the VIC, settled. -/

namespace Sys2Proof.Proofs

open Sys2Proof.Machine Sys2Proof.Claims

/-- Settles O35: `FIQSTATUS` is not 0 if some bit of it is 1; queue and stack are empty or have a front and a top. -/
theorem vicOutputRules : Obligations.VicOutputRules := fun _ => ⟨Vic.fiqLevel_iff, Vic.irqLevel_iff⟩

/-- Settles O36: an input is a `Change` of the pin state of one line, then `Update`. -/
theorem vicInputStoresPinAndEnqueues : Obligations.VicInputStoresPinAndEnqueues := by
  intro s c v L b h hL
  have hnd : [L].Nodup := List.nodup_singleton L
  have hlt : ∀ K ∈ [L], K < 32 := fun K hK => List.mem_singleton.1 hK ▸ hL
  obtain ⟨hfield, hothers, hparams, hfiq, -⟩ := Vic.foldChange_spec .pinState b [L] v hnd hlt _ rfl
  obtain ⟨t, hruns, houts⟩ := (vicOnGpio_answers c b hL).updates h hparams rfl rfl
  refine ⟨t, _, hruns, fun j _ => ?pin, hothers .softState LineField.noConfusion, hothers .enabled LineField.noConfusion, hfiq,
    Vic.foldChange_sameVectors hnd hlt, Vic.foldChange_queueStep hnd hlt (vicAt_shapeOk h), houts⟩
  have hpin := hfield .pinState j
  simp only [true_and, List.mem_singleton] at hpin
  exact hpin

/-- Settles O37: both registers write the enables of the lines whose bit is 1. -/
theorem vicEnableWrites : Obligations.VicEnableWrites := fun _ _ _ _ h =>
  ⟨Answers.writesEnabled (b := true) ⟨_, fun _ => rfl, rfl⟩ h,
    Answers.writesEnabled (b := false) ⟨_, fun _ => rfl, rfl⟩ h⟩

/-- Settles O38: both registers write the software state of the lines whose bit is 1. -/
theorem vicSoftwareInterruptWrites : Obligations.VicSoftwareInterruptWrites := fun _ _ _ _ h =>
  ⟨Answers.writesSoftState (b := true) ⟨_, fun _ => rfl, rfl⟩ h,
    Answers.writesSoftState (b := false) ⟨_, fun _ => rfl, rfl⟩ h⟩

/-- Settles O39: the two premises are those of the write's two cases. -/
theorem vicClassificationWrite : Obligations.VicClassificationWrite := by
  intro s c v w h
  refine ⟨fun hquiet => ?replaced, fun hlive => ?refused⟩
  case replaced =>
    have hnone : v.reclassifiesLive w = false := by
      rw [← Bool.not_eq_true, Vic.reclassifiesLive_iff]
      rintro ⟨L, hL, hclass, hlive⟩
      obtain ⟨hinactive, hentries⟩ := hquiet L hL hclass
      obtain hactive | ⟨e, he, hline⟩ := hlive
      · exact Bool.false_ne_true (hinactive.symm.trans hactive)
      · exact hentries e he hline
    obtain ⟨t, hruns, houts⟩ := (vicIntSelectWrite_answers c hnone).updates (u := { v with isFiq := w }) h rfl rfl rfl
    exact ⟨t, _, hruns, rfl, rfl, rfl, rfl, ⟨rfl, rfl, rfl, rfl⟩, Vic.purge_frontPurged _, Vic.purge_topPurged _, houts⟩
  case refused =>
    exact (vicIntSelectWrite_answers_refusal c (Vic.reclassifiesLive_iff.2 hlive)).refused (vicAt_coreAt h)

/-- Settles O40: the write sets one element of the list of slots, then `Update`. -/
theorem vicSlotWriteKeepsQueuedKeys : Obligations.VicSlotWriteKeepsQueuedKeys := by
  intro s c v n w h hn
  obtain ⟨hlen, -⟩ := (Vic.shapeOk_iff v).1 (vicAt_shapeOk h)
  have hanswer : Answers (.vicVectCntlWrite c n w) c (.vic v) (.ok ((v.writeVectCntl n w).lift .vic)) :=
    vicGuarded_answers (g := fun x => x.writeVectCntl n w) hn fun _ => rfl
  obtain ⟨t, hruns, houts⟩ :=
    hanswer.updates (u := { v with slots := v.slots.set n (VectSlot.ofWord w) }) h rfl rfl rfl
  refine ⟨t, _, hruns, fun m => ?slot, rfl, rfl, rfl, rfl, rfl, rfl, rfl, Vic.purge_frontPurged _, Vic.purge_topPurged _,
    houts⟩
  rw [← VectSlot.ofWord_eq]
  exact getElem?_set_eq_ite (hlen ▸ hn) m

/-- Settles O41: the queue is empty or has a front, whose line is in a slot or in none. -/
theorem vicAcknowledge : Obligations.VicAcknowledge := by
  intro s c v h
  refine ⟨fun hempty => (vicVectAddrRead_answers_empty c hempty).returns (vicAt_coreAt h), fun e rest hq => ?_⟩
  obtain ⟨t, hruns, houts⟩ := (vicVectAddrRead_answers c hq).updates (u := v.taking e rest) h rfl rfl rfl
  exact ⟨t, _, _, hruns, fun _ => Vic.getElem?_addressOf (vicAt_shapeOk h), Vic.addressOf_unvectored, rfl, rfl, rfl, rfl,
    ⟨rfl, rfl, rfl, rfl⟩, Vic.purge_frontPurged _, Vic.purge_topPurged _, houts⟩

/-- Settles O42: the stack is empty, or its top goes and `Update` follows. -/
theorem vicFinishCurrent : Obligations.VicFinishCurrent := by
  intro s c v w h
  refine ⟨fun hidle => (vicVectAddrWrite_answers_idle c w hidle).onlyDiag (vicAt_coreAt h), fun hbusy => ?_⟩
  obtain ⟨t, hruns, houts⟩ :=
    (vicVectAddrWrite_answers c w hbusy).updates (u := { v with stack := v.stack.dropLast }) h rfl rfl rfl
  exact ⟨t, _, hruns, rfl, rfl, rfl, rfl, ⟨rfl, rfl, rfl, rfl⟩, Vic.purge_frontPurged _, Vic.purge_topPurged _, houts⟩

/-- Settles O43: ascending keys leave one arrangement of the queue, and each read takes its front and leaves the rest. -/
theorem vicServesInOrderOfVectorSlot : Obligations.VicServesInOrderOfVectorSlot := by
  intro s c v L M N a b h hperm _ hM hN hL2 hM5 hNnone ha hb
  have hv := vicAt_shapeOk h
  obtain ⟨-, -, -, -, hsorted⟩ := (Vic.shapeOk_iff v).1 hv
  have hq := queue_eq_of_perm hsorted (by simp) hperm
  obtain ⟨t, v₁, ht, htreply, hv₁, hq₁, hactive₁, haddr₁⟩ := acknowledge_next (vicAt_coreAt h) hq (by simpa using hM)
  obtain ⟨u, v₂, hu, hureply, hv₂, hq₂, -, haddr₂⟩ := acknowledge_next hv₁ hq₁ (by simpa [hactive₁] using hN)
  obtain ⟨z, -, hz, hzreply, -⟩ := acknowledge_next hv₂ hq₂ (by simp)
  rw [haddr₁] at hureply haddr₂
  rw [haddr₂, Vic.addressOf_unvectored hNnone] at hzreply
  have haL : v.addressOf L = a := Option.some.inj ((Vic.getElem?_addressOf hv hL2).symm.trans ha)
  have hbM : v.addressOf M = b := Option.some.inj ((Vic.getElem?_addressOf hv hM5).symm.trans hb)
  exact ⟨t, u, z, ht, haL ▸ htreply, hu, hbM ▸ hureply, hz, hzreply⟩

/-- Settles O44: the operations drive no output. -/
theorem vicAddressWritesOnlyStore : Obligations.VicAddressWritesOnlyStore := by
  intro s c v w h
  have hcore := vicAt_coreAt h
  obtain ⟨-, hlen, -⟩ := (Vic.shapeOk_iff v).1 (vicAt_shapeOk h)
  refine ⟨Answers.onlyStores ⟨_, fun _ => rfl, rfl⟩ hcore, fun n hn => ?_⟩
  have hanswer : Answers (.vicVectAddrNWrite c n w) c (.vic v) (.ok ((v.writeVectAddrN n w).lift .vic)) :=
    vicGuarded_answers (g := fun x => x.writeVectAddrN n w) hn fun _ => rfl
  exact ⟨_, hanswer.onlyStores hcore, rfl, getElem?_set_eq_ite (hlen ▸ hn)⟩

/-- Settles O45: every row only reads; the three status words are made bit by bit. -/
theorem vicPlainReads : Obligations.VicPlainReads := by
  intro s c v h
  obtain ⟨hslots, haddrs, -⟩ := (Vic.shapeOk_iff v).1 (vicAt_shapeOk h)
  refine ⟨⟨v.irqStatus, vicRead_returns h (fun _ => rfl) rfl, fun L hL => ?irq⟩,
    ⟨v.fiqStatus, vicRead_returns h (fun _ => rfl) rfl, fun L hL => ?fiq⟩,
    ⟨v.rawIntr, vicRead_returns h (fun _ => rfl) rfl, fun L hL => ?raw⟩,
    vicRead_returns h (fun _ => rfl) rfl, vicRead_returns h (fun _ => rfl) rfl, vicRead_returns h (fun _ => rfl) rfl,
    vicRead_returns h (fun _ => rfl) rfl, vicRead_returns h (fun _ => rfl) rfl, vicRead_returns h (fun _ => rfl) rfl,
    fun n a ha => ?address, fun n x hx => ?slot⟩
  case irq => rw [Vic.irqStatus, BitVec.getLsbD_and, BitVec.getLsbD_not, decide_eq_true hL, Bool.true_and, Vic.isActive]
  case fiq => rw [Vic.fiqStatus, BitVec.getLsbD_and, Vic.isActive]
  case raw => rw [Vic.rawIntr, BitVec.getLsbD_or]
  case address =>
    obtain ⟨hn, -⟩ := List.getElem?_eq_some_iff.1 ha
    have hanswer := vicGuarded_answers (i := .vicVectAddrNRead c n) (v := v) (g := fun y => Eff.read y (y.addrs.getD n 0))
      (haddrs ▸ hn) fun _ => rfl
    rw [List.getD_eq_getElem?_getD, ha, Option.getD_some] at hanswer
    exact hanswer.returns (vicAt_coreAt h)
  case slot =>
    obtain ⟨hn, -⟩ := List.getElem?_eq_some_iff.1 hx
    have hanswer := vicGuarded_answers (i := .vicVectCntlRead c n) (v := v)
      (g := fun y => Eff.read y (y.slots.getD n (VectSlot.ofWord 0)).toWord) (hslots ▸ hn) fun _ => rfl
    rw [List.getD_eq_getElem?_getD, hx, Option.getD_some, VectSlot.toWord_eq] at hanswer
    exact hanswer.returns (vicAt_coreAt h)

/-- Settles O59: no line has the number, so the operation only reports. -/
theorem vicInputOutOfRangeOnlyReports : Obligations.VicInputOutOfRangeOnlyReports :=
  fun _ c _ _ b h hn => (vicOnGpioOutOfRange_answers c b hn).onlyDiag (vicAt_coreAt h)

end Sys2Proof.Proofs
end

section
/-! The cases of the EXTI's operations, an equation per case, and their registers bit by bit (43_exti.md R253 to R259). -/

namespace Sys2Proof.Machine

/-! ## Edges and pass-through -/

@[simp] theorem Exti.triggers_rise (e : Exti) (L : Nat) : e.triggers L true = e.rtsr.getLsbD L := by
  simp [Exti.triggers]

@[simp] theorem Exti.triggers_fall (e : Exti) (L : Nat) : e.triggers L false = e.ftsr.getLsbD L := by
  simp [Exti.triggers]

/-- The state of an EXTI with line `L` made pending (43_exti.md R254). -/
def Exti.pend (e : Exti) (L : Nat) : Exti := { e with pr := putBit e.pr L true }

theorem Exti.pend_bit (e : Exti) {L : Nat} (h : L < 32) (j : Nat) :
    (e.pend L).pr.getLsbD j = (decide (j = L) || e.pr.getLsbD j) := by
  rw [Exti.pend, putBit_bit h]
  by_cases hj : j = L <;> simp [hj]

theorem Exti.pend_pending (e : Exti) {L : Nat} (h : L < 32) : (e.pend L).pr.getLsbD L = true := by
  rw [e.pend_bit h, decide_eq_true rfl, Bool.true_or]

theorem Exti.onConfigurable_propagates {e : Exti} {L : Nat} {v : Bool} (hmask : e.imr.getLsbD L = true)
    (htrig : e.triggers L v = true) : e.onConfigurable L v = Eff.change (e.pend L) [(L, true)] := by
  rw [Exti.onConfigurable, hmask, htrig]
  rfl

theorem Exti.onConfigurable_ignores {e : Exti} {L : Nat} {v : Bool}
    (h : e.imr.getLsbD L = false ∨ e.triggers L v = false) : e.onConfigurable L v = Eff.nothing e := by
  rw [Exti.onConfigurable, if_neg]
  rw [Bool.not_eq_true, Bool.and_eq_false_iff]
  exact h

theorem Exti.onDirect_passes {e : Exti} {L : Nat} (v : Bool)
    (h : e.params.directIgnoresMask = true ∨ e.imr.getLsbD L = true) : e.onDirect L v = Eff.change e [(L, v)] := by
  rw [Exti.onDirect, if_pos (Bool.or_eq_true_iff.2 h)]

theorem Exti.onDirect_masked {e : Exti} {L : Nat} (v : Bool) (hobeys : e.params.directIgnoresMask = false)
    (hmask : e.imr.getLsbD L = false) : e.onDirect L v = Eff.nothing e := by
  rw [Exti.onDirect, hobeys, hmask]
  rfl

/-! ## The class of a line -/

section
variable {q : ExtiParams} {L : Nat} (hL : L < q.numLines)
include hL

theorem extiClass_of_configurable (h : q.configurableMask.getLsbD L = true) : extiClass q L = .configurable := by
  rw [extiClass_line hL, if_pos h]

theorem extiClass_of_direct (h : q.configurableMask.getLsbD L = false) (hdirect : q.treatNonconfigAsDirect = true) :
    extiClass q L = .direct := by
  rw [extiClass_line hL, h, hdirect]
  rfl

theorem extiClass_of_dropped (h : q.configurableMask.getLsbD L = false) (hdirect : q.treatNonconfigAsDirect = false) :
    extiClass q L = .dropped := by
  rw [extiClass_line hL, h, hdirect]
  rfl

end

/-- Only lines that exist are configurable (00_scope.md R12). -/
theorem Exti.lt_numLines_of_configurable {e : Exti} {L : Nat} (hv : (CtrlParams.exti e.params).valid = true)
    (h : e.params.configurableMask.getLsbD L = true) : L < e.params.numLines := by
  obtain ⟨-, hle, -⟩ := ExtiParams.numLines_le hv
  have hbit := (Exti.configMask_bit hv L).trans h
  rw [Exti.configMask, BitVec.getLsbD_and, Exti.lineMask_bit hle, Bool.and_eq_true, decide_eq_true_eq] at hbit
  exact hbit.2

/-! ## Register writes -/

/-- A register with no reserved bit set holds after a write the written bits of its fields, and no others (30_encoding.md
R102). -/
theorem writeField_write_bit {mask stored : Word} (w : Word) {i : Nat}
    (h : stored.getLsbD i = true → mask.getLsbD i = true) :
    (writeField .write mask stored w).getLsbD i = (w.getLsbD i && mask.getLsbD i) := by
  rw [writeField_bit]
  cases hm : mask.getLsbD i with
  | true => simp [AccessMode.after]
  | false =>
    have hreserved : stored.getLsbD i = false := by
      rw [← Bool.not_eq_true]
      exact fun hs => Bool.false_ne_true (hm.symm.trans (h hs))
    simp [hreserved]

theorem Exti.writePr_bit {e : Exti} (hv : (CtrlParams.exti e.params).valid = true) (w : Word) {i : Nat} (hi : i < 32) :
    (e.writePr w).core.pr.getLsbD i = (e.pr.getLsbD i && !(w.getLsbD i && e.params.configurableMask.getLsbD i)) := by
  rw [Exti.writePr, Eff.change_core, writeField_bit, Exti.configMask_bit hv]
  cases e.params.configurableMask.getLsbD i <;> simp [AccessMode.after, hi]

theorem Exti.writeSwier_bit {e : Exti} (hv : (CtrlParams.exti e.params).valid = true) (w : Word) (i : Nat) :
    (e.writeSwier w).core.pr.getLsbD i =
      (e.pr.getLsbD i || (w.getLsbD i && e.params.configurableMask.getLsbD i && e.imr.getLsbD i)) := by
  rw [Exti.writeSwier, Eff.change_core, BitVec.getLsbD_or, Exti.forced_bit hv]

end Sys2Proof.Machine
end

section
/-! What the instructions of the EXTI answer, and what the platform looks like after them (43_exti.md R252 to R261). -/

namespace Sys2Proof.Machine

open Sys2Proof.Claims

/-! ## Effects of any controller -/

section
variable {s : State} {c : Nat} {k : Core} {i : Instr} {e : Eff Core}

/-- An operation that does nothing at all. -/
theorem Answers.nothing (hi : Answers i c k (.ok (Eff.nothing k))) (h : CoreAt s c k) : Returns i s none := by
  obtain ⟨f, hexec, hf⟩ := hi
  obtain ⟨hs, x, hx, rfl⟩ := coreAt_iff.1 h
  exact (hexec s).trans (event_same (s.sound_acyclic hs) hx hf rfl rfl rfl)

/-- `Answers.runs`, and of the outputs not driven that they keep their levels. -/
theorem Answers.runs_outsKept (hi : Answers i c k (.ok e)) (h : CoreAt s c k) (hp : e.core.params = k.params) :
    ∃ t, Runs i s t c e.core e.diags e.reply ∧
      (∀ j l b, s.line? (.out c j) = some l → lastDrive e.drives j = some b → t.outIs c j b) ∧
      OutsKept s t c (fun j => lastDrive e.drives j = none) := by
  obtain ⟨t, hruns, houts⟩ := hi.runs h hp
  obtain ⟨f, hexec, hf⟩ := hi
  obtain ⟨hs, x, hx, rfl⟩ := coreAt_iff.1 h
  obtain ⟨t', ht', -, -, hkept⟩ := event_after hs hx hf hp
  obtain rfl : t' = t := Host.Outcome.next.inj (ht'.symm.trans ((hexec s).symm.trans hruns.1))
  exact ⟨t', hruns, houts, hkept⟩

/-- An output whose level is known is there. -/
theorem State.outIs.line {j : Nat} {b : Bool} (h : s.outIs c j b) : ∃ l, s.line? (.out c j) = some l := by
  obtain ⟨l, hl, -⟩ := Option.map_eq_some_iff.1 h
  exact ⟨l, hl⟩

end

/-! ## Effects of an EXTI -/

section
variable {s : State} {c : Nat} {e e' : Exti} {i : Instr} {b : Bool}

theorem extiAt_coreAt (h : ExtiAt s c e) : CoreAt s c (.exti e) := by
  obtain ⟨hs, x, hx, hcore, -⟩ := h
  exact coreAt_iff.2 ⟨hs, x, hx, hcore⟩

theorem extiAt_shape (h : ExtiAt s c e) : (CtrlParams.exti e.params).valid = true ∧ e.shapeOk = true := by
  obtain ⟨-, x, -, hcore, hshape⟩ := h
  simp only [Ctrl.shapeOk, hcore, Bool.and_eq_true] at hshape
  obtain ⟨hstate, -⟩ := hshape
  exact hstate

/-- Every line of an EXTI has its output (10_state.md R52). -/
theorem extiAt_output (h : ExtiAt s c e) {j : Nat} (hj : j < e.params.numLines) : ∃ l, s.line? (.out c j) = some l := by
  obtain ⟨-, x, hx, hcore, hshape⟩ := h
  simp only [Ctrl.shapeOk, hcore, Bool.and_eq_true, decide_eq_true_eq] at hshape
  obtain ⟨-, houts⟩ := hshape
  have hlen : j < x.outs.length := houts ▸ hj
  exact ⟨x.outs[j], by rw [State.line?, hx, Option.bind_some, List.getElem?_eq_getElem hlen]⟩

/-- An operation that drives one output. -/
theorem Answers.drivesLine {L : Nat} (hi : Answers i c (.exti e) (.ok ((Eff.change e' [(L, b)]).lift .exti)))
    (h : CoreAt s c (.exti e)) (hl : ∃ l, s.line? (.out c L) = some l) (hp : e'.params = e.params) :
    ∃ t, Runs i s t c (.exti e') [] none ∧ t.outIs c L b ∧ OutsKept s t c (fun j => j ≠ L) := by
  obtain ⟨t, hruns, houts, hkept⟩ := hi.runs_outsKept h (congrArg CtrlParams.exti hp)
  obtain ⟨l, hl⟩ := hl
  refine ⟨t, hruns, houts L l b hl ?_, fun j hj => hkept j ?_⟩
  · simp [lastDrive]
  · simp [lastDrive, Ne.symm hj]

/-- An operation that drives the outputs of the bits of a word. -/
theorem Answers.drivesBits {m : Word}
    (hi : Answers i c (.exti e) (.ok ((Eff.change e' ((bitsOf m).map (fun L => (L, b)))).lift .exti)))
    (h : CoreAt s c (.exti e)) (hp : e'.params = e.params) :
    ∃ t, Runs i s t c (.exti e') [] none ∧
      (∀ L, m.getLsbD L = true → (∃ l, s.line? (.out c L) = some l) → t.outIs c L b) ∧
      OutsKept s t c (fun L => m.getLsbD L = false) := by
  obtain ⟨t, hruns, houts, hkept⟩ := hi.runs_outsKept h (congrArg CtrlParams.exti hp)
  simp only [Eff.lift_drives, Eff.change_drives, lastDrive_bitsOf] at houts hkept
  refine ⟨t, hruns, fun L hL ⟨l, hl⟩ => houts L l b hl (if_pos hL), fun L hL => hkept L (if_neg ?_)⟩
  exact Bool.eq_false_iff.1 hL

end

/-! ## Inputs -/

section
variable {s : State} {c : Nat} {e : Exti} {L : Nat}

/-- A row of `OnGPIO`: the number is of the row's class. -/
theorem extiOnGpio_answers {i : Instr} {n : Int} {v : Bool} {cls : ExtiClass} {eff : Eff Exti}
    (hexec : ∀ s, exec i s = ctrlEvent s c (onExti (fun x =>
      if extiClass x.params n = cls then x.onGpio n v else .error .illFormed)))
    (hclass : extiClass e.params n = cls) (heff : e.onGpio n v = .ok eff) :
    Answers i c (.exti e) (.ok (eff.lift .exti)) := by
  refine ⟨_, hexec, ?_⟩
  simp only [onExti, if_pos hclass, heff]
  rfl

/-- A row of `OnGPIO` on a number that is no line, or on a dropped one (43_exti.md R252, R256). -/
theorem extiOnGpio_onlyDiag {i : Instr} {n : Int} {v : Bool} {cls : ExtiClass} (h : ExtiAt s c e)
    (hexec : ∀ s, exec i s = ctrlEvent s c (onExti (fun x =>
      if extiClass x.params n = cls then x.onGpio n v else .error .illFormed)))
    (hclass : extiClass e.params n = cls) (hnone : cls = .dropped ∨ cls = .outOfRange) :
    OnlyDiag i s c .error .gpioOutOfRange (.num n) none := by
  have heff : e.onGpio n v = .ok (Eff.raise e .gpioOutOfRange (.num n)) := by
    rw [Exti.onGpio, hclass]
    obtain rfl | rfl := hnone <;> rfl
  exact Answers.onlyDiag (extiOnGpio_answers hexec hclass heff) (extiAt_coreAt h)

theorem extiOnGpioConfigurable_answers (c : Nat) (v : Bool) (hL : L < e.params.numLines)
    (hconf : e.params.configurableMask.getLsbD L = true) :
    Answers (.extiOnGpioConfigurable c L v) c (.exti e) (.ok ((e.onConfigurable L v).lift .exti)) := by
  have hclass := extiClass_of_configurable hL hconf
  refine extiOnGpio_answers (fun _ => rfl) hclass ?_
  simp only [Exti.onGpio, hclass, Int.toNat_natCast]

theorem extiOnGpioDirect_answers (c : Nat) (v : Bool) (hL : L < e.params.numLines)
    (hconf : e.params.configurableMask.getLsbD L = false) (hdirect : e.params.treatNonconfigAsDirect = true) :
    Answers (.extiOnGpioDirect c L v) c (.exti e) (.ok ((e.onDirect L v).lift .exti)) := by
  have hclass := extiClass_of_direct hL hconf hdirect
  refine extiOnGpio_answers (fun _ => rfl) hclass ?_
  simp only [Exti.onGpio, hclass, Int.toNat_natCast]

section
variable {v : Bool} (h : CoreAt s c (.exti e)) (hL : L < e.params.numLines)
  (hconf : e.params.configurableMask.getLsbD L = true)
include h hL hconf

/-- A propagating edge on an unmasked configurable line latches and asserts (43_exti.md R254). -/
theorem extiOnGpioConfigurable_pends (hl : ∃ l, s.line? (.out c L) = some l) (hmask : e.imr.getLsbD L = true)
    (htrig : e.triggers L v = true) :
    ∃ t, Runs (.extiOnGpioConfigurable c L v) s t c (.exti (e.pend L)) [] none ∧ t.outIs c L true ∧
      OutsKept s t c (fun j => j ≠ L) := by
  have hanswer := extiOnGpioConfigurable_answers c v hL hconf
  rw [Exti.onConfigurable_propagates hmask htrig] at hanswer
  exact hanswer.drivesLine h hl rfl

/-- Any other event on a configurable line does nothing at all (43_exti.md R254). -/
theorem extiOnGpioConfigurable_ignored (hquiet : e.imr.getLsbD L = false ∨ e.triggers L v = false) :
    Returns (.extiOnGpioConfigurable c L v) s none := by
  have hanswer := extiOnGpioConfigurable_answers c v hL hconf
  rw [Exti.onConfigurable_ignores hquiet] at hanswer
  exact Answers.nothing hanswer h

end

/-- Line `L` is configurable, its mask bit is set, and it is configured for the rising edge only (43_exti.md R261). -/
def Exti.RisingOnly (e : Exti) (L : Nat) : Prop :=
  L < e.params.numLines ∧ e.params.configurableMask.getLsbD L = true ∧ e.imr.getLsbD L = true ∧
    e.rtsr.getLsbD L = true ∧ e.ftsr.getLsbD L = false

theorem Exti.RisingOnly.rises (hline : e.RisingOnly L) (h : CoreAt s c (.exti e)) (hl : ∃ l, s.line? (.out c L) = some l) :
    ∃ t, exec (.extiOnGpioConfigurable c L true) s = .next t ∧ CoreAt t c (.exti (e.pend L)) ∧ t.outIs c L true := by
  obtain ⟨hL, hconf, hmask, hrise, -⟩ := hline
  obtain ⟨t, hruns, hout, -⟩ := extiOnGpioConfigurable_pends h hL hconf hl hmask ((e.triggers_rise L).trans hrise)
  exact ⟨t, hruns.1, runs_coreAt h hruns, hout⟩

theorem Exti.RisingOnly.falls (hline : e.RisingOnly L) (h : CoreAt s c (.exti e)) :
    Returns (.extiOnGpioConfigurable c L false) s none := by
  obtain ⟨hL, hconf, -, -, hfall⟩ := hline
  exact extiOnGpioConfigurable_ignored h hL hconf (.inr ((e.triggers_fall L).trans hfall))

/-! ## Writes -/

/-- The outputs a `PR` write lowers are those of the configurable lines whose bit is 1 (43_exti.md R259). -/
theorem extiPrWrite_clears (h : CoreAt s c (.exti e)) (hv : (CtrlParams.exti e.params).valid = true) (w : Word) :
    ∃ t, Runs (.extiPrWrite c w) s t c (.exti (e.writePr w).core) [] none ∧
      (∀ j, (w.getLsbD j && e.params.configurableMask.getLsbD j) = true → (∃ l, s.line? (.out c j) = some l) →
        t.outIs c j false) ∧
      OutsKept s t c (fun j => (w.getLsbD j && e.params.configurableMask.getLsbD j) = false) := by
  have hanswer : Answers (.extiPrWrite c w) c (.exti e) (.ok ((e.writePr w).lift .exti)) := ⟨_, fun _ => rfl, rfl⟩
  obtain ⟨t, hruns, houts, hkept⟩ := Answers.drivesBits hanswer h rfl
  simp only [BitVec.getLsbD_and, Exti.configMask_bit hv] at houts hkept
  exact ⟨t, hruns, houts, hkept⟩

/-- The outputs a `SWIER` write raises are those of the lines it force-pends (43_exti.md R258). -/
theorem extiSwierWrite_pends (h : CoreAt s c (.exti e)) (hv : (CtrlParams.exti e.params).valid = true) (w : Word) :
    ∃ t, Runs (.extiSwierWrite c w) s t c (.exti (e.writeSwier w).core) [] none ∧
      (∀ j, (w.getLsbD j && e.params.configurableMask.getLsbD j && e.imr.getLsbD j) = true →
        (∃ l, s.line? (.out c j) = some l) → t.outIs c j true) ∧
      OutsKept s t c (fun j => (w.getLsbD j && e.params.configurableMask.getLsbD j && e.imr.getLsbD j) = false) := by
  have hanswer : Answers (.extiSwierWrite c w) c (.exti e) (.ok ((e.writeSwier w).lift .exti)) := ⟨_, fun _ => rfl, rfl⟩
  obtain ⟨t, hruns, houts, hkept⟩ := Answers.drivesBits hanswer h rfl
  simp only [Exti.forced_bit hv] at houts hkept
  exact ⟨t, hruns, houts, hkept⟩

end

end Sys2Proof.Machine
end

section
/-! The statements about the EXTI, settled. -/

namespace Sys2Proof.Proofs

open Sys2Proof.Machine Sys2Proof.Claims

/-- Settles O46: the edge triggers by `RTSR` if it rises, by `FTSR` if it falls. -/
theorem extiConfigurableLine : Obligations.ExtiConfigurableLine := by
  intro s c e L v h hL hconf
  have hcore := extiAt_coreAt h
  refine ⟨fun hmask hedge => ?propagates, fun hquiet => ?ignored⟩
  case propagates =>
    have htrig : e.triggers L v = true := by
      obtain ⟨rfl, hrise⟩ | ⟨rfl, hfall⟩ := hedge
      · rwa [Exti.triggers_rise]
      · rwa [Exti.triggers_fall]
    obtain ⟨hv, -⟩ := extiAt_shape h
    obtain ⟨-, hle, -⟩ := ExtiParams.numLines_le hv
    obtain ⟨t, hruns, hout, hkept⟩ :=
      extiOnGpioConfigurable_pends hcore hL hconf (extiAt_output h hL) hmask htrig
    exact ⟨t, _, hruns, rfl, fun j _ => e.pend_bit (by omega) j, hout, hkept⟩
  case ignored =>
    refine extiOnGpioConfigurable_ignored hcore hL hconf (hquiet.imp_right fun hedge => ?_)
    obtain ⟨rfl, hrise⟩ | ⟨rfl, hfall⟩ := hedge
    · rwa [Exti.triggers_rise]
    · rwa [Exti.triggers_fall]

/-- Settles O47: neither pending nor clearing a line changes its mask or its trigger configuration, on which the next edge
depends. -/
theorem extiEdgeMasking : Obligations.ExtiEdgeMasking := by
  intro s c e L w h hL hconf hmask hrise hfall hw
  obtain ⟨hv, -⟩ := extiAt_shape h
  obtain ⟨-, hle, -⟩ := ExtiParams.numLines_le hv
  have hL32 : L < 32 := by omega
  have hline : e.RisingOnly L := ⟨hL, hconf, hmask, hrise, hfall⟩
  obtain ⟨t, hset, ht, hhigh⟩ := hline.rises (extiAt_coreAt h) (extiAt_output h hL)
  have hlinet : (e.pend L).RisingOnly L := hline
  obtain ⟨u, hclear, houts, -⟩ := extiPrWrite_clears ht hv w
  have hu := runs_coreAt ht hclear
  have hlow := houts L (Bool.and_eq_true_iff.2 ⟨hw, hconf⟩) hhigh.line
  have hlineu : ((e.pend L).writePr w).core.RisingOnly L := hline
  obtain ⟨z, hagain, hz, hhighz⟩ := hlineu.rises hu hlow.line
  refine ⟨t, _, hset, ht.2, e.pend_pending hL32, hhigh, hlinet.falls ht, u, _, hclear.1, hu.2, ?cleared, hlow,
    hlineu.falls hu, z, _, hagain, hz.2, Exti.pend_pending _ hL32, hhighz⟩
  have hbit := Exti.writePr_bit (e := e.pend L) hv w hL32
  rwa [hw, show (e.pend L).params.configurableMask.getLsbD L = true from hconf, Bool.and_self, Bool.not_true,
    Bool.and_false] at hbit

/-- Settles O48: the mask lets the event through, or it is ignored (D62). -/
theorem extiDirectLine : Obligations.ExtiDirectLine := by
  intro s c e L v h hL hconf hdirect
  have hanswer := extiOnGpioDirect_answers c v hL hconf hdirect
  refine ⟨fun hpass => ?passes, fun hobeys hmask => ?masked⟩
  case passes =>
    rw [Exti.onDirect_passes v hpass] at hanswer
    exact hanswer.drivesLine (extiAt_coreAt h) (extiAt_output h hL) rfl
  case masked =>
    rw [Exti.onDirect_masked v hobeys hmask] at hanswer
    exact Answers.nothing hanswer (extiAt_coreAt h)

/-- Settles O49: in both classes the operation only reports. -/
theorem extiDroppedAndOutOfRange : Obligations.ExtiDroppedAndOutOfRange := fun _ _ _ _ h =>
  ⟨fun _ hn => extiOnGpio_onlyDiag h (fun _ => rfl) (extiClass_outOfRange hn) (.inr rfl),
    fun _ hL hconf hdirect => extiOnGpio_onlyDiag h (fun _ => rfl) (extiClass_of_dropped hL hconf hdirect) (.inl rfl)⟩

/-- Settles O50: the operations drive no output, and no register has a reserved bit set before the write. -/
theorem extiMaskAndTriggerWrites : Obligations.ExtiMaskAndTriggerWrites := by
  intro s c e w h
  have hcore := extiAt_coreAt h
  obtain ⟨hv, hshape⟩ := extiAt_shape h
  obtain ⟨-, hle, -⟩ := ExtiParams.numLines_le hv
  obtain ⟨himr, hrtsr, hftsr, -⟩ := (Exti.shapeOk_iff e).1 hshape
  refine ⟨⟨(e.writeImr w).core, Answers.onlyStores ⟨_, fun _ => rfl, rfl⟩ hcore, rfl, fun L hL => ?imr⟩,
    ⟨(e.writeRtsr w).core, Answers.onlyStores ⟨_, fun _ => rfl, rfl⟩ hcore, rfl, fun L hL => ?rtsr⟩,
    (e.writeFtsr w).core, Answers.onlyStores ⟨_, fun _ => rfl, rfl⟩ hcore, rfl, fun L hL => ?ftsr⟩
  case imr => exact (writeField_write_bit w (himr L hL)).trans (by rw [Exti.lineMask_bit hle])
  case rtsr => exact (writeField_write_bit w (hrtsr L hL)).trans (by rw [Exti.configMask_bit hv])
  case ftsr => exact (writeField_write_bit w (hftsr L hL)).trans (by rw [Exti.configMask_bit hv])

/-- Settles O51: the lines named are the bits of `Exti.forced`, which exist because they are configurable. -/
theorem extiSoftwareInterrupt : Obligations.ExtiSoftwareInterrupt := by
  intro s c e w h
  obtain ⟨hv, -⟩ := extiAt_shape h
  obtain ⟨t, hruns, houts, hkept⟩ := extiSwierWrite_pends (extiAt_coreAt h) hv w
  refine ⟨t, _, hruns, rfl, fun L _ => Exti.writeSwier_bit hv w L, fun L _ hw hconf hmask => houts L ?_ ?_, hkept⟩
  · rw [hw, hconf, hmask]
    rfl
  · exact extiAt_output h (Exti.lt_numLines_of_configurable hv hconf)

/-- Settles O52: the operation looks at neither the input nor the mask. -/
theorem extiPendingClear : Obligations.ExtiPendingClear := by
  intro s c e w h
  obtain ⟨hv, -⟩ := extiAt_shape h
  obtain ⟨t, hruns, houts, hkept⟩ := extiPrWrite_clears (extiAt_coreAt h) hv w
  refine ⟨t, _, hruns, rfl, fun L hL => Exti.writePr_bit hv w hL, fun L _ hw hconf => houts L ?_ ?_, hkept⟩
  · rw [hw, hconf]
    rfl
  · exact extiAt_output h (Exti.lt_numLines_of_configurable hv hconf)

/-- Settles O53: every row only reads. -/
theorem extiPlainReads : Obligations.ExtiPlainReads := by
  intro s c e h
  have hcore := extiAt_coreAt h
  exact ⟨Answers.returns ⟨_, fun _ => rfl, rfl⟩ hcore, Answers.returns ⟨_, fun _ => rfl, rfl⟩ hcore,
    Answers.returns ⟨_, fun _ => rfl, rfl⟩ hcore, Answers.returns ⟨_, fun _ => rfl, rfl⟩ hcore,
    Answers.returns ⟨_, fun _ => rfl, rfl⟩ hcore⟩

end Sys2Proof.Proofs
end

section
/-! The derived values of an INTMUX channel bit by bit: `IPR`, the output in each mode, `VEC`, and the word read from `CSR`
(44_intmux.md R293, R297, R298). -/

namespace Sys2Proof.Machine

/-- A word keeps all its bits under a mask that has them. -/
theorem and_eq_left_iff_bits {a b : Word} : a &&& b = a ↔ ∀ i < 32, a.getLsbD i = true → b.getLsbD i = true := by
  constructor
  · intro h i _ ha
    rw [← h, BitVec.getLsbD_and, Bool.and_eq_true] at ha
    exact ha.2
  · intro h
    apply BitVec.eq_of_getLsbD_eq
    intro i hi
    rw [BitVec.getLsbD_and]
    exact Bool.and_eq_left_iff_imp.2 (h i hi)

section
variable {m : Mux} {ch : Nat} {x : MuxChan} (h : m.chans[ch]? = some x)
include h

theorem Mux.ipr_eq : m.ipr ch = x.ier &&& m.inputs := by rw [Mux.ipr, Mux.chan_eq h]

theorem Mux.ipr_bit (i : Nat) : (m.ipr ch).getLsbD i = (x.ier.getLsbD i && m.inputs.getLsbD i) := by
  rw [Mux.ipr_eq h, BitVec.getLsbD_and]

/-- In OR mode some enabled source is high (44_intmux.md R293). -/
theorem Mux.eval_or_iff (hmode : x.andMode = false) :
    m.eval ch = true ↔ ∃ i < 32, x.ier.getLsbD i = true ∧ m.inputs.getLsbD i = true := by
  rw [Mux.eval, Mux.chan_eq h, hmode, if_neg Bool.false_ne_true, bne_iff_ne, word_ne_zero_iff]
  simp only [Mux.ipr_bit h, Bool.and_eq_true]

/-- In AND mode some source is enabled and every enabled one is high (44_intmux.md R293; D72). -/
theorem Mux.eval_and_iff (hmode : x.andMode = true) :
    m.eval ch = true ↔ (∃ i < 32, x.ier.getLsbD i = true) ∧
      ∀ i < 32, x.ier.getLsbD i = true → m.inputs.getLsbD i = true := by
  rw [Mux.eval, Mux.chan_eq h, if_pos hmode, Bool.and_eq_true, bne_iff_ne, word_ne_zero_iff, beq_iff_eq, Mux.ipr_eq h,
    and_eq_left_iff_bits]

/-- `AND` at bit 1, `IRQP` at bit 31 (30_encoding.md R129). -/
theorem Mux.csrWord_bit (i : Nat) :
    (m.csrWord ch).getLsbD i = (decide (i = 1) && x.andMode || decide (i = 31) && m.eval ch) := by
  rw [Mux.csrWord, Mux.chan_eq h, putBit_bit (by decide), putBit_bit (by decide)]
  obtain rfl | rfl | ⟨hmode, hirqp⟩ : i = 1 ∨ i = 31 ∨ i ≠ 1 ∧ i ≠ 31 := by omega
  · simp
  · simp
  · simp [hmode, hirqp]

end

theorem Mux.vec_of_none_pending {m : Mux} {ch : Nat} (h : m.ipr ch = 0) : m.vec ch = 0 := by
  rw [Mux.vec, h, lowestSetBit_zero]
  rfl

/-- An index of a word's bit fits into a word. -/
theorem Mux.vec_toNat {m : Mux} {ch : Nat} (h : m.ipr ch ≠ 0) : (m.vec ch).toNat = lowestSetBit (m.ipr ch) := by
  obtain ⟨hlt, -⟩ := lowestSetBit_spec h
  rw [Mux.vec, BitVec.toNat_ofNat, Nat.mod_eq_of_lt (by omega)]

end Sys2Proof.Machine
end

section
/-! What an instruction on an INTMUX does, read off the effect of its operation: the platform after a row that reads, that only
reports, that re-evaluates every channel, or that writes one channel (44_intmux.md R291 to R297). -/

namespace Sys2Proof.Machine

open Sys2Proof.Claims

section
variable {s : State} {c : Nat} {m m' : Mux} {i : Instr} {f : Mux → Except Refusal (Eff Mux)}

/-! ## The state of an INTMUX -/

theorem muxAt_coreAt (h : MuxAt s c m) : CoreAt s c (.intmux m) := by
  obtain ⟨hs, x, hx, hcore, -⟩ := h
  exact coreAt_iff.2 ⟨hs, x, hx, hcore⟩

theorem muxAt_shape (h : MuxAt s c m) : (CtrlParams.intmux m.params).valid = true ∧ m.shapeOk = true := by
  obtain ⟨-, x, -, hcore, hshape⟩ := h
  simp only [Ctrl.shapeOk, hcore, Bool.and_eq_true] at hshape
  obtain ⟨hstate, -⟩ := hshape
  exact hstate

theorem muxAt_sources_le (h : MuxAt s c m) : m.params.muxSources ≤ 32 := by
  obtain ⟨hvalid, -⟩ := muxAt_shape h
  obtain ⟨-, hle, -⟩ := MuxParams.muxSources_le hvalid
  exact hle

/-- What is listed as a channel is one of the `NUM_CHANNELS` (10_state.md R59). -/
theorem muxAt_channel_lt (h : MuxAt s c m) {ch : Nat} {x : MuxChan} (hx : m.chans[ch]? = some x) :
    ch < m.params.numChannels := by
  obtain ⟨-, hshape⟩ := muxAt_shape h
  obtain ⟨hlen, -⟩ := (Mux.shapeOk_iff m).1 hshape
  obtain ⟨hlt, -⟩ := List.getElem?_eq_some_iff.1 hx
  exact hlen ▸ hlt

/-- Every channel has its output (10_state.md R61). -/
theorem muxAt_output (h : MuxAt s c m) {j : Nat} (hj : j < m.params.numChannels) : ∃ l, s.line? (.out c j) = some l := by
  obtain ⟨-, x, hx, hcore, hshape⟩ := h
  simp only [Ctrl.shapeOk, hcore, Bool.and_eq_true, decide_eq_true_eq] at hshape
  obtain ⟨-, houts⟩ := hshape
  have hlen : j < x.outs.length := houts ▸ hj
  exact ⟨x.outs[j], by rw [State.line?, hx, Option.bind_some, List.getElem?_eq_getElem hlen]⟩

/-! ## Effects of an INTMUX -/

theorem muxRow_answers {e : Eff Mux} (hexec : ∀ s, exec i s = ctrlEvent s c (onMux f)) (hf : f m = .ok e) :
    Answers i c (.intmux m) (.ok (e.lift .intmux)) :=
  ⟨onMux f, hexec, by rw [onMux, hf]; rfl⟩

/-- An operation that ends in `ReEvaluateAll` leaves every output at the level of `MuxEval` (44_intmux.md R293). -/
theorem muxRow_reEvaluates (h : MuxAt s c m) (hexec : ∀ s, exec i s = ctrlEvent s c (onMux f))
    (hf : f m = .ok m'.reEvaluate) (hp : m'.params = m.params) :
    ∃ t, Runs i s t c (.intmux m') [] none ∧ MuxOuts t c m' := by
  obtain ⟨t, hruns, houts⟩ := (muxRow_answers hexec hf).runs (muxAt_coreAt h) (congrArg CtrlParams.intmux hp)
  refine ⟨t, hruns, fun j hj => ?_⟩
  obtain ⟨l, hl⟩ := muxAt_output h (hp ▸ hj)
  refine houts j l _ hl ?_
  rw [Eff.lift_drives, Mux.reEvaluate_drives, lastDrive_mux, if_pos hj]

/-- A write of one channel's register replaces that channel and re-evaluates them all (44_intmux.md R294 to R296). -/
theorem muxRow_setsChannel (h : MuxAt s c m) {ch : Nat} {x : MuxChan} (hx : m.chans[ch]? = some x)
    (g : MuxChan → MuxChan) (hexec : ∀ s, exec i s = ctrlEvent s c (onMux f))
    (hf : f m = .ok (m.modChan ch g).reEvaluate) :
    ∃ t, Runs i s t c (.intmux { m with chans := m.chans.set ch (g x) }) [] none ∧
      MuxOuts t c { m with chans := m.chans.set ch (g x) } := by
  rw [Mux.modChan_eq hx] at hf
  exact muxRow_reEvaluates h hexec hf rfl

/-- A read without side effect (20_memory.md R77). -/
theorem muxRow_returns {r : Word} (h : MuxAt s c m) (hexec : ∀ s, exec i s = ctrlEvent s c (onMux f))
    (hf : f m = .ok (Eff.read m r)) : Returns i s (some (.word r)) :=
  Answers.returns (muxRow_answers hexec hf) (muxAt_coreAt h)

end

/-! ## Inputs -/

theorem muxInput_inRange_iff {q : MuxParams} {n : Int} :
    inputInRange 0 q.muxSources n = true ↔ 0 ≤ n ∧ n < q.muxSources := decide_eq_true_iff

section
variable {s : State} {c : Nat} {m : Mux} (h : MuxAt s c m)
include h

/-- An input that exists is stored, and every channel re-evaluated (44_intmux.md R291). -/
theorem muxOnGpio_runs {n : Nat} (v : Bool) (hn : n < m.params.muxSources) :
    ∃ t, Runs (.muxOnGpio c n v) s t c (.intmux { m with inputs := putBit m.inputs n v }) [] none ∧
      MuxOuts t c { m with inputs := putBit m.inputs n v } := by
  have hrange : inputInRange 0 m.params.muxSources n = true := muxInput_inRange_iff.2 (by omega)
  refine muxRow_reEvaluates h (fun _ => rfl) ?_ rfl
  rw [if_pos hrange, Mux.onGpio, if_pos hrange, Int.toNat_natCast]

/-- A number that is no input is only reported (44_intmux.md R292). -/
theorem muxOnGpioOutOfRange_onlyDiag {n : Int} (v : Bool) (hn : n < 0 ∨ (m.params.muxSources : Int) ≤ n) :
    OnlyDiag (.muxOnGpioOutOfRange c n v) s c .error .gpioOutOfRange (.num n) none := by
  have hrange : ¬ inputInRange 0 m.params.muxSources n = true := by
    rw [muxInput_inRange_iff]
    omega
  have hanswer : Answers (.muxOnGpioOutOfRange c n v) c (.intmux m)
      (.ok ((Eff.raise m .gpioOutOfRange (.num n)).lift .intmux)) := by
    refine muxRow_answers (fun _ => rfl) ?_
    rw [if_neg hrange, Mux.onGpio, if_neg hrange]
  exact Answers.onlyDiag hanswer (muxAt_coreAt h)

end

end Sys2Proof.Machine
end

section
/-! The statements about the INTMUX, settled. -/

namespace Sys2Proof.Proofs

open Sys2Proof.Machine Sys2Proof.Claims

/-- Settles O54: the output in each mode is a fact about bits, and `VEC` is the lowest bit set in `IPR`. -/
theorem muxDerivedValues : Obligations.MuxDerivedValues := by
  intro m ch x hx
  refine ⟨fun i _ => Mux.ipr_bit hx i, Mux.eval_or_iff hx, Mux.eval_and_iff hx, Mux.vec_of_none_pending, fun hpending => ?_⟩
  obtain ⟨-, hset, hbelow⟩ := lowestSetBit_spec hpending
  rw [Mux.vec_toNat hpending]
  exact ⟨hset, hbelow⟩

/-- Settles O55: in range the input's bit is stored, out of range the operation only reports. -/
theorem muxInput : Obligations.MuxInput := by
  intro s c m v h
  refine ⟨fun n hn => ?inRange, fun n hn => muxOnGpioOutOfRange_onlyDiag h v hn⟩
  case inRange =>
    have hle := muxAt_sources_le h
    obtain ⟨t, hruns, houts⟩ := muxOnGpio_runs h v hn
    exact ⟨t, _, hruns, rfl, fun j _ => putBit_bit (by omega), houts⟩

/-- Settles O56: each write replaces one channel and re-evaluates them all. -/
theorem muxChannelWrites : Obligations.MuxChannelWrites := by
  intro s c m ch x w h hx
  have hch := decide_eq_true (muxAt_channel_lt h hx)
  refine ⟨?ier, fun hclear => ?mode, fun hset => ?reset⟩
  case ier =>
    obtain ⟨t, hruns, houts⟩ := muxRow_setsChannel (i := .muxIerWrite c ch w) h hx
      (fun y => { y with ier := w &&& m.sourceMask }) (fun _ => rfl) (if_pos hch)
    refine ⟨t, _, _, hruns, rfl, rfl, fun i _ => ?_, houts⟩
    rw [BitVec.getLsbD_and, Mux.sourceMask_bit (muxAt_sources_le h)]
  case mode =>
    obtain ⟨t, hruns, houts⟩ := muxRow_setsChannel (i := .muxCsrModeWrite c ch w) h hx
      (fun y => { y with andMode := w.getLsbD 1 }) (fun _ => rfl) (if_pos (by rw [hch, hclear]; rfl))
    exact ⟨t, _, hruns, rfl, houts⟩
  case reset =>
    obtain ⟨t, hruns, houts⟩ := muxRow_setsChannel (i := .muxCsrResetWrite c ch w) h hx
      (fun _ => { andMode := false, ier := 0 }) (fun _ => rfl) (if_pos (by rw [hch, hset]; rfl))
    exact ⟨t, _, hruns, rfl, houts⟩

/-- Settles O57: every row only reads, and the word of `CSR` is made bit by bit. -/
theorem muxReads : Obligations.MuxReads := by
  intro s c m ch x h hx
  have hch := decide_eq_true (muxAt_channel_lt h hx)
  have hier : Returns (.muxIerRead c ch) s (some (.word (m.chan ch).ier)) :=
    muxRow_returns h (fun _ => rfl) (if_pos hch)
  have hipr : Returns (.muxIprRead c ch) s (some (.word (m.ipr ch))) := muxRow_returns h (fun _ => rfl) (if_pos hch)
  rw [Mux.chan_eq hx] at hier
  rw [Mux.ipr_eq hx] at hipr
  exact ⟨hier, hipr, muxRow_returns h (fun _ => rfl) (if_pos hch), m.csrWord ch,
    muxRow_returns h (fun _ => rfl) (if_pos hch), fun i _ => Mux.csrWord_bit hx i⟩

end Sys2Proof.Proofs
end

section
/-! Operations that report an error and still answer the bus master, and the PLIC operations called with a target that does not
exist (60_exceptions.md R363, R367). -/

namespace Sys2Proof.Machine

open Sys2Proof.Claims

/-! ## Reports with a returned value -/

/-- An operation that only reports, and returns a value to the bus master (60_exceptions.md R367). -/
theorem Answers.onlyDiag_returning {i : Instr} {s : State} {c : Nat} {k : Core} {cause : Cause} {info : DiagInfo} {r : Word}
    (hi : Answers i c k (.ok ((Eff.raise k cause info).returning r))) (h : CoreAt s c k) :
    OnlyDiag i s c cause.severity cause info (some (.word r)) := by
  obtain ⟨f, hexec, hf⟩ := hi
  obtain ⟨hs, x, hx, rfl⟩ := coreAt_iff.1 h
  obtain ⟨t, ht, honly⟩ := event_onlyTrace (s.sound_acyclic hs) hx hf rfl rfl
  exact ⟨t, (hexec s).trans ht, honly⟩

/-- What a PLIC's operation answers, as the answer of a controller of any kind. -/
theorem PlicAnswers.answers {i : Instr} {c : Nat} {p : Plic} {e : Eff Plic} (hi : PlicAnswers i c p (.ok e)) :
    Answers i c (.plic p) (.ok (e.lift .plic)) := by
  obtain ⟨f, hexec, hf⟩ := hi
  exact ⟨onPlic f, hexec, by rw [onPlic, hf]; rfl⟩

theorem plicAt_coreAt {s : State} {c : Nat} {p : Plic} (h : PlicAt s c p) : CoreAt s c (.plic p) := by
  obtain ⟨hs, x, hx, hcore, -⟩ := h
  exact coreAt_iff.2 ⟨hs, x, hx, hcore⟩

/-! ## A target that does not exist -/

section
variable {p : Plic} {t : Nat} (ht : p.params.numTargets ≤ t)
include ht

theorem Plic.claim_absentTarget : p.claim t = (Eff.raise p .targetOutOfRange (.num t)).returning 0 := by
  rw [Plic.claim, if_pos ht]

theorem Plic.complete_absentTarget (v : Word) : p.complete t v = Eff.raise p .targetOutOfRange (.num t) := by
  rw [Plic.complete, if_pos ht]

theorem Plic.writeEnable_absentTarget (w : Nat) (v : Word) :
    p.writeEnable t w v = Eff.raise p .targetOutOfRange (.num t) := by
  rw [Plic.writeEnable, if_pos ht]

end

end Sys2Proof.Machine
end

section
/-! The statement about the PLIC operations called by name, settled. -/

namespace Sys2Proof.Proofs

open Sys2Proof.Machine Sys2Proof.Claims

/-- Settles O33: the target is checked first by each of the operations, and where it is absent they only report. -/
theorem namedCallsOnAbsentTargetOnlyReport : Obligations.NamedCallsOnAbsentTargetOnlyReport := by
  intro s c p t w v h ht hw
  refine ⟨?claim, ?complete, ?enable⟩
  case claim =>
    have hanswer := plicClaimRead_answers (p := p) c t
    rw [Plic.claim_absentTarget ht] at hanswer
    exact hanswer.answers.onlyDiag_returning (plicAt_coreAt h)
  case complete =>
    have hanswer := plicCompleteWrite_answers (p := p) c t v
    rw [Plic.complete_absentTarget ht] at hanswer
    exact hanswer.onlyDiag h
  case enable =>
    have hanswer := plicEnableWrite_answers (p := p) c t v hw
    rw [Plic.writeEnable_absentTarget ht] at hanswer
    exact hanswer.onlyDiag h

end Sys2Proof.Proofs
end

section
/-! A controller in its reset state with every output low, and how one `Reset()` leaves it so (70_reset_and_hazards.md R401, R402). -/

namespace Sys2Proof.Machine

open Sys2Proof.Claims

/-! ## The reset state with its outputs -/

/-- The controller is in the reset state of its parameters, and every output it has by them is low. -/
structure Ctrl.AtReset (x : Ctrl) : Prop where
  core : x.core = Core.reset x.core.params
  low : ∀ j < x.core.params.numOutputs, ∀ l, x.outs[j]? = some l → l.level = false

/-- Controller `c` of the platform is there and at reset. -/
def State.AtResetAt (s : State) (c : Nat) : Prop := ∃ x, s.ctrls[c]? = some x ∧ x.AtReset

@[simp] theorem Core.resetEff_reply (k : Core) : k.resetEff.reply = none := by cases k <;> rfl

@[simp] theorem Ctrl.after_resetEff_core (x : Ctrl) : (x.after x.core.resetEff).core = Core.reset x.core.params := by
  rw [Ctrl.after, Ctrl.driven_core, Core.resetEff_core]

/-- Whatever a controller was before, its `Reset()` leaves it at reset (70_reset_and_hazards.md R401). -/
theorem Ctrl.after_resetEff_atReset (x : Ctrl) : (x.after x.core.resetEff).AtReset where
  core := by simp
  low j hj l hl := by
    rw [Ctrl.after_resetEff_core, Core.reset_params] at hj
    rw [Ctrl.after, Ctrl.driven_outs, Option.map_eq_some_iff] at hl
    obtain ⟨l₀, -, rfl⟩ := hl
    simp [hj]

theorem State.AtResetAt.of_kept {s t : State} {c : Nat} (h : s.AtResetAt c) (hk : Kept c s t) : t.AtResetAt c := by
  obtain ⟨x, hx, hreset⟩ := h
  rw [Kept, hx, Option.map_some, Option.map_eq_some_iff] at hk
  obtain ⟨y, hy, hsame⟩ := hk
  obtain ⟨hcore, houts⟩ := Prod.mk.inj hsame
  exact ⟨y, hy, by rw [hcore]; exact hreset.core, by rw [hcore, houts]; exact hreset.low⟩

theorem Ctrl.shapeOk_outs {x : Ctrl} (h : x.shapeOk = true) : x.outs.length = x.core.params.numOutputs := by
  simp only [Ctrl.shapeOk, Bool.and_eq_true, decide_eq_true_eq] at h
  exact h.2

/-- On an unchanged platform whose controllers had as many outputs as their parameters say, controllers at reset have no other
outputs than the low ones. -/
theorem State.all_reset {s t : State} (hshape : ∀ x ∈ s.ctrls, x.shapeOk = true) (hw : t.wiring = s.wiring)
    (hp : t.platform = s.platform) (hreset : ∀ c < s.ctrls.length, t.AtResetAt c) :
    ∀ x ∈ t.ctrls, x.core = Core.reset x.core.params ∧ ∀ l ∈ x.outs, l.level = false := by
  intro x hx
  obtain ⟨c, hc⟩ := List.getElem?_of_mem hx
  have hlen : t.ctrls.length = s.ctrls.length := by rw [← t.wiring_length, hw, s.wiring_length]
  have hlt : c < s.ctrls.length := hlen ▸ (List.getElem?_eq_some_iff.1 hc).1
  obtain ⟨x', hx', hat⟩ := hreset c hlt
  obtain rfl : x = x' := Option.some.inj (hc.symm.trans hx')
  have hparams : x.core.params = (s.ctrls[c]).core.params := by
    have h := congrArg (fun p : Platform => p.ctrls[c]?) hp
    simpa only [State.platform_ctrls, hc, List.getElem?_eq_getElem hlt, Option.map_some, Option.some.injEq] using h
  have houts : x.outs.length = (s.ctrls[c]).outs.length := by
    have h := congrArg (fun w : List (List (List Endpoint)) => (w[c]?).map List.length) hw
    simpa [State.wiring, hc, hlt] using h
  refine ⟨hat.core, fun l hl => ?_⟩
  obtain ⟨j, hj⟩ := List.getElem?_of_mem hl
  refine hat.low j ?_ l hj
  rw [hparams, ← Ctrl.shapeOk_outs (hshape _ (List.getElem_mem hlt)), ← houts]
  exact (List.getElem?_eq_some_iff.1 hj).1

/-! ## One `Reset()` event -/

/-- The row of `Reset()` that a controller's event decodes to runs `Core.resetEff`. -/
theorem decodeReset_answers (c : Nat) (k : Core) : Answers (decodeReset k.params c) c k (.ok k.resetEff) := by
  cases k with
  | plic p => exact ⟨onPlic (fun p => .ok p.resetEff), fun _ => rfl, rfl⟩
  | vic v => exact ⟨onVic (fun v => .ok v.resetEff), fun _ => rfl, rfl⟩
  | exti e => exact ⟨onExti (fun e => .ok e.resetEff), fun _ => rfl, rfl⟩
  | intmux m => exact ⟨onMux (fun m => .ok m.resetEff), fun _ => rfl, rfl⟩

/-- One of the four rows of `Reset()` of controller `c`. -/
def IsResetRow (i : Instr) (c : Nat) : Prop :=
  i = .plicReset c ∨ i = .vicReset c ∨ i = .extiReset c ∨ i = .muxReset c

section
variable {s t : State} {c : Nat} {x : Ctrl} {i : Instr}

/-- An event on controller `c` that completes finds it in a state its operation accepts; if that settles the kind, it settles the
row. -/
theorem ctrlEvent_eq_decodeReset {f : Core → Except Refusal (Eff Core)}
    (hf : ∀ k e, f k = .ok e → i = decodeReset k.params c) (h : ctrlEvent s c f = .next t) :
    ∃ x, s.ctrls[c]? = some x ∧ i = decodeReset x.core.params c := by
  obtain ⟨x, e, -, hx, he, -⟩ := ctrlEvent_next h
  exact ⟨x, hx, hf x.core e he⟩

/-- A `Reset()` row that completes is the row of its controller's kind; those of the other kinds are refused. -/
theorem reset_eq_decodeReset (hi : IsResetRow i c) (h : exec i s = .next t) :
    ∃ x, s.ctrls[c]? = some x ∧ i = decodeReset x.core.params c := by
  obtain rfl | rfl | rfl | rfl := hi
  · exact ctrlEvent_eq_decodeReset (f := onPlic _) (fun k e he => by cases k with | plic p => rfl | _ => cases he) h
  · exact ctrlEvent_eq_decodeReset (f := onVic _) (fun k e he => by cases k with | vic v => rfl | _ => cases he) h
  · exact ctrlEvent_eq_decodeReset (f := onExti _) (fun k e he => by cases k with | exti e => rfl | _ => cases he) h
  · exact ctrlEvent_eq_decodeReset (f := onMux _) (fun k e he => by cases k with | intmux m => rfl | _ => cases he) h

/-- A well-formed `Reset()` row completes on sound wiring (20_memory.md R80). -/
theorem reset_completes (hi : IsResetRow i c) (hs : s.sound = true) (hwf : i.wellFormed s.platform = true) :
    ∃ t, exec i s = .next t := by
  have hctrl : (encode i).ctrl? = some c := by obtain rfl | rfl | rfl | rfl := hi <;> rfl
  have hallow : s.allows i = true := by obtain rfl | rfl | rfl | rfl := hi <;> rfl
  obtain ⟨f, hop⟩ := exec_isOp s.platform hctrl
  exact hop.exec_completes rfl hs hwf hallow

/-- A `Reset()` event on sound wiring: it completes, and what it leaves behind. -/
theorem decodeReset_spec (hs : s.sound = true) (hx : s.ctrls[c]? = some x) :
    ∃ t, exec (decodeReset x.core.params c) s = .next t ∧ s.Frame t c ∧ t.reply = none ∧
      t.ctrls[c]? = some (x.after x.core.resetEff) := by
  obtain ⟨f, hexec, hf⟩ := decodeReset_answers c x.core
  obtain ⟨t, ht, hframe, hreply, hafter⟩ := ctrlEvent_spec hs hx hf (by simp)
  exact ⟨t, (hexec s).trans ht, hframe, hreply.trans (by simp), hafter⟩

/-- Setting outputs to the levels they have notifies nobody (40_signal_line.md R141). -/
theorem driveAll_same {dl : Delivery} : ∀ ds : List (Nat × Bool),
    (∀ d ∈ ds, ∀ l, s.line? (.out c d.1) = some l → l.level = d.2) → driveAll dl c ds s = .ok s := by
  intro ds
  induction ds with
  | nil => exact fun _ => rfl
  | cons d ds ih =>
    intro h
    obtain ⟨hd, hds⟩ := List.forall_mem_cons.1 h
    have hset : setLine dl (.out c d.1) d.2 s = .ok s := by
      unfold setLine
      cases hl : s.line? (.out c d.1) with
      | none => rfl
      | some l => simp [hd l hl]
    rw [driveAll, hset]
    exact ih hds

/-- `Reset()` of a controller at reset stores what is there and drives its outputs to the level they have. -/
theorem Ctrl.AtReset.runEff_same (hx : s.ctrls[c]? = some x) (h : x.AtReset) (hreply : s.reply = none) :
    runEff s c x.core.resetEff = .ok s := by
  have hbegin : s.begin c x.core.resetEff = s := by
    have hctrls : (s.putEff c x.core.resetEff).ctrls = s.ctrls := modify_self fun a ha => by
      obtain rfl : x = a := Option.some.inj (hx.symm.trans ha)
      simp [← h.core]
    rw [State.putEff_ctrls] at hctrls
    rw [State.begin, State.putEff, hctrls, Core.resetEff_reply, ← hreply]
  rw [runEff, hbegin, Core.resetEff_drives]
  refine driveAll_same _ fun d hd l hl => ?_
  obtain ⟨j, hj, rfl⟩ := List.mem_map.1 hd
  rw [State.line?, hx, Option.bind_some] at hl
  exact h.low j (List.mem_range.1 hj) l hl

/-- So a second `Reset()` changes nothing (70_reset_and_hazards.md R402). -/
theorem Ctrl.AtReset.exec_same (hs : s.sound = true) (hx : s.ctrls[c]? = some x) (h : x.AtReset) (hreply : s.reply = none) :
    exec (decodeReset x.core.params c) s = .next s := by
  obtain ⟨f, hexec, hf⟩ := decodeReset_answers c x.core
  rw [hexec, ctrlEvent, if_pos (s.sound_acyclic hs), hx]
  simp only [hf, h.runEff_same hx hreply, toOutcome]

end

end Sys2Proof.Machine
end

section
/-! Every controller reset by an event of its own, drivers before what they drive (70_reset_and_hazards.md R400, R405): a controller
once reset is not downstream of any that is reset later, so it stays as it is. -/

namespace Sys2Proof.Machine

open Sys2Proof.Claims

theorem State.Frame.length {s t : State} {c : Nat} (h : s.Frame t c) : t.ctrls.length = s.ctrls.length := by
  obtain ⟨-, -, hwiring, -⟩ := h
  rw [← t.wiring_length, hwiring, s.wiring_length]

theorem State.Frame.downstream {s t : State} {c : Nat} (h : s.Frame t c) : t.downstream = s.downstream := by
  have hlen := h.length
  obtain ⟨-, -, hwiring, -⟩ := h
  funext a b
  rw [State.downstream, State.downstream, State.depthBound, State.depthBound, hwiring, hlen]

theorem run_succ {M : Host.Core} {k : Nat} {s u : M.State} {o : Host.Outcome M.State M.Fault M.Refusal} (hstep : M.step s = .next u)
    (hrun : M.run k u = o) : M.run (k + 1) s = o := by
  rw [Host.Core.run, hstep]
  exact hrun

/-- The step that takes a `Reset()` event out of `inbox`. -/
theorem step_evReset {s : State} {c : Nat} {rest : List Event} (hs : s.sound = true) (hc : c < s.ctrls.length)
    (hin : s.inbox = .evReset c :: rest) :
    ∃ t, step s = .next t ∧ State.Frame { s with inbox := rest } t c ∧ t.AtResetAt c := by
  have hx := List.getElem?_eq_getElem hc
  obtain ⟨t, ht, hframe, -, hafter⟩ := decodeReset_spec (s := { s with inbox := rest }) hs hx
  have hdecode : decode s.platform (.evReset c) = .ok (decodeReset (s.ctrls[c]).core.params c) :=
    decode_evReset (by rw [State.platform_ctrls, hx, Option.map_some])
  exact ⟨t, (step_decoded hin hdecode).trans ht, hframe, _, hafter, Ctrl.after_resetEff_atReset _⟩

/-- Resets in upstream-first order complete: the controllers named end at reset, and one downstream of none of them is left alone. -/
theorem run_evReset_upstreamFirst : ∀ (order : List Nat) (s : State), s.sound = true → (∀ c ∈ order, c < s.ctrls.length) →
    order.Pairwise (fun a b => s.downstream b a = false) → s.inbox = order.map Event.evReset →
    ∃ t, Host.Core.run Sys2Proof.core order.length s = .next t ∧ t.wiring = s.wiring ∧ t.platform = s.platform ∧
      (∀ d, (∀ c ∈ order, s.downstream c d = false) → t.ctrls[d]? = s.ctrls[d]?) ∧ ∀ d ∈ order, t.AtResetAt d := by
  intro order
  induction order with
  | nil => exact fun s _ _ _ _ => ⟨s, rfl, rfl, rfl, fun _ _ => rfl, fun _ h => absurd h List.not_mem_nil⟩
  | cons c cs ih =>
    intro s hs hlt horder hin
    obtain ⟨hc, hcs⟩ := List.forall_mem_cons.1 hlt
    obtain ⟨hfirst, hrest⟩ := List.pairwise_cons.1 horder
    obtain ⟨u, hu, hframe, hreset⟩ := step_evReset hs hc hin
    have hdown : u.downstream = s.downstream := hframe.downstream
    obtain ⟨hinbox, -, hwiring, hplatform, -, hlocal, -⟩ := id hframe
    obtain ⟨t, ht, htw, htp, hkept, hall⟩ := ih u (hframe.sound.trans hs) (fun d hd => hframe.length ▸ hcs d hd)
      (hdown ▸ hrest) hinbox
    refine ⟨t, ?run, htw.trans hwiring, htp.trans hplatform, fun d hd => ?kept, List.forall_mem_cons.2 ⟨?first, hall⟩⟩
    case run =>
      exact run_succ (M := Sys2Proof.core) hu ht
    case kept =>
      obtain ⟨hd, hds⟩ := List.forall_mem_cons.1 hd
      exact (hkept d (hdown ▸ hds)).trans (hlocal d hd)
    case first =>
      obtain ⟨x, hx, hat⟩ := hreset
      exact ⟨x, (hkept c (hdown ▸ hfirst)).trans hx, hat⟩

end Sys2Proof.Machine
end

section
/-! Separate resets in an order that is not upstream-first: a late one can make a controller in between raise a line into a PLIC that
has been reset (log entry 23). -/

namespace Sys2Proof.Machine

open Sys2Proof.Claims

/-- A PLIC whose source 1 is driven by an EXTI that triggers on falling edges, whose line 0 is held up by an INTMUX. -/
def fallingEdge : State where
  ctrls :=
    [ Ctrl.fresh 0 (.plic { numSources := 2, numTargets := 1, prioritiesEnabled := true }) [[]],
      { Ctrl.fresh 0x4000000
          (.exti { numLines := 1, configurableMask := 1, treatNonconfigAsDirect := true, directIgnoresMask := false })
          [[{ receiver := .ctrl 0, number := 1 }]] with
        core := .exti {
          params := { numLines := 1, configurableMask := 1, treatNonconfigAsDirect := true, directIgnoresMask := false }
          imr := 1
          rtsr := 0
          ftsr := 1
          pr := 0 } },
      { Ctrl.fresh 0x4000400 (.intmux { numChannels := 1, muxSources := 1 }) [[]] with
        core := .intmux {
          params := { numChannels := 1, muxSources := 1 }
          inputs := 1
          chans := [{ andMode := false, ier := 1 }] }
        outs := [{ level := true, receivers := [{ receiver := .ctrl 1, number := 0 }] }] } ]
  lines := []
  inbox := []
  reply := none
  callbacks := []

/-- Reset in the order PLIC, INTMUX, EXTI: the INTMUX's output falls, the EXTI triggers, and the PLIC latches the source. -/
theorem fallingEdge_latches :
    ∃ t, deliverAll ([0, 2, 1].map Event.evReset) fallingEdge = .next t ∧
      (t.ctrls[0]?).map Ctrl.core = some (.plic { Plic.reset { numSources := 2, numTargets := 1, prioritiesEnabled := true } with
        srcs := [{ priority := 1, state := false, isPending := true }] }) :=
  ⟨_, rfl, by decide⟩

end Sys2Proof.Machine
end

section
/-! A system reset (70_reset_and_hazards.md R405): in any order every controller ends at reset, for one that has been reset is changed
by no later turn. -/

namespace Sys2Proof.Machine

/-- The controllers reset so far stay at reset, and each turn adds its own. -/
theorem resetInTurn_atReset : ∀ order done s t, s.sound = true → (∀ c ∈ order, c < s.ctrls.length ∧ c ∉ done) →
    order.Nodup → (∀ d ∈ done, s.AtResetAt d) → resetInTurn done order s = .ok t →
    ∀ d, d ∈ done ∨ d ∈ order → t.AtResetAt d := by
  intro order
  induction order with
  | nil =>
    rintro done s t - - - hdone ⟨⟩ d hd
    exact hdone d (hd.resolve_right List.not_mem_nil)
  | cons c cs ih =>
    intro done s t hs horder hnodup hdone h d hd
    obtain ⟨⟨hlt, hnew⟩, hcs⟩ := List.forall_mem_cons.1 horder
    obtain ⟨hnotin, hnodup⟩ := List.nodup_cons.1 hnodup
    obtain ⟨u, hu, hst, hkept, hafter⟩ := resetOne_spec hs (List.getElem?_eq_getElem hlt) hnew
    rw [resetInTurn, List.getElem?_eq_getElem hlt] at h
    simp only [hu] at h
    refine ih (c :: done) u t (hst.sound.trans hs) (fun a ha => ?turns) hnodup
      (List.forall_mem_cons.2 ⟨?own, ?before⟩) h d ?named
    case turns =>
      obtain ⟨ha', hnot⟩ := hcs a ha
      exact ⟨hst.length ▸ ha', List.not_mem_cons_of_ne_of_not_mem (fun hac => hnotin (hac ▸ ha)) hnot⟩
    case own => exact ⟨_, hafter, Ctrl.after_resetEff_atReset _⟩
    case before => exact fun a ha => (hdone a ha).of_kept (hkept a ha)
    case named =>
      rw [List.mem_cons] at hd ⊢
      tauto

/-- A system reset on sound wiring completes in every order and keeps the platform; all lines are low and every controller is at
reset. -/
theorem systemReset_spec {s : State} {order : List Nat} (hs : s.sound = true) (hperm : order.Perm (List.range s.ctrls.length)) :
    ∃ t, s.systemReset order = .next t ∧ SamePlatform { s with reply := none } t ∧ (∀ l ∈ t.lines, l.level = false) ∧
      ∀ c < s.ctrls.length, t.AtResetAt c := by
  obtain ⟨u, hu, hsame, hlow⟩ := lowerLines_spec (List.range s.lines.length) { s with reply := none } hs
  have hsu : u.sound = true := hsame.sound.trans hs
  obtain ⟨-, -, hwiring, -, -, hreceivers, -⟩ := id hsame
  have hctrls : u.ctrls.length = s.ctrls.length := by rw [← u.wiring_length, hwiring]; exact s.wiring_length
  have hlines : u.lines.length = s.lines.length := by simpa using congrArg List.length hreceivers
  have hturns : ∀ c ∈ order, c < u.ctrls.length ∧ c ∉ ([] : List Nat) := fun c hc =>
    ⟨hctrls ▸ List.mem_range.1 (hperm.mem_iff.1 hc), List.not_mem_nil⟩
  have hnodup : order.Nodup := hperm.nodup_iff.2 List.nodup_range
  obtain ⟨t, ht, hst, -⟩ := resetInTurn_spec order [] u hsu hturns hnodup
  refine ⟨t, ?run, hsame.trans (SamePlatform.of_steady hst), fun l hl => ?lines, fun c hc => ?ctrls⟩
  case run =>
    have hlower : lowerLines s.delivery (List.range s.lines.length) { s with reply := none } = .ok u := hu
    rw [State.systemReset, if_pos (s.sound_acyclic hs), if_pos (List.isPerm_iff.2 hperm), hlower]
    exact toOutcome_next.2 ht
  case lines =>
    obtain ⟨k, hk⟩ := List.getElem?_of_mem (hst.2.1 ▸ hl)
    exact hlow k l hk (.inl (List.mem_range.2 (hlines ▸ (List.getElem?_eq_some_iff.1 hk).1)))
  case ctrls =>
    exact resetInTurn_atReset order [] u t hsu hturns hnodup (fun d hd => absurd hd List.not_mem_nil) ht c
      (.inr (hperm.mem_iff.2 (List.mem_range.2 hc)))

end Sys2Proof.Machine
end

section
/-! The statements about the resets of controllers and of the whole platform, settled. -/

namespace Sys2Proof.Proofs

open Sys2Proof.Machine Sys2Proof.Claims

/-- Settles O3: the row completes, so it is the one of its controller's kind, whose effect drives every output low last. -/
theorem resetPutsControllerInResetState : Obligations.ResetPutsControllerInResetState := by
  intro s c x i hs hx hshape hi hwf
  obtain ⟨_, hnext⟩ := reset_completes hi hs hwf
  obtain ⟨y, hy, rfl⟩ := reset_eq_decodeReset hi hnext
  obtain rfl : x = y := Option.some.inj (hx.symm.trans hy)
  obtain ⟨t, hruns, houts⟩ := (decodeReset_answers c x.core).runs (coreAt_iff.2 ⟨hs, x, hx, rfl⟩) (by simp)
  simp only [Core.resetEff_core, Core.resetEff_diags, Core.resetEff_reply] at hruns
  refine ⟨t, hruns, fun j hj => ?_⟩
  have hlen : j < x.outs.length := Ctrl.shapeOk_outs hshape ▸ hj
  exact houts j x.outs[j] false (by rw [State.line?, hx, Option.bind_some, List.getElem?_eq_getElem hlen]) (by simp [hj])

/-- Settles O4: the first reset leaves the controller at reset, and there the second one has nothing to change. -/
theorem secondResetChangesNothing : Obligations.SecondResetChangesNothing := by
  intro s t c i hi hs h
  obtain ⟨x, hx, rfl⟩ := reset_eq_decodeReset hi h
  obtain ⟨t', ht', hframe, hreply, hafter⟩ := decodeReset_spec hs hx
  obtain rfl : t' = t := Host.Outcome.next.inj (ht'.symm.trans h)
  have hat := Ctrl.after_resetEff_atReset x
  have hsame := hat.exec_same (hframe.sound.trans hs) hafter hreply
  have hlow := hat.low
  rw [Ctrl.after_resetEff_core, Core.reset_params] at hsame hlow
  exact ⟨hsame, x, _, hx, hafter, Ctrl.after_resetEff_core x, hlow⟩

/-- Settles O5: by induction on the order; the outputs of a controller are the ones its parameters give. -/
theorem upstreamFirstResetLeavesAllReset : Obligations.UpstreamFirstResetLeavesAllReset := by
  intro s order hs hshape horder hupstream
  obtain ⟨t, ht, hwiring, hplatform, -, hreset⟩ := run_evReset_upstreamFirst order
    { s with inbox := order.map Event.evReset } hs (fun c => (horder c).1) hupstream rfl
  refine ⟨t, ?_, State.all_reset hshape hwiring hplatform fun c hc => hreset c ((horder c).2 hc)⟩
  rw [deliverAll, List.length_map]
  exact ht

/-- Refutes O6: `fallingEdge`, reset in the order PLIC, INTMUX, EXTI, ends with a source pending in the PLIC. -/
theorem not_resetsInAnyOrderAgree : ¬ Obligations.ResetsInAnyOrderAgree := by
  intro h
  obtain ⟨t, ht, hreset⟩ := h fallingEdge [0, 2, 1] (by decide)
    (show ∀ x ∈ fallingEdge.ctrls, x.ok = true by decide) (by decide) (fun c => by simp [fallingEdge]; omega)
  obtain ⟨t', ht', hplic⟩ := fallingEdge_latches
  obtain rfl : t' = t := Host.Outcome.next.inj (ht'.symm.trans ht)
  obtain ⟨x, hx, hcore⟩ := Option.map_eq_some_iff.1 hplic
  have hclear := hreset x (List.mem_of_getElem? hx)
  rw [hcore] at hclear
  exact absurd hclear (by decide)

/-- Settles O7: the external lines fall first, then each controller is reset in its turn and stays so. -/
theorem systemResetInAnyOrderLeavesAllReset : Obligations.SystemResetInAnyOrderLeavesAllReset := by
  intro s order rest hs hshape hperm
  obtain ⟨t, ht, hsame, hlines, hreset⟩ := systemReset_spec (s := { s with inbox := rest }) hs hperm
  obtain ⟨hinbox, hreply, hwiring, hplatform, -, -, htraces⟩ := hsame
  exact ⟨t, (step_systemReset rfl).trans ht, State.all_reset hshape hwiring hplatform hreset, hlines, hinbox, hreply, hwiring,
    hplatform, htraces⟩

end Sys2Proof.Proofs
end
